-- ==== Sys2Proof/Word.lean ====
section
/-! DEFINITION. The word types of the I2C transfer engine (R10: a register is 32 bits, a bus data unit is a
byte, a target address is 7 bits) and the split of a word into bytes, fixed once (R102: little-endian). -/

namespace Sys2Proof

/-- A register value or a request word, 32 bits (R10). -/
abbrev Word := BitVec 32

/-- A bus data unit, 8 bits (R10). -/
abbrev Byte := BitVec 8

/-- The index of a controller instance as the INST field carries it, 5 bits (R137). -/
abbrev InstId := BitVec 5

/-- A 32-bit word with its four bytes given, the first at the lowest address (R102). -/
def Word.ofBytes (b0 b1 b2 b3 : Byte) : Word := b3 ++ b2 ++ b1 ++ b0

/-- The four bytes of a word, the least significant first (R102). -/
def Word.toBytes (w : Word) : List Byte :=
  [w.extractLsb' 0 8, w.extractLsb' 8 8, w.extractLsb' 16 8, w.extractLsb' 24 8]

/-- The two's-complement word of an integer (R137: host results). -/
def Word.ofInt (v : Int) : Word := BitVec.ofInt 32 v

end Sys2Proof
end

