-- ==== Sys2Proof/Config.lean ====
section
/-! DEFINITION. What an implementation fixes (R8, R9; the OPEN list of 92_eei_decisions.md) and the free values. The
parameters are plain data: a machine state carries one `Config` that no operation writes, so that a claim over all
states is a claim over all parameters. The free values are opaque constants: nothing can be proved about which value
they have. -/

namespace Sys2Proof

/-- The transfer-mode tag (R151): byte, shared buffer page, decrementing DMA, incrementing DMA. -/
inductive Mode where
  | byte
  | buf
  | dmaDec
  | dmaInc
deriving DecidableEq, Repr

/-- The role on whose behalf a pool loan or a mode selection is made (R66, R277). -/
inductive Side where
  | master
  | slave
deriving DecidableEq, Repr

/-- A codec of a DMA length register given by its tables on the values it is used for (R283): `enc` n to the value
written, `cnt` a programmed value to n, `rb` n and k to the value left, `dec` n and a value to k. A value that is not
listed encodes to 0, counts as the illegal chunk 0, leaves 0, and decodes to BAD. -/
structure CodecTable where
  enc : List (Nat × Word)
  cnt : List (Word × Nat)
  rb  : List ((Nat × Nat) × Word)
  dec : List ((Nat × Word) × Nat)
deriving DecidableEq, Repr

/-- DMA_CODEC of one variant (R283): the remaining length, the remaining length minus one, or a platform's own codec,
"others with the same signature". -/
inductive Codec where
  | remaining
  | remainingLessOne
  | table (t : CodecTable)
deriving DecidableEq, Repr

/-- The names of the result codes (R148). -/
inductive Code where
  | io
  | again
  | busy
  | inval
  | nodata
  | timeout
  | nack
  | recov
  | nothing
  | ok
deriving DecidableEq, Repr

/-- The numbers of the result codes, a parameter (R148). -/
structure Codes where
  io      : Int
  again   : Int
  busy    : Int
  inval   : Int
  nodata  : Int
  timeout : Int
  nack    : Int
  recov   : Int
  nothing : Int
  ok      : Int
deriving DecidableEq, Repr

/-- The number of a code. -/
def Codes.num (c : Codes) : Code → Int
  | .io => c.io
  | .again => c.again
  | .busy => c.busy
  | .inval => c.inval
  | .nodata => c.nodata
  | .timeout => c.timeout
  | .nack => c.nack
  | .recov => c.recov
  | .nothing => c.nothing
  | .ok => c.ok

/-- The errors, which are negative, and the successes, which are not (R137, R148). -/
def Codes.errors (c : Codes) : List Int := [c.io, c.again, c.busy, c.inval, c.nodata, c.timeout, c.nack, c.recov]

/-- Only sign and distinctness of the numbers matter (R148): 32-bit numbers (R137), the errors negative and distinct,
the successes not negative and distinct. -/
def Codes.wf (c : Codes) : Bool :=
  c.errors.all (fun v => decide (-(2 ^ 31) ≤ v ∧ v < 0)) && decide c.errors.Nodup
  && decide (0 ≤ c.nothing ∧ c.nothing < 2 ^ 31 ∧ 0 ≤ c.ok ∧ c.ok < 2 ^ 31 ∧ c.nothing ≠ c.ok)

/-- The table of R148. -/
def Codes.default : Codes :=
  { io := -5, again := -11, busy := -16, inval := -22, nodata := -61, timeout := -110, nack := -121, recov := -131,
    nothing := 1, ok := 0 }

/-- Per-instance board configuration (R9), with the addresses of the instance's register window (R40) and DMA window
(R100, R105). -/
structure InstConfig where
  /-- INST_BASE(i), a multiple of 0x40 (R40, R105) -/
  base       : Word
  /-- target bus clock frequency in Hz (R9) -/
  busFreq    : Word
  /-- input clock rate in Hz (R9) -/
  clkIn      : Word
  /-- hardware variant, a key of the override table only (R9) -/
  variant    : Nat
  /-- chip-select count, read by nothing (R9) -/
  csCount    : Nat
  masterMode : Mode
  slaveMode  : Mode
  /-- DMA_ADDR(i), or none when the instance has no DMA window (R105, R279) -/
  dmaAddr    : Option Nat
  /-- which DMA variant the core decodes DMA_LEN by for a role whose configured mode is no DMA mode (R202 says
  only that it is a property of the hardware variant; log entry 9): DMA_INC if true, DMA_DEC if false, the choice at
  reset (log entry 4) -/
  otherInc   : Bool
deriving DecidableEq, Repr

/-- The parameters of R8. The four durations are carried and, the model being untimed (R470, R510), only
`idleTimeout = 0` is ever read (R305). -/
structure Config where
  nInst          : Nat
  slavePresent   : Bool
  poolPage       : Nat
  dmaWin         : Nat
  ringCap        : Nat
  slotCap        : Nat
  xferTimeout    : Nat
  recovTimeout   : Nat
  idleTimeout    : Nat
  retryDelay     : Nat
  ac1Base        : Word
  ac2Value       : Word
  /-- TIMING_OVERRIDE as a list of (variant, frequency, word), the first match counts (R241) -/
  timingOverride : List (Nat × Nat × Word)
  /-- INTR_MASK_DEFAULT -/
  intrMask       : Word
  /-- the modes in which STOP_DEFERRED holds for a write; for a read it never holds (R270) -/
  stopDeferred   : List Mode
  recoverOnBusy  : Bool
  /-- DMA_CODEC of the two variants (R283) -/
  codecDec       : Codec
  codecInc       : Codec
  /-- the numbers of the result codes (R148) -/
  codes          : Codes
  /-- GROUP_BASE, the address of the shared register, outside every instance window (R40, R105) -/
  groupBase      : Word
  insts          : List InstConfig
deriving DecidableEq, Repr

/-- RECOV_RETRIES, fixed by the source (R8). -/
def Config.recovRetries : Nat := 10

/-- The configuration of an instance outside the list; never reached for an existing instance. -/
def InstConfig.absent : InstConfig :=
  { base := 0, busFreq := 0, clkIn := 0, variant := 0, csCount := 0, masterMode := .byte, slaveMode := .byte,
    dmaAddr := none, otherInc := false }

/-- The configuration of instance `i`. -/
def Config.inst (c : Config) (i : Nat) : InstConfig := c.insts.getD i InstConfig.absent

/-- DMA_CODEC of a variant: DMA_INC's or DMA_DEC's (R8, R283). -/
def Config.codec (c : Config) (inc : Bool) : Codec := if inc then c.codecInc else c.codecDec

/-- The word a result code is returned as, two's complement (R137, R148). -/
def Config.code (c : Config) (r : Code) : Word := Word.ofInt (c.codes.num r)

/-- The windows: one for each of at most 32 instances, INST_BASE injective with multiples of 0x40 as values, GROUP_BASE
aligned and outside every window (R40, R103, R131). -/
def Config.placed (c : Config) : Bool :=
  decide (c.insts.length = c.nInst) && decide (c.nInst ≤ 32)
  && c.insts.all (fun x => x.base &&& 0x3F#32 == 0#32 && x.base != c.groupBase &&& 0xFFFFFFC0#32)
  && decide (c.insts.map (·.base)).Nodup && c.groupBase &&& 0x3#32 == 0#32

/-- The constraints of R8, R40, R103 and R148 on the parameters; R283's law for the codecs is `codecsLaw`. DESIGN CHOICE:
the DMA windows of two instances may overlap and then share their bytes (log entry 38). -/
def Config.wf (c : Config) : Bool :=
  decide (1 ≤ c.nInst) && c.placed && c.codes.wf && decide (1 ≤ c.poolPage ∧ c.poolPage ≤ 1023)
  && decide (1 ≤ c.dmaWin ∧ c.dmaWin ≤ 2 ^ 31 - 1) && decide (1 ≤ c.ringCap)
  && decide (1 ≤ c.slotCap ∧ c.slotCap ≤ 65535)
  && decide (0 < c.xferTimeout) && decide (0 < c.recovTimeout)
  && decide (c.ac1Base &&& 0x000FF00F#32 = 0#32)
  && c.timingOverride.all (fun e => e.2.1 == 100000 || e.2.1 == 400000 || e.2.1 == 1000000)
  && decide (c.intrMask &&& ~~~0x2EFF#32 = 0#32)
  && c.insts.all (fun x => match x.dmaAddr with
      | none => true
      | some a => a % 4 == 0 && decide (a + c.dmaWin ≤ 2 ^ 32))

/-- Default per-instance configuration: the clock pair of the spec's test vectors, byte mode in both roles, a DMA
window of its own for each instance (log entry 4); the register windows in instance order from address 0 (log entry
3). DESIGN CHOICE: `otherInc` is false, so that DMA_LEN of a DMA command is decoded by the DMA_DEC codec for a role
configured BYTE or BUF (log entries 4 and 9). -/
def InstConfig.default (i : Nat) : InstConfig :=
  { base := BitVec.ofNat 32 (0x40 * i), busFreq := 400000#32, clkIn := 48000000#32, variant := 0, csCount := 0,
    masterMode := .byte, slaveMode := .byte, dmaAddr := some (0x100000 + 0x1000 * i), otherInc := false }

/-- The defaults of R8, R148 and R283; the open durations are log entry 4's, GROUP_BASE, just above 32 instance windows,
is log entry 3's. -/
def Config.default : Config :=
  { nInst := 14, slavePresent := true, poolPage := 256, dmaWin := 4096, ringCap := 4, slotCap := 256,
    xferTimeout := 1, recovTimeout := 1, idleTimeout := 1, retryDelay := 1,
    ac1Base := 0#32, ac2Value := 0#32, timingOverride := [], intrMask := 0x2EFF#32, stopDeferred := [],
    recoverOnBusy := true, codecDec := .remaining, codecInc := .remainingLessOne, codes := Codes.default,
    groupBase := 0x800#32, insts := (List.range 14).map InstConfig.default }

/-- Free value: a one-bit draw of the environment, one per number (R80, R229, R219). -/
opaque Config.freeBit : Nat → Bool

/-- Free value: the code shown inside the MASTER class of XFER_STATE (R47). -/
opaque Config.freeMasterCode : Nat → Fin 8

/-- Free value: the code shown inside the SLAVE class of XFER_STATE (R47). -/
opaque Config.freeSlaveCode : Nat → Fin 7

/-- Free value: an unbounded number, used under an explicit bound (R182, R216). -/
opaque Config.freeNat : Nat → Nat

/-- Free value: a 32-bit word (R276, R310: a length that does not fit its field; log entry 14). -/
opaque Config.freeWord : Nat → Word

/-- Free value: what the k-th command of an instance that is cut short leaves as its count (R219; log entry 11). -/
opaque Config.cutCount : Nat → Nat → Word

/-- Free value: a data byte, by draw and position (R219: the bytes of a receive that a fault cut short). -/
opaque Config.freeByte : Nat → Nat → Byte

/-- Free value: the timing word of an invalid (clk_in, bus_freq) pair, for which R240 to R243 give none. -/
opaque Config.invalidTiming : Word → Word → Word

end Sys2Proof
end

