-- ==== Sys2Proof/Syntax.lean ====
section
/-! DEFINITION. The operations of the block, one constructor per row of spec/opcode_table.json (R130: register
accesses, command words, status patterns, line patterns, message descriptors, host operations, mode-dispatched
operations; then the internal operations and the environment's steps). -/

namespace Sys2Proof

/-- The twelve legal command words of R133. -/
inductive Cmd where
  | nop
  | sRx
  | startTx
  | startTxStop
  | tx
  | txStop
  | rx
  | rxLast
  | rxLastStop
  | stop
  | sTx
  | recover
deriving DecidableEq, Repr

/-- The eleven registers of an instance, in the index order of R40. -/
inductive Reg where
  | funCtrl
  | acTiming1
  | acTiming2
  | intrCtrl
  | intrSts
  | cmd
  | devAddr
  | bufCtrl
  | byteData
  | dmaBase
  | dmaLen
deriving DecidableEq, Repr

/-- The kind of data completion M_DONE is called for (R316). -/
inductive Kind where
  | tx
  | rx
deriving DecidableEq, Repr

/-- What an arming operation moves: bytes to send, or a receive window of a size in bytes (R264 to R267). -/
inductive ArmData where
  | tx (d : List Byte)
  | rx (n : Word)
deriving DecidableEq, Repr

/-- The bytes of a receive step: those of a master receive or a slave window, or one for no window, RemoteByte's (R217,
R221; log entry 27). -/
inductive RxData where
  | window (bs : List Byte)
  | direct (b : Byte)
deriving DecidableEq, Repr

/-- A fault: the instance it strikes and the bits latched together with its own (R219; log entry 28). -/
structure FaultAt where
  inst : InstId
  also : Word
deriving DecidableEq, Repr

/-- The status bits SmbusEvent may latch (R228): the three SMBus signals and the reserved bits 8, 12 and 14. -/
inductive SmbusBit where
  | alert
  | arp
  | alertResp
  | reserved8
  | reserved12
  | reserved14
deriving DecidableEq, Repr

/-- An operation. Every constructor but CALC_TIMING's, the shared register's, MSG's and the reserved request's has
the instance it acts on as its first operand. A command word carries its enable bits `en` (CMD[9:6]), the alert
level `al` (CMD[10]) and the ignored half `hi` (bits 31:16, R132). -/
inductive Instr where
  -- register accesses, format REG (R131)
  | rdFunCtrl (i : InstId)
  | wrFunCtrl (i : InstId) (v : Word)
  | rdAcTiming1 (i : InstId)
  | wrAcTiming1 (i : InstId) (v : Word)
  | rdAcTiming2 (i : InstId)
  | wrAcTiming2 (i : InstId) (v : Word)
  | rdIntrCtrl (i : InstId)
  | wrIntrCtrl (i : InstId) (v : Word)
  | rdIntrSts (i : InstId)
  | wrIntrSts (i : InstId) (v : Word)
  | rdCmd (i : InstId)
  | wrCmd (i : InstId) (v : Word)
  | rdDevAddr (i : InstId)
  | wrDevAddr (i : InstId) (v : Word)
  | rdBufCtrl (i : InstId)
  | wrBufCtrl (i : InstId) (v : Word)
  | rdByteData (i : InstId)
  | wrByteData (i : InstId) (v : Word)
  | rdDmaBase (i : InstId)
  | wrDmaBase (i : InstId) (v : Word)
  | rdDmaLen (i : InstId)
  | wrDmaLen (i : InstId) (v : Word)
  | rdGroupSts
  | rdReserved (i : InstId) (off : BitVec 6)
  | wrGroupSts (v : Word)
  | wrReserved (i : InstId) (off : BitVec 6) (v : Word)
  -- command words, format CMD (R132, R133)
  | cNop (i : InstId) (en : BitVec 4) (al : Bool) (hi : BitVec 16)
  | cSRx (i : InstId) (en : BitVec 4) (al : Bool) (hi : BitVec 16)
  | cStartTx (i : InstId) (en : BitVec 4) (al : Bool) (hi : BitVec 16)
  | cStartTxStop (i : InstId) (en : BitVec 4) (al : Bool) (hi : BitVec 16)
  | cTx (i : InstId) (en : BitVec 4) (al : Bool) (hi : BitVec 16)
  | cTxStop (i : InstId) (en : BitVec 4) (al : Bool) (hi : BitVec 16)
  | cRx (i : InstId) (en : BitVec 4) (al : Bool) (hi : BitVec 16)
  | cRxLast (i : InstId) (en : BitVec 4) (al : Bool) (hi : BitVec 16)
  | cRxLastStop (i : InstId) (en : BitVec 4) (al : Bool) (hi : BitVec 16)
  | cStop (i : InstId) (en : BitVec 4) (al : Bool) (hi : BitVec 16)
  | cSTx (i : InstId) (en : BitVec 4) (al : Bool) (hi : BitVec 16)
  | cRecover (i : InstId) (en : BitVec 4) (al : Bool) (hi : BitVec 16)
  | reservedCmd (i : InstId) (w : Word)
  -- status patterns, format STS (R134); `sts` is the decoder's residual status word
  | stsSmbusAlert (i : InstId) (sts : Word)
  | stsSmbusArp (i : InstId) (sts : Word)
  | stsSmbusAlertResp (i : InstId) (sts : Word)
  | stsAbnormal (i : InstId) (sts : Word)
  | stsSclTimeout (i : InstId) (sts : Word)
  | stsSlaveStop (i : InstId) (sts : Word)
  | stsTxAck (i : InstId)
  | stsTxAckStop (i : InstId)
  | stsTxNak (i : InstId)
  | stsTxNakStop (i : InstId)
  | stsRxDone (i : InstId)
  | stsRxDoneStop (i : InstId)
  | stsMatch (i : InstId)
  | stsMatchStop (i : InstId)
  | stsStop (i : InstId)
  | stsArbLoss (i : InstId)
  | stsArbLossMatch (i : InstId)
  | stsRecoverDone (i : InstId)
  | stsNotMine (i : InstId)
  | stsEmpty (i : InstId)
  | stsSweep (i : InstId) (sts : Word)
  -- line patterns, format LINE (R135); `c` is the CMD word that was read
  | lIdle (i : InstId) (c : Word)
  | lMasterHold (i : InstId) (c : Word)
  | lSlaveHold (i : InstId) (c : Word)
  | lOther (i : InstId)
  -- host requests, format HOST (R137, R138)
  | devInit (i : InstId)
  | submit (i : InstId) (n : BitVec 16) (desc : Word) (bound : Word)
  | slaveRead (i : InstId) (dst : Word) (cap : Word)
  | slaveWrite (i : InstId) (n : BitVec 16) (src : Word)
  | slaveEnable (i : InstId) (a : BitVec 16)
  | slaveDisable (i : InstId)
  | alertAssert (i : InstId)
  | alertDeassert (i : InstId)
  | recoverReq (i : InstId)
  | readMrstCnt (i : InstId)
  | readSrecCnt (i : InstId)
  | readRecovStatus (i : InstId)
  | busReset (i : InstId)
  | irq (i : InstId)
  | reservedHost (w0 w1 w2 : Word)
  -- the message descriptor, format MSG (R136), laid at `loc`, with the bytes of a write message's buffer
  | msg (loc : Word) (w0 bufRef cap : Word) (data : List Byte)
  -- mode-dispatched operations, format MODE (R151)
  | armByte (i : InstId) (a : Word) (d : Option Byte)
  | extByte (i : InstId)
  | armBuf (i : InstId) (a : Word) (d : ArmData)
  | extBuf (i : InstId)
  | armDmaDec (i : InstId) (a : Word) (d : ArmData)
  | extDmaDec (i : InstId)
  | armDmaInc (i : InstId) (a : Word) (d : ArmData)
  | extDmaInc (i : InstId)
  -- internal operations
  | calcTiming (clkIn busFreq : Word)
  | timingWord (i : InstId)
  | timingInit (i : InstId)
  | regInit (i : InstId)
  | armNext (i : InstId)
  | poolAcq (i : InstId) (side : Side)
  | poolRel (i : InstId) (side : Side)
  | selectMode (i : InstId) (side : Side)
  | sArmRx (i : InstId)
  | sArmTx (i : InstId)
  | doXfer (i : InstId)
  | waitIdle (i : InstId)
  | startMsg (i : InstId) (k : Word)
  | wait (i : InstId)
  | wakeExpired (i : InstId)
  | wakeSignalled (i : InstId)
  | mDone (i : InstId) (kind : Kind) (stop : Bool)
  | mNack (i : InstId) (stop : Bool)
  | mArb (i : InstId)
  | mStopDone (i : InstId)
  | mFault (i : InstId)
  | mPreempt (i : InstId)
  | sMatch (i : InstId)
  | startOfWrite (i : InstId) (a : Byte)
  | startOfRead (i : InstId) (a : Byte)
  | sData (i : InstId) (stop : Bool)
  | sTxAck (i : InstId)
  | sFinal (i : InstId)
  | sStop (i : InstId) (sts : Word)
  | sAbort (i : InstId)
  | recover (i : InstId)
  | ctrlReset (i : InstId)
  -- steps of the environment; `stop` is whether a STOP is latched in the same step, `mis` a miscounted report (R218)
  | kAck (i : InstId) (stop : Bool) (mis : Option Word)
  | kNack (i : InstId) (j : Word) (stop : Bool) (mis : Option Word)
  | kRx (i : InstId) (bs : RxData) (stop : Bool) (mis : Option Word)
  | kStop (i : InstId)
  | kArb (f : FaultAt)
  | kAbn (f : FaultAt)
  | kSclto (f : FaultAt)
  | kMatch (i : InstId) (a : Byte) (arb : Bool)
  | kRecovered (i : InstId) (sda : Bool)
  | kLine (i : InstId) (sda scl busy : Bool)
  | kSmbus (i : InstId) (m : SmbusBit)
  | tExpire (i : InstId)
deriving DecidableEq, Repr

end Sys2Proof
end

