-- ==== Sys2Proof/Decode.lean ====
section
/-! DEFINITION. The decoder, total on any list of bytes and rejecting by name, and after it the encoder, both written
from the tables of 30_encoding.md. One operation travels as one frame: a byte that names the interface the operation
arrives on (R130: a decoder tells the class from the interface, never from the bits), then the operation's words as the
spec lays them out, each little-endian (R102). The interface byte, the place of the instance, and the frames of the
rows to which the spec gives no word (internal operations and environment steps, numbered by their row of
spec/opcode_table.json) are the model's own (log entry 2). -/

namespace Sys2Proof

/-- Why a frame spells no operation. -/
inductive DecodeError where
  /-- the frame is empty -/
  | emptyFrame
  /-- no interface has this number -/
  | noSuchPort
  /-- the frame is too short or too long for its class -/
  | badLength
  /-- an instance byte above 31 -/
  | badInstance
  /-- the register access direction is neither RD nor WR -/
  | badDirection
  /-- a register address that is no multiple of 4: spells no operation (R103, R131) -/
  | misaligned
  /-- a register address in no window: spells no operation (R131) -/
  | noWindow
  /-- a status word with one of bits 31:15, which never read 1 (R45, R142), or a fault latched with a bit that comes
  with no outcome of a command (R219) -/
  | statusBits
  /-- a status word that is no pattern of the stage named (R386) -/
  | noSuchPattern
  /-- an operand byte outside its values -/
  | badOperand
  /-- a row number that names no internal operation or environment step -/
  | noSuchRow
deriving DecidableEq, Repr

/-! ## The encoding tables of the spec -/

/-- The register offsets inside an instance window (R40, R131). -/
def Reg.offset : Reg → BitVec 6
  | .funCtrl => 0x00#6
  | .acTiming1 => 0x04#6
  | .acTiming2 => 0x08#6
  | .intrCtrl => 0x0C#6
  | .intrSts => 0x10#6
  | .cmd => 0x14#6
  | .devAddr => 0x18#6
  | .bufCtrl => 0x1C#6
  | .byteData => 0x20#6
  | .dmaBase => 0x24#6
  | .dmaLen => 0x28#6

/-- The registers in index order (R40). -/
def Reg.all : List Reg :=
  [.funCtrl, .acTiming1, .acTiming2, .intrCtrl, .intrSts, .cmd, .devAddr, .bufCtrl, .byteData, .dmaBase, .dmaLen]

/-- The register at an offset, none for a reserved or misaligned offset (R131). -/
def regAt (off : BitVec 6) : Option Reg := Reg.all.find? (fun r => r.offset == off)

/-- The reserved offsets 0x2C to 0x3C of an instance window (R143). -/
def reservedOffset (off : BitVec 6) : Bool :=
  off == 0x2C#6 || off == 0x30#6 || off == 0x34#6 || off == 0x38#6 || off == 0x3C#6

/-- The action part A of a command word (R133). -/
def Cmd.action : Cmd → Word
  | .nop => 0x0000#32
  | .sRx => 0x0000#32
  | .startTx => 0x0003#32
  | .startTxStop => 0x0023#32
  | .tx => 0x0002#32
  | .txStop => 0x0022#32
  | .rx => 0x0008#32
  | .rxLast => 0x0018#32
  | .rxLastStop => 0x0038#32
  | .stop => 0x0020#32
  | .sTx => 0x0004#32
  | .recover => 0x0800#32

/-- The legal EN column of a command word (R133): 1 TX_BUF_EN, 2 RX_BUF_EN, 4 TX_DMA_EN, 8 RX_DMA_EN. -/
def Cmd.enables : Cmd → List (BitVec 4)
  | .nop => [0#4]
  | .sRx => [2#4, 8#4]
  | .startTx => [0#4, 1#4, 4#4]
  | .startTxStop => [0#4, 1#4, 4#4]
  | .tx => [0#4, 1#4, 4#4]
  | .txStop => [0#4, 1#4, 4#4]
  | .rx => [0#4, 2#4, 8#4]
  | .rxLast => [0#4, 2#4, 8#4]
  | .rxLastStop => [0#4, 2#4, 8#4]
  | .stop => [0#4]
  | .sTx => [0#4, 1#4, 4#4]
  | .recover => [0#4]

/-- The twelve command words in the order of R133. -/
def Cmd.all : List Cmd :=
  [.nop, .sRx, .startTx, .startTxStop, .tx, .txStop, .rx, .rxLast, .rxLastStop, .stop, .sTx, .recover]

/-- The enable part EN of a word written to CMD (R132). -/
def cmdEn (w : Word) : BitVec 4 := w.extractLsb' 6 4

/-- The level bit S_ALERT_EN of a word written to CMD (R132). -/
def cmdAlert (w : Word) : Bool := w.getLsbD 10

/-- The ignored half of a word written to CMD (R132). -/
def cmdHigh (w : Word) : BitVec 16 := w.extractLsb' 16 16

/-- The command selected by a word: by its action part alone, A = 0 being split by EN; none for a reserved word
(R132, R133, R141). -/
def cmdOf (w : Word) : Option Cmd :=
  Cmd.all.find? (fun c => c.action == w &&& 0xF83F#32 && c.enables.contains (cmdEn w))

/-- The word of a command with its enables, alert level and ignored half (R132, R133). -/
def cmdWord (c : Cmd) (en : BitVec 4) (al : Bool) (hi : BitVec 16) : Word :=
  (hi ++ 0#16) ||| c.action ||| (0#22 ++ en ++ 0#6) ||| (0#21 ++ BitVec.ofBool al ++ 0#10)

/-- The operation a legal command word spells. -/
def cmdInstr (i : InstId) (en : BitVec 4) (al : Bool) (hi : BitVec 16) : Cmd → Instr
  | .nop => .cNop i en al hi
  | .sRx => .cSRx i en al hi
  | .startTx => .cStartTx i en al hi
  | .startTxStop => .cStartTxStop i en al hi
  | .tx => .cTx i en al hi
  | .txStop => .cTxStop i en al hi
  | .rx => .cRx i en al hi
  | .rxLast => .cRxLast i en al hi
  | .rxLastStop => .cRxLastStop i en al hi
  | .stop => .cStop i en al hi
  | .sTx => .cSTx i en al hi
  | .recover => .cRecover i en al hi

/-- The register read of an offset's register. -/
def rdInstr (i : InstId) : Reg → Instr
  | .funCtrl => .rdFunCtrl i
  | .acTiming1 => .rdAcTiming1 i
  | .acTiming2 => .rdAcTiming2 i
  | .intrCtrl => .rdIntrCtrl i
  | .intrSts => .rdIntrSts i
  | .cmd => .rdCmd i
  | .devAddr => .rdDevAddr i
  | .bufCtrl => .rdBufCtrl i
  | .byteData => .rdByteData i
  | .dmaBase => .rdDmaBase i
  | .dmaLen => .rdDmaLen i

/-- The register write of an offset's register. -/
def wrInstr (i : InstId) (v : Word) : Reg → Instr
  | .funCtrl => .wrFunCtrl i v
  | .acTiming1 => .wrAcTiming1 i v
  | .acTiming2 => .wrAcTiming2 i v
  | .intrCtrl => .wrIntrCtrl i v
  | .intrSts => .wrIntrSts i v
  | .cmd => .wrCmd i v
  | .devAddr => .wrDevAddr i v
  | .bufCtrl => .wrBufCtrl i v
  | .byteData => .wrByteData i v
  | .dmaBase => .wrDmaBase i v
  | .dmaLen => .wrDmaLen i v

/-- The patterns of the exact-combination table (R386); STS.EMPTY is stage 1's. -/
def stsExact (i : InstId) (w : Word) : Option Instr :=
  match w.toNat with
  | 0x0001 => some (.stsTxAck i)
  | 0x0011 => some (.stsTxAckStop i)
  | 0x0002 => some (.stsTxNak i)
  | 0x0012 => some (.stsTxNakStop i)
  | 0x0004 => some (.stsRxDone i)
  | 0x0014 => some (.stsRxDoneStop i)
  | 0x0084 => some (.stsMatch i)
  | 0x0094 => some (.stsMatchStop i)
  | 0x0010 => some (.stsStop i)
  | 0x0008 => some (.stsArbLoss i)
  | 0x008C => some (.stsArbLossMatch i)
  | 0x2000 => some (.stsRecoverDone i)
  | _ => none

/-- A status word at a stage of the decoder (R380 to R399): the row that takes it there. -/
def stsInstr (i : InstId) (stage : Byte) (w : Word) : Except DecodeError Instr :=
  if w &&& 0xFFFF8000#32 ≠ 0#32 then .error .statusBits
  else match stage.toNat with
    | 0 => if w = 0#32 then .ok (.stsNotMine i) else .error .noSuchPattern
    | 1 => if w = 0#32 then .ok (.stsEmpty i) else .error .noSuchPattern
    | 2 => if w.getLsbD 9 then .ok (.stsSmbusAlert i w)
           else if w.getLsbD 10 then .ok (.stsSmbusArp i w)
           else if w.getLsbD 11 then .ok (.stsSmbusAlertResp i w) else .error .noSuchPattern
    | 3 => if w.getLsbD 5 then .ok (.stsAbnormal i w)
           else if w.getLsbD 6 then .ok (.stsSclTimeout i w) else .error .noSuchPattern
    | 4 => if w.getLsbD 4 then .ok (.stsSlaveStop i w) else .error .noSuchPattern
    | 5 => match stsExact i w with
           | some r => .ok r
           | none => .error .noSuchPattern
    | 6 => .ok (.stsSweep i w)
    | _ => .error .noSuchPattern

/-- The line pattern of a CMD word, tested in the order of R135 and R421; no pair of levels is left for L.OTHER. -/
def lineInstr (i : InstId) (c : Word) : Instr :=
  if c &&& 0x60000#32 = 0x60000#32 then .lIdle i c
  else if c &&& 0x60000#32 = 0x40000#32 then .lMasterHold i c
  else .lSlaveHold i c

/-- OPC of a host request (R137). -/
def hostOpc (w0 : Word) : Byte := w0.extractLsb' 0 8
/-- INST of a host request (R137). -/
def hostInst (w0 : Word) : InstId := w0.extractLsb' 8 5
/-- The reserved bits 15:13 of a host request (R137). -/
def hostRes (w0 : Word) : BitVec 3 := w0.extractLsb' 13 3
/-- Operand A of a host request (R137). -/
def hostA (w0 : Word) : BitVec 16 := w0.extractLsb' 16 16

/-- The host operation of a request, none for a reserved one: unknown OPC, a reserved bit or an unused operand that
is not 0 (R137, R138, R144). That INST is below N_INST is tested when the request runs. -/
def hostOf (w0 w1 w2 : Word) : Option Instr :=
  if hostRes w0 ≠ 0#3 then none
  else
    let a := hostA w0
    let i := hostInst w0
    let none0 : Bool := a == 0#16 && w1 == 0#32 && w2 == 0#32
    match (hostOpc w0).toNat with
    | 0x01 => if none0 then some (.devInit i) else none
    | 0x02 => some (.submit i a w1 w2)
    | 0x03 => if a == 0#16 then some (.slaveRead i w1 w2) else none
    | 0x04 => if w2 == 0#32 then some (.slaveWrite i a w1) else none
    | 0x05 => if w1 == 0#32 && w2 == 0#32 then some (.slaveEnable i a) else none
    | 0x06 => if none0 then some (.slaveDisable i) else none
    | 0x07 => if none0 then some (.alertAssert i) else none
    | 0x08 => if none0 then some (.alertDeassert i) else none
    | 0x09 => if none0 then some (.recoverReq i) else none
    | 0x0A => if none0 then some (.readMrstCnt i) else none
    | 0x0B => if none0 then some (.readSrecCnt i) else none
    | 0x0C => if none0 then some (.readRecovStatus i) else none
    | 0x0D => if none0 then some (.busReset i) else none
    | 0x10 => if none0 then some (.irq i) else none
    | _ => none

/-! ## Reading the parts of a frame -/

/-- An instance byte. -/
def parseInst : List Byte → Except DecodeError (InstId × List Byte)
  | [] => .error .badLength
  | b :: r => if b.toNat < 32 then .ok (b.setWidth 5, r) else .error .badInstance

/-- A byte. -/
def parseByte : List Byte → Except DecodeError (Byte × List Byte)
  | [] => .error .badLength
  | b :: r => .ok (b, r)

/-- A word, little-endian (R102). -/
def parseWord : List Byte → Except DecodeError (Word × List Byte)
  | b0 :: b1 :: b2 :: b3 :: r => .ok (Word.ofBytes b0 b1 b2 b3, r)
  | _ => .error .badLength

/-- A flag byte, 0 or 1. -/
def parseBool : List Byte → Except DecodeError (Bool × List Byte)
  | [] => .error .badLength
  | b :: r => if b = 0#8 then .ok (false, r) else if b = 1#8 then .ok (true, r) else .error .badOperand

/-- An optional word: a flag, then the word when the flag is 1. -/
def parseOptWord (bs : List Byte) : Except DecodeError (Option Word × List Byte) :=
  match parseBool bs with
  | .error e => .error e
  | .ok (false, r) => .ok (none, r)
  | .ok (true, r) => match parseWord r with
    | .error e => .error e
    | .ok (w, r') => .ok (some w, r')

/-- An optional byte: a flag, then the byte when the flag is 1. -/
def parseOptByte (bs : List Byte) : Except DecodeError (Option Byte × List Byte) :=
  match parseBool bs with
  | .error e => .error e
  | .ok (false, r) => .ok (none, r)
  | .ok (true, r) => match parseByte r with
    | .error e => .error e
    | .ok (b, r') => .ok (some b, r')

/-- What an arming operation moves: 0 and the bytes to the frame's end, or 1 and the window size. -/
def parseArm : List Byte → Except DecodeError ArmData
  | [] => .error .badLength
  | b :: r =>
    if b = 0#8 then .ok (.tx r)
    else if b = 1#8 then match parseWord r with
      | .ok (n, []) => .ok (.rx n)
      | .ok _ => .error .badLength
      | .error e => .error e
    else .error .badOperand

/-- A side byte: 0 master, 1 slave. -/
def parseSide (bs : List Byte) : Except DecodeError (Side × List Byte) :=
  match parseBool bs with
  | .error e => .error e
  | .ok (b, r) => .ok (if b then .slave else .master, r)

/-- A completion kind: 0 TX, 1 RX. -/
def parseKind (bs : List Byte) : Except DecodeError (Kind × List Byte) :=
  match parseBool bs with
  | .error e => .error e
  | .ok (b, r) => .ok (if b then .rx else .tx, r)

/-- An SMBus bit, by its INTR_STS position (R228). -/
def parseSmbus : List Byte → Except DecodeError (SmbusBit × List Byte)
  | [] => .error .badLength
  | b :: r => match b.toNat with
    | 9 => .ok (.alert, r)
    | 10 => .ok (.arp, r)
    | 11 => .ok (.alertResp, r)
    | 8 => .ok (.reserved8, r)
    | 12 => .ok (.reserved12, r)
    | 14 => .ok (.reserved14, r)
    | _ => .error .badOperand

/-- The end of a frame: nothing may follow. -/
def finish (i : Instr) : List Byte → Except DecodeError Instr
  | [] => .ok i
  | _ :: _ => .error .badLength

/-- A parsed part, handed to what reads the rest of the frame. -/
def andParse {α : Type} (p : Except DecodeError (α × List Byte)) (f : α → List Byte → Except DecodeError Instr) :
    Except DecodeError Instr :=
  match p with
  | .error e => .error e
  | .ok (a, r) => f a r

/-- An operation whose only operand is its instance. -/
def withInst (mk : InstId → Instr) (bs : List Byte) : Except DecodeError Instr :=
  andParse (parseInst bs) fun i r => finish (mk i) r

/-- An operation with an instance and a flag. -/
def withInstBool (mk : InstId → Bool → Instr) (bs : List Byte) : Except DecodeError Instr :=
  andParse (parseInst bs) fun i r => andParse (parseBool r) fun b r => finish (mk i b) r

/-- An operation with an instance and a word. -/
def withInstWord (mk : InstId → Word → Instr) (bs : List Byte) : Except DecodeError Instr :=
  andParse (parseInst bs) fun i r => andParse (parseWord r) fun w r => finish (mk i w) r

/-- An operation with an instance and a side. -/
def withInstSide (mk : InstId → Side → Instr) (bs : List Byte) : Except DecodeError Instr :=
  andParse (parseInst bs) fun i r => andParse (parseSide r) fun x r => finish (mk i x) r

/-- An operation with an instance and a byte. -/
def withInstByte (mk : InstId → Byte → Instr) (bs : List Byte) : Except DecodeError Instr :=
  andParse (parseInst bs) fun i r => andParse (parseByte r) fun x r => finish (mk i x) r

/-- The bits a fault bit may be latched together with: those of the outcomes of a command in flight (R219; log entry
28). -/
def alsoMask : Word := 0x207F#32

/-- A fault: its instance and the bits latched with it. -/
def withFault (mk : FaultAt → Instr) (bs : List Byte) : Except DecodeError Instr :=
  andParse (parseInst bs) fun i r => andParse (parseWord r) fun w r =>
  if w &&& ~~~alsoMask = 0#32 then finish (mk ⟨i, w⟩) r else .error .statusBits

/-- The bytes of a receive step; RemoteByte takes exactly one (R221). -/
def rxDataOf (direct : Bool) (bs : List Byte) : Except DecodeError RxData :=
  if direct then
    match bs with
    | [b] => .ok (.direct b)
    | _ => .error .badLength
  else .ok (.window bs)

/-! ## The classes -/

/-- The instance whose window holds an address: windows are 0x40 bytes from a multiple of 0x40 (R131, R40). -/
def Config.windowOf (c : Config) (addr : Word) : Option InstId :=
  (c.insts.findIdx? fun x => x.base == addr &&& 0xFFFFFFC0#32).map (BitVec.ofNat 5)

/-- What an address is: the shared register, a register or a reserved offset of an instance, or no operation's
(R131). -/
inductive Place where
  | group
  | reg (i : InstId) (r : Reg)
  | reserved (i : InstId) (off : BitVec 6)
deriving DecidableEq, Repr

/-- The place of an address: GROUP_BASE first, then the window that holds it (R131). -/
def Config.placeOf (c : Config) (addr : Word) : Except DecodeError Place :=
  if addr = c.groupBase then .ok .group
  else if addr.extractLsb' 0 2 ≠ 0#2 then .error .misaligned
  else match c.windowOf addr with
    | none => .error .noWindow
    | some i => match regAt (addr.extractLsb' 0 6) with
      | some r => .ok (.reg i r)
      | none => .ok (.reserved i (addr.extractLsb' 0 6))

/-- Format REG (R131): the direction, the address, and for WR the data word. -/
def decodeReg (c : Config) (bs : List Byte) : Except DecodeError Instr :=
  andParse (parseByte bs) fun op r =>
  andParse (parseWord r) fun addr r =>
  if op = 0#8 then
    match c.placeOf addr with
    | .ok .group => finish .rdGroupSts r
    | .ok (.reg i x) => finish (rdInstr i x) r
    | .ok (.reserved i off) => finish (.rdReserved i off) r
    | .error e => .error e
  else if op = 1#8 then
    andParse (parseWord r) fun v r =>
    match c.placeOf addr with
    | .ok .group => finish (.wrGroupSts v) r
    | .ok (.reg i x) => finish (wrInstr i v x) r
    | .ok (.reserved i off) => finish (.wrReserved i off v) r
    | .error e => .error e
  else .error .badDirection

/-- Format CMD (R132): the instance and the word written to its CMD register. -/
def decodeCmd (bs : List Byte) : Except DecodeError Instr :=
  andParse (parseInst bs) fun i r =>
  andParse (parseWord r) fun w r =>
  match cmdOf w with
  | some c => finish (cmdInstr i (cmdEn w) (cmdAlert w) (cmdHigh w) c) r
  | none => finish (.reservedCmd i w) r

/-- Format STS (R134): the instance, the decoder's stage and the residual status word. -/
def decodeSts (bs : List Byte) : Except DecodeError Instr :=
  andParse (parseInst bs) fun i r =>
  andParse (parseByte r) fun stage r =>
  andParse (parseWord r) fun w r =>
  match stsInstr i stage w with
  | .ok x => finish x r
  | .error e => .error e

/-- Format LINE (R135): the instance and the CMD word that was read. -/
def decodeLine (bs : List Byte) : Except DecodeError Instr :=
  andParse (parseInst bs) fun i r =>
  andParse (parseWord r) fun c r => finish (lineInstr i c) r

/-- Format HOST (R137): three words. -/
def decodeHost (bs : List Byte) : Except DecodeError Instr :=
  andParse (parseWord bs) fun w0 r =>
  andParse (parseWord r) fun w1 r =>
  andParse (parseWord r) fun w2 r => finish ((hostOf w0 w1 w2).getD (.reservedHost w0 w1 w2)) r

/-- Format MSG (R136): where the record lies, its three words, and the bytes of its buffer. -/
def decodeMsg (bs : List Byte) : Except DecodeError Instr :=
  andParse (parseWord bs) fun loc r =>
  andParse (parseWord r) fun w0 r =>
  andParse (parseWord r) fun b r =>
  andParse (parseWord r) fun c r => .ok (.msg loc w0 b c r)

/-- Format MODE (R151): the tag, 0 for ARM or 1 for EXT, the instance, and for ARM the command word and the data. -/
def decodeMode (bs : List Byte) : Except DecodeError Instr :=
  andParse (parseByte bs) fun tag r =>
  andParse (parseBool r) fun ext r =>
  andParse (parseInst r) fun i r =>
  match tag.toNat, ext with
  | 0, true => finish (.extByte i) r
  | 1, true => finish (.extBuf i) r
  | 2, true => finish (.extDmaDec i) r
  | 3, true => finish (.extDmaInc i) r
  | 0, false => andParse (parseWord r) fun a r => andParse (parseOptByte r) fun d r => finish (.armByte i a d) r
  | 1, false => andParse (parseWord r) fun a r => match parseArm r with
    | .ok d => .ok (.armBuf i a d)
    | .error e => .error e
  | 2, false => andParse (parseWord r) fun a r => match parseArm r with
    | .ok d => .ok (.armDmaDec i a d)
    | .error e => .error e
  | 3, false => andParse (parseWord r) fun a r => match parseArm r with
    | .ok d => .ok (.armDmaInc i a d)
    | .error e => .error e
  | _, _ => .error .badOperand

/-- The internal operations, by their row of the opcode table (log entry 2). -/
def decodeInternal (bs : List Byte) : Except DecodeError Instr :=
  andParse (parseByte bs) fun row r =>
  match row.toNat with
  | 63 => withInst .lOther r
  | 88 => andParse (parseWord r) fun c r => andParse (parseWord r) fun f r => finish (.calcTiming c f) r
  | 89 => withInst .timingWord r
  | 90 => withInst .timingInit r
  | 91 => withInst .regInit r
  | 92 => withInst .armNext r
  | 93 => withInstSide .poolAcq r
  | 94 => withInstSide .poolRel r
  | 95 => withInstSide .selectMode r
  | 96 => withInst .sArmRx r
  | 97 => withInst .sArmTx r
  | 98 => withInst .doXfer r
  | 99 => withInst .waitIdle r
  | 100 => withInstWord .startMsg r
  | 101 => withInst .wait r
  | 102 => withInst .wakeExpired r
  | 103 => withInst .wakeSignalled r
  | 104 => andParse (parseInst r) fun i r => andParse (parseKind r) fun k r => andParse (parseBool r) fun s r =>
      finish (.mDone i k s) r
  | 105 => withInstBool .mNack r
  | 106 => withInst .mArb r
  | 107 => withInst .mStopDone r
  | 108 => withInst .mFault r
  | 109 => withInst .mPreempt r
  | 110 => withInst .sMatch r
  | 111 => withInstByte .startOfWrite r
  | 112 => withInstByte .startOfRead r
  | 113 => withInstBool .sData r
  | 114 => withInst .sTxAck r
  | 115 => withInst .sFinal r
  | 116 => withInstWord .sStop r
  | 117 => withInst .sAbort r
  | 118 => withInst .recover r
  | 119 => withInst .ctrlReset r
  | _ => .error .noSuchRow

/-- The environment's steps, by their row of the opcode table (log entry 2). -/
def decodeEnv (bs : List Byte) : Except DecodeError Instr :=
  andParse (parseByte bs) fun row r =>
  match row.toNat with
  | 120 => andParse (parseInst r) fun i r => andParse (parseBool r) fun s r => andParse (parseOptWord r) fun m r =>
      finish (.kAck i s m) r
  | 121 => andParse (parseInst r) fun i r => andParse (parseWord r) fun j r => andParse (parseBool r) fun s r =>
      andParse (parseOptWord r) fun m r => finish (.kNack i j s m) r
  | 122 => andParse (parseInst r) fun i r => andParse (parseBool r) fun d r => andParse (parseBool r) fun s r =>
      andParse (parseOptWord r) fun m r => match rxDataOf d r with
        | .ok x => .ok (.kRx i x s m)
        | .error e => .error e
  | 123 => withInst .kStop r
  | 124 => withFault .kArb r
  | 125 => withFault .kAbn r
  | 126 => withFault .kSclto r
  | 127 => andParse (parseInst r) fun i r => andParse (parseByte r) fun a r => andParse (parseBool r) fun b r =>
      finish (.kMatch i a b) r
  | 128 => withInstBool .kRecovered r
  | 129 => andParse (parseInst r) fun i r => andParse (parseBool r) fun s r => andParse (parseBool r) fun c r =>
      andParse (parseBool r) fun b r => finish (.kLine i s c b) r
  | 130 => andParse (parseInst r) fun i r => andParse (parseSmbus r) fun m r => finish (.kSmbus i m) r
  | 131 => withInst .tExpire r
  | _ => .error .noSuchRow

/-- The decoder: one frame, one operation (R130). The addresses of the register windows are parameters (R40). -/
def decode (c : Config) : List Byte → Except DecodeError Instr
  | [] => .error .emptyFrame
  | port :: r => match port.toNat with
    | 0 => decodeReg c r
    | 1 => decodeCmd r
    | 2 => decodeSts r
    | 3 => decodeLine r
    | 4 => decodeHost r
    | 5 => decodeMsg r
    | 6 => decodeMode r
    | 7 => decodeInternal r
    | 8 => decodeEnv r
    | _ => .error .noSuchPort

/-! ## The encoder -/

/-- An instance byte. -/
def byteOfInst (i : InstId) : Byte := i.setWidth 8

/-- A flag byte. -/
def byteOfBool (b : Bool) : Byte := if b then 1#8 else 0#8

/-- A side byte. -/
def byteOfSide : Side → Byte
  | .master => 0#8
  | .slave => 1#8

/-- A completion kind. -/
def byteOfKind : Kind → Byte
  | .tx => 0#8
  | .rx => 1#8

/-- An SMBus bit's INTR_STS position (R45, R228). -/
def SmbusBit.pos : SmbusBit → Nat
  | .alert => 9
  | .arp => 10
  | .alertResp => 11
  | .reserved8 => 8
  | .reserved12 => 12
  | .reserved14 => 14

/-- The receive step is RemoteByte's (R221). -/
def RxData.isDirect : RxData → Bool
  | .window _ => false
  | .direct _ => true

/-- The bytes of a receive step. -/
def RxData.bytes : RxData → List Byte
  | .window bs => bs
  | .direct b => [b]

/-- An optional word. -/
def bytesOfOptWord : Option Word → List Byte
  | none => [0#8]
  | some w => 1#8 :: w.toBytes

/-- An optional byte. -/
def bytesOfOptByte : Option Byte → List Byte
  | none => [0#8]
  | some b => [1#8, b]

/-- What an arming operation moves. -/
def bytesOfArm : ArmData → List Byte
  | .tx d => 0#8 :: d
  | .rx n => 1#8 :: n.toBytes

/-- The address of a register offset of an instance (R40). -/
def regAddr (c : Config) (i : InstId) (off : BitVec 6) : Word := (c.inst i.toNat).base + off.setWidth 32

/-- A register read's frame (R131). -/
def frameRd (addr : Word) : List Byte := [0#8, 0#8] ++ addr.toBytes

/-- A register write's frame (R131). -/
def frameWr (addr v : Word) : List Byte := [0#8, 1#8] ++ addr.toBytes ++ v.toBytes

/-- A command word's frame (R132). -/
def frameCmd (i : InstId) (w : Word) : List Byte := [1#8, byteOfInst i] ++ w.toBytes

/-- A status pattern's frame (R134). -/
def frameSts (i : InstId) (stage : Byte) (w : Word) : List Byte := [2#8, byteOfInst i, stage] ++ w.toBytes

/-- A line pattern's frame (R135). -/
def frameLine (i : InstId) (c : Word) : List Byte := [3#8, byteOfInst i] ++ c.toBytes

/-- Word 0 of a host request (R137). -/
def hostWord (opc : Byte) (i : InstId) (a : BitVec 16) : Word := a ++ 0#3 ++ i ++ opc

/-- A host request's frame (R137). -/
def frameHost (w0 w1 w2 : Word) : List Byte := [4#8] ++ w0.toBytes ++ w1.toBytes ++ w2.toBytes

/-- A mode-dispatched operation's frame (R151): the tag, ARM or EXT, the instance. -/
def frameMode (tag : Byte) (ext : Bool) (i : InstId) (r : List Byte) : List Byte :=
  [6#8, tag, byteOfBool ext, byteOfInst i] ++ r

/-- An internal operation's frame with its instance. -/
def frameInt (row : Byte) (i : InstId) (r : List Byte) : List Byte := [7#8, row, byteOfInst i] ++ r

/-- An environment step's frame. -/
def frameEnv (row : Byte) (i : InstId) (r : List Byte) : List Byte := [8#8, row, byteOfInst i] ++ r

/-- The frame of an operation, on a machine with the parameters c (R40). -/
def encode (c : Config) : Instr → List Byte
  | .rdFunCtrl i => frameRd (regAddr c i (Reg.offset .funCtrl))
  | .wrFunCtrl i v => frameWr (regAddr c i (Reg.offset .funCtrl)) v
  | .rdAcTiming1 i => frameRd (regAddr c i (Reg.offset .acTiming1))
  | .wrAcTiming1 i v => frameWr (regAddr c i (Reg.offset .acTiming1)) v
  | .rdAcTiming2 i => frameRd (regAddr c i (Reg.offset .acTiming2))
  | .wrAcTiming2 i v => frameWr (regAddr c i (Reg.offset .acTiming2)) v
  | .rdIntrCtrl i => frameRd (regAddr c i (Reg.offset .intrCtrl))
  | .wrIntrCtrl i v => frameWr (regAddr c i (Reg.offset .intrCtrl)) v
  | .rdIntrSts i => frameRd (regAddr c i (Reg.offset .intrSts))
  | .wrIntrSts i v => frameWr (regAddr c i (Reg.offset .intrSts)) v
  | .rdCmd i => frameRd (regAddr c i (Reg.offset .cmd))
  | .wrCmd i v => frameWr (regAddr c i (Reg.offset .cmd)) v
  | .rdDevAddr i => frameRd (regAddr c i (Reg.offset .devAddr))
  | .wrDevAddr i v => frameWr (regAddr c i (Reg.offset .devAddr)) v
  | .rdBufCtrl i => frameRd (regAddr c i (Reg.offset .bufCtrl))
  | .wrBufCtrl i v => frameWr (regAddr c i (Reg.offset .bufCtrl)) v
  | .rdByteData i => frameRd (regAddr c i (Reg.offset .byteData))
  | .wrByteData i v => frameWr (regAddr c i (Reg.offset .byteData)) v
  | .rdDmaBase i => frameRd (regAddr c i (Reg.offset .dmaBase))
  | .wrDmaBase i v => frameWr (regAddr c i (Reg.offset .dmaBase)) v
  | .rdDmaLen i => frameRd (regAddr c i (Reg.offset .dmaLen))
  | .wrDmaLen i v => frameWr (regAddr c i (Reg.offset .dmaLen)) v
  | .rdGroupSts => frameRd c.groupBase
  | .rdReserved i off => frameRd (regAddr c i off)
  | .wrGroupSts v => frameWr c.groupBase v
  | .wrReserved i off v => frameWr (regAddr c i off) v
  | .cNop i en al hi => frameCmd i (cmdWord .nop en al hi)
  | .cSRx i en al hi => frameCmd i (cmdWord .sRx en al hi)
  | .cStartTx i en al hi => frameCmd i (cmdWord .startTx en al hi)
  | .cStartTxStop i en al hi => frameCmd i (cmdWord .startTxStop en al hi)
  | .cTx i en al hi => frameCmd i (cmdWord .tx en al hi)
  | .cTxStop i en al hi => frameCmd i (cmdWord .txStop en al hi)
  | .cRx i en al hi => frameCmd i (cmdWord .rx en al hi)
  | .cRxLast i en al hi => frameCmd i (cmdWord .rxLast en al hi)
  | .cRxLastStop i en al hi => frameCmd i (cmdWord .rxLastStop en al hi)
  | .cStop i en al hi => frameCmd i (cmdWord .stop en al hi)
  | .cSTx i en al hi => frameCmd i (cmdWord .sTx en al hi)
  | .cRecover i en al hi => frameCmd i (cmdWord .recover en al hi)
  | .reservedCmd i w => frameCmd i w
  | .stsSmbusAlert i w => frameSts i 2#8 w
  | .stsSmbusArp i w => frameSts i 2#8 w
  | .stsSmbusAlertResp i w => frameSts i 2#8 w
  | .stsAbnormal i w => frameSts i 3#8 w
  | .stsSclTimeout i w => frameSts i 3#8 w
  | .stsSlaveStop i w => frameSts i 4#8 w
  | .stsTxAck i => frameSts i 5#8 0x0001#32
  | .stsTxAckStop i => frameSts i 5#8 0x0011#32
  | .stsTxNak i => frameSts i 5#8 0x0002#32
  | .stsTxNakStop i => frameSts i 5#8 0x0012#32
  | .stsRxDone i => frameSts i 5#8 0x0004#32
  | .stsRxDoneStop i => frameSts i 5#8 0x0014#32
  | .stsMatch i => frameSts i 5#8 0x0084#32
  | .stsMatchStop i => frameSts i 5#8 0x0094#32
  | .stsStop i => frameSts i 5#8 0x0010#32
  | .stsArbLoss i => frameSts i 5#8 0x0008#32
  | .stsArbLossMatch i => frameSts i 5#8 0x008C#32
  | .stsRecoverDone i => frameSts i 5#8 0x2000#32
  | .stsNotMine i => frameSts i 0#8 0#32
  | .stsEmpty i => frameSts i 1#8 0#32
  | .stsSweep i w => frameSts i 6#8 w
  | .lIdle i w => frameLine i w
  | .lMasterHold i w => frameLine i w
  | .lSlaveHold i w => frameLine i w
  | .lOther i => frameInt 63#8 i []
  | .devInit i => frameHost (hostWord 0x01#8 i 0#16) 0#32 0#32
  | .submit i n d b => frameHost (hostWord 0x02#8 i n) d b
  | .slaveRead i d n => frameHost (hostWord 0x03#8 i 0#16) d n
  | .slaveWrite i n s => frameHost (hostWord 0x04#8 i n) s 0#32
  | .slaveEnable i a => frameHost (hostWord 0x05#8 i a) 0#32 0#32
  | .slaveDisable i => frameHost (hostWord 0x06#8 i 0#16) 0#32 0#32
  | .alertAssert i => frameHost (hostWord 0x07#8 i 0#16) 0#32 0#32
  | .alertDeassert i => frameHost (hostWord 0x08#8 i 0#16) 0#32 0#32
  | .recoverReq i => frameHost (hostWord 0x09#8 i 0#16) 0#32 0#32
  | .readMrstCnt i => frameHost (hostWord 0x0A#8 i 0#16) 0#32 0#32
  | .readSrecCnt i => frameHost (hostWord 0x0B#8 i 0#16) 0#32 0#32
  | .readRecovStatus i => frameHost (hostWord 0x0C#8 i 0#16) 0#32 0#32
  | .busReset i => frameHost (hostWord 0x0D#8 i 0#16) 0#32 0#32
  | .irq i => frameHost (hostWord 0x10#8 i 0#16) 0#32 0#32
  | .reservedHost w0 w1 w2 => frameHost w0 w1 w2
  | .msg loc w0 b n d => [5#8] ++ loc.toBytes ++ w0.toBytes ++ b.toBytes ++ n.toBytes ++ d
  | .armByte i a d => frameMode 0#8 false i (a.toBytes ++ bytesOfOptByte d)
  | .extByte i => frameMode 0#8 true i []
  | .armBuf i a d => frameMode 1#8 false i (a.toBytes ++ bytesOfArm d)
  | .extBuf i => frameMode 1#8 true i []
  | .armDmaDec i a d => frameMode 2#8 false i (a.toBytes ++ bytesOfArm d)
  | .extDmaDec i => frameMode 2#8 true i []
  | .armDmaInc i a d => frameMode 3#8 false i (a.toBytes ++ bytesOfArm d)
  | .extDmaInc i => frameMode 3#8 true i []
  | .calcTiming k f => [7#8, 88#8] ++ k.toBytes ++ f.toBytes
  | .timingWord i => frameInt 89#8 i []
  | .timingInit i => frameInt 90#8 i []
  | .regInit i => frameInt 91#8 i []
  | .armNext i => frameInt 92#8 i []
  | .poolAcq i x => frameInt 93#8 i [byteOfSide x]
  | .poolRel i x => frameInt 94#8 i [byteOfSide x]
  | .selectMode i x => frameInt 95#8 i [byteOfSide x]
  | .sArmRx i => frameInt 96#8 i []
  | .sArmTx i => frameInt 97#8 i []
  | .doXfer i => frameInt 98#8 i []
  | .waitIdle i => frameInt 99#8 i []
  | .startMsg i k => frameInt 100#8 i k.toBytes
  | .wait i => frameInt 101#8 i []
  | .wakeExpired i => frameInt 102#8 i []
  | .wakeSignalled i => frameInt 103#8 i []
  | .mDone i k s => frameInt 104#8 i [byteOfKind k, byteOfBool s]
  | .mNack i s => frameInt 105#8 i [byteOfBool s]
  | .mArb i => frameInt 106#8 i []
  | .mStopDone i => frameInt 107#8 i []
  | .mFault i => frameInt 108#8 i []
  | .mPreempt i => frameInt 109#8 i []
  | .sMatch i => frameInt 110#8 i []
  | .startOfWrite i a => frameInt 111#8 i [a]
  | .startOfRead i a => frameInt 112#8 i [a]
  | .sData i s => frameInt 113#8 i [byteOfBool s]
  | .sTxAck i => frameInt 114#8 i []
  | .sFinal i => frameInt 115#8 i []
  | .sStop i w => frameInt 116#8 i w.toBytes
  | .sAbort i => frameInt 117#8 i []
  | .recover i => frameInt 118#8 i []
  | .ctrlReset i => frameInt 119#8 i []
  | .kAck i s m => frameEnv 120#8 i ([byteOfBool s] ++ bytesOfOptWord m)
  | .kNack i j s m => frameEnv 121#8 i (j.toBytes ++ [byteOfBool s] ++ bytesOfOptWord m)
  | .kRx i d s m => frameEnv 122#8 i ([byteOfBool d.isDirect, byteOfBool s] ++ bytesOfOptWord m ++ d.bytes)
  | .kStop i => frameEnv 123#8 i []
  | .kArb f => frameEnv 124#8 f.inst f.also.toBytes
  | .kAbn f => frameEnv 125#8 f.inst f.also.toBytes
  | .kSclto f => frameEnv 126#8 f.inst f.also.toBytes
  | .kMatch i a b => frameEnv 127#8 i [a, byteOfBool b]
  | .kRecovered i s => frameEnv 128#8 i [byteOfBool s]
  | .kLine i s l b => frameEnv 129#8 i [byteOfBool s, byteOfBool l, byteOfBool b]
  | .kSmbus i m => frameEnv 130#8 i [BitVec.ofNat 8 m.pos]
  | .tExpire i => frameEnv 131#8 i []

/-! ## The opcode table's words -/

/-- The decoder stage at which a bare status word of the table is tried: equality rows first (R386). -/
def tableStage (w : Word) : Byte :=
  if w = 0#32 then 1#8
  else if (stsExact 0#5 w).isSome then 5#8
  else if w &&& 0x0E00#32 ≠ 0#32 then 2#8
  else if w &&& 0x0060#32 ≠ 0#32 then 3#8
  else 6#8

/-- The frame of a word of the opcode table, for instance 0 and direction RD; INST_BASE(0) is 0 by default. The table
gives a word without its interface, and the words of the classes overlap (R130), so the interface is told from the
width, and among the words of one byte by a fixed order: host codes, the fault bits of a status word, register offsets
(log entry 2). -/
def tableFrame (nbits w : Nat) : List Byte :=
  let v : Word := BitVec.ofNat 32 w
  if nbits ≤ 8 then
    if (1 ≤ w && w ≤ 0x0D) || w == 0x10 then frameHost v 0#32 0#32
    else if w == 0x40 then frameSts 0#5 3#8 v
    else if w % 4 == 0 && w < 0x40 then frameRd v
    else frameHost v 0#32 0#32
  else if nbits ≤ 16 then frameSts 0#5 (tableStage v) v
  else if nbits ≤ 24 then frameLine 0#5 v
  else if nbits ≤ 32 then frameCmd 0#5 v
  else frameHost v (BitVec.ofNat 32 (w / 2 ^ 32)) (BitVec.ofNat 32 (w / 2 ^ 64))

/-- The operation the decoder reads from a word of the opcode table, with the default parameters. -/
def decodeTableWord (nbits w : Nat) : Option Instr := (decode Config.default (tableFrame nbits w)).toOption

end Sys2Proof
end

