-- ==== Sys2Proof/Machine/State.lean ====
section
/-! DEFINITION. The machine's state, as plain data: every register and every field of 10_state.md, the memory spaces of
20_memory.md R100, and the few fields the model adds (INVENTORY.md names them), with the state after reset and the
reasons a step can stop. -/

namespace Sys2Proof.Machine

open Sys2Proof

/-- Why a step faults: the machine stops, and no claim is made about what follows. -/
inductive Fault where
  /-- a byte that nothing has written is read (R80: "a model makes a read of them a fault"); raised by every copy
  between byte spaces. Safe: the hardware goes on with an unspecified byte. -/
  | unwrittenByte
  /-- an access at or above 2^32, where no byte space has a byte (R100); raised by every copy between byte spaces.
  Safe: the hardware has no such address. -/
  | outsideSpace
deriving DecidableEq, Repr

/-- Why a step is refused: the spec gives the situation no effect, or offers no such step in this state. -/
inductive Refusal where
  /-- an instruction whose meaning is not written yet; raised only by the dispatch. Safe. -/
  | notModelled (mnemonic : String)
  /-- the next frame spells no operation (R103, R131); raised by the step. Safe. -/
  | undecodable (e : DecodeError)
  /-- a reserved command word is written (R141, R230: "The model refuses the write"); raised by CMD writes. Safe. -/
  | reservedCommand
  /-- a command is written while one is in flight (R202, R495); raised by CMD writes. Safe. -/
  | commandInFlight
  /-- a chunk size outside 1 .. max(path) (R202, R230); raised by CMD writes and by arming. Safe. -/
  | illegalChunk
  /-- a second SUBMIT while a blocking call of the instance runs (R502); raised by SUBMIT. Safe. -/
  | overlappingSubmit
  /-- a host operation other than DEV_INIT, SUBMIT and IRQ on an instance that was never initialised (R493: "outside
  the spec and a model does not offer it"); raised by the host operations. Safe. -/
  | notOffered
  /-- a step of a thread, of the core or of the timer that is not enabled in this state: a line of a blocking call the
  thread has not reached (R303, R308, R421), an outcome that is none of the command in flight (R216 to R223, R226), an
  expiry of a wait that is satisfied or not outstanding (R476); raised by those rows. Safe: no such step exists there
  (R112, U11 and U14 of 93_implementation_defined.md). -/
  | notEnabled
  /-- a register or internal operation of an instance the machine does not have (R32, R131); raised by every row but
  the host requests, for which the spec gives E_INVAL. Safe. -/
  | noSuchInstance
  /-- a master operation that needs a message set while there is none (R61); raised by arming and the handlers.
  Safe. -/
  | noMessageSet
  /-- a slave engine operation when SLAVE_PRESENT is false (R358: the state does not exist); raised by the slave rows.
  Safe. -/
  | slaveAbsent
  /-- a DMA operation on an instance without a DMA window (R105, R279); raised by arming. Safe. -/
  | noDmaWindow
  /-- the pool page is used by a side that holds no loan (R114, R265, R106); raised by arming and by the copy-out of a
  chunk in BUF mode. Safe. -/
  | poolNotOwned
  /-- an operation needs a lock that another agent holds (R112: the step is not enabled); raised by every operation
  the spec brackets with lock M or lock S. Safe. -/
  | lockHeld
deriving DecidableEq, Repr

/-- A byte space: the bytes that have been written, by rising address; an unlisted address holds no value (R80). -/
abbrev Memory := List Host.Cell

/-- The data path of a command (R201). -/
inductive Path where
  | byte
  | buf
  | dma
deriving DecidableEq, Repr

/-- The phase of a command in flight (R201). -/
inductive Phase where
  | data
  | stopPending
deriving DecidableEq, Repr

/-- The command in flight (R201), with what the core keeps of it beside: DMA_BASE and whether the bus was held. -/
structure InFlight where
  cmd   : Cmd
  path  : Path
  n     : Nat
  data  : List Byte
  prog  : Word
  phase : Phase
  /-- DMA_BASE as sampled at issue (R500, R108) -/
  base  : Word
  /-- this controller held the bus when the command was issued (R210) -/
  held  : Bool
deriving DecidableEq, Repr

/-- XFER_STATE: its class, and the code inside the class, codes 1 to 7 for SLAVE and 8 to 15 for MASTER (R47). -/
inductive XferState where
  | idle
  | slave (c : Fin 7)
  | master (c : Fin 8)
deriving DecidableEq, Repr

/-- An item of the bus trace (R227). -/
inductive TraceItem where
  | start
  | stop
  | recover
  | byte (b : Byte) (ack : Bool)
deriving DecidableEq, Repr

/-- What the completion signal is waited for (R62). -/
inductive Waiting where
  | none
  | xfer
  | recovStop
  | recovCmd
deriving DecidableEq, Repr

/-- The per-message master state (R65). -/
inductive MState where
  | idle
  | start
  | chunk
  | stopping
  | completeOk
  | completeErr
deriving DecidableEq, Repr

/-- The slave engine's state (R67). -/
inductive SState where
  | idle
  | rx
  | tx
deriving DecidableEq, Repr

/-- The state of a ring slot (R68). -/
inductive SlotState where
  | empty
  | ongoing
  | full
deriving DecidableEq, Repr

/-- The recovery FSM's state (R72). -/
inductive RState where
  | idle
  | stopWait
  | slaveLoop (t : Nat)
deriving DecidableEq, Repr

/-- An agent, as the holder of a lock (R13, R73). -/
inductive Agent where
  | H
  | I
  | C
  | O
  | K
  | T
deriving DecidableEq, Repr

/-- A diagnostic record (R75, R482). -/
inductive LogRec where
  | unexpectedCombination (sts : Word)
  | completionWithNoChunk
  | nackWithNoChunk
  | strayStop
  | ringOverrun
  | dataWithNoSlaveWrite
  | ackWithNoSlaveRead
  | recoveryWithNoInitiator
  | unclassifiedLines
deriving DecidableEq, Repr

/-- The registers of an instance (R40). CMD holds its written enable and level bits; its other bits are views. BUF_CTRL
is the whole word, ACT_CNT included. -/
structure Regs where
  funCtrl   : Word
  acTiming1 : Word
  acTiming2 : Word
  intrCtrl  : Word
  intrSts   : Word
  en        : BitVec 4
  alertEn   : Bool
  devAddr   : Word
  bufCtrl   : Word
  byteTx    : Byte
  byteRx    : Byte
  dmaBase   : Word
  dmaLen    : Word
deriving DecidableEq, Repr

/-- The hidden state of the core (R74). -/
structure Core where
  inflight : Option InFlight
  sda      : Bool
  scl      : Bool
  busy     : Bool
  xfer     : XferState
  /-- the direction bit of the last address match (R221) -/
  matchRd  : Bool
  trace    : List TraceItem
  /-- how many commands have been cut short, which numbers the open counts they leave (R219; log entry 10) -/
  cuts     : Nat
deriving DecidableEq, Repr

/-- The master engine's state (R60 to R66); the counts are 32-bit unsigned (R61, R64, R440). -/
structure Master where
  slaveOp     : Bool
  msgs        : Option Word
  nmsgs       : Word
  cur         : Word
  cnt         : Word
  last        : Bool
  mode        : Mode
  err         : Word
  done        : Bool
  waiting     : Waiting
  mstate      : MState
  len         : Word
  lenExt      : Bool
  xlen        : Word
  xmode       : Mode
  addrInChunk : Bool
  started     : Bool
  stopIssued  : Bool
  stopSeen    : Bool
  mLoan       : Bool
deriving DecidableEq, Repr

/-- A slot of the slave receive ring (R68). -/
structure Slot where
  state : SlotState
  addr  : Byte
  len   : Nat
  buf   : Memory
deriving DecidableEq, Repr

/-- The slave engine's state (R66 to R69); `sXlen` and `txOff` are 32-bit unsigned (R67, R440). -/
structure Slave where
  sLoan        : Bool
  sstate       : SState
  slaveEnabled : Bool
  sCur         : Option Nat
  sXlen        : Word
  sXmode       : Mode
  sMode        : Mode
  txOff        : Word
  ring         : List Slot
  wr           : Nat
  rd           : Nat
  ready        : Nat
  txbuf        : Memory
  txLen        : Nat
deriving DecidableEq, Repr

/-- The recovery subsystem's state (R70 to R72). -/
structure Recov where
  masterResetCnt  : Word
  slaveRecoverCnt : Word
  recovStatus     : Word
  rstate          : RState
  savedFun        : Word
deriving DecidableEq, Repr

/-- The output streams (R75), and the register writes in order (R499, R402). -/
structure Outs where
  log        : List LogRec
  alertFwd   : Nat
  readerWake : Nat
  regTrace   : List (Reg × Word)
deriving DecidableEq, Repr

/-- Which blocking call an instance's thread runs (R502). -/
inductive Call where
  | none
  | submit
  | recover
  | reset
deriving DecidableEq, Repr

/-- What an operation of the engine comes to: a count or a result code (R137, R148). -/
inductive Result where
  | count (n : Nat)
  | code (c : Code)
deriving DecidableEq, Repr

/-- The line a blocking call has reached: SUBMIT's numbered lines (R303), the steps of RECOVER (R421 to R424) and those
of the operator's BUS_RESET (R429, R112). -/
inductive Pc where
  /-- no blocking call -/
  | idle
  /-- DO_XFER line 1 -/
  | xferEntry
  /-- line 2: the first read of WAIT_IDLE -/
  | waitIdle
  /-- inside the bounded wait of WAIT_IDLE -/
  | idleBusy
  /-- WAIT_IDLE's wait has expired -/
  | idleExpired
  /-- RECOVER, called by WAIT_IDLE, has returned r -/
  | idleRecovered (r : Code)
  /-- line 3 -/
  | selectMode
  /-- line 4a for message k -/
  | startMsg (k : Nat)
  /-- line 4b -/
  | waitXfer (k : Nat)
  /-- line 4c, the wait being SIGNALLED -/
  | wakeSignalled (k : Nat)
  /-- line 4c, the wait being EXPIRED -/
  | wakeExpired (k : Nat)
  /-- exit(r) -/
  | xferExit (r : Result)
  /-- the wait of RETRY_DELAY -/
  | retryDelay
  /-- RECOVER's first line -/
  | recoverEntry
  /-- RECOVER has read the CMD word c -/
  | classify (c : Word)
  /-- the wait for recovery's STOP -/
  | stopWait
  /-- the wait has ended -/
  | stopWake (expired : Bool)
  /-- round t of the slave-dead loop, register write a of REG_INIT, or the command when a = 6 -/
  | deadInit (t a : Nat)
  /-- the wait for the bus-recovery command -/
  | deadWait (t : Nat)
  /-- the wait has ended: recheck SDA -/
  | deadWake (t : Nat) (expired : Bool)
  /-- the two writes after the last failed round -/
  | deadRestore (a : Nat)
  /-- the operator's BUS_RESET has read FUN_CTRL as f: CTRL_RESET's write a is next -/
  | resetCtrl (f : Word) (a : Nat)
  /-- its TIMING_INIT, write a -/
  | resetTiming (a : Nat)
  /-- its S_ABORT -/
  | resetAbort
deriving DecidableEq, Repr

/-- The thread of a blocking host call. -/
structure Thread where
  pc      : Pc
  call    : Call
  n       : Nat
  desc    : Word
  bound   : Nat
  attempt : Nat
  /-- how many messages the last attempt that started one has started; the last of them is the one `cnt` counts for
  (R300, R497; log entry 29) -/
  reached : Nat
deriving DecidableEq, Repr

/-- One controller instance (R32). -/
structure Inst where
  regs   : Regs
  core   : Core
  master : Master
  slave  : Slave
  recov  : Recov
  outs   : Outs
  thread : Thread
  lockM  : Option Agent
  lockS  : Option Agent
deriving DecidableEq, Repr

/-- What an operation returned: nothing, a word (R137, R170), or an extraction's BAD (R273). -/
inductive Ret where
  | none
  | word (w : Word)
  | bad
deriving DecidableEq, Repr

/-- The machine. -/
structure State where
  cfg       : Config
  insts     : List Inst
  poolOwner : Option (Nat × Side)
  pool      : Memory
  dma       : Memory
  mem       : Memory
  draws     : Nat
  ret       : Ret
  inbox     : List (List Byte)
deriving DecidableEq, Repr

/-! ## Reset -/

/-- Every register zero (R80). -/
def Regs.reset : Regs :=
  { funCtrl := 0, acTiming1 := 0, acTiming2 := 0, intrCtrl := 0, intrSts := 0, en := 0, alertEn := false, devAddr := 0,
    bufCtrl := 0, byteTx := 0, byteRx := 0, dmaBase := 0, dmaLen := 0 }

/-- Nothing in flight, an idle bus: the lines are a draw (R490), here both high and not busy (log entry 5). -/
def Core.reset : Core :=
  { inflight := none, sda := true, scl := true, busy := false, xfer := .idle, matchRd := false, trace := [],
    cuts := 0 }

/-- The master engine idle (R80). -/
def Master.reset : Master :=
  { slaveOp := false, msgs := none, nmsgs := 0, cur := 0, cnt := 0, last := false, mode := .byte, err := 0,
    done := false, waiting := .none, mstate := .idle, len := 0, lenExt := false, xlen := 0, xmode := .byte,
    addrInChunk := false, started := false, stopIssued := false, stopSeen := false, mLoan := false }

/-- An empty slot with nothing written (R68, R80). -/
def Slot.reset : Slot := { state := .empty, addr := 0, len := 0, buf := [] }

/-- The slave engine idle, its ring of `cap` slots empty (R80). -/
def Slave.reset (cap : Nat) : Slave :=
  { sLoan := false, sstate := .idle, slaveEnabled := false, sCur := none, sXlen := 0, sXmode := .byte, sMode := .byte,
    txOff := 0, ring := List.replicate cap Slot.reset, wr := 0, rd := 0, ready := 0, txbuf := [], txLen := 0 }

/-- Counters and status zero, the FSM idle (R80); `savedFun` is log entry 5's. -/
def Recov.reset : Recov :=
  { masterResetCnt := 0, slaveRecoverCnt := 0, recovStatus := 0, rstate := .idle, savedFun := 0 }

/-- Streams empty (R80). -/
def Outs.reset : Outs := { log := [], alertFwd := 0, readerWake := 0, regTrace := [] }

/-- No blocking call. -/
def Thread.idle : Thread := { pc := .idle, call := .none, n := 0, desc := 0, bound := 0, attempt := 0, reached := 0 }

/-- An instance after reset, both locks free (R80). -/
def Inst.reset (cap : Nat) : Inst :=
  { regs := Regs.reset, core := Core.reset, master := Master.reset, slave := Slave.reset cap, recov := Recov.reset,
    outs := Outs.reset, thread := Thread.idle, lockM := none, lockS := none }

/-- The machine after hardware reset, with parameters `c` (R490). -/
def State.resetWith (c : Config) : State :=
  { cfg := c, insts := List.replicate c.nInst (Inst.reset c.ringCap), poolOwner := none, pool := [], dma := [],
    mem := [], draws := 0, ret := .none, inbox := [] }

/-- The machine after hardware reset, with the default parameters (R8, R80, R490). -/
def State.reset : State := State.resetWith Config.default

end Sys2Proof.Machine
end

