-- ==== Sys2Proof/Machine/Flags.lean ====
section
/-! DEFINITION. The flag words: the status bits of R45 and R134, the error accumulator of R149, the recovery status of
R150, the result codes of R148, and the interrupt line of R184. -/

namespace Sys2Proof.Machine

open Sys2Proof

/-! ## Status bits (R45, R134) -/

def TX_ACK : Word := 0x0001#32
def TX_NAK : Word := 0x0002#32
def RX_DONE : Word := 0x0004#32
def ARB_LOSS : Word := 0x0008#32
def NORMAL_STOP : Word := 0x0010#32
def ABNORMAL : Word := 0x0020#32
def SCL_TIMEOUT : Word := 0x0040#32
def SLAVE_MATCH : Word := 0x0080#32
def SMBUS_ALERT : Word := 0x0200#32
def SMBUS_ARP : Word := 0x0400#32
def SMBUS_ALERT_RESP : Word := 0x0800#32
def BUS_RECOVER_DONE : Word := 0x2000#32

/-- Every bit the core can set (R134). -/
def STS_ANY : Word := 0x7FFF#32

/-- The three SMBus signals together (R383). -/
def STS_SMBUS : Word := SMBUS_ALERT ||| SMBUS_ARP ||| SMBUS_ALERT_RESP

/-- The bit an SMBus event latches (R228). -/
def smbusMask : SmbusBit → Word
  | .alert => SMBUS_ALERT
  | .arp => SMBUS_ARP
  | .alertResp => SMBUS_ALERT_RESP
  | .reserved8 => 0x0100#32
  | .reserved12 => 0x1000#32
  | .reserved14 => 0x4000#32

/-- Whether a word has a bit of a mask. -/
def anyOf (w m : Word) : Bool := w &&& m != 0#32

/-! ## Function control (R41) -/

def MASTER_EN : Word := 0x1#32
def SLAVE_EN : Word := 0x2#32

/-! ## The error accumulator (R149) -/

def ERR_NACK : Word := 0x00000002#32
def ERR_ARB : Word := 0x00000008#32
def ERR_ABNORMAL : Word := 0x00000020#32
def ERR_SCL_TO : Word := 0x00000040#32
def ERR_PROTO : Word := 0x00010000#32
def ERR_UNCLASS : Word := 0x00020000#32
def ERR_PREEMPT : Word := 0x00040000#32
def ERR_OVERRUN : Word := 0x00080000#32

/-! ## Recovery status (R150) -/

def PATH_NOTHING : Word := 0x001#32
def PATH_MASTER_STOP : Word := 0x002#32
def PATH_SLAVE_DEAD : Word := 0x004#32
def PATH_UNCLASSIFIED : Word := 0x008#32
def FAIL_TIMEOUT : Word := 0x100#32
def FAIL_ERROR : Word := 0x200#32
def FAIL_EXHAUSTED : Word := 0x400#32
def FAIL_UNCLASSIFIED : Word := 0x800#32

/-! ## Result codes (R148) -/

/-- The codes that report a failure; R_NOTHING and R_OK do not (R148). -/
def codeFailed : Code → Bool
  | .io | .again | .busy | .inval | .nodata | .timeout | .nack | .recov => true
  | .nothing | .ok => false

/-- A result below zero (R137). -/
def Result.failed : Result → Bool
  | .count _ => false
  | .code c => codeFailed c

/-- The word a result is returned as (R137, R148). -/
def Result.word (c : Config) : Result → Word
  | .count n => BitVec.ofNat 32 n
  | .code r => c.code r

/-- The results SUBMIT retries (R302). -/
def transient (r : Result) : Bool := r == .code .busy || r == .code .nack || r == .code .again

/-- The result the blocking side takes from the accumulator, none for a clean wake, in the order of R310. -/
def wakeResult (e : Word) : Option Code :=
  if anyOf e (ERR_ABNORMAL ||| ERR_SCL_TO ||| ERR_UNCLASS ||| ERR_OVERRUN) then some .io
  else if anyOf e ERR_PROTO then some .io
  else if anyOf e (ERR_ARB ||| ERR_PREEMPT) then some .again
  else if anyOf e ERR_NACK then some .nack
  else none

/-- Whether a wake runs BUS_RESET: the accumulator holds ERR_PROTO and none of the faults for which the decoder has
already forced the reset (R310, R312). -/
def wakeResets (e : Word) : Bool :=
  !anyOf e (ERR_ABNORMAL ||| ERR_SCL_TO ||| ERR_UNCLASS ||| ERR_OVERRUN) && anyOf e ERR_PROTO

/-- The saturating increment of a recovery counter (R426). -/
def satInc (c : Word) : Word := if c = 0xFFFFFFFF#32 then c else c + 1#32

/-- Writing `v` to a write-one-to-clear status word (R176). -/
def w1c (old v : Word) : Word := old &&& ~~~v &&& STS_ANY

/-! ## The interrupt line (R184, R53) -/

/-- The interrupt line of an instance. -/
def Inst.irq (x : Inst) : Bool := anyOf x.regs.intrSts x.regs.intrCtrl

/-- Bit k is the line of the k-th instance. -/
def groupWord : List Inst → Word
  | [] => 0#32
  | x :: r => (groupWord r <<< 1) ||| (if x.irq then 1#32 else 0#32)

/-- GROUP_STS, a view (R53, R183). -/
def State.groupSts (s : State) : Word := groupWord s.insts

/-- The role of an instance (R60). -/
inductive Role where
  | idle
  | masterActive
  | slaveActive
deriving DecidableEq, Repr

/-- The role function of R60. -/
def Inst.role (x : Inst) : Role :=
  if x.master.slaveOp then .slaveActive else if x.master.mstate ≠ .idle then .masterActive else .idle

/-- XFER_STATE's class is SLAVE (R47). -/
def XferState.isSlave : XferState → Bool
  | .slave _ => true
  | _ => false

/-- XFER_STATE's class is MASTER (R47). -/
def XferState.isMaster : XferState → Bool
  | .master _ => true
  | _ => false

/-- XFER_STATE's code (R47). -/
def XferState.code : XferState → Nat
  | .idle => 0
  | .slave c => c.val + 1
  | .master c => c.val + 8

end Sys2Proof.Machine
end

