-- ==== Sys2Proof/Machine/Operands.lean ====
section
/-! DEFINITION. Operand assembly: the address byte (R139), the command words' properties and paths (R202, R133), the
DMA length codecs (R283), the message descriptor (R136, R301), and the planning of a chunk (R261 to R263, R268, R269,
R270, R276). Everything here is a pure function. -/

namespace Sys2Proof.Machine

open Sys2Proof

/-- The address byte: the address above the direction bit, 1 for a read (R139). -/
def abyte (addr : BitVec 7) (rd : Bool) : Byte := addr ++ BitVec.ofBool rd

/-! ## Command words (R202) -/

/-- A command of the master side (R202). -/
def cmdIsMaster : Cmd → Bool
  | .nop | .sRx | .sTx => false
  | .startTx | .startTxStop | .tx | .txStop | .rx | .rxLast | .rxLastStop | .stop | .recover => true

/-- A transmit: the four TX words and C.S_TX (R202). -/
def cmdIsTx : Cmd → Bool
  | .startTx | .startTxStop | .tx | .txStop | .sTx => true
  | .nop | .sRx | .rx | .rxLast | .rxLastStop | .stop | .recover => false

/-- A receive: the three RX words and C.S_RX (R202, R212). -/
def cmdIsRx : Cmd → Bool
  | .rx | .rxLast | .rxLastStop | .sRx => true
  | .nop | .startTx | .startTxStop | .tx | .txStop | .sTx | .stop | .recover => false

/-- The command carries M_START (R133). -/
def cmdHasStart : Cmd → Bool
  | .startTx | .startTxStop => true
  | .nop | .sRx | .tx | .txStop | .rx | .rxLast | .rxLastStop | .stop | .sTx | .recover => false

/-- A data command that carries M_STOP, `S` of R216 and R217 (R133). -/
def cmdHasStop : Cmd → Bool
  | .startTxStop | .txStop | .rxLastStop => true
  | .nop | .sRx | .startTx | .tx | .rx | .rxLast | .stop | .sTx | .recover => false

/-- The command answers its last received byte with NACK (R133, R208, R209). -/
def cmdNacksLast : Cmd → Bool
  | .rxLast | .rxLastStop => true
  | .nop | .sRx | .startTx | .startTxStop | .tx | .txStop | .rx | .stop | .sTx | .recover => false

/-- The data path an EN selects (R202). -/
def pathOf (en : BitVec 4) : Path :=
  if en.getLsbD 0 || en.getLsbD 1 then .buf else if en.getLsbD 2 || en.getLsbD 3 then .dma else .byte

/-! ## Modes (R151, R261) -/

/-- The largest chunk of a mode (R261). -/
def maxChunk (c : Config) : Mode → Nat
  | .byte => 1
  | .buf => c.poolPage
  | .dmaDec => c.dmaWin
  | .dmaInc => c.dmaWin

/-- The largest chunk of a path (R202). -/
def maxPath (c : Config) : Path → Nat
  | .byte => 1
  | .buf => c.poolPage
  | .dma => c.dmaWin

/-- The transmit enable of a mode (R263). -/
def txEnable : Mode → Word
  | .byte => 0#32
  | .buf => 0x040#32
  | .dmaDec => 0x100#32
  | .dmaInc => 0x100#32

/-- The receive enable of a mode (R263). -/
def rxEnable : Mode → Word
  | .byte => 0#32
  | .buf => 0x080#32
  | .dmaDec => 0x200#32
  | .dmaInc => 0x200#32

/-- The configured mode of a role (R9). -/
def prefMode (c : InstConfig) : Side → Mode
  | .master => c.masterMode
  | .slave => c.slaveMode

/-- Whether the core decodes DMA_LEN by the DMA_INC codec for a command of this role: "the configured mode of the role
the command belongs to" (R202); for a role configured to a mode that is no DMA mode, the variant's own (log entry 9). -/
def coreInc (c : InstConfig) (master : Bool) : Bool :=
  match prefMode c (if master then .master else .slave) with
  | .dmaInc => true
  | .dmaDec => false
  | .byte | .buf => c.otherInc

/-! ## The DMA length codecs (R283) -/

/-- The codec the core uses for a command of a role (R202, R283). -/
def coreCodec (c : Config) (ic : InstConfig) (master : Bool) : Codec := c.codec (coreInc ic master)

/-- encode: the value the engine writes for a chunk of n bytes. -/
def dmaEncode (k : Codec) (n : Nat) : Word :=
  match k with
  | .remaining => BitVec.ofNat 32 n
  | .remainingLessOne => BitVec.ofNat 32 (n - 1)
  | .table t => (t.enc.lookup n).getD 0#32

/-- count: the n the core takes from a programmed value. -/
def dmaCount (k : Codec) (v : Word) : Nat :=
  match k with
  | .remaining => v.toNat
  | .remainingLessOne => v.toNat + 1
  | .table t => (t.cnt.lookup v).getD 0

/-- readback: the value the core leaves after moving m of n bytes. -/
def dmaReadback (k : Codec) (n m : Nat) : Word :=
  match k with
  | .remaining => BitVec.ofNat 32 (n - m)
  | .remainingLessOne => BitVec.ofInt 32 ((n : Int) - 1 - m)
  | .table t => (t.rb.lookup (n, m)).getD 0#32

/-- A value of DMA_LEN between two others, chosen by k: for DMA_INC among the two's-complement numbers its read-back
stands for, for DMA_DEC among unsigned numbers (R182, R283; the orders are log entry 10's). -/
def dmaPick (inc : Bool) (p q : Word) (k : Nat) : Word :=
  if inc then BitVec.ofInt 32 (min p.toInt q.toInt + (k % ((p.toInt - q.toInt).natAbs + 1) : Nat))
  else BitVec.ofNat 32 (min p.toNat q.toNat + k % (max p.toNat q.toNat - min p.toNat q.toNat + 1))

/-- decode: the count the engine computes, none for BAD. -/
def dmaDecode (k : Codec) (n : Nat) (r : Word) : Option Nat :=
  match k with
  | .remaining => if r.toNat ≤ n then some (n - r.toNat) else none
  | .remainingLessOne =>
    if -1 ≤ r.toInt ∧ r.toInt ≤ (n : Int) - 1 then some ((n : Int) - 1 - r.toInt).toNat else none
  | .table t => t.dec.lookup (n, r)

/-- The law every codec must satisfy, for the chunks of a window (R283). -/
def codecLaw (k : Codec) (win : Nat) : Prop :=
  ∀ n, 1 ≤ n → n ≤ win →
    dmaCount k (dmaEncode k n) = n ∧ ∀ m, m ≤ n → dmaDecode k n (dmaReadback k n m) = some m

/-- Both codecs of the machine keep R283's law for its DMA window. -/
def codecsLaw (c : Config) : Prop := codecLaw c.codecDec c.dmaWin ∧ codecLaw c.codecInc c.dmaWin

/-! ## The message descriptor (R136) -/

/-- A message record (R77), with whether a reserved bit of its word 0 is set. -/
structure Msg where
  addr      : BitVec 7
  rd        : Bool
  noStart   : Bool
  ignoreNak : Bool
  recvLen   : Bool
  reserved  : Bool
  len       : Nat
  buf       : Nat
  cap       : Nat
deriving DecidableEq, Repr

/-- A descriptor's three words (R136). -/
def msgOfWords (w0 w1 w2 : Word) : Msg :=
  { addr := w0.extractLsb' 0 7, rd := w0.getLsbD 8, noStart := w0.getLsbD 9, ignoreNak := w0.getLsbD 10,
    recvLen := w0.getLsbD 11, reserved := w0 &&& 0x0000F080#32 != 0#32, len := (w0.extractLsb' 16 16).toNat,
    buf := w1.toNat, cap := w2.toNat }

/-- One message of a set is acceptable after the message before it (R301). -/
def msgOk (prev : Option Msg) (m : Msg) : Bool :=
  !m.reserved && decide (1 ≤ m.len) && decide (m.len ≤ m.cap)
  && (!m.recvLen || (m.rd && decide (m.len + 255 ≤ m.cap)))
  && (!m.noStart || match prev with
      | none => false
      | some p => p.rd == m.rd)

/-- A message set is acceptable (R301, R144), its length apart. -/
def msgsOk : Option Msg → List Msg → Bool
  | _, [] => true
  | prev, m :: r => msgOk prev m && msgsOk (some m) r

/-! ## Planning a chunk (R261 to R263) -/

/-- What the next chunk is: whether it carries the address byte, its payload size, whether it is the addressing chunk
of a read (R268), its command word, and whether STOP goes with it (P of R263). -/
structure Plan where
  addr       : Bool
  payload    : Nat
  addressing : Bool
  cmd        : Cmd
  stop       : Bool
deriving DecidableEq, Repr

/-- STOP_DEFERRED(mode, rd), never for a read (R270). -/
def stopDeferred (c : Config) (mode : Mode) (rd : Bool) : Bool := !rd && c.stopDeferred.contains mode

/-- The next chunk of message `m` from the progress `p` (R261, R262, R263, R268, R269, R276). -/
def planChunk (c : Config) (m : Msg) (p : Master) : Plan :=
  let start := !p.started && !m.noStart
  if m.rd && start then
    { addr := true, payload := 0, addressing := true, cmd := .startTx, stop := false }
  else
    let lenByte := m.rd && m.recvLen && !p.lenExt
    let a := if start then 1 else 0
    let pay := if lenByte then 1 else min (p.len.toNat - p.cnt.toNat) (maxChunk c p.mode - a)
    let fin := !lenByte && p.cnt.toNat + pay == p.len.toNat
    let stop := fin && p.last && !stopDeferred c p.mode m.rd
    let cmd :=
      if m.rd then
        if !fin then .rx else if stop then .rxLastStop else .rxLast
      else if start then
        if stop then .startTxStop else .startTx
      else if stop then .txStop else .tx
    { addr := start, payload := pay, addressing := false, cmd := cmd, stop := stop }

/-- The number of bytes a chunk moves, the address byte included (R261). -/
def planLen (q : Plan) : Nat := q.payload + (if q.addr then 1 else 0)

/-- The kind of completion a chunk in flight expects (R316). -/
def expectedKind (rd addrInChunk : Bool) : Kind := if !rd || addrInChunk then .tx else .rx

end Sys2Proof.Machine
end

