-- ==== Sys2Proof/Machine/Ops.lean ====
section
/-! DEFINITION. The named operations over memory, registers and engine state that every meaning is written with: byte
spaces in canonical form, the operation monad, instances and locks, register reads and writes with the issue of a
command and the core reset, the completion signal, raising an error event, and the pool loan. What a processor calls
taking an exception is, in this block, `raiseErr` followed by `complete` (R452, R450): one shared operation each. -/

namespace Sys2Proof.Machine

open Sys2Proof

/-! ## Byte spaces -/

/-- The size of a byte space's address range (R100). -/
def spaceSize : Nat := 4294967296

/-- The byte at an address, none where nothing has been written. -/
def Memory.get : Memory → Nat → Option Byte
  | [], _ => none
  | (k, b) :: r, a => if k = a then some b else Memory.get r a

/-- Write one byte, keeping the addresses strictly rising. -/
def Memory.set : Memory → Nat → Byte → Memory
  | [], a, v => [(a, v)]
  | (k, b) :: r, a, v =>
    if a < k then (a, v) :: (k, b) :: r
    else if a = k then (a, v) :: r
    else (k, b) :: Memory.set r a v

/-- The canonical form: strictly rising addresses. An unlisted address holds no value, so every entry differs from
what an unlisted address reads as. -/
def Memory.wf (m : Memory) : Bool := decide (m.Pairwise (fun x y => x.1 < y.1))

/-- n bytes from an address, none if one of them was never written. -/
def Memory.readN (m : Memory) (a : Nat) : Nat → Option (List Byte)
  | 0 => some []
  | n + 1 => match Memory.get m a, Memory.readN m (a + 1) n with
    | some b, some r => some (b :: r)
    | _, _ => none

/-- Write a list of bytes from an address, the first at the lowest (R102). -/
def Memory.writeN (m : Memory) (a : Nat) : List Byte → Memory
  | [] => m
  | b :: r => Memory.writeN (Memory.set m a b) (a + 1) r

/-! ## The operation monad -/

/-- Why an operation stops. -/
inductive Stop where
  | fault (f : Fault)
  | refuse (r : Refusal)
deriving DecidableEq, Repr

/-- An operation: from a state, a value and the next state, or a stop that leaves no state. -/
abbrev Op (α : Type) := StateT State (Except Stop) α

/-- The outcome of an operation as a step: its value goes to `ret`. -/
def runOp (op : Op Ret) (s : State) : Host.Outcome State Fault Refusal :=
  match op s with
  | .ok (r, s') => .next { s' with ret := r }
  | .error (.fault f) => .fault f
  | .error (.refuse r) => .refused r

/-- Stop with a fault. -/
def opFault {α : Type} (f : Fault) : Op α := fun _ => .error (.fault f)

/-- Stop with a refusal (R12 `refuse`). -/
def opRefuse {α : Type} (r : Refusal) : Op α := fun _ => .error (.refuse r)

/-- The state as it is. -/
def getState : Op State := fun s => .ok (s, s)

/-- Change the state. -/
def modState (f : State → State) : Op Unit := fun s => .ok ((), f s)

/-- Run an operation when a condition holds. -/
def whenB (c : Bool) (op : Op Unit) : Op Unit := if c then op else pure ()

/-- Go on only when a condition holds. -/
def require (c : Bool) (r : Refusal) : Op Unit := if c then pure () else opRefuse r

/-- The next free value's number. -/
def draw : Op Nat := fun s => .ok (s.draws, { s with draws := s.draws + 1 })

/-- A word as an operation's value. -/
def retWord (w : Word) : Op Ret := pure (.word w)

/-- A number as an operation's value (R137). -/
def retNat (n : Nat) : Op Ret := pure (.word (BitVec.ofNat 32 n))

/-- A result code as an operation's value (R137, R148). -/
def retCode (r : Code) : Op Ret := fun s => .ok (.word (s.cfg.code r), s)

/-! ## Instances -/

/-- An instance, which must exist (R32). -/
def getInst (i : Nat) : Op Inst := fun s =>
  match s.insts[i]? with
  | some x => .ok (x, s)
  | none => .error (.refuse .noSuchInstance)

/-- The state with one instance changed, nothing when it does not exist. -/
def State.updInst (s : State) (i : Nat) (f : Inst → Inst) : State := { s with insts := s.insts.modify i f }

/-- Change an instance. -/
def modInst (i : Nat) (f : Inst → Inst) : Op Unit := modState fun s => s.updInst i f

/-- An operation of an existing instance, as a step (R32). -/
def stepOn (i : InstId) (op : Nat → Op Ret) (s : State) : Host.Outcome State Fault Refusal :=
  runOp (do
    let _ ← getInst i.toNat
    op i.toNat) s

/-- An operation that returns nothing. -/
def noRet (op : Op Unit) : Op Ret := do
  op
  pure .none

/-- Change an instance's registers. -/
def modRegs (i : Nat) (f : Regs → Regs) : Op Unit := modInst i fun x => { x with regs := f x.regs }

/-- Change an instance's core. -/
def modCore (i : Nat) (f : Core → Core) : Op Unit := modInst i fun x => { x with core := f x.core }

/-- Change an instance's master fields. -/
def modMaster (i : Nat) (f : Master → Master) : Op Unit := modInst i fun x => { x with master := f x.master }

/-- Change an instance's slave fields. -/
def modSlave (i : Nat) (f : Slave → Slave) : Op Unit := modInst i fun x => { x with slave := f x.slave }

/-- Change an instance's recovery fields. -/
def modRecov (i : Nat) (f : Recov → Recov) : Op Unit := modInst i fun x => { x with recov := f x.recov }

/-- Change an instance's output streams. -/
def modOuts (i : Nat) (f : Outs → Outs) : Op Unit := modInst i fun x => { x with outs := f x.outs }

/-- Change an instance's thread. -/
def modThread (i : Nat) (f : Thread → Thread) : Op Unit := modInst i fun x => { x with thread := f x.thread }

/-- The parameters. -/
def getCfg : Op Config := fun s => .ok (s.cfg, s)

/-- The configuration of an instance (R9). -/
def getInstCfg (i : Nat) : Op InstConfig := fun s => .ok (s.cfg.inst i, s)

/-- An operation bracketed by lock M runs only when the lock is free, and leaves it free (R109, R112). -/
def needM (i : Nat) : Op Unit := do
  let x ← getInst i
  require x.lockM.isNone .lockHeld

/-- An operation bracketed by lock S runs only when the lock is free, and leaves it free (R110, R112). -/
def needS (i : Nat) : Op Unit := do
  let x ← getInst i
  require x.lockS.isNone .lockHeld

/-- A slave operation needs the slave engine (R358). -/
def needSlave : Op Unit := do
  let c ← getCfg
  require c.slavePresent .slaveAbsent

/-! ## Copies between byte spaces (R100, R104) -/

/-- n bytes of a byte space; a byte nothing has written faults (R80), an address beyond the space too. -/
def memRead (m : Memory) (a n : Nat) : Op (List Byte) :=
  if a + n ≤ spaceSize then
    match Memory.readN m a n with
    | some bs => pure bs
    | none => opFault .unwrittenByte
  else opFault .outsideSpace

/-- Bytes of the pool page from its offset 0. -/
def poolRead (n : Nat) : Op (List Byte) := do
  let s ← getState
  memRead s.pool 0 n

/-- Write the pool page from its offset 0. -/
def poolWrite (bs : List Byte) : Op Unit := modState fun s => { s with pool := Memory.writeN s.pool 0 bs }

/-- Bytes of the DMA space. -/
def dmaRead (a n : Nat) : Op (List Byte) := do
  let s ← getState
  memRead s.dma a n

/-- Write the DMA space. -/
def dmaWrite (a : Nat) (bs : List Byte) : Op Unit :=
  if a + bs.length ≤ spaceSize then modState fun s => { s with dma := Memory.writeN s.dma a bs }
  else opFault .outsideSpace

/-- Bytes of host memory. -/
def hostRead (a n : Nat) : Op (List Byte) := do
  let s ← getState
  memRead s.mem a n

/-- Write host memory. -/
def hostWrite (a : Nat) (bs : List Byte) : Op Unit :=
  if a + bs.length ≤ spaceSize then modState fun s => { s with mem := Memory.writeN s.mem a bs }
  else opFault .outsideSpace

/-- The words of a byte list, little-endian (R102). -/
def wordsOf : List Byte → List Word
  | b0 :: b1 :: b2 :: b3 :: r => Word.ofBytes b0 b1 b2 b3 :: wordsOf r
  | _ => []

/-- The k-th descriptor of a set at `desc`, at `desc + 12 k` (R102, R136). -/
def readMsg (desc : Word) (k : Nat) : Op Msg := do
  let bs ← hostRead (desc.toNat + 12 * k) 12
  match wordsOf bs with
  | [w0, w1, w2] => pure (msgOfWords w0 w1 w2)
  | _ => opFault .unwrittenByte

/-- The first n descriptors of a set, from the k-th on. -/
def readMsgs (desc : Word) : Nat → Nat → Op (List Msg)
  | _, 0 => pure []
  | k, n + 1 => do
    let m ← readMsg desc k
    let r ← readMsgs desc (k + 1) n
    pure (m :: r)

/-- The message being transferred, `msgs[cur]` (R61). -/
def curMsg (i : Nat) : Op Msg := do
  let x ← getInst i
  match x.master.msgs with
  | some d => readMsg d x.master.cur.toNat
  | none => opRefuse .noMessageSet

/-! ## Streams, errors, the completion signal -/

/-- Append a diagnostic record (R75). -/
def logRec (i : Nat) (r : LogRec) : Op Unit := modOuts i fun o => { o with log := o.log ++ [r] }

/-- Record an error event in the accumulator; nothing else happens (R12, R452). -/
def raiseErr (i : Nat) (e : Word) : Op Unit := modMaster i fun m => { m with err := m.err ||| e }

/-- Fire the completion signal: it is set only when someone waits (R62). -/
def complete (i : Nat) : Op Unit :=
  modMaster i fun m => { m with done := if m.waiting = .none then m.done else true }

/-- Arm a wait: the signal is cleared and the kind of wait set (R62). -/
def armWait (i : Nat) (w : Waiting) : Op Unit := modMaster i fun m => { m with done := false, waiting := w }

/-- Disarm the wait. -/
def disarmWait (i : Nat) : Op Unit := modMaster i fun m => { m with done := false, waiting := .none }

/-- Latch status bits; bits 31:15 are hardwired 0 (R45). -/
def latch (i : Nat) (w : Word) : Op Unit := modRegs i fun r => { r with intrSts := (r.intrSts ||| w) &&& STS_ANY }

/-! ## Register reads (R170, R172 to R183) -/

/-- The read view of CMD (R177). -/
def Inst.cmdView (x : Inst) : Word :=
  (BitVec.ofNat 32 x.core.xfer.code <<< 19)
  ||| (if x.core.sda then 0x40000#32 else 0#32)
  ||| (if x.core.scl then 0x20000#32 else 0#32)
  ||| (if x.core.busy then 0x10000#32 else 0#32)
  ||| (if x.regs.alertEn then 0x400#32 else 0#32)
  ||| (0#22 ++ x.regs.en ++ 0#6)
  ||| (match x.core.inflight with
      | none => 0#32
      | some f => f.cmd.action)

/-- The read view of a register, DMA_LEN in flight apart (R172 to R182). -/
def Inst.view (x : Inst) : Reg → Word
  | .funCtrl => x.regs.funCtrl
  | .acTiming1 => x.regs.acTiming1
  | .acTiming2 => x.regs.acTiming2
  | .intrCtrl => x.regs.intrCtrl
  | .intrSts => x.regs.intrSts
  | .cmd => x.cmdView
  | .devAddr => x.regs.devAddr
  | .bufCtrl => x.regs.bufCtrl
  | .byteData => 0#16 ++ x.regs.byteRx ++ x.regs.byteTx
  | .dmaBase => x.regs.dmaBase
  | .dmaLen => x.regs.dmaLen

/-- The DMA-mode command whose bytes are moving, none otherwise (R182). -/
def Inst.dmaInFlight (x : Inst) : Option InFlight :=
  match x.core.inflight with
  | some f => if f.path = .dma ∧ f.phase = .data then some f else none
  | none => none

/-- What a scheduled operation makes of the DMA-mode command f of instance i whose bytes are moving. -/
inductive Fate where
  /-- nothing its count depends on: the command goes on -/
  | goesOn
  /-- it is cut short or dropped, its count open (R219, R220, R229) -/
  | cut
  /-- it completes, DMA_LEN at this final value (R216, R217, R218, R221, R223) -/
  | done (final : Word)
deriving DecidableEq, Repr

/-- A write of v to FUN_CTRL drops the command: it turns off the command's side, which was on (R229). -/
def InFlight.droppedBy (f : InFlight) (on : Bool) (v : Word) : Bool :=
  on && !(if cmdIsMaster f.cmd then v.getLsbD 0 else v.getLsbD 1)

/-- The fate of a DMA-mode command in flight under one operation: its outcome, by R218's report or a miscounted one; the
remote master's STOP, which closes a window (R222); a fault; a match that drops it; or a write that turns its side off.
`on` is whether its side is on, `back` the FUN_CTRL that the next CTRL_RESET only writes back, being the second of an
operator's BUS_RESET (R429). Every other operation lets it go on, a handler or a wake that may reset the core among them
(log entry 10). -/
def InFlight.fate (f : InFlight) (c : Config) (k : Codec) (i : Nat) (on : Bool) (back : Option Word) : Instr → Fate
  | .kAck j _ mis => if j.toNat = i ∧ cmdIsTx f.cmd then .done (mis.getD (dmaReadback k f.n f.n)) else .goesOn
  | .kNack j m _ mis => if j.toNat = i ∧ cmdIsTx f.cmd then .done (mis.getD (dmaReadback k f.n m.toNat)) else .goesOn
  | .kRx j (.window bs) _ mis =>
    if j.toNat = i ∧ cmdIsRx f.cmd then .done (mis.getD (dmaReadback k f.n bs.length)) else .goesOn
  | .kRx j (.direct _) stop _ => if j.toNat = i ∧ f.cmd = .sRx ∧ stop then .done (dmaReadback k f.n 0) else .goesOn
  | .kStop j => if j.toNat = i ∧ f.cmd = .sRx then .done (dmaReadback k f.n 0) else .goesOn
  | .kArb g | .kAbn g | .kSclto g => if g.inst.toNat = i then .cut else .goesOn
  | .kMatch j _ _ => if j.toNat = i ∧ cmdIsMaster f.cmd then .cut else .goesOn
  | .wrFunCtrl j v => if j.toNat = i ∧ f.droppedBy on v then .cut else .goesOn
  | .ctrlReset j => if j.toNat = i ∧ f.droppedBy on (back.getD 0#32) then .cut else .goesOn
  | .regInit j => if j.toNat = i ∧ f.droppedBy on 0#32 then .cut else .goesOn
  | .slaveDisable j => if j.toNat = i ∧ c.slavePresent ∧ on ∧ !cmdIsMaster f.cmd then .cut else .goesOn
  | _ => .goesOn

/-- The FUN_CTRL that instance i's next CTRL_RESET only writes back, after one more operation: none once it has. -/
def backAfter (i : Nat) (back : Option Word) : Instr → Option Word
  | .ctrlReset j => if j.toNat = i then none else back
  | _ => back

/-- The final value of DMA_LEN for the command f in flight, as the schedule has it: the outcome the schedule holds for
it, and for a command that is cut short, or that the schedule does not end, the open count q (R182; log entry 10). -/
def InFlight.final (f : InFlight) (c : Config) (k : Codec) (i : Nat) (on : Bool) (q : Word) :
    Option Word → List (List Byte) → Word
  | _, [] => q
  | back, w :: r => match decode c w with
    | .error _ => q
    | .ok o => match f.fate c k i on back o with
      | .goesOn => f.final c k i on q (backAfter i back o) r
      | .cut => q
      | .done v => v

/-- The captured FUN_CTRL of an operator's BUS_RESET that has come to the write that restores it (R428, R429). -/
def Thread.back (t : Thread) : Option Word :=
  match t.pc with
  | .resetCtrl f a => if a = 0 then none else some f
  | _ => none

/-- The final value of DMA_LEN for the DMA-mode command f in flight in the instance x (R182). -/
def State.dmaFinal (s : State) (i : Nat) (x : Inst) (f : InFlight) : Word :=
  f.final s.cfg (coreCodec s.cfg (s.cfg.inst i) (cmdIsMaster f.cmd)) i
    (if cmdIsMaster f.cmd then x.regs.funCtrl.getLsbD 0 else x.regs.funCtrl.getLsbD 1)
    (Config.cutCount i x.core.cuts) x.thread.back s.inbox

/-- A register read; it changes nothing (R104). DMA_LEN while a DMA-mode command moves bytes reads as a draw between the
programmed value and the final value (R182). -/
def regRead (i : Nat) (r : Reg) : Op Word := do
  let s ← getState
  let x ← getInst i
  match r, x.dmaInFlight with
  | .dmaLen, some f => do
    let k ← draw
    pure (dmaPick (coreInc (s.cfg.inst i) (cmdIsMaster f.cmd)) f.prog (s.dmaFinal i x f) (Config.freeNat k))
  | r, _ => pure (x.view r)

/-- GROUP_STS read (R183). -/
def readGroup : Op Word := do
  let s ← getState
  pure s.groupSts

/-! ## Register writes (R171 to R183) -/

/-- Append a register write to the observed order (R499). -/
def noteWrite (i : Nat) (r : Reg) (v : Word) : Op Unit :=
  modOuts i fun o => { o with regTrace := o.regTrace ++ [(r, v)] }

/-- CoreResetMaster (R229): the master command in flight is dropped, a MASTER class goes idle, the lines are what the
rest of the bus makes them; no status bit and no count register changes. DESIGN CHOICE: a command whose bytes were moving
leaves DMA_LEN at the programmed value and the bus trace and a receive's window as they were (log entry 29). -/
def Core.resetMaster (c : Core) (a b d : Bool) : Core :=
  { c with
    inflight := match c.inflight with
      | none => none
      | some f => if cmdIsMaster f.cmd then none else some f
    xfer := if c.xfer.isMaster then .idle else c.xfer
    sda := a, scl := b, busy := d }

/-- CoreResetSlave (R229), for a slave command what `Core.resetMaster` is for a master's (log entry 29). -/
def Core.resetSlave (c : Core) (a b d : Bool) : Core :=
  { c with
    inflight := match c.inflight with
      | none => none
      | some f => if cmdIsMaster f.cmd then some f else none
    xfer := if c.xfer.isSlave then .idle else c.xfer
    sda := a, scl := b, busy := d }

/-- A core reset of the master side, its line levels drawn. -/
def coreResetMaster (i : Nat) : Op Unit := do
  let a ← draw
  let b ← draw
  let d ← draw
  modCore i fun c => c.resetMaster (Config.freeBit a) (Config.freeBit b) (Config.freeBit d)

/-- A core reset of the slave side, its line levels drawn. -/
def coreResetSlave (i : Nat) : Op Unit := do
  let a ← draw
  let b ← draw
  let d ← draw
  modCore i fun c => c.resetSlave (Config.freeBit a) (Config.freeBit b) (Config.freeBit d)

/-- FUN_CTRL: stored; a 1→0 transition of an enable resets that side of the core (R172). -/
def writeFunCtrl (i : Nat) (v : Word) : Op Unit := do
  let x ← getInst i
  modRegs i fun r => { r with funCtrl := v }
  whenB (x.regs.funCtrl.getLsbD 0 && !v.getLsbD 0) (coreResetMaster i)
  whenB (x.regs.funCtrl.getLsbD 1 && !v.getLsbD 1) (coreResetSlave i)

/-- The bytes a command takes from its path at issue (R202, R215). -/
def sampleData (x : Inst) (c : Cmd) (p : Path) (n : Nat) : Op (List Byte) :=
  if cmdIsTx c then
    match p with
    | .byte => pure [x.regs.byteTx]
    | .buf => poolRead n
    | .dma => dmaRead x.regs.dmaBase.toNat n
  else pure []

/-- The number of bytes a command is to move (R202). -/
def cmdCount (x : Inst) (g : Config) (ic : InstConfig) (c : Cmd) (p : Path) : Nat :=
  if cmdIsTx c || cmdIsRx c then
    match p with
    | .byte => 1
    | .buf => if cmdIsTx c then (x.regs.bufCtrl.extractLsb' 0 10).toNat else (x.regs.bufCtrl.extractLsb' 10 10).toNat
    | .dma => dmaCount (coreCodec g ic (cmdIsMaster c)) x.regs.dmaLen
  else 0

/-- The core takes a command: it goes in flight, XFER_STATE shows its side, START makes the bus busy (R202, R225). -/
def Core.issue (k : Core) (f : InFlight) (code : Nat) : Core :=
  { k with
    inflight := some f
    xfer := if cmdIsMaster f.cmd then .master (Config.freeMasterCode code) else .slave (Config.freeSlaveCode code)
    busy := if cmdHasStart f.cmd then true else k.busy }

/-- A command that is none of C.NOP and reserved goes to the core (R202): refused while one is in flight (R495) and
for an illegal chunk size (R230), ignored when its side is disabled, else in flight with its data, DMA_BASE and
DMA_LEN sampled (R500), and whether this controller held the bus, which a MASTER XFER_STATE shows (R210, R225;
log entry 32). -/
def issueCmd (i : Nat) (c : Cmd) (en : BitVec 4) : Op Unit := do
  let x ← getInst i
  let cfg ← getCfg
  let ic ← getInstCfg i
  let p := pathOf en
  let n := cmdCount x cfg ic c p
  if x.core.inflight.isSome then opRefuse .commandInFlight
  else if cmdIsMaster c && !x.regs.funCtrl.getLsbD 0 then pure ()
  else if !cmdIsMaster c && !x.regs.funCtrl.getLsbD 1 then pure ()
  else if (cmdIsTx c || cmdIsRx c) && (n == 0 || decide (maxPath cfg p < n)) then opRefuse .illegalChunk
  else do
    let d ← sampleData x c p n
    let code ← draw
    modCore i fun k => k.issue { cmd := c, path := p, n := n, data := d, prog := x.regs.dmaLen, phase := .data,
                                 base := x.regs.dmaBase, held := k.xfer.isMaster } code

/-- CMD: the enables and the level are stored, then the command is issued (R177, R202); a reserved word is refused
(R141), C.NOP issues nothing (R214). -/
def writeCmd (i : Nat) (v : Word) : Op Unit :=
  match cmdOf v with
  | none => opRefuse .reservedCommand
  | some c => do
    modRegs i fun r => { r with en := cmdEn v, alertEn := cmdAlert v }
    whenB (c != .nop) (issueCmd i c (cmdEn v))

/-- A register write (R171): the write is noted, then has its register's effect. -/
def regWrite (i : Nat) (r : Reg) (v : Word) : Op Unit := do
  noteWrite i r v
  match r with
  | .funCtrl => writeFunCtrl i v
  | .acTiming1 => modRegs i fun q => { q with acTiming1 := v }
  | .acTiming2 => modRegs i fun q => { q with acTiming2 := v }
  | .intrCtrl => modRegs i fun q => { q with intrCtrl := v }
  | .intrSts => modRegs i fun q => { q with intrSts := w1c q.intrSts v }
  | .cmd => writeCmd i v
  | .devAddr => modRegs i fun q => { q with devAddr := v }
  | .bufCtrl => modRegs i fun q => { q with bufCtrl := (v &&& 0xC00FFFFF#32) ||| (q.bufCtrl &&& 0x3FF00000#32) }
  | .byteData => modRegs i fun q => { q with byteTx := v.extractLsb' 0 8 }
  | .dmaBase => modRegs i fun q => { q with dmaBase := v }
  | .dmaLen => modRegs i fun q => { q with dmaLen := v }

/-- A CMD write of the engine, which keeps the alert level (R285). -/
def engineCmd (i : Nat) (w : Word) : Op Unit := do
  let c ← regRead i .cmd
  regWrite i .cmd (w ||| (c &&& 0x400#32))

/-! ## The pool loan (R277, R278) -/

/-- Set the loan bit of a side. -/
def setLoan (i : Nat) (side : Side) (b : Bool) : Op Unit :=
  match side with
  | .master => modMaster i fun m => { m with mLoan := b }
  | .slave => modSlave i fun v => { v with sLoan := b }

/-- The loan bit of a side (R66). -/
def Inst.loan (x : Inst) : Side → Bool
  | .master => x.master.mLoan
  | .slave => x.slave.sLoan

/-- POOL_ACQ: a try-lock, never blocking (R277, R114). -/
def poolAcq (i : Nat) (side : Side) : Op Bool := do
  let s ← getState
  if s.poolOwner.isNone then do
    modState fun t => { t with poolOwner := some (i, side) }
    setLoan i side true
    pure true
  else pure false

/-- POOL_REL: unconditional and idempotent (R278). -/
def poolRel (i : Nat) (side : Side) : Op Unit := do
  let x ← getInst i
  if x.loan side then do
    modState fun t => { t with poolOwner := none }
    setLoan i side false
  else pure ()

/-- The pool page may be touched only by a side that holds the loan (R106, R114, R265; log entry 26). -/
def needLoan (i : Nat) (side : Side) : Op Unit := do
  let x ← getInst i
  require (x.loan side) .poolNotOwned

/-- SELECT_MODE: the configured mode, or BYTE when the page or the DMA window is not available (R279). -/
def selectMode (i : Nat) (side : Side) : Op Mode := do
  let ic ← getInstCfg i
  match prefMode ic side with
  | .byte => pure .byte
  | .buf => do
    let got ← poolAcq i side
    pure (if got then .buf else .byte)
  | .dmaDec => pure (if ic.dmaAddr.isSome then .dmaDec else .byte)
  | .dmaInc => pure (if ic.dmaAddr.isSome then .dmaInc else .byte)

/-! ## Buffers a failure leaves unspecified (R116, R497) -/

/-- n free bytes of one draw. -/
def freeBytes (k n : Nat) : List Byte := (List.range n).map (Config.freeByte k)

/-- How many of n bytes from an address lie inside a byte space (R100). -/
def inside (a n : Nat) : Nat := min n (spaceSize - a)

/-- The part of the read buffer of message k of the set at d past its first n bytes, its address and size; none for a
descriptor that cannot be read and for a write message. -/
def unfilled (s : State) (d : Word) (k : Nat) (n : Msg → Nat) : Option (Nat × Nat) :=
  match readMsg d k s with
  | .error _ => none
  | .ok (m, _) =>
    let a := m.buf + n m
    if m.rd then some (a, inside a (m.cap - n m)) else none

/-- The part of the current message's read buffer past the bytes received; none without a message set (R497, R116). -/
def readTail (s : State) (x : Inst) : Option (Nat × Nat) :=
  match x.master.msgs with
  | none => none
  | some d => unfilled s d x.master.cur.toNat fun _ => x.master.cnt.toNat

/-- The bytes that completed chunks have put in the buffer of message k of a call: all of an earlier one's, `cnt` of the
one that was started last, none of one not reached (R497; log entry 29). -/
def Inst.filled (x : Inst) (k : Nat) (m : Msg) : Nat :=
  if k + 1 < x.thread.reached then m.len else if k + 1 = x.thread.reached then x.master.cnt.toNat else 0

/-- The parts of a call's read buffers past the chunks that completed (R300, U13 of 93_implementation_defined.md). -/
def readTails (s : State) (x : Inst) : List (Nat × Nat) :=
  (List.range x.thread.n).filterMap fun k => unfilled s x.thread.desc k (x.filled k)

/-- n bytes of host memory from a on are unspecified from now on: free bytes. -/
def losePart (a n : Nat) : Op Unit := do
  let k ← draw
  modState fun s => { s with mem := Memory.writeN s.mem a (freeBytes k n) }

/-- Parts of host memory, each an address and a size, are unspecified from now on. -/
def loseParts : List (Nat × Nat) → Op Unit
  | [] => pure ()
  | (a, n) :: r => do
    losePart a n
    loseParts r

/-- The read buffer of a failed message holds unspecified bytes past the chunks that completed (R497). -/
def loseTail (i : Nat) : Op Unit := do
  let s ← getState
  let x ← getInst i
  match readTail s x with
  | none => pure ()
  | some (a, n) => losePart a n

/-- The read buffers of a failed call hold unspecified bytes past the chunks that completed, those of messages it never
started from their first byte on (R300; U13 of 93_implementation_defined.md; log entry 29). -/
def loseTails (i : Nat) : Op Unit := do
  let s ← getState
  let x ← getInst i
  loseParts (readTails s x)

/-- From the expiry of a wait on, the pool page when this instance holds a loan of it, the DMA window and BYTE_DATA are
unspecified, and the read buffer too: free bytes (R116, R497; log entry 29). -/
def loseBuffers (i : Nat) : Op Unit := do
  let x ← getInst i
  let c ← getCfg
  let ic ← getInstCfg i
  let k ← draw
  whenB (x.master.mLoan || x.slave.sLoan) (poolWrite (freeBytes k c.poolPage))
  let l ← draw
  modState fun s => { s with dma := match ic.dmaAddr with
    | none => s.dma
    | some a => Memory.writeN s.dma a (freeBytes l (inside a c.dmaWin)) }
  let b ← draw
  modRegs i fun r => { r with byteRx := Config.freeByte b 0 }
  loseTail i

end Sys2Proof.Machine
end

