-- ==== Sys2Proof/Machine/CoreCmd.lean ====
section
/-! DEFINITION. The command words of format CMD (R133): each is the write of its word to CMD (R132, R202). -/

namespace Sys2Proof.Machine

open Sys2Proof

/-- A command word written to an instance's CMD register (R132, R177). -/
def putCmd (i : InstId) (w : Word) (s : State) : Host.Outcome State Fault Refusal :=
  stepOn i (fun i => noRet (regWrite i .cmd w)) s

/-- C.NOP (R214). -/
def execCNop (i : InstId) (en : BitVec 4) (al : Bool) (hi : BitVec 16) (s : State) :
    Host.Outcome State Fault Refusal := putCmd i (cmdWord .nop en al hi) s

/-- C.S_RX (R212). -/
def execCSRx (i : InstId) (en : BitVec 4) (al : Bool) (hi : BitVec 16) (s : State) :
    Host.Outcome State Fault Refusal := putCmd i (cmdWord .sRx en al hi) s

/-- C.START_TX (R203). -/
def execCStartTx (i : InstId) (en : BitVec 4) (al : Bool) (hi : BitVec 16) (s : State) :
    Host.Outcome State Fault Refusal := putCmd i (cmdWord .startTx en al hi) s

/-- C.START_TX_STOP (R204). -/
def execCStartTxStop (i : InstId) (en : BitVec 4) (al : Bool) (hi : BitVec 16) (s : State) :
    Host.Outcome State Fault Refusal := putCmd i (cmdWord .startTxStop en al hi) s

/-- C.TX (R205). -/
def execCTx (i : InstId) (en : BitVec 4) (al : Bool) (hi : BitVec 16) (s : State) :
    Host.Outcome State Fault Refusal := putCmd i (cmdWord .tx en al hi) s

/-- C.TX_STOP (R206). -/
def execCTxStop (i : InstId) (en : BitVec 4) (al : Bool) (hi : BitVec 16) (s : State) :
    Host.Outcome State Fault Refusal := putCmd i (cmdWord .txStop en al hi) s

/-- C.RX (R207). -/
def execCRx (i : InstId) (en : BitVec 4) (al : Bool) (hi : BitVec 16) (s : State) :
    Host.Outcome State Fault Refusal := putCmd i (cmdWord .rx en al hi) s

/-- C.RX_LAST (R208). -/
def execCRxLast (i : InstId) (en : BitVec 4) (al : Bool) (hi : BitVec 16) (s : State) :
    Host.Outcome State Fault Refusal := putCmd i (cmdWord .rxLast en al hi) s

/-- C.RX_LAST_STOP (R209). -/
def execCRxLastStop (i : InstId) (en : BitVec 4) (al : Bool) (hi : BitVec 16) (s : State) :
    Host.Outcome State Fault Refusal := putCmd i (cmdWord .rxLastStop en al hi) s

/-- C.STOP (R210). -/
def execCStop (i : InstId) (en : BitVec 4) (al : Bool) (hi : BitVec 16) (s : State) :
    Host.Outcome State Fault Refusal := putCmd i (cmdWord .stop en al hi) s

/-- C.S_TX (R211). -/
def execCSTx (i : InstId) (en : BitVec 4) (al : Bool) (hi : BitVec 16) (s : State) :
    Host.Outcome State Fault Refusal := putCmd i (cmdWord .sTx en al hi) s

/-- C.RECOVER (R213). -/
def execCRecover (i : InstId) (en : BitVec 4) (al : Bool) (hi : BitVec 16) (s : State) :
    Host.Outcome State Fault Refusal := putCmd i (cmdWord .recover en al hi) s

/-- A reserved command word: "have no defined effect on the core. The model refuses the write" (R141, R230). -/
def execReservedCmd (_ : InstId) (_ : Word) (_ : State) : Host.Outcome State Fault Refusal :=
  .refused .reservedCommand

end Sys2Proof.Machine
end

