-- ==== Sys2Proof/Machine/Timing.lean ====
section
/-! DEFINITION. The clock/timing calculator and the initialisation sequences (42_timing_calculator.md). -/

namespace Sys2Proof.Machine

open Sys2Proof

/-- The halving loop (R240): while the ratio is 16 or more it is halved, counting the halvings and noting an odd
remainder. A 32-bit ratio is below 16 after at most 28 rounds, so the fuel never runs out. -/
def halve : Nat → Nat → Nat → Bool → Nat × Nat × Bool
  | 0, ratio, div, odd => (ratio, div, odd)
  | fuel + 1, ratio, div, odd =>
    if 16 ≤ ratio then halve fuel (ratio / 2) (div + 1) (odd || ratio % 2 == 1) else (ratio, div, odd)

/-- The result of the loop for a pair: r' and the halving count (R240). -/
def halvedRatio (clkIn busFreq : Word) : Nat × Nat :=
  match halve 32 (clkIn.toNat / busFreq.toNat) 0 false with
  | (ratio, div, odd) => (ratio + (if odd then 1 else 0), div)

/-- A valid (frequency target, input clock) pair (R242). -/
def validPair (clkIn busFreq : Word) : Bool :=
  busFreq != 0#32 && decide (2 ≤ (halvedRatio clkIn busFreq).1) && decide ((halvedRatio clkIn busFreq).2 ≤ 15)

/-- The low half-period of a final ratio r' (R240). -/
def lowPeriod (r : Nat) : Nat := r / 2 - 1

/-- The high half-period of a final ratio r' (R240). -/
def highPeriod (r : Nat) : Nat := r - lowPeriod r - 2

/-- The packed timing word (R243). -/
def packTiming (base : Word) (div low high : Nat) : Word :=
  base ||| (BitVec.ofNat 32 high <<< 16) ||| (BitVec.ofNat 32 low <<< 12) ||| BitVec.ofNat 32 div

/-- CALC_TIMING (R240). For a pair that is not valid the formula states no word: a free value. -/
def calcWord (base clkIn busFreq : Word) : Word :=
  if validPair clkIn busFreq then
    match halvedRatio clkIn busFreq with
    | (r, div) => packTiming base div (lowPeriod r) (highPeriod r)
  else Config.invalidTiming clkIn busFreq

/-- The override table's word for an instance, none when it has no entry (R241). -/
def overrideWord (c : Config) (ic : InstConfig) : Option Word :=
  (c.timingOverride.find? (fun e => e.1 == ic.variant && e.2.1 == ic.busFreq.toNat)).map (·.2.2)

/-- TIMING_WORD: the override table first, then the formula (R241). -/
def timingWordOf (c : Config) (ic : InstConfig) : Word :=
  match overrideWord c ic with
  | some w => w
  | none => calcWord c.ac1Base ic.clkIn ic.busFreq

/-- TIMING_WORD of an instance. -/
def timingWord (i : Nat) : Op Word := do
  let c ← getCfg
  let ic ← getInstCfg i
  pure (timingWordOf c ic)

/-- TIMING_INIT: four register writes in this order (R244). -/
def timingInit (i : Nat) : Op Unit := do
  let c ← getCfg
  let w ← timingWord i
  regWrite i .acTiming1 w
  regWrite i .acTiming2 c.ac2Value
  regWrite i .intrSts 0xFFFFFFFF#32
  regWrite i .intrCtrl c.intrMask

/-- The FUN_CTRL value REG_INIT enables: the master always, the slave when the host enabled it (R247). -/
def enableWord (slaveEnabled : Bool) : Word := if slaveEnabled then MASTER_EN ||| SLAVE_EN else MASTER_EN

/-- REG_INIT (R247). -/
def regInit (i : Nat) : Op Unit := do
  regWrite i .funCtrl 0#32
  let x ← getInst i
  regWrite i .funCtrl (enableWord x.slave.slaveEnabled)
  timingInit i

/-- The a-th register write of REG_INIT, for recovery's thread, which makes each access a step of its own (R112). -/
def regInitWrite (i a : Nat) : Op Unit := do
  let x ← getInst i
  let c ← getCfg
  let w ← timingWord i
  match a with
  | 0 => regWrite i .funCtrl 0#32
  | 1 => regWrite i .funCtrl (enableWord x.slave.slaveEnabled)
  | 2 => regWrite i .acTiming1 w
  | 3 => regWrite i .acTiming2 c.ac2Value
  | 4 => regWrite i .intrSts 0xFFFFFFFF#32
  | _ => regWrite i .intrCtrl c.intrMask

/-! ## Meanings -/

/-- CALC_TIMING (R240). -/
def execCalcTiming (clkIn busFreq : Word) (s : State) : Host.Outcome State Fault Refusal :=
  runOp (retWord (calcWord s.cfg.ac1Base clkIn busFreq)) s

/-- TIMING_WORD (R241). -/
def execTimingWord (i : InstId) (s : State) : Host.Outcome State Fault Refusal :=
  stepOn i (fun i => do
    let w ← timingWord i
    retWord w) s

/-- REG_INIT (R247). -/
def execRegInit (i : InstId) (s : State) : Host.Outcome State Fault Refusal :=
  stepOn i (fun i => noRet (regInit i)) s

end Sys2Proof.Machine
end

