-- ==== Sys2Proof/Machine/Reset.lean ====
section
/-! DEFINITION. The software resets: CTRL_RESET, the slave engine's abort, and BUS_RESET, the "reset path" that the
fault handlers, the wake path and the operator share (47_bus_recovery.md R428, R429; 45_slave_engine.md R357). -/

namespace Sys2Proof.Machine

open Sys2Proof

/-- CTRL_RESET: both enables off, then the captured value again (R428). -/
def ctrlReset (i : Nat) : Op Unit := do
  let f ← regRead i .funCtrl
  regWrite i .funCtrl (f &&& ~~~(MASTER_EN ||| SLAVE_EN))
  regWrite i .funCtrl f

/-- Change a slot of the ring. -/
def modSlot (v : Slave) (k : Nat) (f : Slot → Slot) : Slave := { v with ring := v.ring.modify k f }

/-- The open slot is discarded (R357). -/
def discardOpen (v : Slave) : Slave :=
  match v.sCur with
  | some k => modSlot v k fun q => { q with state := .empty, len := 0 }
  | none => v

/-- S_ABORT: the partial message is discarded, the slave engine goes idle, its loan is released; FULL slots, the
cursors and the transmit buffer are kept (R357). -/
def sAbort (i : Nat) : Op Unit := do
  modSlave i fun v => { discardOpen v with sCur := none, sstate := .idle, txOff := 0, sXlen := 0 }
  poolRel i .slave
  modMaster i fun m => { m with slaveOp := false }

/-- BUS_RESET: CTRL_RESET, then TIMING_INIT, then the slave engine's abort when it exists (R429, R358). -/
def busReset (i : Nat) : Op Unit := do
  ctrlReset i
  timingInit i
  let c ← getCfg
  whenB c.slavePresent (sAbort i)

/-- Both locks, which S_ABORT inside BUS_RESET takes one after the other (R357, R111). DESIGN CHOICE: an operation of which
some path takes both is enabled only when both are free (log entry 8). -/
def needLocks (i : Nat) : Op Unit := do
  needM i
  needS i

/-! ## The operator's BUS_RESET, one register access a step (R112, R429) -/

/-- Move an instance's thread to a line. -/
def setPc (i : Nat) (pc : Pc) : Op Unit := modThread i fun t => { t with pc := pc }

/-- The operator's call returns (R429). -/
def resetReturn (i : Nat) : Op Ret := do
  modThread i fun _ => Thread.idle
  retCode .ok

/-- Write a of CTRL_RESET with the captured FUN_CTRL f: both enables off, then f again (R428). -/
def resetCtrlStep (i : Nat) (f : Word) (a : Nat) : Op Ret :=
  if a = 0 then do
    regWrite i .funCtrl (f &&& ~~~(MASTER_EN ||| SLAVE_EN))
    setPc i (.resetCtrl f 1)
    pure .none
  else do
    regWrite i .funCtrl f
    setPc i (.resetTiming 0)
    pure .none

/-- Write a of TIMING_INIT, REG_INIT's last four; after the last the slave engine's abort is next when it exists, else
the call returns (R244, R429, R358). -/
def resetTimingStep (i a : Nat) : Op Ret := do
  let c ← getCfg
  regInitWrite i (a + 2)
  if a < 3 then do
    setPc i (.resetTiming (a + 1))
    pure .none
  else if c.slavePresent then do
    setPc i .resetAbort
    pure .none
  else resetReturn i

/-! ## Meanings -/

/-- CTRL_RESET (R428): whole, or, for an instance whose operator's BUS_RESET has come to it, its next write (R112; log
entry 15). -/
def execCtrlReset (i : InstId) (s : State) : Host.Outcome State Fault Refusal :=
  stepOn i (fun i => do
    let x ← getInst i
    match x.thread.pc with
    | .resetCtrl f a => resetCtrlStep i f a
    | _ => noRet (ctrlReset i)) s

/-- S_ABORT (R357); it ends an operator's BUS_RESET that has come to it (R429). -/
def execSAbort (i : InstId) (s : State) : Host.Outcome State Fault Refusal :=
  stepOn i (fun i => do
    needSlave
    needLocks i
    let x ← getInst i
    sAbort i
    match x.thread.pc with
    | .resetAbort => resetReturn i
    | _ => pure .none) s

/-- TIMING_INIT (R244): whole, or, for an instance whose operator's BUS_RESET has come to it, its next write (R112; log
entry 15). -/
def execTimingInit (i : InstId) (s : State) : Host.Outcome State Fault Refusal :=
  stepOn i (fun i => do
    let x ← getInst i
    match x.thread.pc with
    | .resetTiming a => resetTimingStep i a
    | _ => noRet (timingInit i)) s

end Sys2Proof.Machine
end

