-- ==== Sys2Proof/Machine/Transfer.lean ====
section
/-! DEFINITION. The transfer-mode strategies (43_transfer_modes.md): arming and extraction in the four modes, the next
chunk of a master message, the slave side's windows, the pool loan and the mode selection as operations. -/

namespace Sys2Proof.Machine

open Sys2Proof

/-! ## Programming the hardware, one rule per mode -/

/-- ARM.BYTE's writes (R264): the byte to BYTE_DATA for a transmit, then the command. -/
def progByte (i : Nat) (a : Word) (d : Option Byte) : Op Unit :=
  match d with
  | some b => do
    regWrite i .byteData (0#24 ++ b)
    engineCmd i a
  | none => engineCmd i a

/-- ARM.BUF's writes (R265): the page, BUF_CTRL, then the command with its enable; for a side that holds the loan of the
page (R106, R114). -/
def progBuf (i : Nat) (side : Side) (a : Word) (d : ArmData) : Op Unit := do
  needLoan i side
  let c ← getCfg
  match d with
  | .tx bs =>
    if bs.length == 0 || decide (c.poolPage < bs.length) then opRefuse .illegalChunk
    else do
      poolWrite bs
      regWrite i .bufCtrl (BitVec.ofNat 32 bs.length)
      engineCmd i (a ||| txEnable .buf)
  | .rx n =>
    if n == 0#32 || decide (c.poolPage < n.toNat) then opRefuse .illegalChunk
    else do
      regWrite i .bufCtrl (n <<< 10)
      engineCmd i (a ||| rxEnable .buf)

/-- The instance's DMA window address, which must exist (R105, R279). -/
def dmaAddrOf (i : Nat) : Op Nat := do
  let ic ← getInstCfg i
  match ic.dmaAddr with
  | some a => pure a
  | none => opRefuse .noDmaWindow

/-- ARM.DMA_DEC's and ARM.DMA_INC's writes (R266, R267): the window, DMA_BASE, DMA_LEN, then the command. -/
def progDma (i : Nat) (inc : Bool) (a : Word) (d : ArmData) : Op Unit := do
  let c ← getCfg
  let w ← dmaAddrOf i
  match d with
  | .tx bs =>
    if bs.length == 0 || decide (c.dmaWin < bs.length) then opRefuse .illegalChunk
    else do
      dmaWrite w bs
      regWrite i .dmaBase (BitVec.ofNat 32 w)
      regWrite i .dmaLen (dmaEncode (c.codec inc) bs.length)
      engineCmd i (a ||| txEnable (if inc then .dmaInc else .dmaDec))
  | .rx n =>
    if n == 0#32 || decide (c.dmaWin < n.toNat) then opRefuse .illegalChunk
    else do
      regWrite i .dmaBase (BitVec.ofNat 32 w)
      regWrite i .dmaLen (dmaEncode (c.codec inc) n.toNat)
      engineCmd i (a ||| rxEnable (if inc then .dmaInc else .dmaDec))

/-- Program bytes to send for a side in a mode (R264 to R267); a byte-mode transmit sends one byte. -/
def progTx (i : Nat) (side : Side) (m : Mode) (a : Word) (bs : List Byte) : Op Unit :=
  match m with
  | .byte => progByte i a bs.head?
  | .buf => progBuf i side a (.tx bs)
  | .dmaDec => progDma i false a (.tx bs)
  | .dmaInc => progDma i true a (.tx bs)

/-- Program a receive window of n bytes for a side in a mode (R264 to R267). -/
def progRx (i : Nat) (side : Side) (m : Mode) (a : Word) (n : Nat) : Op Unit :=
  match m with
  | .byte => progByte i a none
  | .buf => progBuf i side a (.rx (BitVec.ofNat 32 n))
  | .dmaDec => progDma i false a (.rx (BitVec.ofNat 32 n))
  | .dmaInc => progDma i true a (.rx (BitVec.ofNat 32 n))

/-- The chunk in flight was armed to move n bytes in mode m (R64). -/
def setChunk (i : Nat) (n : Nat) (m : Mode) : Op Unit :=
  modMaster i fun p => { p with xlen := BitVec.ofNat 32 n, xmode := m }

/-- The slave chunk in flight (R67). -/
def setSlaveChunk (i : Nat) (n : Nat) (m : Mode) : Op Unit :=
  modSlave i fun v => { v with sXlen := BitVec.ofNat 32 n, sXmode := m }

/-- The number of bytes of what an arming operation moves. -/
def armLen : ArmData → Nat
  | .tx bs => bs.length
  | .rx n => n.toNat

/-! ## The next chunk of a message (R260 to R263, R268) -/

/-- ARM_NEXT: plan the chunk from the progress, then program it in its mode; the addressing chunk of a read goes in
byte mode whatever the mode is (R268). -/
def armNext (i : Nat) : Op Unit := do
  let m ← curMsg i
  let c ← getCfg
  let x ← getInst i
  let q := planChunk c m x.master
  let mode := if q.addressing then .byte else x.master.mode
  if m.rd && !q.addressing then
    progRx i .master mode q.cmd.action (planLen q)
  else do
    let pay ← hostRead (m.buf + x.master.cnt.toNat) q.payload
    progTx i .master mode q.cmd.action ((if q.addr then [abyte m.addr m.rd] else []) ++ pay)
  modMaster i fun p => { p with
    xlen := BitVec.ofNat 32 (planLen q), xmode := mode, addrInChunk := q.addr, started := true
    stopIssued := p.stopIssued || q.stop }

/-! ## Extraction (R271 to R274, R282) -/

/-- EXT.m: the count moved by a chunk armed for n bytes in mode m, none for BAD. -/
def extract (i : Nat) (m : Mode) (n : Nat) : Op (Option Nat) := do
  let c ← getCfg
  match m with
  | .byte => pure (some 1)
  | .buf => do
    let w ← regRead i .bufCtrl
    pure (some (w.extractLsb' 20 10).toNat)
  | .dmaDec => do
    let r ← regRead i .dmaLen
    pure (dmaDecode (c.codec false) n r)
  | .dmaInc => do
    let r ← regRead i .dmaLen
    pure (dmaDecode (c.codec true) n r)

/-- The received bytes of a side's chunk in mode m (R275, R345); the pool page is read only by a holder of the loan
(R106). -/
def received (i : Nat) (side : Side) (m : Mode) (k : Nat) : Op (List Byte) :=
  match m with
  | .byte => do
    let w ← regRead i .byteData
    pure [w.extractLsb' 8 8]
  | .buf => do
    needLoan i side
    poolRead k
  | .dmaDec | .dmaInc => do
    let a ← dmaAddrOf i
    dmaRead a k

/-- A count as an operation's value. -/
def retCount : Option Nat → Ret
  | some k => .word (BitVec.ofNat 32 k)
  | none => .bad

/-! ## The slave side (R280, R281) -/

/-- S_ARM_RX: open the next receive window (R280). -/
def sArmRx (i : Nat) : Op Unit := do
  let c ← getCfg
  let x ← getInst i
  match x.slave.sMode with
  | .byte => setSlaveChunk i 1 .byte
  | .buf => do
    progBuf i .slave (Cmd.action .sRx) (.rx (BitVec.ofNat 32 c.poolPage))
    setSlaveChunk i c.poolPage .buf
  | .dmaDec => do
    progDma i false (Cmd.action .sRx) (.rx (BitVec.ofNat 32 c.dmaWin))
    setSlaveChunk i c.dmaWin .dmaDec
  | .dmaInc => do
    progDma i true (Cmd.action .sRx) (.rx (BitVec.ofNat 32 c.dmaWin))
    setSlaveChunk i c.dmaWin .dmaInc

/-- S_ARM_TX: send the next bytes of the transmit buffer, or the filler 0xFF when it is used up (R281). -/
def sArmTx (i : Nat) : Op Unit := do
  let c ← getCfg
  let x ← getInst i
  let p := min (x.slave.txLen - x.slave.txOff.toNat) (maxChunk c x.slave.sMode)
  if p == 0 then do
    progTx i .slave .byte (Cmd.action .sTx) [0xFF#8]
    setSlaveChunk i 1 .byte
  else do
    let d ← memRead x.slave.txbuf x.slave.txOff.toNat p
    progTx i .slave x.slave.sMode (Cmd.action .sTx) d
    setSlaveChunk i p x.slave.sMode

/-! ## Meanings -/

/-- The side an ARM.BUF is made for: the slave's for C.S_TX and C.S_RX, whose action parts are those of R133, else the
master's (R265). -/
def armSide (a : Word) : Side :=
  if a &&& 0xF83F#32 = Cmd.action .sTx ∨ a &&& 0xF83F#32 = Cmd.action .sRx then .slave else .master

/-- ARM.BYTE (R264), under lock M, which guards the chunk it records (R109). -/
def execArmByte (i : InstId) (a : Word) (d : Option Byte) (s : State) : Host.Outcome State Fault Refusal :=
  stepOn i (fun i => noRet (do
    needM i
    progByte i a d
    setChunk i 1 .byte)) s

/-- EXT.BYTE: 1 (R271), under lock M, which guards `xlen` (R106, R109). -/
def execExtByte (i : InstId) (s : State) : Host.Outcome State Fault Refusal :=
  stepOn i (fun i => do
    needM i
    let x ← getInst i
    let k ← extract i .byte x.master.xlen.toNat
    pure (retCount k)) s

/-- ARM.BUF (R265), under lock M. -/
def execArmBuf (i : InstId) (a : Word) (d : ArmData) (s : State) : Host.Outcome State Fault Refusal :=
  stepOn i (fun i => noRet (do
    needM i
    progBuf i (armSide a) a d
    setChunk i (armLen d) .buf)) s

/-- EXT.BUF: ACT_CNT (R272), under lock M. -/
def execExtBuf (i : InstId) (s : State) : Host.Outcome State Fault Refusal :=
  stepOn i (fun i => do
    needM i
    let x ← getInst i
    let k ← extract i .buf x.master.xlen.toNat
    pure (retCount k)) s

/-- ARM.DMA_DEC (R266), under lock M. -/
def execArmDmaDec (i : InstId) (a : Word) (d : ArmData) (s : State) : Host.Outcome State Fault Refusal :=
  stepOn i (fun i => noRet (do
    needM i
    progDma i false a d
    setChunk i (armLen d) .dmaDec)) s

/-- EXT.DMA_DEC (R273), under lock M. -/
def execExtDmaDec (i : InstId) (s : State) : Host.Outcome State Fault Refusal :=
  stepOn i (fun i => do
    needM i
    let x ← getInst i
    let k ← extract i .dmaDec x.master.xlen.toNat
    pure (retCount k)) s

/-- ARM.DMA_INC (R267), under lock M. -/
def execArmDmaInc (i : InstId) (a : Word) (d : ArmData) (s : State) : Host.Outcome State Fault Refusal :=
  stepOn i (fun i => noRet (do
    needM i
    progDma i true a d
    setChunk i (armLen d) .dmaInc)) s

/-- EXT.DMA_INC (R274), under lock M. -/
def execExtDmaInc (i : InstId) (s : State) : Host.Outcome State Fault Refusal :=
  stepOn i (fun i => do
    needM i
    let x ← getInst i
    let k ← extract i .dmaInc x.master.xlen.toNat
    pure (retCount k)) s

/-- ARM_NEXT (R260), under lock M, which guards the progress it reads and writes (R109, R463). -/
def execArmNext (i : InstId) (s : State) : Host.Outcome State Fault Refusal :=
  stepOn i (fun i => noRet (do
    needM i
    armNext i)) s

/-- A truth value as an operation's value: 1 or 0. -/
def retBool (b : Bool) : Op Ret := retWord (if b then 1#32 else 0#32)

/-- POOL_ACQ (R277). -/
def execPoolAcq (i : InstId) (side : Side) (s : State) : Host.Outcome State Fault Refusal :=
  stepOn i (fun i => do
    let b ← poolAcq i side
    retBool b) s

/-- POOL_REL (R278). -/
def execPoolRel (i : InstId) (side : Side) (s : State) : Host.Outcome State Fault Refusal :=
  stepOn i (fun i => noRet (poolRel i side)) s

/-- A mode's tag (R151). -/
def modeTag : Mode → Word
  | .byte => 0#32
  | .buf => 1#32
  | .dmaDec => 2#32
  | .dmaInc => 3#32

/-- SELECT_MODE (R279). -/
def execSelectMode (i : InstId) (side : Side) (s : State) : Host.Outcome State Fault Refusal :=
  stepOn i (fun i => do
    let m ← selectMode i side
    retWord (modeTag m)) s

/-- S_ARM_RX (R280). -/
def execSArmRx (i : InstId) (s : State) : Host.Outcome State Fault Refusal :=
  stepOn i (fun i => noRet (do
    needSlave
    sArmRx i)) s

/-- S_ARM_TX (R281), under lock S (R344). -/
def execSArmTx (i : InstId) (s : State) : Host.Outcome State Fault Refusal :=
  stepOn i (fun i => noRet (do
    needSlave
    needS i
    sArmTx i)) s

end Sys2Proof.Machine
end

