-- ==== Sys2Proof/Machine/MasterEngine.lean ====
section
/-! DEFINITION. The master transaction engine (44_master_engine.md): the interrupt side's handlers, then the blocking
side, whose lines are the steps of the instance's thread (R303; log entry 6). -/

namespace Sys2Proof.Machine

open Sys2Proof

/-! ## The interrupt side (R316 to R321) -/

/-- A message whose chunk is in flight and waited for: the head condition of R316 and R317. -/
def chunkWaited (p : Master) : Bool := p.waiting == .xfer && p.mstate == .chunk

/-- Set the master state and signal the waiter (R315: every entry into a COMPLETE state signals). -/
def finishMsg (i : Nat) (m : MState) : Op Unit := do
  modMaster i fun p => { p with mstate := m }
  complete i

/-- A STOP was decoded with the completion (R316, R317). -/
def noteStop (i : Nat) (stop : Bool) : Op Unit :=
  modMaster i fun p => { p with stopSeen := p.stopSeen || stop }

/-- C.STOP by itself, and the wait for its NORMAL_STOP (R316, R317). -/
def issueStop (i : Nat) : Op Unit := do
  engineCmd i (Cmd.action .stop)
  modMaster i fun p => { p with stopIssued := true, mstate := .stopping }

/-- Accounting and copy-out of a completed chunk of k bytes (R275), then the block read's extension by its first byte
(R276). -/
def account (i : Nat) (m : Msg) (k : Nat) : Op Unit := do
  let x ← getInst i
  let adv := k - (if x.master.addrInChunk then 1 else 0)
  whenB (m.rd && decide (0 < adv)) (do
    let src ← received i .master x.master.xmode adv
    hostWrite (m.buf + x.master.cnt.toNat) src)
  modMaster i fun p => { p with cnt := p.cnt + BitVec.ofNat 32 adv, addrInChunk := false }
  whenB (m.recvLen && !x.master.lenExt && x.master.cnt.toNat + adv == 1) (do
    let b ← hostRead m.buf 1
    modMaster i fun p => { p with len := p.len + (b.headD 0#8).setWidth 32, lenExt := true })

/-- What follows a matching completion once it is accounted for (R316). -/
def afterChunk (i : Nat) : Op Unit := do
  let x ← getInst i
  if x.master.cnt.toNat < x.master.len.toNat then armNext i
  else if x.master.last && !x.master.stopIssued then issueStop i
  else if x.master.stopIssued && !x.master.stopSeen then modMaster i fun p => { p with mstate := .stopping }
  else finishMsg i .completeOk

/-- M_DONE (R316). -/
def mDone (i : Nat) (kind : Kind) (stop : Bool) : Op Unit := do
  let x ← getInst i
  if !chunkWaited x.master then logRec i .completionWithNoChunk
  else do
    noteStop i stop
    let m ← curMsg i
    let k ← extract i x.master.xmode x.master.xlen.toNat
    if kind != expectedKind m.rd x.master.addrInChunk || k != some x.master.xlen.toNat then do
      raiseErr i ERR_PROTO
      finishMsg i .completeErr
    else do
      account i m x.master.xlen.toNat
      afterChunk i

/-- M_NACK (R317). -/
def mNack (i : Nat) (stop : Bool) : Op Unit := do
  let x ← getInst i
  if !chunkWaited x.master then logRec i .nackWithNoChunk
  else do
    let m ← curMsg i
    if m.ignoreNak then mDone i .tx stop
    else do
      noteStop i stop
      raiseErr i ERR_NACK
      if x.master.stopIssued && (x.master.stopSeen || stop) then finishMsg i .completeErr
      else if x.master.stopIssued then modMaster i fun p => { p with mstate := .stopping }
      else issueStop i

/-- M_ARB (R318). DESIGN CHOICE: M_COMPLETE_ERR only while a transfer is waited for, as R318's pseudocode has it, though
R315's table says from any state but M_IDLE (log entry 37). -/
def mArb (i : Nat) : Op Unit := do
  raiseErr i ERR_ARB
  modMaster i fun p => { p with mstate := if p.waiting = .xfer then .completeErr else p.mstate }
  complete i

/-- M_STOP_DONE (R319). -/
def mStopDone (i : Nat) : Op Unit := do
  let x ← getInst i
  if x.master.waiting = .recovStop then complete i
  else if x.master.waiting = .xfer ∧ x.master.mstate = .stopping then do
    noteStop i true
    finishMsg i (if x.master.err = 0#32 then .completeOk else .completeErr)
  else logRec i .strayStop

/-- M_FAULT (R320); M_COMPLETE_ERR as in `mArb` (log entry 37). -/
def mFault (i : Nat) : Op Unit := do
  modMaster i fun p => { p with mstate := if p.waiting = .xfer then .completeErr else p.mstate }
  complete i

/-- M_PREEMPT (R321); M_COMPLETE_ERR as in `mArb` (log entry 37). -/
def mPreempt (i : Nat) : Op Unit := do
  let x ← getInst i
  if x.master.waiting = .xfer then do
    raiseErr i ERR_PREEMPT
    let f ← regRead i .funCtrl
    regWrite i .funCtrl (f &&& ~~~MASTER_EN)
    regWrite i .funCtrl f
    finishMsg i .completeErr
  else pure ()

/-! ## The blocking side (R300 to R314) -/

/-- The instance is initialised: MASTER_EN is 1 (R492). -/
def initialised (x : Inst) : Bool := x.regs.funCtrl.getLsbD 0

/-- VALID: n is at least 1 and every descriptor is acceptable (R301); the instance was found initialised. -/
def validSet (desc : Word) (n : Nat) : Op Bool :=
  if n == 0 then pure false
  else do
    let ms ← readMsgs desc 0 n
    pure (msgsOk none ms)

/-- SUBMIT's entry: refused while a blocking call runs (R502), E_INVAL for a set VALID rejects, else the thread is at
DO_XFER's first line (R300, R301). -/
def submit (i n : Nat) (desc bound : Word) : Op Ret := do
  let x ← getInst i
  if x.thread.pc != .idle then opRefuse .overlappingSubmit
  else if !initialised x then retCode .inval
  else do
    let ok ← validSet desc n
    if ok then do
      modThread i fun _ =>
        { pc := .xferEntry, call := .submit, n := n, desc := desc, bound := bound.toNat, attempt := 0,
          reached := 0 }
      pure .none
    else retCode .inval

/-- SUBMIT's loop after an attempt has returned r: the call returns, its read buffers unspecified past the chunks that
completed if it failed, or waits RETRY_DELAY for another attempt (R300, R302). -/
def attemptDone (i : Nat) (r : Result) : Op Ret := do
  let x ← getInst i
  let c ← getCfg
  if transient r && decide (x.thread.attempt < x.thread.bound) then do
    modThread i fun t => { t with pc := .retryDelay, attempt := t.attempt + 1 }
    pure .none
  else do
    whenB r.failed (loseTails i)
    modThread i fun _ => Thread.idle
    retWord (r.word c)

/-- START_MSG(i, k) (R307): reset the progress, arm the wait, arm the first chunk; turned away with E_BUSY it touches
nothing (R304). -/
def startMsg (i k : Nat) : Op Code := do
  let x ← getInst i
  if x.master.slaveOp then pure .busy
  else match x.master.msgs with
    | none => opRefuse .noMessageSet
    | some d => do
      let m ← readMsg d k
      modMaster i fun p => { p with
        cur := BitVec.ofNat 32 k, cnt := 0, last := k + 1 == p.nmsgs.toNat, len := BitVec.ofNat 32 m.len,
        lenExt := false, xlen := 0, xmode := .byte, addrInChunk := false, started := false, stopIssued := false, stopSeen := false, mstate := .start }
      armWait i .xfer
      armNext i
      modMaster i fun p => { p with mstate := .chunk }
      pure .ok

/-- The message record's LEN is updated to the length a block read reached (R276, R310); a length above 65535 does not
fit the field, and the spec states no value then: a free value. -/
def writeBackLen (desc : Word) (k len : Nat) : Op Unit := do
  let v ← if len < 65536 then pure (BitVec.ofNat 16 len)
    else do
      let d ← draw
      pure ((Config.freeWord d).setWidth 16)
  hostWrite (desc.toNat + 12 * k + 2) [v.extractLsb' 0 8, v.extractLsb' 8 8]

/-- WAKE with w = SIGNALLED (R310 to R313); the read buffer of a message that failed is unspecified past the chunks that
completed (R497). -/
def wakeSignalled (i : Nat) : Op Code := do
  disarmWait i
  let x ← getInst i
  match wakeResult x.master.err with
  | some r => do
    whenB (wakeResets x.master.err) (busReset i)
    loseTail i
    pure r
  | none => match x.master.msgs with
    | none => opRefuse .noMessageSet
    | some d => do
      let m ← readMsg d x.master.cur.toNat
      whenB m.recvLen (writeBackLen d x.master.cur.toNat x.master.len.toNat)
      pure .ok

/-- WAKE with w = EXPIRED (R309): the waiter is gone before the reset; what the core may have written until the reset
ended is unspecified (R497; log entry 29). -/
def wakeExpired (i : Nat) : Op Code := do
  modMaster i fun p => { p with waiting := .none, mstate := .idle }
  busReset i
  loseBuffers i
  pure .timeout

/-- exit(r): the engine idle, the wait disarmed, the loan released (R303, R314). -/
def xferExit (i : Nat) : Op Unit := do
  modMaster i fun p => { p with mstate := .idle, msgs := none, nmsgs := 0 }
  disarmWait i
  poolRel i .master

/-- BUS_BUSY of a CMD read (R305). -/
def busBusy (i : Nat) : Op Bool := do
  let c ← regRead i .cmd
  pure (c.getLsbD 16)

/-! ## Meanings -/

/-- DO_XFER: the thread's lines 1 and 3 and exit (R303), each under lock M, which guards what it writes (R109). -/
def execDoXfer (i : InstId) (s : State) : Host.Outcome State Fault Refusal :=
  stepOn i (fun i => do
    let x ← getInst i
    match x.thread.pc with
    | .xferEntry => do
      needM i
      if x.master.slaveOp then attemptDone i (.code .busy)
      else do
        modMaster i fun p => { p with
          err := 0#32, msgs := some x.thread.desc, nmsgs := BitVec.ofNat 32 x.thread.n, mstate := .idle }
        setPc i .waitIdle
        pure .none
    | .selectMode => do
      needM i
      let m ← selectMode i .master
      modMaster i fun p => { p with mode := m }
      setPc i (.startMsg 0)
      pure .none
    | .xferExit r => do
      needM i
      xferExit i
      attemptDone i r
    | _ => opRefuse .notEnabled) s

/-- WAIT_IDLE: line 2 (R305). -/
def execWaitIdle (i : InstId) (s : State) : Host.Outcome State Fault Refusal :=
  stepOn i (fun i => noRet (do
    let x ← getInst i
    let c ← getCfg
    match x.thread.pc with
    | .waitIdle => do
      let b ← busBusy i
      setPc i (if !b then .selectMode else if c.idleTimeout == 0 then .idleExpired else .idleBusy)
    | .idleBusy => do
      let b ← busBusy i
      require (!b) .notEnabled
      setPc i .selectMode
    | .idleExpired => setPc i (if c.recoverOnBusy then .recoverEntry else .xferExit (.code .busy))
    | .idleRecovered r => do
      let b ← busBusy i
      setPc i (if codeFailed r then .xferExit (.code .recov) else if b then .xferExit (.code .busy) else .selectMode)
    | _ => opRefuse .notEnabled)) s

/-- START_MSG: line 4a, under lock M (R307); the thread notes how far the call has come. -/
def execStartMsg (i : InstId) (k : Word) (s : State) : Host.Outcome State Fault Refusal :=
  stepOn i (fun i => noRet (do
    let x ← getInst i
    require (x.thread.pc == .startMsg k.toNat) .notEnabled
    needM i
    let r ← startMsg i k.toNat
    modThread i fun t => if codeFailed r then { t with pc := .xferExit (.code r) }
      else { t with pc := .waitXfer k.toNat, reached := k.toNat + 1 })) s

/-- WAIT: the thread goes on once the completion signal is set (R308); the signal is read under lock M (R106, R109). -/
def execWait (i : InstId) (s : State) : Host.Outcome State Fault Refusal :=
  stepOn i (fun i => noRet (do
    needM i
    let x ← getInst i
    require x.master.done .notEnabled
    match x.thread.pc with
    | .waitXfer k => setPc i (.wakeSignalled k)
    | .stopWait => setPc i (.stopWake false)
    | .deadWait t => setPc i (.deadWake t false)
    | _ => opRefuse .notEnabled)) s

/-- WAKE after an expired wait: line 4c (R309); S_ABORT in its BUS_RESET takes lock S too (R357). DESIGN CHOICE: also
without a slave engine both locks are to be free (log entry 8). -/
def execWakeExpired (i : InstId) (s : State) : Host.Outcome State Fault Refusal :=
  stepOn i (fun i => noRet (do
    let x ← getInst i
    match x.thread.pc with
    | .wakeExpired _ => do
      needLocks i
      let r ← wakeExpired i
      setPc i (.xferExit (.code r))
    | _ => opRefuse .notEnabled)) s

/-- WAKE after the signal: line 4c, then the next message or exit (R310, R303). DESIGN CHOICE: both locks are to be free
on every path, though only the one that runs BUS_RESET takes lock S (log entry 8). -/
def execWakeSignalled (i : InstId) (s : State) : Host.Outcome State Fault Refusal :=
  stepOn i (fun i => noRet (do
    let x ← getInst i
    match x.thread.pc with
    | .wakeSignalled k => do
      needLocks i
      let r ← wakeSignalled i
      setPc i (if codeFailed r then .xferExit (.code r)
        else if k + 1 < x.thread.n then .startMsg (k + 1) else .xferExit (.count x.thread.n))
    | _ => opRefuse .notEnabled)) s

/-- M_DONE (R316). -/
def execMDone (i : InstId) (kind : Kind) (stop : Bool) (s : State) : Host.Outcome State Fault Refusal :=
  stepOn i (fun i => noRet (do
    needM i
    mDone i kind stop)) s

/-- M_NACK (R317). -/
def execMNack (i : InstId) (stop : Bool) (s : State) : Host.Outcome State Fault Refusal :=
  stepOn i (fun i => noRet (do
    needM i
    mNack i stop)) s

/-- M_ARB (R318). -/
def execMArb (i : InstId) (s : State) : Host.Outcome State Fault Refusal :=
  stepOn i (fun i => noRet (do
    needM i
    mArb i)) s

/-- M_STOP_DONE (R319). -/
def execMStopDone (i : InstId) (s : State) : Host.Outcome State Fault Refusal :=
  stepOn i (fun i => noRet (do
    needM i
    mStopDone i)) s

/-- M_FAULT (R320). -/
def execMFault (i : InstId) (s : State) : Host.Outcome State Fault Refusal :=
  stepOn i (fun i => noRet (do
    needM i
    mFault i)) s

/-- M_PREEMPT (R321). -/
def execMPreempt (i : InstId) (s : State) : Host.Outcome State Fault Refusal :=
  stepOn i (fun i => noRet (do
    needM i
    mPreempt i)) s

end Sys2Proof.Machine
end

