-- ==== Sys2Proof/Machine/CoreEnv.lean ====
section
/-! DEFINITION. The steps of the environment: the outcomes of the controller core and the bus (41_core_commands.md R216
to R228) and the timer (60_exceptions.md R476). What the textual form of R146 leaves to the core is an operand of the
row (a STOP in the same step, a miscounted report, ARB_LOSS with a match, the bits latched with a fault, a byte for no
window) or a free value (log entries 10, 11). -/

namespace Sys2Proof.Machine

open Sys2Proof

/-- The core reports the count k of a command before its status bit: ACT_CNT for the pool page, the codec's readback
for DMA, nothing for a byte; a miscounting core reports an arbitrary value (R218). -/
def Regs.report (r : Regs) (k : Codec) (f : InFlight) (m : Nat) (mis : Option Word) : Regs :=
  match f.path with
  | .byte => r
  | .buf => { r with bufCtrl := (r.bufCtrl &&& 0xC00FFFFF#32)
      ||| (((mis.getD (BitVec.ofNat 32 m)) &&& 0x3FF#32) <<< 20) }
  | .dma => { r with dmaLen := mis.getD (dmaReadback k f.n m) }

/-- Report a count (R218). -/
def reportCount (i : Nat) (f : InFlight) (m : Nat) (mis : Option Word) : Op Unit := do
  let c ← getCfg
  let ic ← getInstCfg i
  modRegs i fun r => r.report (coreCodec c ic (cmdIsMaster f.cmd)) f m mis

/-- Received bytes go to the sink of the command's path: for DMA, from the DMA_BASE it was issued with (R215, R500). -/
def sinkData (i : Nat) (f : InFlight) (bs : List Byte) : Op Unit :=
  match f.path with
  | .byte => match bs with
    | b :: _ => modRegs i fun r => { r with byteRx := b }
    | [] => pure ()
  | .buf => poolWrite bs
  | .dma => dmaWrite f.base.toNat bs

/-- Bytes on the bus, every one acknowledged but the last, which is answered as said (R216, R217). -/
def traceBytes : List Byte → Bool → List TraceItem
  | [], _ => []
  | [b], lastAck => [.byte b lastAck]
  | b :: c :: r, lastAck => .byte b true :: traceBytes (c :: r) lastAck

/-- Append to the bus trace (R227). -/
def addTrace (i : Nat) (t : List TraceItem) : Op Unit := modCore i fun c => { c with trace := c.trace ++ t }

/-- A STOP ends the transaction this controller drives or serves: the bus is free, XFER_STATE idle (R216, R210,
R222). -/
def Core.stopped (c : Core) : Core := { c with busy := false, xfer := .idle }

/-- The command's data phase is over (R216, R217, R223): a command without STOP is gone and the bus stays held; one
with STOP is gone with the STOP, or waits for it in STOP_PENDING. -/
def Core.dataDone (c : Core) (f : InFlight) (stop : Bool) : Core :=
  if cmdHasStop f.cmd then
    if stop then Core.stopped { c with inflight := none } else { c with inflight := some { f with phase := .stopPending } }
  else { c with inflight := none, busy := c.busy || (cmdIsTx f.cmd && cmdIsMaster f.cmd) }

/-- Whether a STOP may be latched in the same step as the data bit: the command carries STOP (R216), or this
controller is the slave and the remote master sends it (R222, R223). -/
def stopAllowed (f : InFlight) (remote stop : Bool) : Bool := !stop || cmdHasStop f.cmd || remote

/-- The remote master ends the transaction: an open slave window in flight completes without a byte, its count 0 reported
(R221, R222); any other command stays. -/
def closeWindow (i : Nat) : Option InFlight → Op Unit
  | none => pure ()
  | some f => whenB (f.cmd == .sRx) (do
    reportCount i f 0 none
    modCore i fun c => { c with inflight := none })

/-- RemoteStop, enabled while the core is a slave: an open window completes with no further byte (R221), the status bit,
XFER_STATE idle, the bus free (R222). -/
def remoteStop (i : Nat) : Op Unit := do
  let x ← getInst i
  require x.core.xfer.isSlave .notEnabled
  closeWindow i x.core.inflight
  modCore i Core.stopped
  latch i NORMAL_STOP

/-- The end of a command's data phase: count, trace, core, then the status bits (R216, R218, R108). -/
def endData (i : Nat) (f : InFlight) (k : Nat) (mis : Option Word) (t : List TraceItem) (bit : Word) (stop : Bool) :
    Op Unit := do
  reportCount i f k mis
  let s := stop && cmdHasStop f.cmd
  addTrace i (t ++ (if s then [.stop] else []))
  modCore i fun c => c.dataDone f stop
  latch i (bit ||| (if s then NORMAL_STOP else 0#32))

/-- The command in flight whose data phase runs. -/
def dataCmd (x : Inst) : Option InFlight :=
  match x.core.inflight with
  | some f => if f.phase = .data then some f else none
  | none => none

/-- START first when the command carries it (R203). -/
def startTrace (f : InFlight) : List TraceItem := if cmdHasStart f.cmd then [.start] else []

/-- ACKED (R216) and S_ACKED (R223). -/
def coreAck (i : Nat) (stop : Bool) (mis : Option Word) : Op Unit := do
  let x ← getInst i
  match dataCmd x with
  | some f =>
    if cmdIsTx f.cmd && stopAllowed f false stop then
      endData i f f.n mis (startTrace f ++ traceBytes f.data true) TX_ACK stop
    else opRefuse .notEnabled
  | none => opRefuse .notEnabled

/-- NACKED(j) (R216) and S_NACKED(j), after which the remote master's STOP may come in the same step (R223). DEDUCED:
R223 gives a trace for S_ACKED only; S_NACKED(j) appends the j bytes sent, the last refused, as NACKED(j) does (log
entry 30). -/
def coreNack (i j : Nat) (stop : Bool) (mis : Option Word) : Op Unit := do
  let x ← getInst i
  match dataCmd x with
  | some f =>
    if cmdIsTx f.cmd && decide (1 ≤ j) && decide (j ≤ f.n) && stopAllowed f (f.cmd == .sTx) stop then do
      endData i f j mis (startTrace f ++ traceBytes (f.data.take j) false) TX_NAK stop
      whenB (f.cmd == .sTx && stop) (remoteStop i)
    else opRefuse .notEnabled
  | none => opRefuse .notEnabled

/-- RECEIVED (R217): the n bytes of a master receive. -/
def coreReceive (i : Nat) (f : InFlight) (bs : List Byte) (stop : Bool) (mis : Option Word) : Op Unit :=
  if decide (bs.length = f.n) && stopAllowed f false stop then do
    sinkData i f bs
    endData i f f.n mis (traceBytes bs (!cmdNacksLast f.cmd)) RX_DONE stop
  else opRefuse .notEnabled

/-- S_RECEIVED(b, m) (R221): a full window sets RX_DONE; a short one ends with the remote master's STOP, in the same
step or a later one, and sets RX_DONE only when it holds a byte. -/
def slaveWindow (i : Nat) (f : InFlight) (bs : List Byte) (stop : Bool) (mis : Option Word) : Op Unit :=
  if bs.length ≤ f.n then do
    sinkData i f bs
    reportCount i f bs.length mis
    modCore i fun c => { c with inflight := none }
    whenB (decide (1 ≤ bs.length)) (latch i RX_DONE)
    whenB stop (remoteStop i)
  else opRefuse .notEnabled

/-- RemoteByte is enabled: addressed as a slave for a write, no receive enable set, RX_DONE clear (R221). -/
def remoteByteEnabled (x : Inst) : Bool :=
  x.core.xfer.isSlave && !x.core.matchRd && !x.regs.en.getLsbD 1 && !x.regs.en.getLsbD 3
  && !anyOf x.regs.intrSts RX_DONE

/-- RemoteByte (R221), with the remote master's STOP in the same step if said, which closes a window that is open all the
same, its enables cleared by a C.NOP (R222). -/
def remoteByte (i : Nat) (b : Byte) (stop : Bool) : Op Unit := do
  let x ← getInst i
  if remoteByteEnabled x then do
    modRegs i fun r => { r with byteRx := b }
    latch i RX_DONE
    whenB stop (remoteStop i)
  else opRefuse .notEnabled

/-- Received data: of a master receive or of an open slave window (R217, R221), or a byte from a remote master for no
window, whatever is in flight, on the four conditions of RemoteByte (R221). -/
def coreRx (i : Nat) (d : RxData) (stop : Bool) (mis : Option Word) : Op Unit := do
  let x ← getInst i
  match d, dataCmd x with
  | .direct b, _ => remoteByte i b stop
  | .window bs, some f =>
    if f.cmd = .sRx then slaveWindow i f bs stop mis
    else if cmdIsRx f.cmd then coreReceive i f bs stop mis
    else opRefuse .notEnabled
  | .window _, none => opRefuse .notEnabled

/-- After a STOP that this controller drove without holding the bus, whether the lines read high is a draw (R210; what
"holding the bus" is, log entry 32). -/
def drawLines (i : Nat) : Op Unit := do
  let a ← draw
  let b ← draw
  modCore i fun c => { c with sda := Config.freeBit a, scl := Config.freeBit b }

/-- A STOP: of C.STOP (R210), the pending one of a command with STOP (R216), or a remote master's (R222). -/
def coreStop (i : Nat) : Op Unit := do
  let x ← getInst i
  match x.core.inflight with
  | some f =>
    if f.cmd = .stop ∨ f.phase = .stopPending then do
      addTrace i [.stop]
      modCore i fun c => Core.stopped { c with inflight := none }
      latch i NORMAL_STOP
      whenB (f.cmd == .stop && !f.held) (drawLines i)
    else remoteStop i
  | none => remoteStop i

/-- The bytes of a command a fault cuts short: those it sends, or n unstated ones it receives (R219). -/
def faultBytes (f : InFlight) (k : Nat) : List Byte := if cmdIsRx f.cmd then freeBytes k f.n else f.data

/-- What a fault leaves of a receive cut short: a prefix of the bytes has reached the sink (R219; log entry 11). -/
def faultData (i : Nat) (f : InFlight) (bs : List Byte) : Op Unit :=
  if cmdIsRx f.cmd && f.phase == .data then do
    let k ← draw
    sinkData i f (bs.take (Config.freeNat k % (f.n + 1)))
  else pure ()

/-- What the command of bytes bs would have put on the trace: the STOP it waits for; C.STOP's or C.RECOVER's item; the
bytes of a master receive; the bytes of a transmit, all acknowledged, or j + 1 of them with the last refused; with the
STOP it carries (R210, R213, R216, R217, R223). A slave receive puts nothing there (R221). -/
def wholeTrace (f : InFlight) (bs : List Byte) (nack : Bool) (j : Nat) : List TraceItem :=
  let stop : List TraceItem := if cmdHasStop f.cmd then [.stop] else []
  match f.phase, f.cmd with
  | .stopPending, _ => [.stop]
  | .data, .stop => [.stop]
  | .data, .recover => [.recover]
  | .data, .sRx => []
  | .data, c =>
    if cmdIsRx c then traceBytes bs (!cmdNacksLast c) ++ stop
    else if nack then startTrace f ++ traceBytes (bs.take (j + 1)) false ++ stop
    else startTrace f ++ traceBytes bs true ++ stop

/-- What a fault leaves on the trace: any prefix of what the command would have put there, acknowledged or refused
(R216, R219). DESIGN CHOICE: R217 and R219 state no trace for a receive that a fault ends; it is a prefix of RECEIVED's,
with the bytes of which a prefix is in the sink (log entry 11). -/
def faultTrace (f : InFlight) (bs : List Byte) (nack : Bool) (j m : Nat) : List TraceItem :=
  let t := wholeTrace f bs nack (j % (f.n + 1))
  t.take (m % (t.length + 1))

/-- A command in flight, if there is one, is cut short: it is gone, with unstated counts, bytes and trace (R219; log
entry 11). The count is the one a read of DMA_LEN in flight has looked towards (R182; log entry 10). -/
def cutShort (i : Nat) : Option InFlight → Op Unit
  | none => pure ()
  | some f => do
    let x ← getInst i
    let b ← draw
    let bs := faultBytes f b
    faultData i f bs
    let w ← draw
    reportCount i f 0 (some (Config.cutCount i x.core.cuts))
    let m ← draw
    addTrace i (faultTrace f bs (Config.freeBit m) (Config.freeNat w) (Config.freeNat m))
    modCore i fun c => { c with inflight := none, cuts := c.cuts + 1 }

/-- A fault outcome (R219): what was in flight is cut short; the bit is latched, with the other bits set in the same
step. -/
def coreFault (i : Nat) (bit also : Word) : Op Unit := do
  let x ← getInst i
  cutShort i x.core.inflight
  latch i (bit ||| also)

/-- XFER_STATE is a draw (R219). -/
def drawXfer (i : Nat) : Op Unit := do
  let k ← draw
  let l ← draw
  modCore i fun c => { c with
    xfer := if Config.freeBit k then .idle
      else if Config.freeBit l then .slave (Config.freeSlaveCode k) else .master (Config.freeMasterCode k) }

/-- ARB_LOST, of a command in flight (R219, R225). -/
def coreArb (i : Nat) (also : Word) : Op Unit := do
  let x ← getInst i
  require x.core.inflight.isSome .notEnabled
  coreFault i ARB_LOSS also
  modCore i fun c => { c with xfer := .idle }

/-- ABNORMAL, also with nothing in flight (R219). -/
def coreAbn (i : Nat) (also : Word) : Op Unit := do
  coreFault i ABNORMAL also
  drawXfer i

/-- SCL_TO, also with nothing in flight; SCL is a draw, typically low (R219). -/
def coreSclto (i : Nat) (also : Word) : Op Unit := do
  coreFault i SCL_TIMEOUT also
  drawXfer i
  let k ← draw
  modCore i fun c => { c with scl := Config.freeBit k }

/-- The master command in flight, if one is. -/
def masterInFlight (x : Inst) : Option InFlight :=
  match x.core.inflight with
  | some f => if cmdIsMaster f.cmd then some f else none
  | none => none

/-- This controller is mastering: a master command is in flight, or the bus is held between two (R220, R225). -/
def mastering (x : Inst) : Bool := (masterInFlight x).isSome || x.core.xfer.isMaster

/-- RemoteMatch is enabled: the slave side enabled and idle, the address ours (R220). -/
def matchEnabled (x : Inst) (a : Byte) : Bool :=
  x.regs.funCtrl.getLsbD 1 && a.extractLsb' 1 7 == x.regs.devAddr.extractLsb' 0 7 && !x.core.xfer.isSlave

/-- RemoteMatch(i, a) (R220). A master command in flight is dropped, which leaves of it what ARB_LOST does, ARB_LOSS
latched or not (R219; DESIGN CHOICE, log entry 11); ARB_LOSS comes only while mastering (log entry 17). -/
def coreMatch (i : Nat) (a : Byte) (arb : Bool) : Op Unit := do
  let x ← getInst i
  require (matchEnabled x a && (!arb || mastering x)) .notEnabled
  cutShort i (masterInFlight x)
  let k ← draw
  modRegs i fun r => { r with byteRx := a }
  modCore i fun c => { c with
    xfer := .slave (Config.freeSlaveCode k), busy := true, matchRd := a.getLsbD 0 }
  latch i (SLAVE_MATCH ||| RX_DONE ||| (if arb then ARB_LOSS else 0#32))

/-- RECOVERED(s) (R213). -/
def coreRecovered (i : Nat) (sda : Bool) : Op Unit := do
  let x ← getInst i
  match dataCmd x with
  | some f =>
    if f.cmd = .recover then do
      addTrace i [.recover]
      modCore i fun c => { c with sda := sda, scl := true, xfer := .idle, inflight := none }
      latch i BUS_RECOVER_DONE
    else opRefuse .notEnabled
  | none => opRefuse .notEnabled

/-- A wait for the completion signal expires while the signal is clear: its waiter is gone, so a late completion finds
none (R476, R458 b); `waiting` is written under lock M (R109). That it goes in the step of the expiry is log entry 33's. -/
def expireWait (i : Nat) (pc : Pc) : Op Unit := do
  needM i
  let x ← getInst i
  require (!x.master.done) .notEnabled
  modMaster i fun p => { p with waiting := .none }
  setPc i pc

/-- The timer expires an unsatisfied bounded wait (R476): the completion wait while `done` is 0, after which the buffers
of a transfer are unspecified (R116, R497), the idle wait while the bus is busy, or the delay between retries. -/
def expire (i : Nat) : Op Unit := do
  let x ← getInst i
  match x.thread.pc with
  | .waitXfer k => do
    expireWait i (.wakeExpired k)
    loseBuffers i
  | .stopWait => expireWait i (.stopWake true)
  | .deadWait t => expireWait i (.deadWake t true)
  | .idleBusy => do
    require x.core.busy .notEnabled
    setPc i .idleExpired
  | .retryDelay => setPc i .xferEntry
  | _ => opRefuse .notEnabled

/-! ## Meanings -/

/-- K.ACK (R216, R223). -/
def execKAck (i : InstId) (stop : Bool) (mis : Option Word) (s : State) : Host.Outcome State Fault Refusal :=
  stepOn i (fun i => noRet (coreAck i stop mis)) s

/-- K.NACK (R216, R223). -/
def execKNack (i : InstId) (j : Word) (stop : Bool) (mis : Option Word) (s : State) :
    Host.Outcome State Fault Refusal :=
  stepOn i (fun i => noRet (coreNack i j.toNat stop mis)) s

/-- K.RX (R217, R221). -/
def execKRx (i : InstId) (bs : RxData) (stop : Bool) (mis : Option Word) (s : State) :
    Host.Outcome State Fault Refusal :=
  stepOn i (fun i => noRet (coreRx i bs stop mis)) s

/-- K.STOP (R210, R216, R222). -/
def execKStop (i : InstId) (s : State) : Host.Outcome State Fault Refusal :=
  stepOn i (fun i => noRet (coreStop i)) s

/-- K.ARB (R219). -/
def execKArb (f : FaultAt) (s : State) : Host.Outcome State Fault Refusal :=
  stepOn f.inst (fun i => noRet (coreArb i f.also)) s

/-- K.ABN (R219). -/
def execKAbn (f : FaultAt) (s : State) : Host.Outcome State Fault Refusal :=
  stepOn f.inst (fun i => noRet (coreAbn i f.also)) s

/-- K.SCLTO (R219). -/
def execKSclto (f : FaultAt) (s : State) : Host.Outcome State Fault Refusal :=
  stepOn f.inst (fun i => noRet (coreSclto i f.also)) s

/-- K.MATCH (R220). -/
def execKMatch (i : InstId) (a : Byte) (arb : Bool) (s : State) : Host.Outcome State Fault Refusal :=
  stepOn i (fun i => noRet (coreMatch i a arb)) s

/-- K.RECOVERED (R213). -/
def execKRecovered (i : InstId) (sda : Bool) (s : State) : Host.Outcome State Fault Refusal :=
  stepOn i (fun i => noRet (coreRecovered i sda)) s

/-- K.LINE: LineChange, at any step (R224). -/
def execKLine (i : InstId) (sda scl busy : Bool) (s : State) : Host.Outcome State Fault Refusal :=
  stepOn i (fun i => noRet (modCore i fun c => { c with sda := sda, scl := scl, busy := busy })) s

/-- K.SMBUS: SmbusEvent, at any step (R228). -/
def execKSmbus (i : InstId) (m : SmbusBit) (s : State) : Host.Outcome State Fault Refusal :=
  stepOn i (fun i => noRet (latch i (smbusMask m))) s

/-- T.EXPIRE (R476). -/
def execTExpire (i : InstId) (s : State) : Host.Outcome State Fault Refusal :=
  stepOn i (fun i => noRet (expire i)) s

end Sys2Proof.Machine
end

