-- ==== Sys2Proof/Machine/SlaveEngine.lean ====
section
/-! DEFINITION. The slave transaction engine's interrupt side (45_slave_engine.md R340 to R349). -/

namespace Sys2Proof.Machine

open Sys2Proof

/-- The state of slot k. -/
def slotState (v : Slave) (k : Nat) : SlotState := match v.ring[k]? with
  | some q => q.state
  | none => .empty

/-- The stored length of slot k. -/
def slotLen (v : Slave) (k : Nat) : Nat := match v.ring[k]? with
  | some q => q.len
  | none => 0

/-- The ring is full when the next slot still holds an unread message (R342). -/
def ringFull (v : Slave) : Bool := slotState v v.wr == .full

/-- The oldest unread message is dropped (R342). -/
def evictOldest (v : Slave) : Slave :=
  { modSlot v v.rd (fun q => { q with state := .empty, len := 0 }) with
    rd := (v.rd + 1) % v.ring.length, ready := v.ready - 1 }

/-- Slot selection: evict when the ring is full; the next slot is the one at `wr` (R342). -/
def selectSlot (i : Nat) : Op Unit := do
  let x ← getInst i
  whenB (ringFull x.slave) (do
    modSlave i evictOldest
    logRec i .ringOverrun)

/-- START_OF_WRITE: the slot at `wr` is opened for the matched address, the engine receives (R343). -/
def openSlot (a : Byte) (v : Slave) : Slave :=
  { modSlot v v.wr (fun q => { q with state := .ongoing, addr := a, len := 0 }) with
    sCur := some v.wr, sstate := .rx }

/-- START_OF_WRITE (R343). -/
def startOfWrite (i : Nat) (a : Byte) : Op Unit := do
  selectSlot i
  modSlave i (openSlot a)
  sArmRx i

/-- START_OF_READ (R344). -/
def startOfRead (i : Nat) (_a : Byte) : Op Unit := do
  modSlave i fun v => { v with sstate := .tx, txOff := 0 }
  sArmTx i

/-- The open slot is complete: FULL, the write cursor and the ready counter advance, nothing is received any more
(R348). -/
def closeSlot (v : Slave) : Slave :=
  match v.sCur with
  | some k => { modSlot v k (fun q => { q with state := .full }) with
      wr := (v.wr + 1) % v.ring.length, ready := v.ready + 1, sCur := none, sstate := .idle }
  | none => v

/-- S_FINAL (R348). -/
def sFinal (i : Nat) : Op Unit := do
  let x ← getInst i
  whenB (x.slave.sstate == .rx) (do
    modSlave i closeSlot
    modOuts i fun o => { o with readerWake := o.readerWake + 1 })
  modSlave i fun v => { v with sstate := .idle, txOff := 0 }
  poolRel i .slave
  engineCmd i (Cmd.action .nop)
  modMaster i fun m => { m with slaveOp := false }

/-- S_MATCH (R341). -/
def sMatch (i : Nat) : Op Unit := do
  mPreempt i
  let x ← getInst i
  whenB (x.slave.sstate != .idle) (sFinal i)
  modMaster i fun m => { m with slaveOp := true }
  let w ← regRead i .byteData
  let a : Byte := w.extractLsb' 8 8
  let m ← selectMode i .slave
  modSlave i fun v => { v with sMode := m }
  if a.getLsbD 0 then startOfRead i a else startOfWrite i a

/-- Append bytes to a slot at its current length (R345). -/
def appendSlot (k : Nat) (d : List Byte) (v : Slave) : Slave :=
  modSlot v k fun q => { q with buf := Memory.writeN q.buf q.len d, len := q.len + d.length }

/-- A slave count error or overrun: recorded, and a bus reset at once (R345, R346, R347). -/
def slaveFail (i : Nat) (e : Word) : Op Unit := do
  raiseErr i e
  busReset i

/-- S_DATA (R345, R346). -/
def sData (i : Nat) (stop : Bool) : Op Unit := do
  let x ← getInst i
  let c ← getCfg
  match x.slave.sstate, x.slave.sCur with
  | .rx, some cur => do
    let k ← extract i x.slave.sXmode x.slave.sXlen.toNat
    match k with
    | none => slaveFail i ERR_PROTO
    | some k =>
      if x.slave.sXlen.toNat < k then slaveFail i ERR_PROTO
      else do
        let d ← received i .slave x.slave.sXmode k
        if c.slotCap < slotLen x.slave cur + k then slaveFail i ERR_OVERRUN
        else do
          modSlave i (appendSlot cur d)
          whenB (!stop) (sArmRx i)
  | _, _ => logRec i .dataWithNoSlaveWrite

/-- S_TX_ACK (R347). -/
def sTxAck (i : Nat) : Op Unit := do
  let x ← getInst i
  if x.slave.sstate != .tx then logRec i .ackWithNoSlaveRead
  else do
    let k ← extract i x.slave.sXmode x.slave.sXlen.toNat
    match k with
    | none => slaveFail i ERR_PROTO
    | some k =>
      if k < 1 ∨ x.slave.sXlen.toNat < k then slaveFail i ERR_PROTO
      else do
        modSlave i fun v => { v with txOff := BitVec.ofNat 32 (min (v.txOff.toNat + k) v.txLen) }
        sArmTx i

/-- S_STOP: the STOP closes the transaction, taking the last data with it; the bits it consumed (R349). -/
def sStop (i : Nat) (sts : Word) : Op Word := do
  let x ← getInst i
  let data := anyOf sts RX_DONE && !anyOf sts SLAVE_MATCH && x.slave.sstate == .rx
  whenB data (sData i true)
  let y ← getInst i
  sFinal i
  pure (NORMAL_STOP ||| (if data then RX_DONE else 0#32)
    ||| (if y.slave.sstate == .tx then sts &&& (TX_ACK ||| TX_NAK) else 0#32))

/-! ## Meanings -/

/-- S_MATCH (R341), taking lock M and then lock S. -/
def execSMatch (i : InstId) (s : State) : Host.Outcome State Fault Refusal :=
  stepOn i (fun i => noRet (do
    needSlave
    needLocks i
    sMatch i)) s

/-- START_OF_WRITE (R343). -/
def execStartOfWrite (i : InstId) (a : Byte) (s : State) : Host.Outcome State Fault Refusal :=
  stepOn i (fun i => noRet (do
    needSlave
    needS i
    startOfWrite i a)) s

/-- START_OF_READ (R344). -/
def execStartOfRead (i : InstId) (a : Byte) (s : State) : Host.Outcome State Fault Refusal :=
  stepOn i (fun i => noRet (do
    needSlave
    needS i
    startOfRead i a)) s

/-- S_DATA (R345); its reset takes both locks (R357). -/
def execSData (i : InstId) (stop : Bool) (s : State) : Host.Outcome State Fault Refusal :=
  stepOn i (fun i => noRet (do
    needSlave
    needLocks i
    sData i stop)) s

/-- S_TX_ACK (R347). -/
def execSTxAck (i : InstId) (s : State) : Host.Outcome State Fault Refusal :=
  stepOn i (fun i => noRet (do
    needSlave
    needLocks i
    sTxAck i)) s

/-- S_FINAL (R348). -/
def execSFinal (i : InstId) (s : State) : Host.Outcome State Fault Refusal :=
  stepOn i (fun i => noRet (do
    needSlave
    needLocks i
    sFinal i)) s

/-- S_STOP (R349): the value is the set of bits it consumed. -/
def execSStop (i : InstId) (sts : Word) (s : State) : Host.Outcome State Fault Refusal :=
  stepOn i (fun i => do
    needSlave
    needLocks i
    let w ← sStop i sts
    retWord w) s

end Sys2Proof.Machine
end

