-- ==== Sys2Proof/Machine/Irq.lean ====
section
/-! DEFINITION. The interrupt-status decoder (46_interrupt_decoder.md): its stages, the exact-combination table, the
sweep, one invocation, and the status patterns of format STS as operations of their own. -/

namespace Sys2Proof.Machine

open Sys2Proof

/-- MINE: the instance's bit of GROUP_STS (R381). -/
def mine (i : Nat) : Op Bool := do
  let g ← readGroup
  pure (g.getLsbD i)

/-- Clear status bits by one write (R176, R400). -/
def clearSts (i : Nat) (w : Word) : Op Unit := regWrite i .intrSts w

/-- SMBUS_STAGE: an enabled alert is disabled and forwarded, the three signals are acknowledged in one write; the
residue (R383). -/
def smbusStage (i : Nat) (sts : Word) : Op Word :=
  if anyOf sts STS_SMBUS then do
    let c ← regRead i .intrCtrl
    whenB (anyOf sts SMBUS_ALERT && anyOf c SMBUS_ALERT) (do
      regWrite i .intrCtrl (c &&& ~~~SMBUS_ALERT)
      modOuts i fun o => { o with alertFwd := o.alertFwd + 1 })
    clearSts i (sts &&& STS_SMBUS)
    pure (sts &&& ~~~STS_SMBUS)
  else pure sts

/-- FAULT_STAGE: the errors are raised, the whole word cleared in one write, the controller reset, any waiter
completed (R384). -/
def faultStage (i : Nat) (sts : Word) : Op Unit := do
  whenB (anyOf sts ABNORMAL) (raiseErr i ERR_ABNORMAL)
  whenB (anyOf sts SCL_TIMEOUT) (raiseErr i ERR_SCL_TO)
  clearSts i sts
  busReset i
  mFault i

/-- SLAVE_STOP_STAGE: the residue (R385). -/
def slaveStopStage (i : Nat) (sts : Word) : Op Word := do
  let used ← sStop i sts
  clearSts i used
  pure (sts &&& ~~~used)

/-- The rows of the exact-combination table (R386 to R398). -/
inductive Row where
  | txAck
  | txAckStop
  | txNak
  | txNakStop
  | rxDone
  | rxDoneStop
  | matched
  | matchedStop
  | stop
  | arbLoss
  | arbLossMatch
  | recoverDone
deriving DecidableEq, Repr

/-- The row a residual word equals, its role column admitting the current role (R386); the rows with SLAVE_MATCH exist
only with the slave engine (R358). -/
def rowOf (slaveOp present : Bool) (sts : Word) : Option Row :=
  if sts = 0x0001#32 then some .txAck
  else if sts = 0x0011#32 then if slaveOp then none else some .txAckStop
  else if sts = 0x0002#32 then some .txNak
  else if sts = 0x0012#32 then if slaveOp then none else some .txNakStop
  else if sts = 0x0004#32 then some .rxDone
  else if sts = 0x0014#32 then if slaveOp then none else some .rxDoneStop
  else if sts = 0x0084#32 then if present then some .matched else none
  else if sts = 0x0094#32 then if present && !slaveOp then some .matchedStop else none
  else if sts = 0x0010#32 then if slaveOp then none else some .stop
  else if sts = 0x0008#32 then some .arbLoss
  else if sts = 0x008C#32 then if present then some .arbLossMatch else none
  else if sts = 0x2000#32 then some .recoverDone
  else none

/-- The bus-recovery completion wakes its initiator (R398). -/
def recoverDone (i : Nat) : Op Unit := do
  let x ← getInst i
  if x.master.waiting = .recovCmd then complete i else logRec i .recoveryWithNoInitiator

/-- A row's handler, routed by the role at the time of the match (R386 to R398). -/
def runRow (i : Nat) (slaveOp : Bool) : Row → Op Unit
  | .txAck => if slaveOp then sTxAck i else mDone i .tx false
  | .txAckStop => mDone i .tx true
  | .txNak => if slaveOp then sFinal i else mNack i false
  | .txNakStop => mNack i true
  | .rxDone => if slaveOp then sData i false else mDone i .rx false
  | .rxDoneStop => mDone i .rx true
  | .matched => sMatch i
  | .matchedStop => do
    sMatch i
    sFinal i
  | .stop => mStopDone i
  | .arbLoss => mArb i
  | .arbLossMatch => do
    mArb i
    sMatch i
  | .recoverDone => recoverDone i

/-- The sweep's clearing writes: one for each set bit, ascending (R399). -/
def sweepClear (i : Nat) (sts : Word) : List Nat → Op Unit
  | [] => pure ()
  | b :: r => do
    whenB (sts.getLsbD b) (clearSts i (1#32 <<< b))
    sweepClear i sts r

/-- SWEEP (R399): logged, every set bit cleared by a write of its own, ERR_UNCLASS, the reset, any waiter
completed. -/
def sweep (i : Nat) (sts : Word) : Op Unit := do
  logRec i (.unexpectedCombination sts)
  sweepClear i sts [0, 1, 2, 3, 4, 5, 6, 7, 8, 9, 10, 11, 12, 13, 14]
  raiseErr i ERR_UNCLASS
  busReset i
  mFault i

/-- Stages 5 and 6 on a residual word: the exact table, else the sweep (R380, R386, R399, R402). -/
def tableStages (i : Nat) (sts : Word) : Op Unit := do
  let x ← getInst i
  let c ← getCfg
  match rowOf x.master.slaveOp c.slavePresent sts with
  | some row => do
    clearSts i sts
    runRow i x.master.slaveOp row
  | none => sweep i sts

/-- Stages 4 to 6 on a word without fault bits (R380). -/
def lateStages (i : Nat) (sts : Word) : Op Unit := do
  let x ← getInst i
  if anyOf sts NORMAL_STOP && x.master.slaveOp then do
    let r ← slaveStopStage i sts
    whenB (r != 0#32) (tableStages i r)
  else tableStages i sts

/-- One invocation of the decoder (R380): 0 for not mine, 1 for handled (R401). -/
def irq (i : Nat) : Op Ret := do
  let m ← mine i
  if !m then retNat 0
  else do
    let sts ← regRead i .intrSts
    let r ← smbusStage i sts
    if r = 0#32 then retNat 1
    else if anyOf r (ABNORMAL ||| SCL_TIMEOUT) then do
      faultStage i r
      retNat 1
    else do
      lateStages i r
      retNat 1

/-! ## The status patterns as operations -/

/-- A stage run on a residual word as an operation, under both locks; its value is the residue. -/
def stageStep (i : InstId) (f : Nat → Op Word) (s : State) : Host.Outcome State Fault Refusal :=
  stepOn i (fun i => do
    needLocks i
    let r ← f i
    retWord r) s

/-- A residual word at the table: its row, or the sweep when its row does not admit the role (R386, R399). -/
def rowStep (i : InstId) (sts : Word) (s : State) : Host.Outcome State Fault Refusal :=
  stepOn i (fun i => do
    needLocks i
    tableStages i sts
    retNat 1) s

/-- A fault pattern (R384). -/
def faultStep (i : InstId) (sts : Word) (s : State) : Host.Outcome State Fault Refusal :=
  stepOn i (fun i => do
    needLocks i
    faultStage i sts
    retNat 1) s

/-- STS.SMBUS_ALERT (R383). -/
def execStsSmbusAlert (i : InstId) (sts : Word) (s : State) : Host.Outcome State Fault Refusal :=
  stageStep i (fun i => smbusStage i sts) s

/-- STS.SMBUS_ARP (R383). -/
def execStsSmbusArp (i : InstId) (sts : Word) (s : State) : Host.Outcome State Fault Refusal :=
  stageStep i (fun i => smbusStage i sts) s

/-- STS.SMBUS_ALERT_RESP (R383). -/
def execStsSmbusAlertResp (i : InstId) (sts : Word) (s : State) : Host.Outcome State Fault Refusal :=
  stageStep i (fun i => smbusStage i sts) s

/-- STS.ABNORMAL (R384). -/
def execStsAbnormal (i : InstId) (sts : Word) (s : State) : Host.Outcome State Fault Refusal := faultStep i sts s

/-- STS.SCL_TIMEOUT (R384). -/
def execStsSclTimeout (i : InstId) (sts : Word) (s : State) : Host.Outcome State Fault Refusal := faultStep i sts s

/-- STS.SLAVE_STOP (R385); in the master role the stage is passed over and the word is the residue (R380). -/
def execStsSlaveStop (i : InstId) (sts : Word) (s : State) : Host.Outcome State Fault Refusal :=
  stageStep i (fun i => do
    let x ← getInst i
    if x.master.slaveOp then slaveStopStage i sts else pure sts) s

/-- STS.TX_ACK (R387). -/
def execStsTxAck (i : InstId) (s : State) : Host.Outcome State Fault Refusal := rowStep i 0x0001#32 s

/-- STS.TX_ACK_STOP (R388). -/
def execStsTxAckStop (i : InstId) (s : State) : Host.Outcome State Fault Refusal := rowStep i 0x0011#32 s

/-- STS.TX_NAK (R389). -/
def execStsTxNak (i : InstId) (s : State) : Host.Outcome State Fault Refusal := rowStep i 0x0002#32 s

/-- STS.TX_NAK_STOP (R390). -/
def execStsTxNakStop (i : InstId) (s : State) : Host.Outcome State Fault Refusal := rowStep i 0x0012#32 s

/-- STS.RX_DONE (R391). -/
def execStsRxDone (i : InstId) (s : State) : Host.Outcome State Fault Refusal := rowStep i 0x0004#32 s

/-- STS.RX_DONE_STOP (R392). -/
def execStsRxDoneStop (i : InstId) (s : State) : Host.Outcome State Fault Refusal := rowStep i 0x0014#32 s

/-- STS.MATCH (R393). -/
def execStsMatch (i : InstId) (s : State) : Host.Outcome State Fault Refusal := rowStep i 0x0084#32 s

/-- STS.MATCH_STOP (R394). -/
def execStsMatchStop (i : InstId) (s : State) : Host.Outcome State Fault Refusal := rowStep i 0x0094#32 s

/-- STS.STOP (R395). -/
def execStsStop (i : InstId) (s : State) : Host.Outcome State Fault Refusal := rowStep i 0x0010#32 s

/-- STS.ARB_LOSS (R396). -/
def execStsArbLoss (i : InstId) (s : State) : Host.Outcome State Fault Refusal := rowStep i 0x0008#32 s

/-- STS.ARB_LOSS_MATCH (R397). -/
def execStsArbLossMatch (i : InstId) (s : State) : Host.Outcome State Fault Refusal := rowStep i 0x008C#32 s

/-- STS.RECOVER_DONE (R398). -/
def execStsRecoverDone (i : InstId) (s : State) : Host.Outcome State Fault Refusal := rowStep i 0x2000#32 s

/-- STS.NOT_MINE: stage 0, its value 0 for not mine and 1 otherwise; nothing is written (R381). -/
def execStsNotMine (i : InstId) (s : State) : Host.Outcome State Fault Refusal :=
  stepOn i (fun i => do
    let m ← mine i
    retNat (if m then 1 else 0)) s

/-- STS.EMPTY: a word of 0 is handled with no effect (R382). -/
def execStsEmpty (i : InstId) (s : State) : Host.Outcome State Fault Refusal :=
  stepOn i (fun _ => retNat 1) s

/-- STS.SWEEP (R399). -/
def execStsSweep (i : InstId) (sts : Word) (s : State) : Host.Outcome State Fault Refusal :=
  stepOn i (fun i => do
    needLocks i
    sweep i sts
    retNat 1) s

end Sys2Proof.Machine
end

