-- ==== Sys2Proof/Machine/Recovery.lean ====
section
/-! DEFINITION. The bus-recovery FSM (47_bus_recovery.md R420 to R427, R435). RECOVER blocks, so it runs as steps of the
instance's thread: the classification, the four paths, the wakes, and each register access of the slave-dead loop
(R112; log entry 6). -/

namespace Sys2Proof.Machine

open Sys2Proof

/-- RECOVER returns r: to WAIT_IDLE when that called it (R305), else to the operator (R432). -/
def recoverReturn (i : Nat) (r : Code) : Op Ret := do
  let x ← getInst i
  if x.thread.call = .submit then do
    setPc i (.idleRecovered r)
    pure .none
  else do
    modThread i fun _ => Thread.idle
    retCode r

/-- Add bits to `recov_status` (R427). -/
def addStatus (i : Nat) (w : Word) : Op Unit := modRecov i fun v => { v with recovStatus := v.recovStatus ||| w }

/-- Set the recovery FSM's state. -/
def setRState (i : Nat) (r : RState) : Op Unit := modRecov i fun v => { v with rstate := r }

/-- Set the completion wait of a recovery step, its accumulator cleared (R423, R424). -/
def armRecovery (i : Nat) (w : Waiting) : Op Unit := do
  modMaster i fun p => { p with err := 0#32 }
  armWait i w

/-- RECOVER's first lines (R421): E_BUSY while a wait is outstanding or a slave transaction runs, else the CMD word is
read once and the path it selects is next. -/
def recoverEntry (i : Nat) : Op Ret := do
  let x ← getInst i
  if x.master.waiting != .none || x.master.slaveOp then recoverReturn i .busy
  else do
    let c ← regRead i .cmd
    setPc i (.classify c)
    pure .none

/-- PATH_IDLE (R422). -/
def pathIdle (i : Nat) : Op Ret := do
  addStatus i PATH_NOTHING
  recoverReturn i .nothing

/-- PATH_MASTER_STOP up to its wait (R423). -/
def pathMasterStop (i : Nat) : Op Ret := do
  modRecov i fun v => { v with masterResetCnt := satInc v.masterResetCnt }
  addStatus i PATH_MASTER_STOP
  armRecovery i .recovStop
  setRState i .stopWait
  engineCmd i (Cmd.action .stop)
  setPc i .stopWait
  pure .none

/-- PATH_MASTER_STOP after its wait (R423). -/
def stopWake (i : Nat) (expired : Bool) : Op Ret := do
  let x ← getInst i
  disarmWait i
  setRState i .idle
  if expired then do
    addStatus i FAIL_TIMEOUT
    recoverReturn i .timeout
  else if x.master.err != 0#32 then do
    addStatus i FAIL_ERROR
    recoverReturn i .io
  else recoverReturn i .ok

/-- PATH_SLAVE_DEAD up to its first round (R424). -/
def pathSlaveDead (i : Nat) : Op Ret := do
  modRecov i fun v => { v with slaveRecoverCnt := satInc v.slaveRecoverCnt }
  addStatus i PATH_SLAVE_DEAD
  let f ← regRead i .funCtrl
  modRecov i fun v => { v with savedFun := f }
  setRState i (.slaveLoop 1)
  setPc i (.deadInit 1 0)
  pure .none

/-- One step of round t: the a-th write of REG_INIT, or the armed bus-recovery command (R424). -/
def deadStep (i t a : Nat) : Op Ret := do
  if a < 6 then do
    regInitWrite i a
    setPc i (.deadInit t (a + 1))
    pure .none
  else do
    armRecovery i .recovCmd
    engineCmd i (Cmd.action .recover)
    setPc i (.deadWait t)
    pure .none

/-- After round t's wait, signalled or expired: SDA is rechecked; high ends the loop well, low starts the next round or,
after the last, the restoring writes (R424). -/
def deadWake (i t : Nat) : Op Ret := do
  disarmWait i
  let c ← regRead i .cmd
  if c.getLsbD 18 then do
    setRState i .idle
    recoverReturn i .ok
  else if t < Config.recovRetries then do
    setRState i (.slaveLoop (t + 1))
    setPc i (.deadInit (t + 1) 0)
    pure .none
  else do
    setPc i (.deadRestore 0)
    pure .none

/-- The two writes after the last failed round: both enables off, then the saved value; then the failure (R424). -/
def deadRestore (i a : Nat) : Op Ret := do
  let x ← getInst i
  if a = 0 then do
    regWrite i .funCtrl (x.recov.savedFun &&& ~~~(MASTER_EN ||| SLAVE_EN))
    setPc i (.deadRestore 1)
    pure .none
  else do
    regWrite i .funCtrl x.recov.savedFun
    addStatus i FAIL_EXHAUSTED
    setRState i .idle
    recoverReturn i .recov

/-- PATH_UNCLASSIFIED (R425). -/
def pathUnclassified (i : Nat) : Op Ret := do
  logRec i .unclassifiedLines
  addStatus i (PATH_UNCLASSIFIED ||| FAIL_UNCLASSIFIED)
  recoverReturn i .recov

/-- A path may be entered by a thread that has classified this CMD word, or on its own by an instance without a
blocking call; under lock M (R423). DESIGN CHOICE: so for each of the four paths, though R422, R425 and R424's first
lines bracket nothing with it (log entry 8). -/
def enterPath (i : Nat) (c : Word) : Op Unit := do
  needM i
  let x ← getInst i
  require (x.thread.pc == .classify c || x.thread.pc == .idle) .notEnabled
  whenB (x.thread.pc == .idle) (modThread i fun t => { t with call := .recover })

/-! ## Meanings -/

/-- L.IDLE (R422). -/
def execLIdle (i : InstId) (c : Word) (s : State) : Host.Outcome State Fault Refusal :=
  stepOn i (fun i => do
    enterPath i c
    pathIdle i) s

/-- L.MASTER_HOLD (R423). -/
def execLMasterHold (i : InstId) (c : Word) (s : State) : Host.Outcome State Fault Refusal :=
  stepOn i (fun i => do
    enterPath i c
    pathMasterStop i) s

/-- L.SLAVE_HOLD (R424). -/
def execLSlaveHold (i : InstId) (c : Word) (s : State) : Host.Outcome State Fault Refusal :=
  stepOn i (fun i => do
    enterPath i c
    pathSlaveDead i) s

/-- L.OTHER, the default arm, which no classification selects (R425): on its own only; that it
needs lock M free is log entry 8's choice. -/
def execLOther (i : InstId) (s : State) : Host.Outcome State Fault Refusal :=
  stepOn i (fun i => do
    needM i
    let x ← getInst i
    require (x.thread.pc == .idle) .notEnabled
    pathUnclassified i) s

/-- RECOVER: its entry, on its own or called by WAIT_IDLE, and the steps of its paths after their first (R421 to R424).
DESIGN CHOICE: each needs lock M free, the register writes of R424 that bracket nothing with it too (log entry 8). -/
def execRecover (i : InstId) (s : State) : Host.Outcome State Fault Refusal :=
  stepOn i (fun i => do
    needM i
    let x ← getInst i
    match x.thread.pc with
    | .idle => do
      modThread i fun t => { t with call := .recover }
      recoverEntry i
    | .recoverEntry => recoverEntry i
    | .stopWake e => stopWake i e
    | .deadInit t a => deadStep i t a
    | .deadWake t _ => deadWake i t
    | .deadRestore a => deadRestore i a
    | _ => opRefuse .notEnabled) s

end Sys2Proof.Machine
end

