-- ==== Sys2Proof/Machine/HostOps.lean ====
section
/-! DEFINITION. The host requests (30_encoding.md R137, R138, R144) and the message descriptor as data the host places
(R136). -/

namespace Sys2Proof.Machine

open Sys2Proof

/-- A host request: E_INVAL for an instance the machine does not have, no state touched (R137, R144). -/
def hostCall (i : InstId) (op : Nat → Op Ret) (s : State) : Host.Outcome State Fault Refusal :=
  runOp (if i.toNat < s.insts.length then op i.toNat else retCode .inval) s

/-- A host operation is offered once DEV_INIT has returned R_OK (R493); a blocking call of the instance that is under
way was offered then, and recovery's own REG_INIT may have the enables off for a moment. -/
def offered (i : Nat) : Op Unit := do
  let x ← getInst i
  require (initialised x || x.thread.pc != .idle) .notOffered

/-- A slave operation: E_INVAL when the slave engine does not exist (R358). -/
def slaveCall (i : InstId) (op : Nat → Op Ret) (s : State) : Host.Outcome State Fault Refusal :=
  hostCall i (fun i => do
    let c ← getCfg
    if c.slavePresent then do
      offered i
      op i
    else retCode .inval) s

/-- DEV_INIT (R245): E_INVAL for an invalid pair without an override, E_BUSY when the instance is not idle or a
blocking call runs (R502), else REG_INIT. `waiting` and `mstate` are read under lock M (R106, R109). -/
def devInit (i : Nat) : Op Ret := do
  let c ← getCfg
  let ic ← getInstCfg i
  if (overrideWord c ic).isNone && !validPair ic.clkIn ic.busFreq then retCode .inval
  else do
    needM i
    let x ← getInst i
    if x.master.waiting != .none || x.master.mstate != .idle || x.recov.rstate != .idle || x.thread.pc != .idle then
      retCode .busy
    else do
      regInit i
      retCode .ok

/-- SLAVE_READ (R350). -/
def slaveRead (i : Nat) (dst cap : Word) : Op Ret := do
  let x ← getInst i
  let v := x.slave
  if v.ready = 0 then retCode .nodata
  else
    let n := slotLen v v.rd
    if cap.toNat < n then retCode .inval
    else match v.ring[v.rd]? with
      | none => retCode .nodata
      | some q => do
        let d ← memRead q.buf 0 n
        hostWrite dst.toNat d
        modSlave i evictOldest
        retWord ((BitVec.ofNat 32 q.addr.toNat <<< 16) ||| BitVec.ofNat 32 n)

/-- SLAVE_WRITE (R351). DESIGN CHOICE: a source in a message buffer of a SUBMIT that runs gives the bytes host memory
holds, which R503 calls unspecified (log entry 39). -/
def slaveWrite (i n : Nat) (src : Word) : Op Ret := do
  let x ← getInst i
  let c ← getCfg
  if c.slotCap < n then retCode .inval
  else if x.slave.sstate = .tx then retCode .busy
  else do
    let d ← hostRead src.toNat n
    modSlave i fun v => { v with txbuf := Memory.writeN v.txbuf 0 d, txLen := n }
    retNat n

/-- SLAVE_ENABLE (R352). -/
def slaveEnable (i : Nat) (a : BitVec 16) : Op Ret :=
  if 0x7F#16 < a then retCode .inval
  else do
    regWrite i .devAddr (a.setWidth 32)
    let f ← regRead i .funCtrl
    regWrite i .funCtrl (f ||| SLAVE_EN)
    modSlave i fun v => { v with slaveEnabled := true }
    retCode .ok

/-- SLAVE_DISABLE (R353). -/
def slaveDisable (i : Nat) : Op Ret := do
  let f ← regRead i .funCtrl
  regWrite i .funCtrl (f &&& ~~~SLAVE_EN)
  modSlave i fun v => { v with slaveEnabled := false }
  sAbort i
  retCode .ok

/-! ## Meanings -/

/-- DEV_INIT (R245). -/
def execDevInit (i : InstId) (s : State) : Host.Outcome State Fault Refusal := hostCall i devInit s

/-- SUBMIT's entry (R300, R301); its thread goes on with DO_XFER. -/
def execSubmit (i : InstId) (n : BitVec 16) (desc bound : Word) (s : State) : Host.Outcome State Fault Refusal :=
  hostCall i (fun i => submit i n.toNat desc bound) s

/-- SLAVE_READ, under lock S (R350). -/
def execSlaveRead (i : InstId) (dst cap : Word) (s : State) : Host.Outcome State Fault Refusal :=
  slaveCall i (fun i => do
    needS i
    slaveRead i dst cap) s

/-- SLAVE_WRITE, under lock S (R351). -/
def execSlaveWrite (i : InstId) (n : BitVec 16) (src : Word) (s : State) : Host.Outcome State Fault Refusal :=
  slaveCall i (fun i => do
    needS i
    slaveWrite i n.toNat src) s

/-- SLAVE_ENABLE (R352). -/
def execSlaveEnable (i : InstId) (a : BitVec 16) (s : State) : Host.Outcome State Fault Refusal :=
  slaveCall i (fun i => slaveEnable i a) s

/-- SLAVE_DISABLE (R353); S_ABORT takes the locks. -/
def execSlaveDisable (i : InstId) (s : State) : Host.Outcome State Fault Refusal :=
  slaveCall i (fun i => do
    needLocks i
    slaveDisable i) s

/-- ALERT_ASSERT: C.NOP with the level bit 1 (R354). -/
def execAlertAssert (i : InstId) (s : State) : Host.Outcome State Fault Refusal :=
  slaveCall i (fun i => do
    regWrite i .cmd 0x400#32
    retCode .ok) s

/-- ALERT_DEASSERT: C.NOP with the level bit 0 (R355). -/
def execAlertDeassert (i : InstId) (s : State) : Host.Outcome State Fault Refusal :=
  slaveCall i (fun i => do
    regWrite i .cmd 0#32
    retCode .ok) s

/-- RECOVER_REQ: RECOVER from the operator (R432); E_BUSY while a blocking call runs (R502). Its paths go on as steps
of the thread. -/
def execRecoverReq (i : InstId) (s : State) : Host.Outcome State Fault Refusal :=
  hostCall i (fun i => do
    offered i
    needM i
    let x ← getInst i
    if x.thread.pc != .idle then retCode .busy
    else do
      modThread i fun t => { t with call := .recover }
      recoverEntry i) s

/-- READ_MRST_CNT (R433). -/
def execReadMrstCnt (i : InstId) (s : State) : Host.Outcome State Fault Refusal :=
  hostCall i (fun i => do
    offered i
    let x ← getInst i
    retWord x.recov.masterResetCnt) s

/-- READ_SREC_CNT (R433). -/
def execReadSrecCnt (i : InstId) (s : State) : Host.Outcome State Fault Refusal :=
  hostCall i (fun i => do
    offered i
    let x ← getInst i
    retWord x.recov.slaveRecoverCnt) s

/-- READ_RECOV_STATUS: read to clear (R434). -/
def execReadRecovStatus (i : InstId) (s : State) : Host.Outcome State Fault Refusal :=
  hostCall i (fun i => do
    offered i
    let x ← getInst i
    modRecov i fun v => { v with recovStatus := 0#32 }
    retWord x.recov.recovStatus) s

/-- BUS_RESET from the operator: E_BUSY without effect while a wait is outstanding (R429) or a blocking call runs
(R502), else FUN_CTRL is captured, and CTRL_RESET, TIMING_INIT and S_ABORT go on as steps of the thread, one register
access a step (R112). -/
def execBusReset (i : InstId) (s : State) : Host.Outcome State Fault Refusal :=
  hostCall i (fun i => do
    offered i
    needM i
    let x ← getInst i
    if x.master.waiting != .none || x.thread.pc != .idle then retCode .busy
    else do
      let f ← regRead i .funCtrl
      modThread i fun t => { t with pc := .resetCtrl f 0, call := .reset }
      pure .none) s

/-- IRQ: one invocation of the decoder (R380), which takes both locks (R112). -/
def execIrq (i : InstId) (s : State) : Host.Outcome State Fault Refusal :=
  hostCall i (fun i => do
    needLocks i
    irq i) s

/-- A reserved host request: E_INVAL, no state touched (R144). -/
def execReservedHost (_ _ _ : Word) (s : State) : Host.Outcome State Fault Refusal := runOp (retCode .inval) s

/-- MSG: the host lays a descriptor's three words at `loc` and the bytes of its buffer (R136, R102). -/
def execMsg (loc w0 bufRef cap : Word) (data : List Byte) (s : State) : Host.Outcome State Fault Refusal :=
  runOp (noRet (do
    hostWrite loc.toNat (w0.toBytes ++ bufRef.toBytes ++ cap.toBytes)
    hostWrite bufRef.toNat data)) s

end Sys2Proof.Machine
end

