-- ==== Sys2Proof/Machine/RegAccess.lean ====
section
/-! DEFINITION. The register accesses of format REG (40_register_access.md): each reads its register's view or applies
its register's write effect, through the two shared operations `regRead` and `regWrite`. As steps of their own they test
no agent (R185; log entry 34). -/

namespace Sys2Proof.Machine

open Sys2Proof

/-- RD of a register of an instance (R170). -/
def rdReg (i : InstId) (r : Reg) (s : State) : Host.Outcome State Fault Refusal :=
  stepOn i (fun i => do
    let w ← regRead i r
    retWord w) s

/-- WR of a register of an instance (R171). -/
def wrReg (i : InstId) (r : Reg) (v : Word) (s : State) : Host.Outcome State Fault Refusal :=
  stepOn i (fun i => noRet (regWrite i r v)) s

/-- RD FUN_CTRL (R172). -/
def execRdFunCtrl (i : InstId) (s : State) : Host.Outcome State Fault Refusal := rdReg i .funCtrl s

/-- WR FUN_CTRL (R172). -/
def execWrFunCtrl (i : InstId) (v : Word) (s : State) : Host.Outcome State Fault Refusal := wrReg i .funCtrl v s

/-- RD AC_TIMING1 (R173). -/
def execRdAcTiming1 (i : InstId) (s : State) : Host.Outcome State Fault Refusal := rdReg i .acTiming1 s

/-- WR AC_TIMING1 (R173). -/
def execWrAcTiming1 (i : InstId) (v : Word) (s : State) : Host.Outcome State Fault Refusal := wrReg i .acTiming1 v s

/-- RD AC_TIMING2 (R174). -/
def execRdAcTiming2 (i : InstId) (s : State) : Host.Outcome State Fault Refusal := rdReg i .acTiming2 s

/-- WR AC_TIMING2 (R174). -/
def execWrAcTiming2 (i : InstId) (v : Word) (s : State) : Host.Outcome State Fault Refusal := wrReg i .acTiming2 v s

/-- RD INTR_CTRL (R175). -/
def execRdIntrCtrl (i : InstId) (s : State) : Host.Outcome State Fault Refusal := rdReg i .intrCtrl s

/-- WR INTR_CTRL (R175). -/
def execWrIntrCtrl (i : InstId) (v : Word) (s : State) : Host.Outcome State Fault Refusal := wrReg i .intrCtrl v s

/-- RD INTR_STS (R176). -/
def execRdIntrSts (i : InstId) (s : State) : Host.Outcome State Fault Refusal := rdReg i .intrSts s

/-- WR INTR_STS (R176). -/
def execWrIntrSts (i : InstId) (v : Word) (s : State) : Host.Outcome State Fault Refusal := wrReg i .intrSts v s

/-- RD CMD (R177). -/
def execRdCmd (i : InstId) (s : State) : Host.Outcome State Fault Refusal := rdReg i .cmd s

/-- WR CMD (R177). -/
def execWrCmd (i : InstId) (v : Word) (s : State) : Host.Outcome State Fault Refusal := wrReg i .cmd v s

/-- RD DEV_ADDR (R178). -/
def execRdDevAddr (i : InstId) (s : State) : Host.Outcome State Fault Refusal := rdReg i .devAddr s

/-- WR DEV_ADDR (R178). -/
def execWrDevAddr (i : InstId) (v : Word) (s : State) : Host.Outcome State Fault Refusal := wrReg i .devAddr v s

/-- RD BUF_CTRL (R179). -/
def execRdBufCtrl (i : InstId) (s : State) : Host.Outcome State Fault Refusal := rdReg i .bufCtrl s

/-- WR BUF_CTRL (R179). -/
def execWrBufCtrl (i : InstId) (v : Word) (s : State) : Host.Outcome State Fault Refusal := wrReg i .bufCtrl v s

/-- RD BYTE_DATA (R180). -/
def execRdByteData (i : InstId) (s : State) : Host.Outcome State Fault Refusal := rdReg i .byteData s

/-- WR BYTE_DATA (R180). -/
def execWrByteData (i : InstId) (v : Word) (s : State) : Host.Outcome State Fault Refusal := wrReg i .byteData v s

/-- RD DMA_BASE (R181). -/
def execRdDmaBase (i : InstId) (s : State) : Host.Outcome State Fault Refusal := rdReg i .dmaBase s

/-- WR DMA_BASE (R181). -/
def execWrDmaBase (i : InstId) (v : Word) (s : State) : Host.Outcome State Fault Refusal := wrReg i .dmaBase v s

/-- RD DMA_LEN (R182). -/
def execRdDmaLen (i : InstId) (s : State) : Host.Outcome State Fault Refusal := rdReg i .dmaLen s

/-- WR DMA_LEN (R182). -/
def execWrDmaLen (i : InstId) (v : Word) (s : State) : Host.Outcome State Fault Refusal := wrReg i .dmaLen v s

/-- RD GROUP_STS: the shared view (R183). -/
def execRdGroupSts (s : State) : Host.Outcome State Fault Refusal :=
  runOp (do
    let w ← readGroup
    retWord w) s

/-- WR GROUP_STS: ignored (R183). -/
def execWrGroupSts (_ : Word) (s : State) : Host.Outcome State Fault Refusal := runOp (pure .none) s

/-- RD of a reserved offset returns 0 (R143, R170). -/
def execRdReserved (i : InstId) (_ : BitVec 6) (s : State) : Host.Outcome State Fault Refusal :=
  stepOn i (fun _ => retWord 0#32) s

/-- WR of a reserved offset is ignored (R143, R171). -/
def execWrReserved (i : InstId) (_ : BitVec 6) (_ : Word) (s : State) : Host.Outcome State Fault Refusal :=
  stepOn i (fun _ => pure .none) s

end Sys2Proof.Machine
end

