-- ==== Sys2Proof/Machine/Dispatch.lean ====
section
/-! DEFINITION. Each operation's meaning, one arm a constructor. -/

namespace Sys2Proof.Machine

open Sys2Proof

/-- What an operation does. -/
def exec (i : Instr) (s : State) : Host.Outcome State Fault Refusal :=
  match i with
  | .rdFunCtrl u => Sys2Proof.Machine.execRdFunCtrl u s
  | .wrFunCtrl u v => Sys2Proof.Machine.execWrFunCtrl u v s
  | .rdAcTiming1 u => Sys2Proof.Machine.execRdAcTiming1 u s
  | .wrAcTiming1 u v => Sys2Proof.Machine.execWrAcTiming1 u v s
  | .rdAcTiming2 u => Sys2Proof.Machine.execRdAcTiming2 u s
  | .wrAcTiming2 u v => Sys2Proof.Machine.execWrAcTiming2 u v s
  | .rdIntrCtrl u => Sys2Proof.Machine.execRdIntrCtrl u s
  | .wrIntrCtrl u v => Sys2Proof.Machine.execWrIntrCtrl u v s
  | .rdIntrSts u => Sys2Proof.Machine.execRdIntrSts u s
  | .wrIntrSts u v => Sys2Proof.Machine.execWrIntrSts u v s
  | .rdCmd u => Sys2Proof.Machine.execRdCmd u s
  | .wrCmd u v => Sys2Proof.Machine.execWrCmd u v s
  | .rdDevAddr u => Sys2Proof.Machine.execRdDevAddr u s
  | .wrDevAddr u v => Sys2Proof.Machine.execWrDevAddr u v s
  | .rdBufCtrl u => Sys2Proof.Machine.execRdBufCtrl u s
  | .wrBufCtrl u v => Sys2Proof.Machine.execWrBufCtrl u v s
  | .rdByteData u => Sys2Proof.Machine.execRdByteData u s
  | .wrByteData u v => Sys2Proof.Machine.execWrByteData u v s
  | .rdDmaBase u => Sys2Proof.Machine.execRdDmaBase u s
  | .wrDmaBase u v => Sys2Proof.Machine.execWrDmaBase u v s
  | .rdDmaLen u => Sys2Proof.Machine.execRdDmaLen u s
  | .wrDmaLen u v => Sys2Proof.Machine.execWrDmaLen u v s
  | .rdGroupSts => Sys2Proof.Machine.execRdGroupSts s
  | .rdReserved u off => Sys2Proof.Machine.execRdReserved u off s
  | .wrGroupSts v => Sys2Proof.Machine.execWrGroupSts v s
  | .wrReserved u off v => Sys2Proof.Machine.execWrReserved u off v s
  | .cNop u en al hi => Sys2Proof.Machine.execCNop u en al hi s
  | .cSRx u en al hi => Sys2Proof.Machine.execCSRx u en al hi s
  | .cStartTx u en al hi => Sys2Proof.Machine.execCStartTx u en al hi s
  | .cStartTxStop u en al hi => Sys2Proof.Machine.execCStartTxStop u en al hi s
  | .cTx u en al hi => Sys2Proof.Machine.execCTx u en al hi s
  | .cTxStop u en al hi => Sys2Proof.Machine.execCTxStop u en al hi s
  | .cRx u en al hi => Sys2Proof.Machine.execCRx u en al hi s
  | .cRxLast u en al hi => Sys2Proof.Machine.execCRxLast u en al hi s
  | .cRxLastStop u en al hi => Sys2Proof.Machine.execCRxLastStop u en al hi s
  | .cStop u en al hi => Sys2Proof.Machine.execCStop u en al hi s
  | .cSTx u en al hi => Sys2Proof.Machine.execCSTx u en al hi s
  | .cRecover u en al hi => Sys2Proof.Machine.execCRecover u en al hi s
  | .reservedCmd u w => Sys2Proof.Machine.execReservedCmd u w s
  | .stsSmbusAlert u sts => Sys2Proof.Machine.execStsSmbusAlert u sts s
  | .stsSmbusArp u sts => Sys2Proof.Machine.execStsSmbusArp u sts s
  | .stsSmbusAlertResp u sts => Sys2Proof.Machine.execStsSmbusAlertResp u sts s
  | .stsAbnormal u sts => Sys2Proof.Machine.execStsAbnormal u sts s
  | .stsSclTimeout u sts => Sys2Proof.Machine.execStsSclTimeout u sts s
  | .stsSlaveStop u sts => Sys2Proof.Machine.execStsSlaveStop u sts s
  | .stsTxAck u => Sys2Proof.Machine.execStsTxAck u s
  | .stsTxAckStop u => Sys2Proof.Machine.execStsTxAckStop u s
  | .stsTxNak u => Sys2Proof.Machine.execStsTxNak u s
  | .stsTxNakStop u => Sys2Proof.Machine.execStsTxNakStop u s
  | .stsRxDone u => Sys2Proof.Machine.execStsRxDone u s
  | .stsRxDoneStop u => Sys2Proof.Machine.execStsRxDoneStop u s
  | .stsMatch u => Sys2Proof.Machine.execStsMatch u s
  | .stsMatchStop u => Sys2Proof.Machine.execStsMatchStop u s
  | .stsStop u => Sys2Proof.Machine.execStsStop u s
  | .stsArbLoss u => Sys2Proof.Machine.execStsArbLoss u s
  | .stsArbLossMatch u => Sys2Proof.Machine.execStsArbLossMatch u s
  | .stsRecoverDone u => Sys2Proof.Machine.execStsRecoverDone u s
  | .stsNotMine u => Sys2Proof.Machine.execStsNotMine u s
  | .stsEmpty u => Sys2Proof.Machine.execStsEmpty u s
  | .stsSweep u sts => Sys2Proof.Machine.execStsSweep u sts s
  | .lIdle u c => Sys2Proof.Machine.execLIdle u c s
  | .lMasterHold u c => Sys2Proof.Machine.execLMasterHold u c s
  | .lSlaveHold u c => Sys2Proof.Machine.execLSlaveHold u c s
  | .lOther u => Sys2Proof.Machine.execLOther u s
  | .devInit u => Sys2Proof.Machine.execDevInit u s
  | .submit u n desc bound => Sys2Proof.Machine.execSubmit u n desc bound s
  | .slaveRead u dst cap => Sys2Proof.Machine.execSlaveRead u dst cap s
  | .slaveWrite u n src => Sys2Proof.Machine.execSlaveWrite u n src s
  | .slaveEnable u a => Sys2Proof.Machine.execSlaveEnable u a s
  | .slaveDisable u => Sys2Proof.Machine.execSlaveDisable u s
  | .alertAssert u => Sys2Proof.Machine.execAlertAssert u s
  | .alertDeassert u => Sys2Proof.Machine.execAlertDeassert u s
  | .recoverReq u => Sys2Proof.Machine.execRecoverReq u s
  | .readMrstCnt u => Sys2Proof.Machine.execReadMrstCnt u s
  | .readSrecCnt u => Sys2Proof.Machine.execReadSrecCnt u s
  | .readRecovStatus u => Sys2Proof.Machine.execReadRecovStatus u s
  | .busReset u => Sys2Proof.Machine.execBusReset u s
  | .irq u => Sys2Proof.Machine.execIrq u s
  | .reservedHost w0 w1 w2 => Sys2Proof.Machine.execReservedHost w0 w1 w2 s
  | .msg loc w0 bufRef cap data => Sys2Proof.Machine.execMsg loc w0 bufRef cap data s
  | .armByte u a d => Sys2Proof.Machine.execArmByte u a d s
  | .extByte u => Sys2Proof.Machine.execExtByte u s
  | .armBuf u a d => Sys2Proof.Machine.execArmBuf u a d s
  | .extBuf u => Sys2Proof.Machine.execExtBuf u s
  | .armDmaDec u a d => Sys2Proof.Machine.execArmDmaDec u a d s
  | .extDmaDec u => Sys2Proof.Machine.execExtDmaDec u s
  | .armDmaInc u a d => Sys2Proof.Machine.execArmDmaInc u a d s
  | .extDmaInc u => Sys2Proof.Machine.execExtDmaInc u s
  | .calcTiming clkIn busFreq => Sys2Proof.Machine.execCalcTiming clkIn busFreq s
  | .timingWord u => Sys2Proof.Machine.execTimingWord u s
  | .timingInit u => Sys2Proof.Machine.execTimingInit u s
  | .regInit u => Sys2Proof.Machine.execRegInit u s
  | .armNext u => Sys2Proof.Machine.execArmNext u s
  | .poolAcq u side => Sys2Proof.Machine.execPoolAcq u side s
  | .poolRel u side => Sys2Proof.Machine.execPoolRel u side s
  | .selectMode u side => Sys2Proof.Machine.execSelectMode u side s
  | .sArmRx u => Sys2Proof.Machine.execSArmRx u s
  | .sArmTx u => Sys2Proof.Machine.execSArmTx u s
  | .doXfer u => Sys2Proof.Machine.execDoXfer u s
  | .waitIdle u => Sys2Proof.Machine.execWaitIdle u s
  | .startMsg u k => Sys2Proof.Machine.execStartMsg u k s
  | .wait u => Sys2Proof.Machine.execWait u s
  | .wakeExpired u => Sys2Proof.Machine.execWakeExpired u s
  | .wakeSignalled u => Sys2Proof.Machine.execWakeSignalled u s
  | .mDone u kind stop => Sys2Proof.Machine.execMDone u kind stop s
  | .mNack u stop => Sys2Proof.Machine.execMNack u stop s
  | .mArb u => Sys2Proof.Machine.execMArb u s
  | .mStopDone u => Sys2Proof.Machine.execMStopDone u s
  | .mFault u => Sys2Proof.Machine.execMFault u s
  | .mPreempt u => Sys2Proof.Machine.execMPreempt u s
  | .sMatch u => Sys2Proof.Machine.execSMatch u s
  | .startOfWrite u a => Sys2Proof.Machine.execStartOfWrite u a s
  | .startOfRead u a => Sys2Proof.Machine.execStartOfRead u a s
  | .sData u stop => Sys2Proof.Machine.execSData u stop s
  | .sTxAck u => Sys2Proof.Machine.execSTxAck u s
  | .sFinal u => Sys2Proof.Machine.execSFinal u s
  | .sStop u sts => Sys2Proof.Machine.execSStop u sts s
  | .sAbort u => Sys2Proof.Machine.execSAbort u s
  | .recover u => Sys2Proof.Machine.execRecover u s
  | .ctrlReset u => Sys2Proof.Machine.execCtrlReset u s
  | .kAck u stop mis => Sys2Proof.Machine.execKAck u stop mis s
  | .kNack u j stop mis => Sys2Proof.Machine.execKNack u j stop mis s
  | .kRx u bs stop mis => Sys2Proof.Machine.execKRx u bs stop mis s
  | .kStop u => Sys2Proof.Machine.execKStop u s
  | .kArb u => Sys2Proof.Machine.execKArb u s
  | .kAbn u => Sys2Proof.Machine.execKAbn u s
  | .kSclto u => Sys2Proof.Machine.execKSclto u s
  | .kMatch u a arb => Sys2Proof.Machine.execKMatch u a arb s
  | .kRecovered u sda => Sys2Proof.Machine.execKRecovered u sda s
  | .kLine u sda scl busy => Sys2Proof.Machine.execKLine u sda scl busy s
  | .kSmbus u m => Sys2Proof.Machine.execKSmbus u m s
  | .tExpire u => Sys2Proof.Machine.execTExpire u s

end Sys2Proof.Machine
end

