-- ==== Sys2Proof/Machine/Step.lean ====
section
/-! DEFINITION. One step: the operation at the head of the schedule is decoded and run (R13; log entry 1). -/

namespace Sys2Proof.Machine

open Sys2Proof

/-- One step. The block fetches no instructions (R31): which agent steps next is the schedule's, held in `inbox`. With
nothing scheduled the machine is unchanged; a frame that spells no operation is refused. -/
def step (s : State) : Host.Outcome State Fault Refusal :=
  match s.inbox with
  | [] => .next s
  | f :: r => match decode s.cfg f with
    | .ok i => exec i { s with inbox := r }
    | .error e => .refused (.undecodable e)

/-- The operation a table word spells, scheduled first. -/
def State.withFetchWord (s : State) (nbits w : Nat) : State := { s with inbox := tableFrame nbits w :: s.inbox }

end Sys2Proof.Machine
end

