-- ==== Sys2Proof/Safety.lean ====
section
/-! DEFINITION. The terms statements are made in: which instance an operation acts on, what it leaves alone, and what
every run keeps (R45, R66, R68, R81). -/

namespace Sys2Proof

/-- The instance an operation acts on; none for the shared register, CALC_TIMING, a reserved request and MSG. -/
def Instr.target : Instr → Option InstId
  | .rdFunCtrl i | .wrFunCtrl i _ | .rdAcTiming1 i | .wrAcTiming1 i _ | .rdAcTiming2 i | .wrAcTiming2 i _
  | .rdIntrCtrl i | .wrIntrCtrl i _ | .rdIntrSts i | .wrIntrSts i _ | .rdCmd i | .wrCmd i _ | .rdDevAddr i
  | .wrDevAddr i _ | .rdBufCtrl i | .wrBufCtrl i _ | .rdByteData i | .wrByteData i _ | .rdDmaBase i
  | .wrDmaBase i _ | .rdDmaLen i | .wrDmaLen i _ | .rdReserved i _ | .wrReserved i _ _ => some i
  | .cNop i _ _ _ | .cSRx i _ _ _ | .cStartTx i _ _ _ | .cStartTxStop i _ _ _ | .cTx i _ _ _ | .cTxStop i _ _ _
  | .cRx i _ _ _ | .cRxLast i _ _ _ | .cRxLastStop i _ _ _ | .cStop i _ _ _ | .cSTx i _ _ _ | .cRecover i _ _ _
  | .reservedCmd i _ => some i
  | .stsSmbusAlert i _ | .stsSmbusArp i _ | .stsSmbusAlertResp i _ | .stsAbnormal i _ | .stsSclTimeout i _
  | .stsSlaveStop i _ | .stsTxAck i | .stsTxAckStop i | .stsTxNak i | .stsTxNakStop i | .stsRxDone i
  | .stsRxDoneStop i | .stsMatch i | .stsMatchStop i | .stsStop i | .stsArbLoss i | .stsArbLossMatch i
  | .stsRecoverDone i | .stsNotMine i | .stsEmpty i | .stsSweep i _ => some i
  | .lIdle i _ | .lMasterHold i _ | .lSlaveHold i _ | .lOther i => some i
  | .devInit i | .submit i _ _ _ | .slaveRead i _ _ | .slaveWrite i _ _ | .slaveEnable i _ | .slaveDisable i
  | .alertAssert i | .alertDeassert i | .recoverReq i | .readMrstCnt i | .readSrecCnt i | .readRecovStatus i
  | .busReset i | .irq i => some i
  | .armByte i _ _ | .extByte i | .armBuf i _ _ | .extBuf i | .armDmaDec i _ _ | .extDmaDec i | .armDmaInc i _ _
  | .extDmaInc i => some i
  | .timingWord i | .timingInit i | .regInit i | .armNext i | .poolAcq i _ | .poolRel i _ | .selectMode i _
  | .sArmRx i | .sArmTx i | .doXfer i | .waitIdle i | .startMsg i _ | .wait i | .wakeExpired i | .wakeSignalled i
  | .mDone i _ _ | .mNack i _ | .mArb i | .mStopDone i | .mFault i | .mPreempt i | .sMatch i | .startOfWrite i _
  | .startOfRead i _ | .sData i _ | .sTxAck i | .sFinal i | .sStop i _ | .sAbort i | .recover i
  | .ctrlReset i => some i
  | .kAck i _ _ | .kNack i _ _ _ | .kRx i _ _ _ | .kStop i | .kMatch i _ _
  | .kRecovered i _ | .kLine i _ _ _ | .kSmbus i _ | .tExpire i => some i
  | .kArb f | .kAbn f | .kSclto f => some f.inst
  | .rdGroupSts | .wrGroupSts _ | .calcTiming _ _ | .reservedHost _ _ _ | .msg _ _ _ _ _ => none

/-- The operations that move the thread of a blocking host call: SUBMIT's lines, RECOVER and its paths, the operator's
BUS_RESET and its parts, and the timer (R303, R421, R429, R476). -/
def Instr.movesThread : Instr → Bool
  | .submit _ _ _ _ | .doXfer _ | .waitIdle _ | .startMsg _ _ | .wait _ | .wakeExpired _ | .wakeSignalled _
  | .recover _ | .recoverReq _ | .lIdle _ _ | .lMasterHold _ _ | .lSlaveHold _ _ | .lOther _ | .busReset _
  | .ctrlReset _ | .timingInit _ | .sAbort _ | .tExpire _ => true
  | _ => false

/-- The outcomes of the core and the bus, which latch status bits (R45). -/
def Instr.latches : Instr → Bool
  | .kAck _ _ _ | .kNack _ _ _ _ | .kRx _ _ _ _ | .kStop _ | .kArb _ | .kAbn _ | .kSclto _ | .kMatch _ _ _
  | .kRecovered _ _ | .kSmbus _ _ => true
  | _ => false

/-- The operations that count a recovery (R426). -/
def Instr.counts : Instr → Bool
  | .lMasterHold _ _ | .lSlaveHold _ _ => true
  | _ => false

end Sys2Proof

namespace Sys2Proof.Machine

open Sys2Proof

/-! ## Reading a state -/

/-- Instance i exists and is x. -/
def State.Has (s : State) (i : InstId) (x : Inst) : Prop := s.insts[i.toNat]? = some x

/-- The state in which instance i alone is changed, by f, and the operation returned r. -/
def State.after (s : State) (i : InstId) (f : Inst → Inst) (r : Ret) : State := { s.updInst i.toNat f with ret := r }

/-- Both locks of the instance are free (R73). -/
def Inst.Unlocked (x : Inst) : Prop := x.lockM = none ∧ x.lockS = none

/-- The instance's streams after a register write (R499). -/
def Inst.noted (x : Inst) (r : Reg) (v : Word) : Outs := { x.outs with regTrace := x.outs.regTrace ++ [(r, v)] }

/-- The instance's streams after several register writes, in order. -/
def Inst.notedAll (x : Inst) (l : List (Reg × Word)) : Outs := { x.outs with regTrace := x.outs.regTrace ++ l }

/-- The bytes of a stretch of a byte space, none when one was never written or lies outside the space (R80, R100). -/
def Memory.bytes (m : Memory) (a n : Nat) : Option (List Byte) := if a + n ≤ spaceSize then m.readN a n else none

/-- The bytes a command takes from its path at issue (R202). -/
def State.sampled (s : State) (x : Inst) (c : Cmd) (p : Path) (n : Nat) : Option (List Byte) :=
  if cmdIsTx c then
    match p with
    | .byte => some [x.regs.byteTx]
    | .buf => s.pool.bytes 0 n
    | .dma => s.dma.bytes x.regs.dmaBase.toNat n
  else some []

/-- The core after a write of FUN_CTRL over `old`: the side whose enable falls is reset (R172, R229). -/
def Core.afterFun (c : Core) (old new : Word) (a b d : Bool) : Core :=
  let m := if old.getLsbD 0 && !new.getLsbD 0 then c.resetMaster a b d else c
  if old.getLsbD 1 && !new.getLsbD 1 then m.resetSlave a b d else m

/-! ## Frames -/

/-- Every byte reads as before. -/
def SameBytes (m m' : Memory) : Prop := ∀ a, Memory.get m' a = Memory.get m a

/-- Every byte outside the n bytes from a reads as before. -/
def SameOutside (m m' : Memory) (a n : Nat) : Prop := ∀ b, b < a ∨ a + n ≤ b → Memory.get m' b = Memory.get m b

/-- The bytes from a on are bs. -/
def Holds (m : Memory) (a : Nat) (bs : List Byte) : Prop :=
  ∀ j, j < bs.length → Memory.get m (a + j) = bs[j]?

/-- No byte of the three shared spaces changes. -/
def State.SameSpaces (s t : State) : Prop := SameBytes s.pool t.pool ∧ SameBytes s.dma t.dma ∧ SameBytes s.mem t.mem

/-- Nothing of the machine outside instance i changes, the byte spaces, the pool's owner and the value returned
apart. -/
def State.SameOthers (s t : State) (i : InstId) : Prop :=
  t.cfg = s.cfg ∧ t.inbox = s.inbox ∧ t.insts.length = s.insts.length
  ∧ ∀ j, j ≠ i.toNat → t.insts[j]? = s.insts[j]?

/-- From s to t instance i became y, and nothing else changed but the value returned and the count of free values. -/
def State.Becomes (s t : State) (i : InstId) (y : Inst) : Prop :=
  t.Has i y ∧ s.SameOthers t i ∧ s.SameSpaces t ∧ t.poolOwner = s.poolOwner

/-! ## What an operation leaves -/

/-- Instance i is now y, the pool's owner o, the value returned r, n free values have been drawn; nothing else of the
machine differs from s. -/
def State.put (s : State) (i : Nat) (y : Inst) (o : Option (Nat × Side)) (n : Nat) (r : Ret) : State :=
  { s with insts := s.insts.set i y, poolOwner := o, draws := n, ret := r }

/-- The outcome of an operation that returned r instead of its own value. -/
def giving (o : Host.Outcome State Fault Refusal) (r : Ret) : Host.Outcome State Fault Refusal :=
  match o with
  | .next t => .next { t with ret := r }
  | .fault f => .fault f
  | .refused e => .refused e

/-- The side of the core that runs a command is enabled in FUN_CTRL (R202). -/
def Inst.enabled (x : Inst) (c : Cmd) : Bool :=
  if cmdIsMaster c then x.regs.funCtrl.getLsbD 0 else x.regs.funCtrl.getLsbD 1

/-- An XFER_STATE a command of this side may show (R202, R225). -/
def sideCode (c : Cmd) (code : XferState) : Prop := (if cmdIsMaster c then code.isMaster else code.isSlave) = true

/-- The core after a command word reaches it: ignored when its side is off, else in flight (R202). -/
def Core.takes (k : Core) (f : InFlight) (on : Bool) (code : XferState) : Core :=
  if on then { k with inflight := some f, xfer := code, busy := cmdHasStart f.cmd || k.busy } else k

/-- The instance after the engine writes command c with the enables en, the alert level kept (R285): n bytes d are to
move. -/
def Inst.sends (x : Inst) (c : Cmd) (en : BitVec 4) (n : Nat) (d : List Byte) (code : XferState) : Inst :=
  { x with
    regs := { x.regs with en := en }
    outs := x.noted .cmd (cmdWord c en x.regs.alertEn 0#16)
    core := x.core.takes ⟨c, pathOf en, n, d, x.regs.dmaLen, .data, x.regs.dmaBase, x.core.xfer.isMaster⟩
      (x.enabled c) code }

/-- The instance after the engine writes C.NOP, the alert level kept (R285, R348). -/
def Inst.rearmed (x : Inst) : Inst :=
  { x with
    regs := { x.regs with en := 0#4 }
    outs := x.noted .cmd (cmdWord .nop 0#4 x.regs.alertEn 0#16) }

/-- The instance after BUF_CTRL is written, ACT_CNT kept (R179). -/
def Inst.bufSet (x : Inst) (v : Word) : Inst :=
  { x with
    regs := { x.regs with bufCtrl := (v &&& 0xC00FFFFF#32) ||| (x.regs.bufCtrl &&& 0x3FF00000#32) }
    outs := x.noted .bufCtrl v }

/-- The instance after DMA_BASE and then DMA_LEN are written (R181, R182). -/
def Inst.dmaSet (x : Inst) (a : Nat) (v : Word) : Inst :=
  { x with
    regs := { x.regs with dmaBase := BitVec.ofNat 32 a, dmaLen := v }
    outs := x.notedAll [(.dmaBase, BitVec.ofNat 32 a), (.dmaLen, v)] }

/-- The instance after BYTE_DATA is written (R180). -/
def Inst.byteSet (x : Inst) (b : Byte) : Inst :=
  { x with regs := { x.regs with byteTx := b }, outs := x.noted .byteData (0#24 ++ b) }

/-- The instance after the bytes bs are programmed to be sent by command c in a mode, window at w (R264 to R267). -/
def Inst.progTx (x : Inst) (g : Config) (m : Mode) (c : Cmd) (w : Nat) (bs : List Byte) (code : XferState) : Inst :=
  match m with
  | .byte => (x.byteSet (bs.headD 0#8)).sends c 0#4 1 [bs.headD 0#8] code
  | .buf => (x.bufSet (BitVec.ofNat 32 bs.length)).sends c 1#4 bs.length bs code
  | .dmaDec => (x.dmaSet w (dmaEncode g.codecDec bs.length)).sends c 4#4 bs.length bs code
  | .dmaInc => (x.dmaSet w (dmaEncode g.codecInc bs.length)).sends c 4#4 bs.length bs code

/-- The instance after a receive window of n bytes is programmed for command c in a mode (R264 to R267). -/
def Inst.progRx (x : Inst) (g : Config) (m : Mode) (c : Cmd) (w n : Nat) (code : XferState) : Inst :=
  match m with
  | .byte => x.sends c 0#4 1 [] code
  | .buf => (x.bufSet (BitVec.ofNat 32 n <<< 10)).sends c 2#4 n [] code
  | .dmaDec => (x.dmaSet w (dmaEncode g.codecDec n)).sends c 8#4 n [] code
  | .dmaInc => (x.dmaSet w (dmaEncode g.codecInc n)).sends c 8#4 n [] code

/-- The spaces after the bytes bs are programmed to be sent in a mode, window at w (R265 to R267). -/
def State.loaded (s : State) (m : Mode) (w : Nat) (bs : List Byte) : State :=
  match m with
  | .byte => s
  | .buf => { s with pool := Memory.writeN s.pool 0 bs }
  | .dmaDec | .dmaInc => { s with dma := Memory.writeN s.dma w bs }

/-- A mode's chunk of n bytes can be programmed for a command of this instance by a side with or without a loan of the
pool: a legal size (R261, R202), in BUF mode the loan (R265, R106; log entry 26), and in the DMA modes a window at w
inside the space and a length the core counts as n (R202, R283). -/
def State.CanProg (s : State) (i : InstId) (lent : Bool) (m : Mode) (c : Cmd) (w n : Nat) : Prop :=
  match m with
  | .byte => n = 1
  | .buf => lent = true ∧ 1 ≤ n ∧ n ≤ s.cfg.poolPage ∧ n < 1024
  | .dmaDec | .dmaInc => 1 ≤ n ∧ n ≤ s.cfg.dmaWin ∧ n < 4294967296 ∧ w + n ≤ 4294967296 ∧ w < 4294967296
      ∧ (s.cfg.inst i.toNat).dmaAddr = some w
      ∧ dmaCount (coreCodec s.cfg (s.cfg.inst i.toNat) (cmdIsMaster c)) (dmaEncode (s.cfg.codec (m == .dmaInc)) n) = n

/-- The registers and the trace of writes after TIMING_INIT (R244). -/
def Inst.timed (x : Inst) (c : Config) (ic : InstConfig) : Inst :=
  { x with
    regs := { x.regs with acTiming1 := timingWordOf c ic, acTiming2 := c.ac2Value, intrSts := 0#32,
                          intrCtrl := c.intrMask }
    outs := x.notedAll [(.acTiming1, timingWordOf c ic), (.acTiming2, c.ac2Value), (.intrSts, 0xFFFFFFFF#32),
                        (.intrCtrl, c.intrMask)] }

/-- The instance after CTRL_RESET: FUN_CTRL as before, both enabled sides of the core reset, the lines and the bus as
the rest of the bus makes them (R428, R229). -/
def Inst.ctrlReset (x : Inst) (a b d : Bool) : Inst :=
  { x with
    core := x.core.afterFun x.regs.funCtrl (x.regs.funCtrl &&& 0xFFFFFFFC#32) a b d
    outs := x.notedAll [(.funCtrl, x.regs.funCtrl &&& 0xFFFFFFFC#32), (.funCtrl, x.regs.funCtrl)] }

/-- The instance after S_ABORT: the open slot discarded, the slave engine idle, its loan and the role given back; FULL
slots, the cursors and the transmit buffer kept (R357). -/
def Inst.aborted (x : Inst) : Inst :=
  { x with
    slave := { x.slave with
      ring := match x.slave.sCur with
        | some k => x.slave.ring.modify k fun q => { q with state := .empty, len := 0 }
        | none => x.slave.ring
      sCur := none, sstate := .idle, txOff := 0, sXlen := 0, sLoan := false }
    master := { x.master with slaveOp := false } }

/-- The pool's owner after POOL_REL of a side of x (R278). -/
def Inst.release (x : Inst) (d : Side) (o : Option (Nat × Side)) : Option (Nat × Side) :=
  if x.loan d then none else o

/-- The instance after BUS_RESET: CTRL_RESET, TIMING_INIT, and S_ABORT when the slave engine exists (R429). -/
def Inst.busReset (x : Inst) (c : Config) (ic : InstConfig) (a b d : Bool) : Inst :=
  if c.slavePresent then ((x.ctrlReset a b d).timed c ic).aborted else (x.ctrlReset a b d).timed c ic

/-- The pool's owner after BUS_RESET (R429, R278). -/
def Inst.resetOwner (x : Inst) (c : Config) (o : Option (Nat × Side)) : Option (Nat × Side) :=
  if c.slavePresent then x.release .slave o else o

/-! ## What the slave engine leaves -/

/-- The instance with a loan bit set or cleared (R277, R278). -/
def Inst.setLoan (x : Inst) (d : Side) (b : Bool) : Inst :=
  match d with
  | .master => { x with master := { x.master with mLoan := b } }
  | .slave => { x with slave := { x.slave with sLoan := b } }

/-- The mode SELECT_MODE chooses (R279). -/
def selected (ic : InstConfig) (d : Side) (o : Option (Nat × Side)) : Mode :=
  match prefMode ic d with
  | .byte => .byte
  | .buf => if o = none then .buf else .byte
  | .dmaDec => if ic.dmaAddr = none then .byte else .dmaDec
  | .dmaInc => if ic.dmaAddr = none then .byte else .dmaInc

/-- The descriptor k of the message set at d, none when one of its bytes was never written (R136). -/
def State.message (s : State) (d : Word) (k : Nat) : Option Msg :=
  match s.mem.bytes (d.toNat + 12 * k) 12 with
  | some [a, b, c, e, f, g, h, i, j, l, m, n] =>
    some (msgOfWords (Word.ofBytes a b c e) (Word.ofBytes f g h i) (Word.ofBytes j l m n))
  | _ => none

/-- The count a chunk armed for n bytes in a mode has moved, none for BAD (R271 to R274). -/
def Inst.extracted (x : Inst) (g : Config) (m : Mode) (n : Nat) : Option Nat :=
  match m with
  | .byte => some 1
  | .buf => some (x.regs.bufCtrl.extractLsb' 20 10).toNat
  | .dmaDec => dmaDecode g.codecDec n x.regs.dmaLen
  | .dmaInc => dmaDecode g.codecInc n x.regs.dmaLen

/-- The k bytes a side's chunk in a mode received (R275, R345), those of the page for a holder of the loan (R106). -/
def State.received (s : State) (i : InstId) (x : Inst) (d : Side) (m : Mode) (k : Nat) : Option (List Byte) :=
  match m, (s.cfg.inst i.toNat).dmaAddr with
  | .byte, _ => some [x.regs.byteRx]
  | .buf, _ => if x.loan d then s.pool.bytes 0 k else none
  | .dmaDec, some a | .dmaInc, some a => s.dma.bytes a k
  | .dmaDec, none | .dmaInc, none => none

/-- The instance after S_ARM_RX opens the next receive window (R280). -/
def Inst.rxWindow (x : Inst) (g : Config) (w : Nat) (code : XferState) : Inst :=
  let y := match x.slave.sMode with
    | .byte => x
    | .buf | .dmaDec | .dmaInc => x.progRx g x.slave.sMode .sRx w (maxChunk g x.slave.sMode) code
  { y with slave := { x.slave with sXlen := BitVec.ofNat 32 (maxChunk g x.slave.sMode), sXmode := x.slave.sMode } }

/-- The next receive window of the slave's mode can be programmed (R280, R202). -/
def State.CanRx (s : State) (i : InstId) (v : Slave) (w : Nat) : Prop :=
  v.sMode ≠ .byte → s.CanProg i v.sLoan v.sMode .sRx w (maxChunk s.cfg v.sMode)

/-- How many bytes of the transmit buffer go next (R281). -/
def Slave.nextTx (v : Slave) (g : Config) : Nat := min (v.txLen - v.txOff.toNat) (maxChunk g v.sMode)

/-- The mode the next bytes go in: BYTE for the filler (R281). -/
def Slave.txMode (v : Slave) (g : Config) : Mode := if v.nextTx g = 0 then .byte else v.sMode

/-- The next bytes: of the transmit buffer, or the filler 0xFF (R281). -/
def Slave.txData (v : Slave) (g : Config) : Option (List Byte) :=
  if v.nextTx g = 0 then some [0xFF#8] else v.txbuf.bytes v.txOff.toNat (v.nextTx g)

/-- The instance after S_ARM_TX programs the bytes d (R281). -/
def Inst.txChunk (x : Inst) (g : Config) (w : Nat) (d : List Byte) (code : XferState) : Inst :=
  { x.progTx g (x.slave.txMode g) .sTx w d code with
    slave := { x.slave with sXlen := BitVec.ofNat 32 d.length, sXmode := x.slave.txMode g } }

/-- S_ARM_TX finds the bytes d and can program them (R281, R202). -/
def State.CanTx (s : State) (i : InstId) (v : Slave) (w : Nat) (d : List Byte) : Prop :=
  v.txData s.cfg = some d ∧ s.CanProg i v.sLoan (v.txMode s.cfg) .sTx w d.length

/-- The ring after its oldest unread message is dropped (R342). -/
def Slave.evicted (v : Slave) (cap : Nat) : Slave :=
  { v with
    ring := v.ring.modify v.rd fun q => { q with state := .empty, len := 0 }
    rd := (v.rd + 1) % cap, ready := v.ready - 1 }

/-- The instance after a slot is selected, the oldest message being dropped when the ring is full, and opened for the
address byte a (R342, R343). -/
def Inst.opened (x : Inst) (cap : Nat) (a : Byte) : Inst :=
  let full : Bool := slotState x.slave x.slave.wr == .full
  let v := if full then x.slave.evicted cap else x.slave
  { x with
    slave := { v with
      ring := v.ring.modify v.wr fun q => { q with state := .ongoing, addr := a, len := 0 }
      sCur := some v.wr, sstate := .rx }
    outs := if full then { x.outs with log := x.outs.log ++ [.ringOverrun] } else x.outs }

/-- The instance at the start of a remote read (R344). -/
def Inst.reading (x : Inst) : Inst := { x with slave := { x.slave with sstate := .tx, txOff := 0 } }

/-- The instance after the bytes d are appended to slot k (R345). -/
def Inst.appended (x : Inst) (k : Nat) (d : List Byte) : Inst :=
  { x with slave := { x.slave with
      ring := x.slave.ring.modify k fun q => { q with buf := Memory.writeN q.buf q.len d, len := q.len + d.length } } }

/-- The instance after S_FINAL: the open slot is FULL and counted, a reader is woken, the loan and the role are given
back, C.NOP re-arms the core (R348). -/
def Inst.finished (x : Inst) (cap : Nat) : Inst :=
  let v := match x.slave.sstate, x.slave.sCur with
    | .rx, some k => { x.slave with
        ring := x.slave.ring.modify k fun q => { q with state := .full }
        wr := (x.slave.wr + 1) % cap, ready := x.slave.ready + 1, sCur := none }
    | _, _ => x.slave
  Inst.rearmed { x with
    slave := { v with sstate := .idle, txOff := 0, sLoan := false }
    master := { x.master with slaveOp := false }
    outs := if x.slave.sstate = .rx then { x.outs with readerWake := x.outs.readerWake + 1 } else x.outs }

/-- The instance after an error event is recorded (R452). -/
def Inst.raised (x : Inst) (e : Word) : Inst := { x with master := { x.master with err := x.master.err ||| e } }

/-- The instance after a slave failure: the event recorded, then BUS_RESET (R345, R346, R347). -/
def Inst.slaveFailed (x : Inst) (e : Word) (g : Config) (ic : InstConfig) (a b d : Bool) : Inst :=
  (x.raised e).busReset g ic a b d

/-- The instance after M_PREEMPT: with a transfer waited for, ERR_PREEMPT, the master side of the core reset, the
message over in error and the waiter signalled (R321). -/
def Inst.preempted (x : Inst) (a b d : Bool) : Inst :=
  if x.master.waiting = .xfer then
    { x with
      master := { x.master with err := x.master.err ||| 0x00040000#32, mstate := .completeErr, done := true }
      core := x.core.afterFun x.regs.funCtrl (x.regs.funCtrl &&& 0xFFFFFFFE#32) a b d
      outs := x.notedAll [(.funCtrl, x.regs.funCtrl &&& 0xFFFFFFFE#32), (.funCtrl, x.regs.funCtrl)] }
  else x

/-! ## What the master engine leaves -/

/-- The master's record of a chunk planned as q (R261, R263). -/
def Inst.planned (x : Inst) (q : Plan) : Master :=
  { x.master with
    xlen := BitVec.ofNat 32 (planLen q), xmode := if q.addressing then .byte else x.master.mode, addrInChunk := q.addr
    started := true, stopIssued := x.master.stopIssued || q.stop }

/-- The bytes of a transmit chunk: the address byte when the plan carries it, then the payload (R262). -/
def chunkBytes (m : Msg) (q : Plan) (pay : List Byte) : List Byte := (if q.addr then [abyte m.addr m.rd] else []) ++ pay

/-- The next chunk of message m can be planned as q and programmed: nothing is in flight, the chunk fits its mode, and
the payload of a transmit has been written (R260). -/
def State.CanArm (s : State) (i : InstId) (x : Inst) (m : Msg) (q : Plan) (w : Nat) (pay : List Byte) : Prop :=
  x.core.inflight = none ∧ q = planChunk s.cfg m x.master
  ∧ s.CanProg i x.master.mLoan (if q.addressing then .byte else x.master.mode) q.cmd w (planLen q)
  ∧ ((m.rd && !q.addressing) = false → s.mem.bytes (m.buf + x.master.cnt.toNat) q.payload = some pay)

/-- The state after ARM_NEXT: a receive window programmed, or the address byte and the payload from buf + cnt sent, in
BYTE mode for the addressing chunk of a read (R260, R262, R268), and the chunk recorded. -/
def State.armed (s : State) (i : InstId) (x : Inst) (m : Msg) (q : Plan) (w : Nat) (pay : List Byte) (code : XferState)
    (o : Option (Nat × Side)) (n : Nat) (r : Ret) : State :=
  let mode : Mode := if q.addressing then .byte else x.master.mode
  if m.rd && !q.addressing then
    s.put i.toNat { x.progRx s.cfg mode q.cmd w (planLen q) code with master := x.planned q } o n r
  else
    (s.loaded mode w (chunkBytes m q pay)).put i.toNat
      { x.progTx s.cfg mode q.cmd w (chunkBytes m q pay) code with master := x.planned q } o n r

/-- The instance waits for a chunk of a message (R316, R317). -/
def Inst.Waited (x : Inst) : Prop := x.master.waiting = .xfer ∧ x.master.mstate = .chunk

/-- How far the chunk waited for advances the message: its count without the address byte (R275). -/
def Inst.advance (x : Inst) : Nat := x.master.xlen.toNat - (if x.master.addrInChunk then 1 else 0)

/-- The chunk of message m brings bytes to store (R275). -/
def Inst.copies (x : Inst) (m : Msg) : Bool := m.rd && decide (0 < x.advance)

/-- The chunk brings the length byte of a block read (R276). -/
def Inst.lengthens (x : Inst) (m : Msg) : Bool := m.recvLen && !x.master.lenExt && x.master.cnt.toNat + x.advance == 1

/-- Host memory after the bytes src of the chunk are stored at buf + cnt (R275). -/
def State.copied (s : State) (x : Inst) (m : Msg) (src : List Byte) : Memory :=
  if x.copies m then Memory.writeN s.mem (m.buf + x.master.cnt.toNat) src else s.mem

/-- The instance after the chunk is accounted for; b is the length byte, if it brings one (R275, R276, R316). -/
def Inst.accounted (x : Inst) (m : Msg) (stop : Bool) (b : Byte) : Inst :=
  { x with master := { x.master with
      stopSeen := x.master.stopSeen || stop, cnt := x.master.cnt + BitVec.ofNat 32 x.advance, addrInChunk := false
      len := if x.lengthens m then x.master.len + b.setWidth 32 else x.master.len
      lenExt := x.lengthens m || x.master.lenExt } }

/-- A completion of this kind is the one waited for, of the message m at msgs[cur], its count is xlen, no DMA command
moves bytes, and what the chunk brought is src, with the length byte b (R316, R275, R276). -/
def State.CanAccount (s : State) (i : InstId) (x : Inst) (kind : Kind) (m : Msg) (src : List Byte) (b : Byte) : Prop :=
  x.Waited ∧ (∃ d : Word, x.master.msgs = some d ∧ s.message d x.master.cur.toNat = some m) ∧ x.dmaInFlight = none
  ∧ kind = expectedKind m.rd x.master.addrInChunk ∧ x.extracted s.cfg x.master.xmode x.master.xlen.toNat = some x.master.xlen.toNat
  ∧ (x.copies m = true → s.received i x .master x.master.xmode x.advance = some src
      ∧ m.buf + x.master.cnt.toNat + x.advance ≤ 4294967296)
  ∧ (x.lengthens m = true → Memory.bytes (s.copied x m src) m.buf 1 = some [b])

/-- Nothing of the message is left to move and no STOP to send or wait for (R316). -/
def Master.Ended (v : Master) : Prop :=
  v.len.toNat ≤ v.cnt.toNat ∧ (v.last = false ∧ v.stopIssued = false ∨ v.stopIssued = true ∧ v.stopSeen = true)

/-- The message is over in state m and its waiter signalled (R315). -/
def Inst.over (x : Inst) (m : MState) : Inst := { x with master := { x.master with mstate := m, done := true } }

/-- C.STOP is sent and its NORMAL_STOP waited for (R316, R317). -/
def Inst.stopping (x : Inst) (code : XferState) : Inst :=
  { x.sends .stop 0#4 0 [] code with master := { x.master with stopIssued := true, mstate := .stopping } }

/-- An event e is recorded, a transfer waited for is over in error, any waiter is signalled (R318, R320). -/
def Inst.ended (x : Inst) (e : Word) : Inst :=
  { x with master := { x.master with
      err := x.master.err ||| e, mstate := if x.master.waiting = .xfer then .completeErr else x.master.mstate
      done := if x.master.waiting = .none then x.master.done else true } }

/-! ## What the decoder leaves -/

/-- The instance after one write clears the status bits w (R176, R400). -/
def Inst.cleared (x : Inst) (w : Word) : Inst :=
  { x with regs := { x.regs with intrSts := x.regs.intrSts &&& ~~~w &&& 0x7FFF#32 }, outs := x.noted .intrSts w }

/-- The instance after SMBUS_STAGE on the word w: an enabled alert disabled and forwarded, the SMBus bits of w cleared
in one write; unchanged when w has none (R383). -/
def Inst.smbused (x : Inst) (w : Word) : Inst :=
  if w &&& 0x0E00#32 = 0#32 then x
  else
    let c : Word := x.regs.intrCtrl &&& 0xFFFFFDFF#32
    let y : Inst := if w.getLsbD 9 && x.regs.intrCtrl.getLsbD 9 then
        { x with regs := { x.regs with intrCtrl := c }
                 outs := { x.noted .intrCtrl c with alertFwd := x.outs.alertFwd + 1 } }
      else x
    y.cleared (w &&& 0x0E00#32)

/-- The instance after the role is taken by a transaction in mode m, with its loan (R341, R279). -/
def Inst.matched (x : Inst) (m : Mode) : Inst :=
  { x with
    master := { x.master with slaveOp := true }
    slave := { x.slave with sMode := m, sLoan := m == .buf || x.slave.sLoan } }

/-- The transaction that address byte a opens can start: a window or a reply can be programmed (R343, R344). -/
def State.CanServe (s : State) (i : InstId) (x : Inst) (a : Byte) (w : Nat) (d : List Byte) : Prop :=
  if a.getLsbD 0 then s.CanTx i x.reading.slave w d else s.CanRx i x.slave w

/-- The spaces after the transaction is opened: the first bytes of a reply are loaded (R344). -/
def State.served (s : State) (x : Inst) (a : Byte) (w : Nat) (d : List Byte) : State :=
  if a.getLsbD 0 then s.loaded (x.reading.slave.txMode s.cfg) w d else s

/-- The instance after the transaction is opened: a read when bit 0 of a is 1, else a write (R341, R343, R344). -/
def Inst.serving (x : Inst) (g : Config) (a : Byte) (w : Nat) (d : List Byte) (code : XferState) : Inst :=
  if a.getLsbD 0 then x.reading.txChunk g w d code else (x.opened g.ringCap a).rxWindow g w code

/-- The slave command the transaction starts with. -/
def serveCmd (a : Byte) : Cmd := if a.getLsbD 0 then .sTx else .sRx

/-! ## What recovery leaves -/

/-- The instance after write a of REG_INIT, which are six: FUN_CTRL 0, the enables, and TIMING_INIT's four (R247, R244). -/
def Inst.initStep (x : Inst) (g : Config) (ic : InstConfig) (a : Nat) (b c d : Bool) : Inst :=
  let fun' (v : Word) : Inst := { x with
    regs := { x.regs with funCtrl := v }, core := x.core.afterFun x.regs.funCtrl v b c d, outs := x.noted .funCtrl v }
  match a with
  | 0 => fun' 0#32
  | 1 => fun' (if x.slave.slaveEnabled then 3#32 else 1#32)
  | 2 => { x with regs := { x.regs with acTiming1 := timingWordOf g ic }, outs := x.noted .acTiming1 (timingWordOf g ic) }
  | 3 => { x with regs := { x.regs with acTiming2 := g.ac2Value }, outs := x.noted .acTiming2 g.ac2Value }
  | 4 => { x with regs := { x.regs with intrSts := 0#32 }, outs := x.noted .intrSts 0xFFFFFFFF#32 }
  | _ => { x with regs := { x.regs with intrCtrl := g.intrMask }, outs := x.noted .intrCtrl g.intrMask }

/-- A recovery step waits: the accumulator cleared, the wait armed (R423, R424). -/
def Inst.awaiting (x : Inst) (w : Waiting) : Inst :=
  { x with master := { x.master with err := 0#32, done := false, waiting := w } }

/-- RECOVER returns r from instance y: to WAIT_IDLE when a transfer called it, else to the operator (R305, R432). -/
def State.recovered (s : State) (i : InstId) (y : Inst) (r : Code) : State :=
  if y.thread.call = .submit then
    s.put i.toNat { y with thread := { y.thread with pc := .idleRecovered r } } s.poolOwner s.draws .none
  else s.put i.toNat { y with thread := Thread.idle } s.poolOwner s.draws (.word (s.cfg.code r))

/-- The thread at a path's entry: an operator's when no call runs (R421; log entry 6). -/
def Inst.entering (x : Inst) : Thread := if x.thread.pc = .idle then { x.thread with call := .recover } else x.thread

/-! ## What the core leaves -/

/-- The registers after the core reports count k of a command: ACT_CNT for the pool, DMA_LEN for DMA, in a miscount the
arbitrary word instead (R218). -/
def Inst.reported (x : Inst) (g : Config) (ic : InstConfig) (f : InFlight) (k : Nat) (mis : Option Word) : Regs :=
  match f.path with
  | .byte => x.regs
  | .buf => { x.regs with bufCtrl := (x.regs.bufCtrl &&& 0xC00FFFFF#32)
      ||| ((mis.getD (BitVec.ofNat 32 k) &&& 0x3FF#32) <<< 20) }
  | .dma => { x.regs with dmaLen := mis.getD (dmaReadback (coreCodec g ic (cmdIsMaster f.cmd)) f.n k) }

/-- The core after the data phase of command f, with the bus items t: a command without STOP is gone and a master's
transmit holds the bus; one with STOP is gone and the bus free when the STOP came too, else its STOP is pending (R216,
R217). -/
def Core.ends (c : Core) (f : InFlight) (stop : Bool) (t : List TraceItem) : Core :=
  if cmdHasStop f.cmd = false then
    { c with inflight := none, busy := c.busy || (cmdIsTx f.cmd && cmdIsMaster f.cmd), trace := c.trace ++ t }
  else if stop then { c with inflight := none, busy := false, xfer := .idle, trace := c.trace ++ t ++ [.stop] }
  else { c with inflight := some { f with phase := .stopPending }, trace := c.trace ++ t }

/-- The registers with the status bits w set (R45). -/
def Regs.latched (r : Regs) (w : Word) : Regs := { r with intrSts := (r.intrSts ||| w) &&& 0x7FFF#32 }

/-- The instance after the remote master's STOP: NORMAL_STOP, XFER_STATE idle, the bus free (R222). -/
def Inst.remoteStopped (x : Inst) : Inst :=
  { x with regs := x.regs.latched 0x0010#32, core := { x.core with busy := false, xfer := .idle } }

/-- A value w of DMA_LEN lies between two others, in the variant DMA_INC by the two's-complement numbers its read-back
stands for, in DMA_DEC as unsigned numbers (R182, R283, R440). -/
def dmaBetween (inc : Bool) (p q w : Word) : Prop :=
  if inc then p.toInt ≤ w.toInt ∧ w.toInt ≤ q.toInt ∨ q.toInt ≤ w.toInt ∧ w.toInt ≤ p.toInt
  else p ≤ w ∧ w ≤ q ∨ q ≤ w ∧ w ≤ p

/-- The spaces after received bytes go to the sink of a command (R215, R500). -/
def State.sunk (s : State) (f : InFlight) (bs : List Byte) : State :=
  match f.path with
  | .byte => s
  | .buf => { s with pool := Memory.writeN s.pool 0 bs }
  | .dma => { s with dma := Memory.writeN s.dma f.base.toNat bs }

/-- The instance after received bytes go to the sink of a path: the byte path fills BYTE_DATA.RX (R215). -/
def Inst.sunk (x : Inst) (p : Path) (bs : List Byte) : Inst :=
  match p, bs with
  | .byte, b :: _ => { x with regs := { x.regs with byteRx := b } }
  | _, _ => x

/-- The instance after the command f is cut short: gone, with BYTE_DATA.RX v, a count w and bus items l the spec does not
state (R219; log entry 11). -/
def Inst.cut (x : Inst) (g : Config) (ic : InstConfig) (f : InFlight) (v : Byte) (w : Word) (l : List TraceItem) : Inst :=
  let y : Inst := { x with regs := { x.regs with byteRx := v } }
  { y with
    regs := y.reported g ic f 0 (some w)
    core := { x.core with inflight := none, trace := x.core.trace ++ l, cuts := x.core.cuts + 1 } }

/-- The spaces after the command f is cut short: of a receive, some bytes may be at its sink (R219; log entry 11). -/
def State.CutSpaces (s : State) (f : InFlight) (t : State) : Prop :=
  t = s ∨ cmdIsRx f.cmd = true ∧ ∃ bs : List Byte, bs.length ≤ f.n ∧ t = s.sunk f bs

/-! ## What a failure leaves unspecified -/

/-- Host memory r is that of s but for the read buffer of the current message past the bytes received (R497). -/
def State.TailLost (s : State) (x : Inst) (r : Memory) : Prop :=
  ∀ a : Nat, (∀ (d : Word) (m : Msg), x.master.msgs = some d → s.message d x.master.cur.toNat = some m → m.rd = true →
      a < m.buf + x.master.cnt.toNat ∨ m.buf + m.cap ≤ a) → Memory.get r a = Memory.get s.mem a

/-- Host memory r is that of s but for the read buffers of the call past the chunks that completed: of a message before
the one started last its LEN bytes, of that one `cnt`, none of one not reached (R300, R497; log entry 29). -/
def State.TailsLost (s : State) (x : Inst) (r : Memory) : Prop :=
  ∀ a : Nat, (∀ (k : Nat) (m : Msg), k < x.thread.n → s.message x.thread.desc k = some m → m.rd = true →
      a < m.buf + (if k + 1 < x.thread.reached then m.len else if k + 1 = x.thread.reached then x.master.cnt.toNat else 0)
      ∨ m.buf + m.cap ≤ a) → Memory.get r a = Memory.get s.mem a

/-- Of the page p, the DMA space q and host memory r only what a timed-out wait leaves unspecified differs from s: the
page when the instance holds a loan of it, the instance's DMA window, the read buffer past the bytes received (R116,
R497). -/
def State.BuffersLost (s : State) (i : InstId) (x : Inst) (p q r : Memory) : Prop :=
  (if x.master.mLoan || x.slave.sLoan then SameOutside s.pool p 0 s.cfg.poolPage else SameBytes s.pool p)
  ∧ (match (s.cfg.inst i.toNat).dmaAddr with
      | some a => SameOutside s.dma q a s.cfg.dmaWin
      | none => SameBytes s.dma q)
  ∧ s.TailLost x r

/-- The instance once its wait has expired: no waiter, BYTE_DATA.RX unspecified, the thread at the next line (R458,
R497). -/
def Inst.expired (x : Inst) (b : Byte) (pc : Pc) : Inst :=
  { x with
    regs := { x.regs with byteRx := b }
    master := { x.master with waiting := .none }
    thread := { x.thread with pc := pc } }

/-- The word `e` recorded when the data of the slave's window cannot be taken into the open slot `cur`: a count above
the window or BAD, or bytes `d` that do not fit what is left of the slot (R345, R346). -/
def State.SlaveFails (s : State) (i : InstId) (x : Inst) (cur : Nat) (d : List Byte) (e : Word) : Prop :=
  let k := x.extracted s.cfg x.slave.sXmode x.slave.sXlen.toNat
  (e = 0x00010000#32 ∧ (k = none ∨ ∃ v, k = some v ∧ x.slave.sXlen.toNat < v))
  ∨ (e = 0x00080000#32 ∧ ∃ v, k = some v ∧ v ≤ x.slave.sXlen.toNat
    ∧ s.received i x .slave x.slave.sXmode v = some d ∧ s.cfg.slotCap < slotLen x.slave cur + v)

/-! ## What every run keeps -/

/-- The byte spaces are in canonical form, no interrupt status register shows a bit above 14 (R45), and no instance
has its two locks held by one agent (R81 g). -/
def State.FormOk (s : State) : Prop :=
  Memory.wf s.pool = true ∧ Memory.wf s.dma = true ∧ Memory.wf s.mem = true
  ∧ ∀ (k : Nat) (x : Inst), s.insts[k]? = some x →
      x.regs.intrSts &&& 0xFFFF8000#32 = 0#32 ∧ (∀ a : Agent, ¬ (x.lockM = some a ∧ x.lockS = some a))

/-- The pool's owner agrees with the loan bits (R66, R81 e). -/
def State.OwnerOk (s : State) : Prop :=
  (∀ (k : Nat) (x : Inst), s.insts[k]? = some x → ∀ d : Side, x.loan d = true ↔ s.poolOwner = some (k, d))
  ∧ ∀ (k : Nat) (d : Side), s.poolOwner = some (k, d) → k < s.insts.length

/-- The slave receive ring of `cap` slots of `size` bytes: the FULL slots are the `ready` slots from `rd` on, the next
slot is `wr`; the one ONGOING slot is `wr` and `sCur`; no slot and no reply is longer than its buffer; the buffers are
in canonical form (R68, R69, R81 c and d). -/
structure Slave.Ok (v : Slave) (cap size : Nat) : Prop where
  length_ring : v.ring.length = cap
  rd_lt : v.rd < cap
  ready_le : v.ready ≤ cap
  wr_eq : v.wr = (v.rd + v.ready) % cap
  full_iff : ∀ j, j < cap → (slotState v ((v.rd + j) % cap) = .full ↔ j < v.ready)
  ongoing_iff : ∀ k, slotState v k = .ongoing ↔ v.sCur = some k
  cur_eq : ∀ k, v.sCur = some k → k = v.wr
  rx_cur : v.sstate = .rx → v.sCur ≠ none
  len_le : ∀ q ∈ v.ring, q.len ≤ size
  txLen_le : v.txLen ≤ size
  bufs_wf : ∀ q ∈ v.ring, Memory.wf q.buf = true
  txbuf_wf : Memory.wf v.txbuf = true

/-- Every instance's slave engine is well formed. -/
def State.SlavesOk (s : State) : Prop :=
  ∀ (k : Nat) (x : Inst), s.insts[k]? = some x → x.slave.Ok s.cfg.ringCap s.cfg.slotCap

/-- What the thread at a line waits for; an expired wait has no waiter (R62, R81 f, R458 b). -/
def Pc.waits : Pc → Waiting
  | .waitXfer _ | .wakeSignalled _ => .xfer
  | .stopWait | .stopWake false => .recovStop
  | .deadWait _ | .deadWake _ false => .recovCmd
  | .wakeExpired _ | .stopWake true | .deadWake _ true => .none
  | .idle | .xferEntry | .waitIdle | .idleBusy | .idleExpired | .idleRecovered _ | .selectMode | .startMsg _
  | .xferExit _ | .retryDelay | .recoverEntry | .classify _ | .deadInit _ _ | .deadRestore _ | .resetCtrl _ _
  | .resetTiming _ | .resetAbort => .none

/-- A wait is outstanding exactly when the instance's one thread is blocked in it (R81 f). -/
def State.WaitsOk (s : State) : Prop :=
  ∀ (k : Nat) (x : Inst), s.insts[k]? = some x → x.master.waiting = x.thread.pc.waits

/-- The role flag agrees with XFER_STATE (R60, R81 a): in the slave role the core is no master; out of it the core is no
slave, but for a match latched and not yet decoded or a slave read whose STOP has not arrived. -/
def Inst.RoleOk (x : Inst) : Prop :=
  (x.role = .slaveActive → x.core.xfer.isMaster = false)
  ∧ (x.role ≠ .slaveActive → x.core.xfer.isSlave = true →
      x.regs.intrSts.getLsbD 7 = true ∨ x.core.matchRd = true)

/-- The core is a slave only while its slave side is enabled (R172, R202, R220, R229). -/
def Inst.SlaveOn (x : Inst) : Prop := x.core.xfer.isSlave = true → x.regs.funCtrl.getLsbD 1 = true

/-- Every instance's role flag agrees with its core. -/
def State.RolesOk (s : State) : Prop :=
  ∀ (k : Nat) (x : Inst), s.insts[k]? = some x → x.RoleOk ∧ x.SlaveOn

/-- What the instance must be like for an operation to keep the role agreement: the engine commands of a side run in its
role, a match is decoded while the core is no master, a slave transaction is closed and a SLAVE_MATCH cleared only when
the core is a slave no more. False for what the rules leave free to break the agreement: the fault outcomes, which draw
XFER_STATE (R219), a match with its STOP, which issues the command of a transaction that is over (R394), and IRQ, which
runs the rows in turn (R380; log entry 31). -/
def Inst.roleGuard (x : Inst) (r : Instr) : Bool :=
  let slave : Bool := x.master.slaveOp
  let isSlave : Bool := x.core.xfer.isSlave && !x.core.matchRd
  match r with
  | .cSRx _ _ _ _ | .cSTx _ _ _ _ | .sArmRx _ | .sArmTx _ | .startOfWrite _ _ | .startOfRead _ _ | .sData _ _
  | .sTxAck _ | .stsMatchStop _ => slave
  | .cStartTx _ _ _ _ | .cStartTxStop _ _ _ _ | .cTx _ _ _ _ | .cTxStop _ _ _ _ | .cRx _ _ _ _ | .cRxLast _ _ _ _
  | .cRxLastStop _ _ _ _ | .cStop _ _ _ _ | .cRecover _ _ _ _ | .armNext _ | .mDone _ _ _ | .mNack _ _
  | .lMasterHold _ _ => !slave
  | .wrCmd _ w => match cmdOf w with
    | none | some .nop => true
    | some c => if cmdIsMaster c then !slave else slave
  | .armByte _ a _ | .armBuf _ a _ | .armDmaDec _ a _ | .armDmaInc _ a _ =>
    if armSide a = .slave then slave else !slave
  | .sMatch _ | .stsMatch _ | .stsArbLossMatch _ => !x.core.xfer.isMaster
  | .sFinal _ | .sStop _ _ | .stsSlaveStop _ _ | .stsTxNak _ | .sAbort _ =>
    !slave || !isSlave || x.regs.intrSts.getLsbD 7
  | .wrIntrSts _ v => slave || !isSlave || !v.getLsbD 7
  | .timingInit _ => slave || !isSlave
  | .recover _ => !slave && !x.core.xfer.isSlave
  | .irq _ | .kAbn _ | .kSclto _ => false
  | _ => true

/-- A message's progress: what is counted never passes the length, nor does the chunk in flight that is waited for (R81
b); the length is a message's, extended at most once, and so fits its 32 bits (R441). -/
def Inst.ProgressOk (x : Inst) : Prop :=
  x.master.cnt.toNat ≤ x.master.len.toNat ∧ (x.Waited → x.master.cnt.toNat + x.advance ≤ x.master.len.toNat)
  ∧ x.master.len.toNat ≤ (if x.master.lenExt then 65790 else 65535)

/-- The progress of every instance's message is in order. -/
def State.ProgressOk (s : State) : Prop := ∀ (k : Nat) (x : Inst), s.insts[k]? = some x → x.ProgressOk

/-- What keeps an operation run by itself from upsetting a message's progress: no ARM while a chunk is waited for, whose
record it would overwrite, no ARM_NEXT with nothing left to move, no START_MSG of a message of length 0, which VALID
refuses (R301). -/
def Inst.progressGuard (x : Inst) (s : State) : Instr → Prop
  | .armByte _ _ _ | .armBuf _ _ _ | .armDmaDec _ _ _ | .armDmaInc _ _ _ => ¬ x.Waited
  | .armNext _ => x.master.cnt.toNat < x.master.len.toNat
  | .startMsg _ k => ∀ (d : Word) (m : Msg), x.master.msgs = some d → s.message d k.toNat = some m → 1 ≤ m.len
  | _ => True

/-! ## Runs -/

/-- The state after the operations of a list, one after another; none when one of them stops. -/
def runs : List Instr → State → Option State
  | [], s => some s
  | r :: l, s => match exec r s with
    | .next t => runs l t
    | .fault _ | .refused _ => none

end Sys2Proof.Machine
end

