-- ==== Sys2Proof/WellFormed.lean ====
section
/-! DEFINITION. Which operations of the syntax the spec's encodings can spell. -/

namespace Sys2Proof

/-- An operation is well formed when its operands are ones its encoding admits: a command word's enables are in its
column (R133), a reserved offset is one of R143, a status or line word matches its row's pattern (R135, R383 to R399),
and a reserved word or request is really reserved (R141, R144). -/
def Instr.wf : Instr → Bool
  | .rdReserved _ off => reservedOffset off
  | .wrReserved _ off _ => reservedOffset off
  | .cNop _ en _ _ => (Cmd.enables .nop).contains en
  | .cSRx _ en _ _ => (Cmd.enables .sRx).contains en
  | .cStartTx _ en _ _ => (Cmd.enables .startTx).contains en
  | .cStartTxStop _ en _ _ => (Cmd.enables .startTxStop).contains en
  | .cTx _ en _ _ => (Cmd.enables .tx).contains en
  | .cTxStop _ en _ _ => (Cmd.enables .txStop).contains en
  | .cRx _ en _ _ => (Cmd.enables .rx).contains en
  | .cRxLast _ en _ _ => (Cmd.enables .rxLast).contains en
  | .cRxLastStop _ en _ _ => (Cmd.enables .rxLastStop).contains en
  | .cStop _ en _ _ => (Cmd.enables .stop).contains en
  | .cSTx _ en _ _ => (Cmd.enables .sTx).contains en
  | .cRecover _ en _ _ => (Cmd.enables .recover).contains en
  | .reservedCmd _ w => (cmdOf w).isNone
  | .stsSmbusAlert _ w => w &&& 0xFFFF8000#32 == 0#32 && w.getLsbD 9
  | .stsSmbusArp _ w => w &&& 0xFFFF8000#32 == 0#32 && !w.getLsbD 9 && w.getLsbD 10
  | .stsSmbusAlertResp _ w => w &&& 0xFFFF8000#32 == 0#32 && !w.getLsbD 9 && !w.getLsbD 10 && w.getLsbD 11
  | .stsAbnormal _ w => w &&& 0xFFFF8000#32 == 0#32 && w.getLsbD 5
  | .stsSclTimeout _ w => w &&& 0xFFFF8000#32 == 0#32 && !w.getLsbD 5 && w.getLsbD 6
  | .stsSlaveStop _ w => w &&& 0xFFFF8000#32 == 0#32 && w.getLsbD 4
  | .stsSweep _ w => w &&& 0xFFFF8000#32 == 0#32
  | .lIdle _ c => c &&& 0x60000#32 == 0x60000#32
  | .lMasterHold _ c => c &&& 0x60000#32 == 0x40000#32
  | .lSlaveHold _ c => c &&& 0x40000#32 == 0#32
  | .kArb f | .kAbn f | .kSclto f => f.also &&& ~~~alsoMask == 0#32
  | .reservedHost w0 w1 w2 => (hostOf w0 w1 w2).isNone
  | .rdFunCtrl _ | .wrFunCtrl _ _ | .rdAcTiming1 _ | .wrAcTiming1 _ _ | .rdAcTiming2 _ | .wrAcTiming2 _ _
  | .rdIntrCtrl _ | .wrIntrCtrl _ _ | .rdIntrSts _ | .wrIntrSts _ _ | .rdCmd _ | .wrCmd _ _ | .rdDevAddr _
  | .wrDevAddr _ _ | .rdBufCtrl _ | .wrBufCtrl _ _ | .rdByteData _ | .wrByteData _ _ | .rdDmaBase _
  | .wrDmaBase _ _ | .rdDmaLen _ | .wrDmaLen _ _ | .rdGroupSts | .wrGroupSts _ => true
  | .stsTxAck _ | .stsTxAckStop _ | .stsTxNak _ | .stsTxNakStop _ | .stsRxDone _ | .stsRxDoneStop _ | .stsMatch _
  | .stsMatchStop _ | .stsStop _ | .stsArbLoss _ | .stsArbLossMatch _ | .stsRecoverDone _ | .stsNotMine _
  | .stsEmpty _ | .lOther _ => true
  | .devInit _ | .submit _ _ _ _ | .slaveRead _ _ _ | .slaveWrite _ _ _ | .slaveEnable _ _ | .slaveDisable _
  | .alertAssert _ | .alertDeassert _ | .recoverReq _ | .readMrstCnt _ | .readSrecCnt _ | .readRecovStatus _
  | .busReset _ | .irq _ | .msg _ _ _ _ _ => true
  | .armByte _ _ _ | .extByte _ | .armBuf _ _ _ | .extBuf _ | .armDmaDec _ _ _ | .extDmaDec _ | .armDmaInc _ _ _
  | .extDmaInc _ => true
  | .calcTiming _ _ | .timingWord _ | .timingInit _ | .regInit _ | .armNext _ | .poolAcq _ _ | .poolRel _ _
  | .selectMode _ _ | .sArmRx _ | .sArmTx _ | .doXfer _ | .waitIdle _ | .startMsg _ _ | .wait _ | .wakeExpired _
  | .wakeSignalled _ | .mDone _ _ _ | .mNack _ _ | .mArb _ | .mStopDone _ | .mFault _ | .mPreempt _ | .sMatch _
  | .startOfWrite _ _ | .startOfRead _ _ | .sData _ _ | .sTxAck _ | .sFinal _ | .sStop _ _ | .sAbort _ | .recover _
  | .ctrlReset _ => true
  | .kAck _ _ _ | .kNack _ _ _ _ | .kRx _ _ _ _ | .kStop _ | .kMatch _ _ _
  | .kRecovered _ _ | .kLine _ _ _ _ | .kSmbus _ _ | .tExpire _ => true

/-- The instance whose register window an operation's frame names, for the operations of format REG (R131). -/
def Instr.window : Instr → Option InstId
  | .rdFunCtrl i | .wrFunCtrl i _ | .rdAcTiming1 i | .wrAcTiming1 i _ | .rdAcTiming2 i | .wrAcTiming2 i _
  | .rdIntrCtrl i | .wrIntrCtrl i _ | .rdIntrSts i | .wrIntrSts i _ | .rdCmd i | .wrCmd i _ | .rdDevAddr i
  | .wrDevAddr i _ | .rdBufCtrl i | .wrBufCtrl i _ | .rdByteData i | .wrByteData i _ | .rdDmaBase i
  | .wrDmaBase i _ | .rdDmaLen i | .wrDmaLen i _ | .rdReserved i _ | .wrReserved i _ _ => some i
  | _ => none

/-- The machine with parameters c has the register window the operation names, if it names one (R40, R131). -/
def Instr.mapped (c : Config) (r : Instr) : Bool :=
  match r.window with
  | some i => decide (i.toNat < c.insts.length)
  | none => true

end Sys2Proof
end

