-- ==== Sys2Proof/Certificates/Slice0/Obligations.lean ====
section
/-! DEFINITION. The statements put to the provers. Each is about every state of the machine, reached by a run or not,
unless it names what it asks of the state. -/

open Sys2Proof Sys2Proof.Machine

/-! ## Encoding -/

/-- Decoding the frame of a well-formed operation gives the operation back, with every operand at every value its
encoding admits, on every machine whose register windows are placed as R40 says; an operation on a register names one of
its windows (30_encoding.md R130 to R138, R151). -/
def Obligations.DecodeOfEncodeIsTheOperation : Prop :=
  ∀ (c : Config) (i : Instr), c.wf = true → i.wf = true → i.mapped c = true → decode c (encode c i) = .ok i

/-- Whatever the decoder accepts is well formed, names a window of the machine, and is exactly what the frame encodes:
a reserved command word or host request, a reserved offset and a status word never come out as anything else (R132,
R137, R141, R143, R144). That every such frame is accepted is DecodeOfEncodeIsTheOperation's. -/
def Obligations.DecodedOperationsAreWellFormed : Prop :=
  ∀ (c : Config) (bs : List Byte) (i : Instr), c.wf = true → decode c bs = .ok i →
    i.wf = true ∧ i.mapped c = true ∧ encode c i = bs

/-- The command of a word is selected by its action part, A = w & 0xF83F, and by the enable part being in the legal
column of R133; no word selects two commands. -/
def Obligations.CommandIsSelectedByActionAndEnables : Prop :=
  ∀ (w : Word) (c : Cmd), cmdOf w = some c ↔ w &&& 0xF83F#32 = c.action ∧ w.extractLsb' 6 4 ∈ c.enables

/-- Words written out from the encodings of the spec decode to the operations they stand for: WR of INTR_STS at 0x10 of
instance 1 (R131), whose window is at 0x40 by log entry 3's defaults, C.START_TX with TX_BUF_EN (0x0003 | 0x0040, R133)
and C.S_RX with RX_DMA_EN (0x0200), STS.MATCH (0x0084) at the exact table (R134, R386), L.MASTER_HOLD (SDA high, SCL
low, R135), SUBMIT of instance 2 (OPC 0x02, R137, R138) and a request with OPC 0x0E (reserved, R144). The bytes for
interface, instance and stage that stand before these words in a frame are log entry 2's. -/
def Obligations.WordsOfTheSpecDecode : Prop :=
  decode Config.default [0x00#8, 0x01#8, 0x50#8, 0x00#8, 0x00#8, 0x00#8, 0x11#8, 0x00#8, 0x00#8, 0x00#8] =
    .ok (.wrIntrSts 1#5 0x11#32)
  ∧ decode Config.default [0x01#8, 0x00#8, 0x43#8, 0x00#8, 0x00#8, 0x00#8] = .ok (.cStartTx 0#5 1#4 false 0#16)
  ∧ decode Config.default [0x01#8, 0x00#8, 0x00#8, 0x02#8, 0x00#8, 0x00#8] = .ok (.cSRx 0#5 8#4 false 0#16)
  ∧ decode Config.default [0x02#8, 0x03#8, 0x05#8, 0x84#8, 0x00#8, 0x00#8, 0x00#8] = .ok (.stsMatch 3#5)
  ∧ decode Config.default [0x03#8, 0x00#8, 0x00#8, 0x00#8, 0x04#8, 0x00#8] = .ok (.lMasterHold 0#5 0x40000#32)
  ∧ decode Config.default [0x04#8, 0x02#8, 0x02#8, 0x01#8, 0x00#8, 0x00#8, 0x01#8, 0x00#8, 0x00#8, 0x03#8, 0x00#8, 0x00#8, 0x00#8] =
    .ok (.submit 2#5 1#16 0x100#32 3#32)
  ∧ decode Config.default [0x04#8, 0x0E#8, 0x00#8, 0x00#8, 0x00#8, 0x00#8, 0x00#8, 0x00#8, 0x00#8, 0x00#8, 0x00#8, 0x00#8, 0x00#8] =
    .ok (.reservedHost 0x0E#32 0#32 0#32)

/-- A step runs the operation at the head of the schedule: the frame is taken off and its operation executed; with
nothing scheduled nothing happens; a frame that spells no operation is refused. The schedule is the model's (log
entry 1). -/
def Obligations.StepRunsTheDecodedOperation : Prop :=
  ∀ (s : State) (f : List Byte) (r : List (List Byte)),
    (∀ i : Instr, s.inbox = f :: r → decode s.cfg f = .ok i → step s = exec i { s with inbox := r })
    ∧ (∀ e : DecodeError, s.inbox = f :: r → decode s.cfg f = .error e → step s = .refused (.undecodable e))
    ∧ (s.inbox = [] → step s = .next s)

/-! ## Reset and what every step keeps -/

/-- The machine after hardware reset (R80): every register zero, the engines idle, the rings empty, the counters zero,
nothing in flight, the locks free, the streams empty, no loan, nothing written in a byte space. -/
def Obligations.ResetLeavesEverythingIdle : Prop :=
  State.reset.insts.length = 14
  ∧ State.reset.poolOwner = none ∧ State.reset.pool = [] ∧ State.reset.dma = []
  ∧ ∀ (k : Nat) (x : Inst), State.reset.insts[k]? = some x →
      x.regs = { funCtrl := 0, acTiming1 := 0, acTiming2 := 0, intrCtrl := 0, intrSts := 0, en := 0, alertEn := false,
                 devAddr := 0, bufCtrl := 0, byteTx := 0, byteRx := 0, dmaBase := 0, dmaLen := 0 }
      ∧ x.core.inflight = none ∧ x.core.xfer = .idle ∧ x.core.trace = []
      ∧ x.master = { slaveOp := false, msgs := none, nmsgs := 0, cur := 0, cnt := 0, last := false, mode := .byte,
                     err := 0, done := false, waiting := .none, mstate := .idle, len := 0, lenExt := false, xlen := 0,
                     xmode := .byte, addrInChunk := false, started := false, stopIssued := false, stopSeen := false,
                     mLoan := false }
      ∧ x.slave.sLoan = false ∧ x.slave.sstate = .idle ∧ x.slave.slaveEnabled = false ∧ x.slave.sCur = none
      ∧ x.slave.sXlen = 0 ∧ x.slave.sXmode = .byte ∧ x.slave.sMode = .byte ∧ x.slave.txOff = 0
      ∧ x.slave.ring.length = 4 ∧ (∀ q ∈ x.slave.ring, q.state = .empty ∧ q.addr = 0 ∧ q.len = 0 ∧ q.buf = [])
      ∧ x.slave.wr = 0 ∧ x.slave.rd = 0 ∧ x.slave.ready = 0 ∧ x.slave.txbuf = [] ∧ x.slave.txLen = 0
      ∧ x.recov.masterResetCnt = 0 ∧ x.recov.slaveRecoverCnt = 0 ∧ x.recov.recovStatus = 0 ∧ x.recov.rstate = .idle
      ∧ x.lockM = none ∧ x.lockS = none
      ∧ x.outs.log = [] ∧ x.outs.alertFwd = 0 ∧ x.outs.readerWake = 0

/-- The invariants that the statements below say every step keeps hold after reset, and the parameters the machine
starts with are within R8's bounds. -/
def Obligations.InvariantsHoldAtReset : Prop :=
  State.reset.FormOk ∧ State.reset.OwnerOk ∧ State.reset.SlavesOk ∧ State.reset.WaitsOk ∧ State.reset.RolesOk
  ∧ State.reset.ProgressOk ∧ State.reset.cfg.wf = true

/-- Every step keeps the byte spaces in canonical form, bits 31:15 of every INTR_STS at 0 (R45) and no two locks of an
instance in one agent's hands (R81 g). -/
def Obligations.EveryStepKeepsFormAndHardwiredBits : Prop :=
  ∀ s t : State, s.FormOk → step s = .next t → t.FormOk

/-- Every step keeps the pool's owner in agreement with the loan bits of all instances (R66, R81 e). -/
def Obligations.EveryStepKeepsThePoolLoan : Prop :=
  ∀ s t : State, s.OwnerOk → step s = .next t → t.OwnerOk

/-- Every step keeps the slave receive rings well formed: `ready` counts the FULL slots, which are the ones from `rd`
on; at most one slot is ONGOING, and it is `wr` and `s_cur`; no message outgrows its slot (R68, R69, R81 c and d). -/
def Obligations.EveryStepKeepsTheSlaveRings : Prop :=
  ∀ s t : State, s.SlavesOk → step s = .next t → t.SlavesOk

/-- Every step keeps the wait of each instance in agreement with the one thread blocked in it; a wait that expired has
no waiter (R62, R81 f, R458; where the thread stands is the model's, log entry 6). -/
def Obligations.EveryStepKeepsWaitsAndThreads : Prop :=
  ∀ s t : State, s.WaitsOk → step s = .next t → t.WaitsOk

/-- An operation keeps the agreement of the role flag with the class of XFER_STATE, on every instance (R60, R81 a): in
the slave role the core is no master, out of it the core is no slave, unless a match is latched and not decoded or a
slave read's STOP has not arrived. What it asks of the instance it acts on is `roleGuard`: master commands out of the
slave role and slave commands in it, a match decoded while the core is no master, a slave transaction closed and
SLAVE_MATCH cleared only when the core is a slave no more; the fault outcomes, which draw XFER_STATE, a match with its
STOP, and IRQ, which runs the rows in turn, are not in it. That the rules do not keep it there is log entry 31's
reading. -/
def Obligations.OperationsKeepTheRoleAgreement : Prop :=
  ∀ (r : Instr) (s t : State), s.RolesOk → (∀ (i : InstId) (x : Inst), r.target = some i → s.Has i x →
    x.roleGuard r = true) → exec r s = .next t → t.RolesOk

/-- An operation within its progress guard keeps every message's progress in order: the count never passes the length,
nor does the chunk waited for, the length is at most 65535, or 65790 once extended (R81 b, R441), and only START_MSG
ever lowers the count. The guard shuts out three operations run by themselves, as log entry 36 says: an
ARM over a chunk that is waited for, ARM_NEXT with nothing left to move, and START_MSG of a message of length 0, which
VALID refuses (R301). -/
def Obligations.OperationsKeepProgressInOrder : Prop :=
  ∀ (r : Instr) (s t : State), s.ProgressOk → (∀ (i : InstId) (x : Inst), r.target = some i → s.Has i x →
    x.progressGuard s r) → exec r s = .next t →
    t.ProgressOk ∧ ∀ (k : Nat) (x y : Inst), s.insts[k]? = some x → t.insts[k]? = some y →
      (∀ i j, r ≠ .startMsg i j) → x.master.cnt ≤ y.master.cnt

/-- The recovery counters never decrease (R70, R81 h), and an operation other than the entry of the master-STOP or the
slave-dead path changes none (R426). -/
def Obligations.OnlyRecoveryPathsCountAndNeverDown : Prop :=
  ∀ (i : Instr) (s t : State), exec i s = .next t → ∀ (k : Nat) (y : Inst), t.insts[k]? = some y →
    ∃ x, s.insts[k]? = some x
      ∧ x.recov.masterResetCnt ≤ y.recov.masterResetCnt ∧ x.recov.slaveRecoverCnt ≤ y.recov.slaveRecoverCnt
      ∧ ((∀ j c, i ≠ .lMasterHold j c) → (∀ j c, i ≠ .lSlaveHold j c) →
          y.recov.masterResetCnt = x.recov.masterResetCnt ∧ y.recov.slaveRecoverCnt = x.recov.slaveRecoverCnt)

/-- Only the outcomes of the core and the bus set a status bit; every other operation only clears some (R45). -/
def Obligations.OnlyTheCoreSetsStatusBits : Prop :=
  ∀ (r : Instr) (s t : State) (i : InstId) (x y : Inst), r.latches = false → s.Has i x → exec r s = .next t →
    t.Has i y → y.regs.intrSts &&& ~~~x.regs.intrSts = 0#32

/-- An operation changes the instance it names and no other, and never the parameters or the schedule (R32, R78). -/
def Obligations.OperationsChangeOnlyTheirInstance : Prop :=
  ∀ (i : Instr) (s t : State), exec i s = .next t →
    t.cfg = s.cfg ∧ t.inbox = s.inbox ∧ t.insts.length = s.insts.length
    ∧ ∀ k : Nat, (∀ j : InstId, i.target = some j → k ≠ j.toNat) → t.insts[k]? = s.insts[k]?

/-! ## Register accesses -/

/-- A read of FUN_CTRL, AC_TIMING1, AC_TIMING2, INTR_CTRL, INTR_STS, DEV_ADDR, BUF_CTRL, BYTE_DATA or DMA_BASE answers
the register's read view, (RX << 8) | TX for BYTE_DATA (R170, R172 to R176, R178 to R181). A read of CMD shows
XFER_STATE's code in bits 22:19, SDA, SCL and busy in 18, 17 and 16, S_ALERT_EN in 10, the enables last written in
9:6, the action part of the command in flight in the bits of the action mask, 0 elsewhere (R46, R47, R177). A read of
DMA_LEN answers the stored value; while a DMA-mode command moves its bytes it answers some value between the
programmed and the final one, which is what the schedule makes of the command; so when an outcome that ends the bytes
is next, a fault or a miscount too, the value lies between the programmed one and what DMA_LEN then holds (R182, R218;
the order, and where the final value is taken from, are log entry 10's, the variant log entry 9's). No read changes
any state of the machine (R104); `draws` is the model's own count of free values. -/
def Obligations.RegisterReadsAnswerTheirView : Prop :=
  ∀ (s : State) (i : InstId) (x : Inst), s.Has i x →
    exec (.rdFunCtrl i) s = .next { s with ret := .word x.regs.funCtrl }
    ∧ exec (.rdAcTiming1 i) s = .next { s with ret := .word x.regs.acTiming1 }
    ∧ exec (.rdAcTiming2 i) s = .next { s with ret := .word x.regs.acTiming2 }
    ∧ exec (.rdIntrCtrl i) s = .next { s with ret := .word x.regs.intrCtrl }
    ∧ exec (.rdIntrSts i) s = .next { s with ret := .word x.regs.intrSts }
    ∧ exec (.rdDevAddr i) s = .next { s with ret := .word x.regs.devAddr }
    ∧ exec (.rdBufCtrl i) s = .next { s with ret := .word x.regs.bufCtrl }
    ∧ exec (.rdByteData i) s =
        .next { s with ret := .word ((x.regs.byteRx.setWidth 32 <<< 8) ||| x.regs.byteTx.setWidth 32) }
    ∧ exec (.rdDmaBase i) s = .next { s with ret := .word x.regs.dmaBase }
    ∧ (∃ w : Word, exec (.rdCmd i) s = .next { s with ret := .word w }
        ∧ w.extractLsb' 23 9 = 0#9
        ∧ (w.extractLsb' 19 4).toNat = (match x.core.xfer with
            | .idle => 0
            | .slave c => 1 + c.val
            | .master c => 8 + c.val)
        ∧ w.getLsbD 18 = x.core.sda ∧ w.getLsbD 17 = x.core.scl ∧ w.getLsbD 16 = x.core.busy
        ∧ w.getLsbD 10 = x.regs.alertEn ∧ w.extractLsb' 6 4 = x.regs.en
        ∧ w &&& 0xF83F#32 = (match x.core.inflight with
            | none => 0#32
            | some f => f.cmd.action))
    ∧ (x.dmaInFlight = none → exec (.rdDmaLen i) s = .next { s with ret := .word x.regs.dmaLen })
    ∧ ∀ f : InFlight, x.core.inflight = some f → f.path = .dma → f.phase = .data →
        let between := dmaBetween (coreInc (s.cfg.inst i.toNat) (cmdIsMaster f.cmd)) f.prog
        ∃ (n : Nat) (w : Word), exec (.rdDmaLen i) s = .next { s with ret := .word w, draws := n }
          ∧ between (s.dmaFinal i.toNat x f) w
          ∧ ∀ (a : List Byte) (l : List (List Byte)) (r : Instr) (t : State) (y : Inst), s.inbox = a :: l →
              decode s.cfg a = .ok r → r.latches = true → r.target = some i → cmdIsTx f.cmd ∨ cmdIsRx f.cmd →
              exec r { s with inbox := l, ret := .word w, draws := n } = .next t → t.Has i y → y.dmaInFlight = none →
              between y.regs.dmaLen w

/-- Bit k of GROUP_STS is the interrupt line of instance k, on exactly while an enabled status bit is latched, and 0
where there is no instance (R53, R183, R184). A write to it is ignored; a reserved offset reads 0 and a write to one is
ignored; none of these changes anything (R143, R170, R171, R183). -/
def Obligations.GroupStatusShowsTheInterruptLines : Prop :=
  ∀ (s : State) (i : InstId) (x : Inst) (off : BitVec 6) (v : Word), s.Has i x →
    (∃ g : Word, exec .rdGroupSts s = .next { s with ret := .word g }
      ∧ ∀ k : Nat, k < 32 → g.getLsbD k = (match s.insts[k]? with
          | some x => decide (x.regs.intrSts &&& x.regs.intrCtrl ≠ 0#32)
          | none => false))
    ∧ exec (.rdReserved i off) s = .next { s with ret := .word 0#32 }
    ∧ exec (.wrReserved i off v) s = .next { s with ret := .none }
    ∧ exec (.wrGroupSts v) s = .next { s with ret := .none }

/-- A write of AC_TIMING1, AC_TIMING2, INTR_CTRL, DEV_ADDR, DMA_BASE or DMA_LEN stores all 32 bits (R171, R173 to R175,
R178, R181, R182); a write of BUF_CTRL stores bits 19:0 and 31:30 and keeps ACT_CNT, bits 29:20 (R179); a write of
BYTE_DATA stores its low byte in TX and keeps RX (R180). Nothing else of the machine changes but the record of register
writes. -/
def Obligations.PlainRegisterWritesStore : Prop :=
  ∀ (s : State) (i : InstId) (x : Inst) (v : Word), s.Has i x →
    exec (.wrAcTiming1 i v) s = .next (s.after i (fun y =>
      { y with regs := { y.regs with acTiming1 := v }, outs := y.noted .acTiming1 v }) .none)
    ∧ exec (.wrAcTiming2 i v) s = .next (s.after i (fun y =>
      { y with regs := { y.regs with acTiming2 := v }, outs := y.noted .acTiming2 v }) .none)
    ∧ exec (.wrIntrCtrl i v) s = .next (s.after i (fun y =>
      { y with regs := { y.regs with intrCtrl := v }, outs := y.noted .intrCtrl v }) .none)
    ∧ exec (.wrDevAddr i v) s = .next (s.after i (fun y =>
      { y with regs := { y.regs with devAddr := v }, outs := y.noted .devAddr v }) .none)
    ∧ exec (.wrDmaBase i v) s = .next (s.after i (fun y =>
      { y with regs := { y.regs with dmaBase := v }, outs := y.noted .dmaBase v }) .none)
    ∧ exec (.wrDmaLen i v) s = .next (s.after i (fun y =>
      { y with regs := { y.regs with dmaLen := v }, outs := y.noted .dmaLen v }) .none)
    ∧ (∃ w : Word, exec (.wrBufCtrl i v) s = .next (s.after i (fun y =>
        { y with regs := { y.regs with bufCtrl := w }, outs := y.noted .bufCtrl v }) .none)
      ∧ ∀ j : Nat, j < 32 → w.getLsbD j = if 20 ≤ j ∧ j < 30 then x.regs.bufCtrl.getLsbD j else v.getLsbD j)
    ∧ exec (.wrByteData i v) s = .next (s.after i (fun y =>
        { y with regs := { y.regs with byteTx := v.setWidth 8 }, outs := y.noted .byteData v }) .none)

/-- INTR_STS is write-one-to-clear: a bit written as 1 is cleared, a bit written as 0 is untouched, bits 31:15 are 0
after the write, reading it clears nothing, and nothing else changes but the record of register writes (R176). -/
def Obligations.IntrStsIsWriteOneToClear : Prop :=
  ∀ (s : State) (i : InstId) (x : Inst) (v : Word), s.Has i x →
    exec (.rdIntrSts i) s = .next { s with ret := .word x.regs.intrSts }
    ∧ ∃ w : Word, exec (.wrIntrSts i v) s = .next (s.after i (fun y =>
        { y with regs := { y.regs with intrSts := w }, outs := y.noted .intrSts v }) .none)
      ∧ ∀ j : Nat, w.getLsbD j = (x.regs.intrSts.getLsbD j && !v.getLsbD j && decide (j < 15))

/-- A write of FUN_CTRL stores the word. Where it turns MASTER_EN from 1 to 0 a master command in flight is dropped
and a MASTER XFER_STATE goes idle; where it turns SLAVE_EN from 1 to 0, a slave command and a SLAVE XFER_STATE; a
write that turns neither off changes nothing in the core. No status bit, no count, no received byte, no bus trace
changes (R172, R229). DESIGN CHOICE: that DMA_LEN still holds the programmed value when a DMA command whose bytes were
moving is dropped, that any command dropped so adds nothing to the bus trace, and that the page, the DMA window and
host memory are as they were when a receive is dropped, is the model's, log entry 29. -/
def Obligations.FunCtrlWriteResetsTheSideItDisables : Prop :=
  ∀ (s : State) (i : InstId) (x : Inst) (v : Word), s.Has i x →
    ∃ (t : State) (y : Inst), exec (.wrFunCtrl i v) s = .next t ∧ s.Becomes t i y ∧ t.ret = .none
      ∧ y = { x with regs := { x.regs with funCtrl := v }, outs := x.noted .funCtrl v, core := y.core }
      ∧ y.core.trace = x.core.trace
      ∧ y.core.inflight = (match x.core.inflight with
          | none => none
          | some f =>
            if (cmdIsMaster f.cmd && x.regs.funCtrl.getLsbD 0 && !v.getLsbD 0)
              || (!cmdIsMaster f.cmd && x.regs.funCtrl.getLsbD 1 && !v.getLsbD 1) then none else some f)
      ∧ y.core.xfer = (match x.core.xfer with
          | .idle => .idle
          | .master c => if x.regs.funCtrl.getLsbD 0 && !v.getLsbD 0 then .idle else .master c
          | .slave c => if x.regs.funCtrl.getLsbD 1 && !v.getLsbD 1 then .idle else .slave c)
      ∧ ((x.regs.funCtrl.getLsbD 0 = true → v.getLsbD 0 = true) →
          (x.regs.funCtrl.getLsbD 1 = true → v.getLsbD 1 = true) → y.core = x.core)

/-! ## Command words -/

/-- C.NOP issues nothing, also while a command is in flight: the enables read back as 0 and S_ALERT_EN takes bit 10 of
the word; no status bit is set (R214). A command word whose side is disabled in FUN_CTRL is ignored: its enables and
level are stored and nothing is latched or put in flight (R202). A write of CMD that is a reserved command word has no
defined effect and is refused (R141, R230); so is a command other than C.NOP while one is in flight (R202, R495), and a
data command whose count is 0 or above its path's maximum (R202, R230). -/
def Obligations.CommandWordsThatIssueNothing : Prop :=
  ∀ (s : State) (i : InstId) (x : Inst) (c : Cmd) (en : BitVec 4) (al : Bool) (hi : BitVec 16), s.Has i x →
    (exec (.cNop i 0#4 al hi) s = .next (s.after i (fun y =>
      { y with regs := { y.regs with en := 0#4, alertEn := al }, outs := y.noted .cmd (cmdWord .nop 0#4 al hi) }) .none))
    ∧ (c ≠ .nop → en ∈ c.enables → x.core.inflight = none →
      (if cmdIsMaster c then x.regs.funCtrl.getLsbD 0 else x.regs.funCtrl.getLsbD 1) = false →
      exec (cmdInstr i en al hi c) s = .next (s.after i (fun y =>
        { y with regs := { y.regs with en := en, alertEn := al }, outs := y.noted .cmd (cmdWord c en al hi) }) .none))
    ∧ exec (.wrCmd i (cmdWord .nop 0#4 al hi)) s = exec (.cNop i 0#4 al hi) s
    ∧ (en ∈ c.enables → exec (.wrCmd i (cmdWord c en al hi)) s = exec (cmdInstr i en al hi c) s)
    ∧ (∀ w : Word, exec (.reservedCmd i w) s = .refused .reservedCommand)
    ∧ (∀ w : Word, cmdOf w = none → exec (.wrCmd i w) s = .refused .reservedCommand)
    ∧ (c ≠ .nop → en ∈ c.enables →
        (x.core.inflight ≠ none → exec (cmdInstr i en al hi c) s = .refused .commandInFlight)
        ∧ (x.core.inflight = none → c ≠ .stop → c ≠ .recover →
            (if cmdIsMaster c then x.regs.funCtrl.getLsbD 0 else x.regs.funCtrl.getLsbD 1) = true →
            (cmdCount x s.cfg (s.cfg.inst i.toNat) c (pathOf en) = 0
              ∨ maxPath s.cfg (pathOf en) < cmdCount x s.cfg (s.cfg.inst i.toNat) c (pathOf en)) →
            exec (cmdInstr i en al hi c) s = .refused .illegalChunk))

/-- The eleven command words other than C.NOP (C.S_RX, C.START_TX, C.START_TX_STOP, C.TX, C.TX_STOP, C.RX, C.RX_LAST,
C.RX_LAST_STOP, C.STOP, C.S_TX, C.RECOVER), and a write of such a word to CMD: with nothing in flight, the command's
side enabled, its count n legal for its path and its data readable, the command goes in flight with path, n and data as
R202 gives them and DMA_BASE and DMA_LEN as they stand (R500); the enables and the level are stored; XFER_STATE takes a
code of the command's side; START makes the bus busy. Nothing else changes but the record of register writes. -/
def Obligations.CommandWordGoesInFlight : Prop :=
  ∀ (s : State) (i : InstId) (x : Inst) (c : Cmd) (en : BitVec 4) (al : Bool) (hi : BitVec 16) (n : Nat)
    (d : List Byte), s.Has i x → c ≠ .nop → en ∈ c.enables → x.core.inflight = none →
    (if cmdIsMaster c then x.regs.funCtrl.getLsbD 0 else x.regs.funCtrl.getLsbD 1) = true →
    n = (if c = .stop ∨ c = .recover then 0 else match pathOf en with
      | .byte => 1
      | .buf => if cmdIsTx c then (x.regs.bufCtrl.extractLsb' 0 10).toNat else (x.regs.bufCtrl.extractLsb' 10 10).toNat
      | .dma => dmaCount (coreCodec s.cfg (s.cfg.inst i.toNat) (cmdIsMaster c)) x.regs.dmaLen) →
    (c ≠ .stop → c ≠ .recover → 1 ≤ n ∧ n ≤ maxPath s.cfg (pathOf en)) →
    s.sampled x c (pathOf en) n = some d →
    ∃ (code : XferState) (m : Nat),
      (if cmdIsMaster c then code.isMaster else code.isSlave) = true
      ∧ exec (cmdInstr i en al hi c) s = .next { s.after i (fun y =>
          { y with regs := { y.regs with en := en, alertEn := al }
                   outs := y.noted .cmd (cmdWord c en al hi)
                   core := { y.core with
                     inflight := some { cmd := c, path := pathOf en, n := n, data := d, prog := x.regs.dmaLen,
                                        phase := .data, base := x.regs.dmaBase
                                        held := x.core.xfer.isMaster }
                     xfer := code
                     busy := cmdHasStart c || y.core.busy } }) .none with draws := m }
      ∧ exec (.wrCmd i (cmdWord c en al hi)) s = exec (cmdInstr i en al hi c) s

/-! ## Timing and initialisation -/

/-- The round trip of R246: for every valid pair low and high, computed without falling below 0, add up with 2 to r',
and high exceeds low by at most 1; both fit the 4 bits of their fields (R243). The divided clock of a pair: with q =
clk_in div bus_freq, the halving count is the least d with q / 2^d below 16, and the final ratio r' is q / 2^d rounded
up, so that a 1 shifted out counts once (R240); a pair is valid exactly when bus_freq > 0, clk_in ≥ 2 · bus_freq and q <
2^19 (R242). CALC_TIMING returns, for a valid pair, AC1_BASE with high in bits 19:16, low in bits 15:12 and the halving
count in bits 3:0, when AC1_BASE has zeros there (R240, R243); for another pair it returns a free value (log entry 10).
TIMING_WORD returns the override's word whole when the table has one and the calculator's otherwise (R241). Neither
changes anything. -/
def Obligations.TimingWordIsOverrideOrPackedPeriods : Prop :=
  ∀ (s : State) (i : InstId) (x : Inst) (clk freq : Word), s.Has i x →
    (∀ r d : Nat, validPair clk freq = true → (r, d) = halvedRatio clk freq →
      (lowPeriod r : Int) = (r : Int) / 2 - 1 ∧ (highPeriod r : Int) = (r : Int) - lowPeriod r - 2
      ∧ lowPeriod r + highPeriod r + 2 = r ∧ (highPeriod r = lowPeriod r ∨ highPeriod r = lowPeriod r + 1)
      ∧ lowPeriod r < 16 ∧ highPeriod r < 16 ∧ d < 16)
    ∧ (∀ q d r : Nat, q = clk.toNat / freq.toNat → (r, d) = halvedRatio clk freq →
      q / 2 ^ d < 16 ∧ (d = 0 ∨ 16 ≤ q / 2 ^ (d - 1)) ∧ r = (q + 2 ^ d - 1) / 2 ^ d
      ∧ (validPair clk freq = true ↔ 0 < freq.toNat ∧ 2 * freq.toNat ≤ clk.toNat ∧ q < 2 ^ 19))
    ∧ ∃ w v : Word,
        exec (.calcTiming clk freq) s = .next { s with ret := .word w }
        ∧ exec (.timingWord i) s = .next { s with ret := .word v }
        ∧ (∀ r d : Nat, validPair clk freq = true → (r, d) = halvedRatio clk freq →
            s.cfg.ac1Base &&& 0x000FF00F#32 = 0#32 →
            (w.extractLsb' 0 4).toNat = d ∧ (w.extractLsb' 12 4).toNat = lowPeriod r
            ∧ (w.extractLsb' 16 4).toNat = highPeriod r ∧ w &&& 0xFFF00FF0#32 = s.cfg.ac1Base)
        ∧ (∀ e : Word, overrideWord s.cfg (s.cfg.inst i.toNat) = some e → v = e)
        ∧ (overrideWord s.cfg (s.cfg.inst i.toNat) = none → clk = (s.cfg.inst i.toNat).clkIn →
            freq = (s.cfg.inst i.toNat).busFreq → v = w)

/-- TIMING_INIT writes AC_TIMING1, AC_TIMING2, INTR_STS and INTR_CTRL in this order: TIMING_WORD, AC2_VALUE, all ones,
which leaves INTR_STS 0, and INTR_MASK_DEFAULT (R244). REG_INIT first writes FUN_CTRL 0, which resets the enabled
sides of the core, then MASTER_EN, with SLAVE_EN when the host enabled the slave role (R247). Nothing else changes.
That a command REG_INIT's FUN_CTRL 0 drops leaves DMA_LEN, the page, the window and host memory as they were, and a
slave's its registers, is log entry 29's choice. The row of TIMING_INIT is the whole of it but for an instance whose
operator's BUS_RESET has come to it (log entry 15). DEV_INIT returns E_INVAL for an invalid pair without an override
and E_BUSY on an instance that is not idle or runs a blocking call, both without effect (during a call: log entry 22);
otherwise it does what REG_INIT does and returns R_OK (R245, R502), whole in one step, which is log entry 15's choice;
the test of an idle instance needs lock M (R109). -/
def Obligations.InitialisationWritesInOrder : Prop :=
  ∀ (s : State) (i : InstId) (x : Inst), s.Has i x →
    ((∀ a : Nat, x.thread.pc ≠ .resetTiming a) → exec (.timingInit i) s = .next (s.put i.toNat
      { x with
        regs := { x.regs with acTiming1 := timingWordOf s.cfg (s.cfg.inst i.toNat), acTiming2 := s.cfg.ac2Value,
                              intrSts := 0#32, intrCtrl := s.cfg.intrMask }
        outs := x.notedAll [(.acTiming1, timingWordOf s.cfg (s.cfg.inst i.toNat)), (.acTiming2, s.cfg.ac2Value),
                            (.intrSts, 0xFFFFFFFF#32), (.intrCtrl, s.cfg.intrMask)] } s.poolOwner s.draws .none))
    ∧ (∃ (a b d : Bool) (n : Nat), exec (.regInit i) s = .next (s.put i.toNat
        { x with
          core := x.core.afterFun x.regs.funCtrl 0#32 a b d
          regs := { x.regs with funCtrl := if x.slave.slaveEnabled then 3#32 else 1#32
                                acTiming1 := timingWordOf s.cfg (s.cfg.inst i.toNat), acTiming2 := s.cfg.ac2Value
                                intrSts := 0#32, intrCtrl := s.cfg.intrMask }
          outs := x.notedAll [(.funCtrl, 0#32), (.funCtrl, if x.slave.slaveEnabled then 3#32 else 1#32),
                              (.acTiming1, timingWordOf s.cfg (s.cfg.inst i.toNat)), (.acTiming2, s.cfg.ac2Value),
                              (.intrSts, 0xFFFFFFFF#32), (.intrCtrl, s.cfg.intrMask)] } s.poolOwner n .none))
    ∧ (overrideWord s.cfg (s.cfg.inst i.toNat) = none →
      validPair (s.cfg.inst i.toNat).clkIn (s.cfg.inst i.toNat).busFreq = false →
      exec (.devInit i) s = .next { s with ret := .word (s.cfg.code .inval) })
    ∧ (overrideWord s.cfg (s.cfg.inst i.toNat) ≠ none ∨
        validPair (s.cfg.inst i.toNat).clkIn (s.cfg.inst i.toNat).busFreq = true →
      (x.lockM ≠ none → exec (.devInit i) s = .refused .lockHeld)
      ∧ (x.lockM = none → (x.master.waiting ≠ .none ∨ x.master.mstate ≠ .idle ∨ x.recov.rstate ≠ .idle ∨ x.thread.pc ≠ .idle) →
        exec (.devInit i) s = .next { s with ret := .word (s.cfg.code .busy) })
      ∧ (x.lockM = none → x.master.waiting = .none → x.master.mstate = .idle → x.recov.rstate = .idle → x.thread.pc = .idle →
          ∃ t : State, exec (.regInit i) s = .next t
            ∧ exec (.devInit i) s = .next { t with ret := .word (s.cfg.code .ok) }))

/-! ## Transfer modes -/

/-- The law of R283 for both default codecs, for every chunk of a window up to the bound of R8: the core takes n from
what the engine writes for n, and the engine computes k from what the core leaves after k of n bytes. The values
written and the values that are BAD are those of R283's table; the machine starts with these codecs (R8). What the
core leaves after j of k bytes lies between the programmed value and what it leaves after k, the values ordered as
signed numbers for DMA_INC and as unsigned ones for DMA_DEC: R182 states no order, and this one is the model's reading
(DEDUCED, log entry 10). -/
def Obligations.DmaLengthCodecsAgree : Prop :=
  State.reset.cfg.codecDec = .remaining ∧ State.reset.cfg.codecInc = .remainingLessOne
  ∧ ∀ (inc : Bool) (n k j : Nat), 1 ≤ n → n ≤ 2147483647 → k ≤ n → j ≤ k →
    let c : Codec := if inc then .remainingLessOne else .remaining
    dmaEncode c n = BitVec.ofNat 32 (if inc then n - 1 else n)
    ∧ dmaCount c (dmaEncode c n) = n ∧ dmaDecode c n (dmaReadback c n k) = some k
    ∧ dmaBetween inc (dmaEncode c n) (dmaReadback c n k) (dmaReadback c n j)
    ∧ ∀ r : Word, dmaDecode c n r = none ↔
        if inc then r.toInt < -1 ∨ (n : Int) - 1 < r.toInt else n < r.toNat

/-- How the next chunk of a message m is planned from the progress p when its count has not passed its length: a read's
first chunk is its address alone, sent by C.START_TX (R268); otherwise the chunk carries the address byte exactly when
it opens a message that needs START (R262, R269), its payload is one byte for the length byte of a block read (R276) and
else what is left, bounded by the mode's chunk less the address byte (R261), so it never passes the message's end; the
command is the row of R263, with STOP exactly on the final chunk of the last message unless it is deferred (R270). -/
def Obligations.ChunkPlanFollowsTheTable : Prop :=
  ∀ (c : Config) (m : Msg) (p : Master) (q : Plan), q = planChunk c m p → p.cnt.toNat ≤ p.len.toNat →
    let first := !p.started && !m.noStart
    let lenByte := m.rd && m.recvLen && !p.lenExt
    let fin := !lenByte && decide (p.cnt.toNat + q.payload = p.len.toNat)
    let stop := fin && p.last && !(!m.rd && c.stopDeferred.contains p.mode)
    (m.rd = true → first = true →
      q = { addr := true, payload := 0, addressing := true, cmd := .startTx, stop := false })
    ∧ ((m.rd && first) = false →
        q.addressing = false ∧ q.addr = first ∧ q.stop = stop
        ∧ q.payload = (if lenByte then 1
          else min (p.len.toNat - p.cnt.toNat) (maxChunk c p.mode - if q.addr then 1 else 0))
        ∧ (lenByte = false → p.cnt.toNat + q.payload ≤ p.len.toNat)
        ∧ (1 ≤ maxChunk c p.mode → planLen q ≤ maxChunk c p.mode)
        ∧ q.cmd = match m.rd, first, stop, fin with
          | false, true, false, _ => .startTx
          | false, true, true, _ => .startTxStop
          | false, false, false, _ => .tx
          | false, false, true, _ => .txStop
          | true, _, _, false => .rx
          | true, _, false, true => .rxLast
          | true, _, true, true => .rxLastStop)

/-- ARM.BYTE with a transmit command writes the byte to BYTE_DATA and then the command, with a receive command the
command alone (R264); with C.S_RX, which has no enable then, that is C.NOP. ARM.BUF stores the n bytes in the pool page
from offset 0 and writes n to BUF_CTRL's TX_LEN, or the window size to its RX_SIZE, then the command with TX_BUF_EN or
RX_BUF_EN (R265); it is the operation of the side whose command it is, and that side without a loan of the page is
refused (log entry 26). ARM.DMADEC and ARM.DMAINC store the n bytes to send at the instance's window, write DMA_BASE
with the window's address and DMA_LEN with the codec's value of n, then the command with TX_DMA_EN or RX_DMA_EN (R266,
R267); the core moves as many bytes k as its own codec counts, n when the codecs agree (R202, R283). The chunk is
recorded in xlen and xmode, the command keeps the alert level (R285), and with nothing in flight the core takes it with
these bytes when its side is enabled. Every other byte and everything else is unchanged. -/
def Obligations.ArmOperationsProgramTheChunk : Prop :=
  ∀ (s : State) (i : InstId) (x : Inst) (c : Cmd) (b : Byte) (bs : List Byte) (n w k : Nat), s.Has i x →
    x.lockM = none → x.core.inflight = none →
    let lent : Bool := x.loan (if c = .sTx ∨ c = .sRx then .slave else .master)
    (cmdIsTx c = true → ∃ (code : XferState) (j : Nat), sideCode c code ∧
      exec (.armByte i c.action (some b)) s = .next (s.put i.toNat
        { (({ x with regs := { x.regs with byteTx := b }, outs := x.noted .byteData (0#24 ++ b) } : Inst).sends
            c 0#4 1 [b] code) with master := { x.master with xlen := 1, xmode := .byte } } s.poolOwner j .none))
    ∧ (cmdIsRx c = true → c ≠ .sRx → ∃ (code : XferState) (j : Nat), sideCode c code ∧
      exec (.armByte i c.action none) s = .next (s.put i.toNat
        { x.sends c 0#4 1 [] code with master := { x.master with xlen := 1, xmode := .byte } } s.poolOwner j .none))
    ∧ exec (.armByte i (Cmd.action .sRx) none) s = .next (s.put i.toNat
        { x.rearmed with master := { x.master with xlen := 1, xmode := .byte } } s.poolOwner s.draws .none)
    ∧ (1 ≤ n → n ≤ s.cfg.poolPage → n < 1024 → lent = true →
      (cmdIsTx c = true → bs.length = n → ∃ (p : Memory) (code : XferState) (j : Nat), sideCode c code
        ∧ Holds p 0 bs ∧ SameOutside s.pool p 0 n
        ∧ exec (.armBuf i c.action (.tx bs)) s = .next (({ s with pool := p } : State).put i.toNat
          { ((x.bufSet (BitVec.ofNat 32 n)).sends c 1#4 n bs code) with
              master := { x.master with xlen := BitVec.ofNat 32 n, xmode := .buf } } s.poolOwner j .none))
      ∧ (cmdIsRx c = true → ∃ (code : XferState) (j : Nat), sideCode c code
        ∧ exec (.armBuf i c.action (.rx (BitVec.ofNat 32 n))) s = .next (s.put i.toNat
          { ((x.bufSet (BitVec.ofNat 32 n <<< 10)).sends c 2#4 n [] code) with
              master := { x.master with xlen := BitVec.ofNat 32 n, xmode := .buf } } s.poolOwner j .none)))
    ∧ (∀ d : ArmData, (cmdIsTx c || cmdIsRx c) = true → lent = false →
        exec (.armBuf i c.action d) s = .refused .poolNotOwned)
    ∧ (∀ inc : Bool, (s.cfg.inst i.toNat).dmaAddr = some w → w < 4294967296 → 1 ≤ n → n ≤ s.cfg.dmaWin →
        n < 4294967296 → w + n ≤ 4294967296 → 1 ≤ k → k ≤ s.cfg.dmaWin →
      let v : Word := dmaEncode (s.cfg.codec inc) n
      let m : Master := { x.master with xlen := BitVec.ofNat 32 n, xmode := if inc then .dmaInc else .dmaDec }
      k = dmaCount (coreCodec s.cfg (s.cfg.inst i.toNat) (cmdIsMaster c)) v →
      (cmdIsTx c = true → bs.length = n → ∃ (p : Memory), Holds p w bs ∧ SameOutside s.dma p w n
        ∧ ∀ e : List Byte, p.bytes w k = some e → ∃ (code : XferState) (j : Nat), sideCode c code
          ∧ exec (if inc then .armDmaInc i c.action (.tx bs) else .armDmaDec i c.action (.tx bs)) s =
            .next (({ s with dma := p } : State).put i.toNat
              { ((x.dmaSet w v).sends c 4#4 k e code) with master := m } s.poolOwner j .none))
      ∧ (cmdIsRx c = true → ∃ (code : XferState) (j : Nat), sideCode c code
        ∧ exec (if inc then .armDmaInc i c.action (.rx (BitVec.ofNat 32 n)) else .armDmaDec i c.action (.rx (BitVec.ofNat 32 n)))
            s = .next (s.put i.toNat { ((x.dmaSet w v).sends c 8#4 k [] code) with master := m } s.poolOwner j .none)))

/-- The four extractions return: BYTE 1 (R271); BUF the ACT_CNT field of BUF_CTRL (R272); DMA_DEC and DMA_INC the
count their codec reads from DMA_LEN for the chunk's xlen, or BAD for a value no count leaves: with the default codecs
the length less the value, counted in two's complement for DMA_INC (R273, R274, R283). While a DMA command moves bytes
the value read is any one between the programmed and the final one (R182; log entry 10). Nothing else changes. They
read xlen under lock M (R109). -/
def Obligations.ExtractionsReadTheirRegister : Prop :=
  ∀ (s : State) (i : InstId) (x : Inst), s.Has i x → x.lockM = none →
    let r := x.regs.dmaLen
    let n := x.master.xlen.toNat
    let count (c : Codec) (r : Word) : Ret := match dmaDecode c n r with
      | some k => .word (BitVec.ofNat 32 k)
      | none => .bad
    exec (.extByte i) s = .next { s with ret := .word 1#32 }
    ∧ exec (.extBuf i) s = .next { s with ret := .word ((x.regs.bufCtrl.extractLsb' 20 10).setWidth 32) }
    ∧ (x.dmaInFlight = none →
        exec (.extDmaDec i) s = .next { s with ret := count s.cfg.codecDec r }
        ∧ exec (.extDmaInc i) s = .next { s with ret := count s.cfg.codecInc r })
    ∧ count .remaining r = (if r.toNat ≤ n then .word (BitVec.ofNat 32 (n - r.toNat)) else .bad)
    ∧ count .remainingLessOne r = (if -1 ≤ r.toInt ∧ r.toInt ≤ (n : Int) - 1 then
        .word (BitVec.ofInt 32 ((n : Int) - 1 - r.toInt)) else .bad)
    ∧ (∀ f : InFlight, x.dmaInFlight = some f →
        ∀ q ∈ [(Instr.extDmaDec i, s.cfg.codecDec), (.extDmaInc i, s.cfg.codecInc)],
          ∃ (m : Nat) (w : Word), exec q.1 s = .next { s with ret := count q.2 w, draws := m }
            ∧ dmaBetween (coreInc (s.cfg.inst i.toNat) (cmdIsMaster f.cmd)) f.prog (s.dmaFinal i.toNat x f) w)

/-- POOL_ACQ grants the page exactly when nobody owns it, sets the loan bit of the side and returns true, else returns
false without effect (R277), as 1 and 0, which is log entry 12's choice. POOL_REL, when the side's bit is set, frees
the page and clears the bit, else has no effect (R278). SELECT_MODE returns the configured mode of the role, BYTE for
BUF when the page is not free, BYTE for a DMA mode without a window, and takes the loan exactly when it returns BUF
(R279). -/
def Obligations.PoolLoanAndModeSelection : Prop :=
  ∀ (s : State) (i : InstId) (x : Inst) (d : Side), s.Has i x →
    let lent (b : Bool) : Inst := match d with
      | .master => { x with master := { x.master with mLoan := b } }
      | .slave => { x with slave := { x.slave with sLoan := b } }
    (exec (.poolAcq i d) s = .next (match s.poolOwner with
      | none => s.put i.toNat (lent true) (some (i.toNat, d)) s.draws (.word 1#32)
      | some _ => { s with ret := .word 0#32 }))
    ∧ (exec (.poolRel i d) s = .next (if x.loan d then s.put i.toNat (lent false) none s.draws .none
      else { s with ret := .none }))
    ∧ (exec (.selectMode i d) s = .next (
        match prefMode (s.cfg.inst i.toNat) d, s.poolOwner, (s.cfg.inst i.toNat).dmaAddr with
        | .buf, none, _ => s.put i.toNat (lent true) (some (i.toNat, d)) s.draws (.word 1#32)
        | .dmaDec, _, some _ => { s with ret := .word 2#32 }
        | .dmaInc, _, some _ => { s with ret := .word 3#32 }
        | _, _, _ => { s with ret := .word 0#32 }))

/-- ARM_NEXT plans the next chunk of msgs[cur] and programs it in the chunk's mode, BYTE for the addressing chunk of a
read: a receive window, or the address byte followed by the payload at buf + cnt (R260, R262, R268). It then records the
chunk: xlen, xmode, addr_in_chunk, started, and stop_issued when STOP goes with it (R263). With nothing in flight and a
chunk the mode can program, it completes so; every space but the one loaded and everything else is unchanged. -/
def Obligations.ArmNextProgramsThePlannedChunk : Prop :=
  ∀ (s : State) (i : InstId) (x : Inst) (d : Word) (m : Msg) (q : Plan) (w : Nat) (pay : List Byte), s.Has i x →
    x.lockM = none → x.master.msgs = some d → s.message d x.master.cur.toNat = some m → s.CanArm i x m q w pay →
    ∃ (code : XferState) (j : Nat), sideCode q.cmd code
      ∧ exec (.armNext i) s = .next (s.armed i x m q w pay code s.poolOwner j .none)

/-! ## The slave engine -/

/-- S_ARM_RX opens the next receive window of the slave's mode: nothing written in BYTE mode, else BUF_CTRL or DMA_BASE
and DMA_LEN for the whole page or window and then C.S_RX with its enable (R280). S_ARM_TX sends the next bytes of the
transmit buffer from tx_off, at most a chunk, by C.S_TX, or the filler 0xFF in BYTE mode when none are left (R281). Both
record the chunk in s_xlen and s_xmode and leave xlen and xmode, which is log entry 16's reading; nothing else changes
but the space loaded. START_OF_WRITE selects the slot at wr, dropping and logging the oldest unread message when the
ring is full, opens it for the address byte with length 0, goes to S_RX and opens the receive window (R342, R343).
START_OF_READ goes to S_TX with tx_off 0, selects no slot and sends the first bytes of the transmit buffer (R344). -/
def Obligations.SlaveWindowsAndTransactionsOpen : Prop :=
  ∀ (s : State) (i : InstId) (x : Inst) (a : Byte) (w : Nat) (d : List Byte), s.Has i x →
    s.cfg.slavePresent = true → x.lockS = none → x.core.inflight = none →
    (s.CanRx i x.slave w → ∃ (code : XferState) (j : Nat), sideCode .sRx code
      ∧ exec (.sArmRx i) s = .next (s.put i.toNat (x.rxWindow s.cfg w code) s.poolOwner j .none))
    ∧ (s.CanTx i x.slave w d → ∃ (code : XferState) (j : Nat), sideCode .sTx code
      ∧ exec (.sArmTx i) s = .next ((s.loaded (x.slave.txMode s.cfg) w d).put i.toNat (x.txChunk s.cfg w d code)
          s.poolOwner j .none))
    ∧ (x.slave.ring.length = s.cfg.ringCap → s.CanRx i x.slave w →
      ∃ (code : XferState) (j : Nat), sideCode .sRx code
      ∧ exec (.startOfWrite i a) s = .next (s.put i.toNat ((x.opened s.cfg.ringCap a).rxWindow s.cfg w code)
          s.poolOwner j .none))
    ∧ (s.CanTx i x.reading.slave w d → ∃ (code : XferState) (j : Nat), sideCode .sTx code
      ∧ exec (.startOfRead i a) s = .next ((s.loaded (x.reading.slave.txMode s.cfg) w d).put i.toNat
          (x.reading.txChunk s.cfg w d code) s.poolOwner j .none))

/-- S_MATCH: a master transfer waited for is pre-empted (R321), a transaction whose end was never seen is finished,
the role becomes slave, the mode is selected with its loan, and the address byte in BYTE_DATA.RX opens a write
transaction when its bit 0 is 0 and a read otherwise (R341). It completes so whenever nothing is in flight after the
pre-emption, which drops a master command (R321) and leaves DMA_LEN and what a receive may have filled as they were
(log entry 29). -/
def Obligations.AddressMatchOpensATransaction : Prop :=
  ∀ (s : State) (i : InstId) (x : Inst) (w : Nat) (d : List Byte), s.Has i x → s.cfg.slavePresent = true →
    x.Unlocked → x.slave.ring.length = s.cfg.ringCap → (x.slave.sstate = .rx → x.slave.sCur ≠ none) →
    ∃ (a b c : Bool),
      let idle : Bool := x.slave.sstate == .idle
      let y : Inst := if idle then x.preempted a b c else (x.preempted a b c).finished s.cfg.ringCap
      let o := if idle then s.poolOwner else x.release .slave s.poolOwner
      let m := selected (s.cfg.inst i.toNat) .slave o
      let z : Inst := y.matched m
      z.core.inflight = none → s.CanServe i z x.regs.byteRx w d → ∃ (code : XferState) (j : Nat), sideCode (serveCmd x.regs.byteRx) code
        ∧ exec (.sMatch i) s = .next ((s.served z x.regs.byteRx w d).put i.toNat
            (z.serving s.cfg x.regs.byteRx w d code) (if m = .buf then some (i.toNat, Side.slave) else o) j .none)

/-- S_DATA in a write transaction: a count above the window or BAD is ERR_PROTO, bytes that do not fit the slot are
ERR_OVERRUN and are not stored, and either runs BUS_RESET at once; otherwise exactly the bytes received are appended
to the open slot and, when no STOP came with them, the next window is opened. Outside a write transaction it is only
logged (R345, R346). S_TX_ACK in a read transaction: a count of 0, above the chunk or BAD is ERR_PROTO with BUS_RESET;
otherwise tx_off advances by the count, at most to tx_len, and the next bytes are sent. Outside a read transaction it
is only logged (R347). That a command these BUS_RESETs drop leaves DMA_LEN and what a receive may have filled as they
were is the model's choice, log entry 29. -/
def Obligations.SlaveDataAndRepliesAdvance : Prop :=
  ∀ (s : State) (i : InstId) (x : Inst) (stop : Bool) (cur : Nat) (d : List Byte) (w : Nat), s.Has i x →
    s.cfg.slavePresent = true → x.Unlocked → x.dmaInFlight = none →
    let n := x.slave.sXlen.toNat
    let k := x.extracted s.cfg x.slave.sXmode n
    let fails (r : Instr) (e : Word) : Prop := ∃ (a b c : Bool) (j : Nat), exec r s = .next (s.put i.toNat
      (x.slaveFailed e s.cfg (s.cfg.inst i.toNat) a b c) (x.release .slave s.poolOwner) j .none)
    (x.slave.sstate ≠ .rx → exec (.sData i stop) s = .next (s.put i.toNat
      { x with outs := { x.outs with log := x.outs.log ++ [.dataWithNoSlaveWrite] } } s.poolOwner s.draws .none))
    ∧ (x.slave.sstate = .rx → x.slave.sCur = some cur →
      (k = none → fails (.sData i stop) 0x00010000#32)
      ∧ (∀ v : Nat, k = some v → n < v → fails (.sData i stop) 0x00010000#32)
      ∧ (∀ v : Nat, k = some v → v ≤ n → s.received i x .slave x.slave.sXmode v = some d →
          (s.cfg.slotCap < slotLen x.slave cur + v → fails (.sData i stop) 0x00080000#32)
          ∧ (slotLen x.slave cur + v ≤ s.cfg.slotCap →
            (stop = true → exec (.sData i stop) s = .next (s.put i.toNat (x.appended cur d) s.poolOwner s.draws .none))
            ∧ (stop = false → x.core.inflight = none → s.CanRx i x.slave w →
              ∃ (code : XferState) (j : Nat), sideCode .sRx code
              ∧ exec (.sData i stop) s = .next (s.put i.toNat ((x.appended cur d).rxWindow s.cfg w code)
                  s.poolOwner j .none)))))
    ∧ (x.slave.sstate ≠ .tx → exec (.sTxAck i) s = .next (s.put i.toNat
      { x with outs := { x.outs with log := x.outs.log ++ [.ackWithNoSlaveRead] } } s.poolOwner s.draws .none))
    ∧ (x.slave.sstate = .tx →
      (k = none → fails (.sTxAck i) 0x00010000#32)
      ∧ (∀ v : Nat, k = some v → v < 1 ∨ n < v → fails (.sTxAck i) 0x00010000#32)
      ∧ (∀ v : Nat, k = some v → 1 ≤ v → v ≤ n →
          let y : Inst := { x with slave := { x.slave with txOff := BitVec.ofNat 32 (min (x.slave.txOff.toNat + v) x.slave.txLen) } }
          x.core.inflight = none → s.CanTx i y.slave w d → ∃ (code : XferState) (j : Nat), sideCode .sTx code
          ∧ exec (.sTxAck i) s = .next ((s.loaded (y.slave.txMode s.cfg) w d).put i.toNat (y.txChunk s.cfg w d code)
              s.poolOwner j .none)))

/-- S_FINAL in a write transaction marks the open slot FULL, advances wr around the ring, counts the message in ready
and wakes a reader; in every state it goes idle with tx_off 0, gives back the loan and the role and writes C.NOP
(R348). S_STOP takes the data that came with the STOP first, when RX_DONE is set without SLAVE_MATCH in a write
transaction, then finishes, and reports the bits it consumed: NORMAL_STOP, that RX_DONE, and in a read transaction
TX_ACK and TX_NAK (R349); a wrong count or bytes that do not fit are recorded and run BUS_RESET first (R345, R346), a
command it drops leaving DMA_LEN and what a receive may have filled as they were, the model's choice (log entry 29).
-/
def Obligations.SlaveTransactionsFinish : Prop :=
  ∀ (s : State) (i : InstId) (x : Inst) (sts : Word) (cur v : Nat) (d : List Byte), s.Has i x →
    s.cfg.slavePresent = true → x.Unlocked → x.slave.ring.length = s.cfg.ringCap →
    (x.slave.sstate = .rx → x.slave.sCur = some cur) →
    let o := x.release .slave s.poolOwner
    let data : Bool := sts.getLsbD 2 && !sts.getLsbD 7 && x.slave.sstate == .rx
    exec (.sFinal i) s = .next (s.put i.toNat (x.finished s.cfg.ringCap) o s.draws .none)
    ∧ (data = false → exec (.sStop i sts) s = .next (s.put i.toNat (x.finished s.cfg.ringCap) o s.draws
        (.word (0x0010#32 ||| if x.slave.sstate = .tx then sts &&& 0x0003#32 else 0#32))))
    ∧ (data = true → x.dmaInFlight = none → x.extracted s.cfg x.slave.sXmode x.slave.sXlen.toNat = some v → v ≤ x.slave.sXlen.toNat →
        s.received i x .slave x.slave.sXmode v = some d → slotLen x.slave cur + v ≤ s.cfg.slotCap →
        exec (.sStop i sts) s = .next (s.put i.toNat ((x.appended cur d).finished s.cfg.ringCap) o s.draws
          (.word 0x0014#32)))
    ∧ (data = true → x.dmaInFlight = none → ∀ e : Word, s.SlaveFails i x cur d e → ∃ (a b c : Bool) (j : Nat),
        exec (.sStop i sts) s = .next (s.put i.toNat
          ((x.slaveFailed e s.cfg (s.cfg.inst i.toNat) a b c).finished s.cfg.ringCap) o j (.word 0x0014#32)))

/-- SLAVE_READ copies the oldest unread message to the host's buffer, frees its slot, moves rd around the ring, and
returns its address byte and length; with no message it returns E_NODATA and with a buffer too small E_INVAL, changing
nothing (R350). SLAVE_WRITE fills the transmit buffer with the bytes host memory holds, in a message buffer of a
running SUBMIT too (log entry 39), and returns n; it returns E_INVAL for more than SLOT_CAP bytes and E_BUSY while a
remote read is served, changing nothing (R351). -/
def Obligations.SlaveReadAndWriteMoveMessages : Prop :=
  ∀ (s : State) (i : InstId) (x : Inst) (dst cap src : Word) (n : BitVec 16) (q : Slot) (d e : List Byte), s.Has i x →
    s.cfg.slavePresent = true → x.lockS = none → x.regs.funCtrl.getLsbD 0 = true →
    x.slave.ring.length = s.cfg.ringCap →
    (x.slave.ready = 0 → exec (.slaveRead i dst cap) s = .next { s with ret := .word (s.cfg.code .nodata) })
    ∧ (x.slave.ready ≠ 0 → x.slave.ring[x.slave.rd]? = some q →
      (cap.toNat < q.len → exec (.slaveRead i dst cap) s = .next { s with ret := .word (s.cfg.code .inval) })
      ∧ (q.len ≤ cap.toNat → q.buf.bytes 0 q.len = some d → dst.toNat + q.len ≤ 4294967296 →
        ∃ p : Memory, Holds p dst.toNat d ∧ SameOutside s.mem p dst.toNat q.len
          ∧ exec (.slaveRead i dst cap) s = .next (({ s with mem := p } : State).put i.toNat
              { x with slave := x.slave.evicted s.cfg.ringCap } s.poolOwner s.draws
              (.word ((q.addr.setWidth 32 <<< 16) ||| BitVec.ofNat 32 q.len)))))
    ∧ (s.cfg.slotCap < n.toNat → exec (.slaveWrite i n src) s = .next { s with ret := .word (s.cfg.code .inval) })
    ∧ (n.toNat ≤ s.cfg.slotCap → x.slave.sstate = .tx →
        exec (.slaveWrite i n src) s = .next { s with ret := .word (s.cfg.code .busy) })
    ∧ (n.toNat ≤ s.cfg.slotCap → x.slave.sstate ≠ .tx → s.mem.bytes src.toNat n.toNat = some e →
        ∃ b : Memory, Holds b 0 e ∧ SameOutside x.slave.txbuf b 0 n.toNat
          ∧ exec (.slaveWrite i n src) s = .next (s.put i.toNat
              { x with slave := { x.slave with txbuf := b, txLen := n.toNat } } s.poolOwner s.draws
              (.word (n.setWidth 32))))

/-- SLAVE_ENABLE stores the address in DEV_ADDR, sets SLAVE_EN and slave_enabled and returns R_OK; an address above
0x7F is E_INVAL without effect (R352). SLAVE_DISABLE clears SLAVE_EN, which resets the core's slave side, clears
slave_enabled and aborts the transaction (R353); that each runs whole in one step is log entry 15's choice, that a
window SLAVE_DISABLE drops is as it was log entry 29's. S_ABORT discards the open slot, goes idle, gives back the loan
and the role, and keeps FULL slots, cursors and the transmit buffer (R357). ALERT_ASSERT and ALERT_DEASSERT write
C.NOP with the level bit 1 and 0 (R354, R355). -/
def Obligations.SlaveHostControls : Prop :=
  ∀ (s : State) (i : InstId) (x : Inst) (a : BitVec 16), s.Has i x →
    s.cfg.slavePresent = true → x.regs.funCtrl.getLsbD 0 = true →
    (a.toNat ≤ 0x7F → exec (.slaveEnable i a) s = .next (s.put i.toNat
      { x with
        regs := { x.regs with devAddr := a.setWidth 32, funCtrl := x.regs.funCtrl ||| 2#32 }
        slave := { x.slave with slaveEnabled := true }
        outs := x.notedAll [(.devAddr, a.setWidth 32), (.funCtrl, x.regs.funCtrl ||| 2#32)] }
      s.poolOwner s.draws (.word (s.cfg.code .ok))))
    ∧ (0x7F < a.toNat → exec (.slaveEnable i a) s = .next { s with ret := .word (s.cfg.code .inval) })
    ∧ (x.Unlocked → ∃ (b c d : Bool) (j : Nat),
      let f : Word := x.regs.funCtrl &&& 0xFFFFFFFD#32
      let y : Inst := { x with
        regs := { x.regs with funCtrl := f }, core := x.core.afterFun x.regs.funCtrl f b c d
        slave := { x.slave with slaveEnabled := false }, outs := x.noted .funCtrl f }
      exec (.slaveDisable i) s = .next (s.put i.toNat y.aborted (x.release .slave s.poolOwner) j (.word (s.cfg.code .ok))))
    ∧ (x.Unlocked → x.thread.pc ≠ .resetAbort → exec (.sAbort i) s = .next (s.put i.toNat x.aborted (x.release .slave s.poolOwner) s.draws .none))
    ∧ exec (.alertAssert i) s = .next (s.put i.toNat
        { x with regs := { x.regs with en := 0#4, alertEn := true }, outs := x.noted .cmd 0x400#32 }
        s.poolOwner s.draws (.word (s.cfg.code .ok)))
    ∧ exec (.alertDeassert i) s = .next (s.put i.toNat
        { x with regs := { x.regs with en := 0#4, alertEn := false }, outs := x.noted .cmd 0#32 }
        s.poolOwner s.draws (.word (s.cfg.code .ok)))

/-- With the slave engine absent the slave host operations return E_INVAL and change nothing (R358); so does a reserved
host request, and every host request for an instance that does not exist (R137, R144). -/
def Obligations.RequestsThatAreNotOfferedReturnInvalid : Prop :=
  ∀ (s : State) (i : InstId) (a b c : Word) (h n : BitVec 16),
    let inval : Host.Outcome State Fault Refusal := .next { s with ret := .word (s.cfg.code .inval) }
    exec (.reservedHost a b c) s = inval
    ∧ (s.cfg.slavePresent = false ∨ s.insts.length ≤ i.toNat →
      ∀ r ∈ [Instr.slaveRead i a b, .slaveWrite i n a, .slaveEnable i h, .slaveDisable i, .alertAssert i,
        .alertDeassert i], exec r s = inval)
    ∧ (s.insts.length ≤ i.toNat →
      ∀ r ∈ [Instr.devInit i, .submit i n a b, .recoverReq i, .readMrstCnt i, .readSrecCnt i, .readRecovStatus i,
        .busReset i, .irq i], exec r s = inval)

/-! ## The master engine -/

/-- SUBMIT returns E_INVAL without effect on an instance that is not initialised, for n = 0, and for a set with a
message that breaks a condition of R301: a reserved bit, LEN 0, CAP below LEN, RECV_LEN without RD or without room for
255 more bytes, NO_START on the first message or after one of the other direction. A set that meets them all is
accepted: the blocking call begins its first attempt with the retry bound C (R300, R301). While a blocking call runs a
second is not offered (R502), at every line of SUBMIT, RECOVER or BUS_RESET, which is log entry 22's reading. -/
def Obligations.SubmitChecksTheMessageSet : Prop :=
  ∀ (s : State) (i : InstId) (x : Inst) (n : BitVec 16) (desc bound : Word) (ms : List Msg), s.Has i x →
    let good (k : Nat) (m : Msg) : Prop :=
      m.reserved = false ∧ 1 ≤ m.len ∧ m.len ≤ m.cap
      ∧ (m.recvLen = true → m.rd = true ∧ m.len + 255 ≤ m.cap)
      ∧ (m.noStart = true → ∃ p : Msg, 1 ≤ k ∧ ms[k - 1]? = some p ∧ p.rd = m.rd)
    let inval : Host.Outcome State Fault Refusal := .next { s with ret := .word (s.cfg.code .inval) }
    (x.thread.pc ≠ .idle → exec (.submit i n desc bound) s = .refused .overlappingSubmit)
    ∧ (x.thread.pc = .idle → x.regs.funCtrl.getLsbD 0 = false → exec (.submit i n desc bound) s = inval)
    ∧ (x.thread.pc = .idle → n = 0#16 → exec (.submit i n desc bound) s = inval)
    ∧ (x.thread.pc = .idle → x.regs.funCtrl.getLsbD 0 = true → 1 ≤ n.toNat → ms.length = n.toNat →
        (∀ (k : Nat) (m : Msg), ms[k]? = some m → s.message desc k = some m) →
        ((∀ (k : Nat) (m : Msg), ms[k]? = some m → good k m) → exec (.submit i n desc bound) s = .next (s.put i.toNat
          { x with thread := { pc := .xferEntry, call := .submit, n := n.toNat, desc := desc, bound := bound.toNat,
                               attempt := 0, reached := 0 } } s.poolOwner s.draws .none))
        ∧ ((∃ (k : Nat) (m : Msg), ms[k]? = some m ∧ ¬ good k m) → exec (.submit i n desc bound) s = inval))

/-- MSG lays the three words of a descriptor, little-endian, and then the bytes of its buffer, in host memory (R136,
R102): every other byte reads as before, and where the two do not overlap the descriptor that is read back is the one
that was laid. -/
def Obligations.MessageDescriptorIsLaidInMemory : Prop :=
  ∀ (s : State) (loc w0 ref cap : Word) (data : List Byte), loc.toNat + 12 ≤ 4294967296 →
    ref.toNat + data.length ≤ 4294967296 →
    ∃ t : State, exec (.msg loc w0 ref cap data) s = .next t ∧ t = { s with mem := t.mem, ret := .none }
      ∧ Holds t.mem ref.toNat data
      ∧ (∀ a : Nat, a < loc.toNat ∨ loc.toNat + 12 ≤ a → a < ref.toNat ∨ ref.toNat + data.length ≤ a →
          Memory.get t.mem a = Memory.get s.mem a)
      ∧ (ref.toNat + data.length ≤ loc.toNat ∨ loc.toNat + 12 ≤ ref.toNat →
          t.message loc 0 = some (msgOfWords w0 ref cap))

/-- The lines of DO_XFER (R303, R304, R306, R314, R300, R302; where the thread stands is the model's, log entry 6).
Line 1: while a slave transaction owns the bus the attempt is over with E_BUSY and no register is read or written; else
err is cleared and the set is taken. Line 3: the mode is selected with its loan. exit(r): the engine idle, the set and
the wait gone, the loan released. An attempt that ends with a transient result is retried after RETRY_DELAY while the
bound allows; any other result is the call's. What the read buffers of a call that failed hold is not stated past the
chunks that completed (R300), which are counted as log entry 29 says; no other byte of memory changes, and none when
the call goes on or returns its count. -/
def Obligations.TransferLinesRunInOrder : Prop :=
  ∀ (s : State) (i : InstId) (x : Inst), s.Has i x → x.lockM = none →
    let returns (y : Inst) (o : Option (Nat × Side)) (p : Memory) (j : Nat) (w : Word) : Prop :=
      exec (.doXfer i) s =
        .next (({ s with mem := p } : State).put i.toNat { y with thread := Thread.idle } o j (.word w))
    let ends (y : Inst) (o : Option (Nat × Side)) (r : Result) : Prop :=
      if (r = .code .busy ∨ r = .code .nack ∨ r = .code .again) ∧ x.thread.attempt < x.thread.bound then
        exec (.doXfer i) s = .next (s.put i.toNat
          { y with thread := { x.thread with pc := .retryDelay, attempt := x.thread.attempt + 1 } } o s.draws .none)
      else match r with
        | .count n => returns y o s.mem s.draws (BitVec.ofNat 32 n)
        | .code .ok => returns y o s.mem s.draws (s.cfg.code .ok)
        | .code .nothing => returns y o s.mem s.draws (s.cfg.code .nothing)
        | .code c => ∃ (p : Memory) (j : Nat), s.TailsLost x p ∧ returns y o p j (s.cfg.code c)
    (x.thread.pc = .xferEntry → x.master.slaveOp = true → ends x s.poolOwner (.code .busy))
    ∧ (x.thread.pc = .xferEntry → x.master.slaveOp = false → exec (.doXfer i) s = .next (s.put i.toNat
        { x with
          master := { x.master with err := 0#32, msgs := some x.thread.desc, nmsgs := BitVec.ofNat 32 x.thread.n, mstate := .idle }
          thread := { x.thread with pc := .waitIdle } } s.poolOwner s.draws .none))
    ∧ (x.thread.pc = .selectMode →
        let m := selected (s.cfg.inst i.toNat) .master s.poolOwner
        exec (.doXfer i) s = .next (s.put i.toNat
          { x with
            master := { x.master with mode := m, mLoan := m == .buf || x.master.mLoan }
            thread := { x.thread with pc := .startMsg 0 } }
          (if m = .buf then some (i.toNat, .master) else s.poolOwner) s.draws .none))
    ∧ (∀ r : Result, x.thread.pc = .xferExit r →
        ends { x with master := { x.master with
          mstate := .idle, msgs := none, nmsgs := 0, done := false, waiting := .none, mLoan := false } }
          (if x.master.mLoan then none else s.poolOwner) r)

/-- WAIT_IDLE (R305): with BUS_BUSY 0 the transfer goes on to select its mode; with BUS_BUSY 1 it waits, or has its wait
expired at once when IDLE_TIMEOUT is 0, and the wait goes on only when BUS_BUSY reads 0. An expired wait returns E_BUSY,
or runs RECOVER when RECOVER_ON_BUSY; a failure of that is E_RECOV, and otherwise BUS_BUSY decides again. WAIT goes on
exactly when the completion signal is set, for the three kinds of wait (R308). T.EXPIRE ends one of them exactly when
the signal is clear: its waiter is gone (R458), and after a transfer's, of the page, the DMA window, BYTE_DATA.RX and
the read buffer only what R497 leaves unspecified may differ (log entry 29). It ends the idle wait exactly when the bus
is busy, and lets a retry proceed (R476). The three have a step nowhere else (where the thread stands is the model's,
log entry 6). -/
def Obligations.WaitsEndBySignalBusOrTimer : Prop :=
  ∀ (s : State) (i : InstId) (x : Inst), s.Has i x → x.lockM = none →
    let at' (pc : Pc) : Host.Outcome State Fault Refusal :=
      .next (s.put i.toNat { x with thread := { x.thread with pc := pc } } s.poolOwner s.draws .none)
    let blocked : Prop := (∃ k, x.thread.pc = .waitXfer k) ∨ x.thread.pc = .stopWait ∨ ∃ t, x.thread.pc = .deadWait t
    (x.thread.pc = .waitIdle → exec (.waitIdle i) s = at' (if x.core.busy = false then .selectMode
      else if s.cfg.idleTimeout = 0 then .idleExpired else .idleBusy))
    ∧ (x.thread.pc = .idleBusy → x.core.busy = false → exec (.waitIdle i) s = at' .selectMode)
    ∧ (x.thread.pc = .idleBusy → x.core.busy = true → exec (.waitIdle i) s = .refused .notEnabled)
    ∧ (x.thread.pc = .idleExpired → exec (.waitIdle i) s =
        at' (if s.cfg.recoverOnBusy then .recoverEntry else .xferExit (.code .busy)))
    ∧ (∀ r : Code, x.thread.pc = .idleRecovered r → exec (.waitIdle i) s =
        at' (if r ≠ .ok ∧ r ≠ .nothing then .xferExit (.code .recov)
          else if x.core.busy then .xferExit (.code .busy) else .selectMode))
    ∧ (x.thread.pc ≠ .waitIdle → x.thread.pc ≠ .idleBusy → x.thread.pc ≠ .idleExpired →
        (∀ r, x.thread.pc ≠ .idleRecovered r) → exec (.waitIdle i) s = .refused .notEnabled)
    ∧ (x.master.done = true → ∀ p : Pc × Pc,
        (∃ k, p = (.waitXfer k, .wakeSignalled k)) ∨ p = (.stopWait, .stopWake false)
          ∨ (∃ t, p = (.deadWait t, .deadWake t false)) → x.thread.pc = p.1 → exec (.wait i) s = at' p.2)
    ∧ (x.master.done = false ∨ ¬ blocked → exec (.wait i) s = .refused .notEnabled)
    ∧ (x.master.done = false → ∀ p : Pc × Pc, p = (.stopWait, .stopWake true)
          ∨ (∃ t, p = (.deadWait t, .deadWake t true)) → x.thread.pc = p.1 →
        exec (.tExpire i) s = .next (s.put i.toNat (x.expired x.regs.byteRx p.2) s.poolOwner s.draws .none))
    ∧ (x.master.done = false → ∀ k : Nat, x.thread.pc = .waitXfer k → ∃ (p q r : Memory) (b : Byte) (j : Nat),
        s.BuffersLost i x p q r
        ∧ exec (.tExpire i) s = .next (({ s with pool := p, dma := q, mem := r } : State).put i.toNat
            (x.expired b (.wakeExpired k)) s.poolOwner j .none))
    ∧ (x.master.done = true → blocked → exec (.tExpire i) s = .refused .notEnabled)
    ∧ (x.thread.pc = .idleBusy → exec (.tExpire i) s = if x.core.busy then at' .idleExpired else .refused .notEnabled)
    ∧ (x.thread.pc = .retryDelay → exec (.tExpire i) s = at' .xferEntry)
    ∧ (¬ blocked → x.thread.pc ≠ .idleBusy → x.thread.pc ≠ .retryDelay → exec (.tExpire i) s = .refused .notEnabled)

/-- START_MSG of message k returns E_BUSY while a slave transaction owns the bus, touching no register (R304). Otherwise
it resets the progress, keeping err, sets M_START, arms the wait before the command that can complete it, arms the first
chunk with ARM_NEXT and leaves M_CHUNK, waiting (R307), the thread noting that message k was started (log entry 29). -/
def Obligations.StartMessageArmsTheFirstChunk : Prop :=
  ∀ (s : State) (i : InstId) (x : Inst) (k : Word) (d : Word) (m : Msg) (q : Plan) (w : Nat) (pay : List Byte),
    s.Has i x → x.lockM = none → x.thread.pc = .startMsg k.toNat →
    (x.master.slaveOp = true → exec (.startMsg i k) s = .next (s.put i.toNat
      { x with thread := { x.thread with pc := .xferExit (.code .busy) } } s.poolOwner s.draws .none))
    ∧ (x.master.slaveOp = false → x.master.msgs = some d → s.message d k.toNat = some m →
        let y : Inst := { x with master := { x.master with
          cur := k, cnt := 0, last := k.toNat + 1 == x.master.nmsgs.toNat, len := BitVec.ofNat 32 m.len, lenExt := false
          xlen := 0, xmode := .byte, addrInChunk := false, started := false, stopIssued := false, stopSeen := false
          mstate := .start, done := false, waiting := .xfer } }
        s.CanArm i y m q w pay → ∃ (code : XferState) (j : Nat), sideCode q.cmd code
          ∧ exec (.startMsg i k) s = .next ((s.armed i y m q w pay code s.poolOwner j .none).updInst i.toNat fun z =>
              { z with master := { z.master with mstate := .chunk }
                       thread := { z.thread with pc := .waitXfer k.toNat, reached := k.toNat + 1 } }))

/-- WAKE after the signal disarms the wait and maps the accumulator to a result in the order of R310: a hardware
fault, unclassified combination or overrun gives E_IO, a protocol error runs BUS_RESET and gives E_IO, an arbitration
loss or pre-emption gives E_AGAIN, a NACK gives E_NACK; any of these ends the attempt, the read buffer past the bytes
received being unspecified (R497; log entry 29). A clean wake of a message without RECV_LEN goes on to the next
message, or returns n after the last. A clean wake of a block read stores the length reached in its descriptor's LEN
field, two bytes little-endian, and changes no other byte (R276, R310); a length above 65535 does not fit and leaves
the field open (log entry 14). WAKE after the timer expired the wait first takes the waiter away and then runs
BUS_RESET; the result is E_TIMEOUT, and what the core may have written is unspecified (R309, R497). Both are stated
with both locks free (log entry 8). -/
def Obligations.WakeMapsErrorsToResults : Prop :=
  ∀ (s : State) (i : InstId) (x : Inst) (k : Nat) (d : Word) (m : Msg), s.Has i x → x.Unlocked →
    (x.thread.pc = .wakeSignalled k →
      let e := x.master.err
      let y (pc : Pc) : Inst := { x with master := { x.master with done := false, waiting := .none }
                                         thread := { x.thread with pc := pc } }
      let fails (pc : Pc) : Prop := ∃ (p : Memory) (j : Nat), s.TailLost x p
        ∧ exec (.wakeSignalled i) s = .next (({ s with mem := p } : State).put i.toNat (y pc) s.poolOwner j .none)
      let next : Pc := if k + 1 < x.thread.n then .startMsg (k + 1) else .xferExit (.count x.thread.n)
      (e &&& 0x000A0060#32 ≠ 0#32 → fails (.xferExit (.code .io)))
      ∧ (e &&& 0x000A0060#32 = 0#32 →
        (e &&& 0x00010000#32 ≠ 0#32 → ∃ (p : Memory) (a b c : Bool) (j : Nat), s.TailLost x p
          ∧ exec (.wakeSignalled i) s = .next (({ s with mem := p } : State).put i.toNat
            ((y (.xferExit (.code .io))).busReset s.cfg (s.cfg.inst i.toNat) a b c) (x.resetOwner s.cfg s.poolOwner) j
            .none))
        ∧ (e &&& 0x00010000#32 = 0#32 →
          (e &&& 0x00040008#32 ≠ 0#32 → fails (.xferExit (.code .again)))
          ∧ (e &&& 0x00040008#32 = 0#32 →
            (e &&& 0x00000002#32 ≠ 0#32 → fails (.xferExit (.code .nack)))
            ∧ (e &&& 0x00000002#32 = 0#32 → x.master.msgs = some d → s.message d x.master.cur.toNat = some m →
                (m.recvLen = false → exec (.wakeSignalled i) s = .next (s.put i.toNat (y next) s.poolOwner s.draws .none))
                ∧ (m.recvLen = true → ∃ (p : Memory) (j : Nat),
                  let at' := d.toNat + 12 * x.master.cur.toNat + 2
                  let len : BitVec 16 := x.master.len.setWidth 16
                  (x.master.len.toNat < 65536 → Holds p at' [len.setWidth 8, (len >>> 8).setWidth 8])
                  ∧ SameOutside s.mem p at' 2
                  ∧ exec (.wakeSignalled i) s = .next (({ s with mem := p } : State).put i.toNat (y next)
                      s.poolOwner j .none)))))))
    ∧ (x.thread.pc = .wakeExpired k → ∃ (p q r : Memory) (v : Byte) (a b c : Bool) (j : Nat),
        let z : Inst := ({ x with
          master := { x.master with waiting := .none, mstate := .idle }
          thread := { x.thread with pc := .xferExit (.code .timeout) } } : Inst).busReset s.cfg (s.cfg.inst i.toNat) a b c
        s.BuffersLost i z p q r
        ∧ exec (.wakeExpired i) s = .next (({ s with pool := p, dma := q, mem := r } : State).put i.toNat
            { z with regs := { z.regs with byteRx := v } } (x.resetOwner s.cfg s.poolOwner) j .none))

/-- M_DONE: with no chunk waited for it is logged and changes nothing else. A completion of the wrong kind or a count
that is not xlen is ERR_PROTO: the message is over in error and the waiter signalled (R312, R316). Otherwise the payload
a read received is stored at buf + cnt and nowhere else, cnt advances by it, the length byte of a block read extends the
length once (R275, R276), and then: more to move arms the next chunk; a last message without STOP issued sends C.STOP; a
STOP not yet seen is waited for; else the message is complete and the waiter signalled. -/
def Obligations.MasterCompletionIsAccountedFor : Prop :=
  ∀ (s : State) (i : InstId) (x : Inst) (kind : Kind) (stop : Bool) (d : Word) (m : Msg) (src : List Byte) (b : Byte),
    s.Has i x → x.lockM = none →
    let y : Inst := x.accounted m stop b
    let s' : State := { s with mem := s.copied x m src }
    let leaves (z : Inst) : Prop := exec (.mDone i kind stop) s = .next (s'.put i.toNat z s.poolOwner s.draws .none)
    (¬ x.Waited → exec (.mDone i kind stop) s = .next (s.put i.toNat
      { x with outs := { x.outs with log := x.outs.log ++ [.completionWithNoChunk] } } s.poolOwner s.draws .none))
    ∧ (x.Waited → x.master.msgs = some d → s.message d x.master.cur.toNat = some m → x.dmaInFlight = none →
      kind ≠ expectedKind m.rd x.master.addrInChunk
        ∨ x.extracted s.cfg x.master.xmode x.master.xlen.toNat ≠ some x.master.xlen.toNat →
      exec (.mDone i kind stop) s = .next (s.put i.toNat
        (({ x with master := { x.master with stopSeen := x.master.stopSeen || stop } } : Inst).ended 0x00010000#32)
        s.poolOwner s.draws .none))
    ∧ (s.CanAccount i x kind m src b →
      (y.master.cnt.toNat < y.master.len.toNat →
        exec (.mDone i kind stop) s = exec (.armNext i) (s'.put i.toNat y s.poolOwner s.draws s.ret))
      ∧ (y.master.len.toNat ≤ y.master.cnt.toNat → y.master.last = true → y.master.stopIssued = false → x.core.inflight = none →
          ∃ (code : XferState) (j : Nat), sideCode .stop code
          ∧ exec (.mDone i kind stop) s = .next (s'.put i.toNat (y.stopping code) s.poolOwner j .none))
      ∧ (y.master.len.toNat ≤ y.master.cnt.toNat → y.master.stopIssued = true → y.master.stopSeen = false →
          leaves { y with master := { y.master with mstate := .stopping } })
      ∧ (y.master.Ended → leaves (y.over .completeOk)))

/-- M_NACK: with no chunk waited for it is logged; a message with ignore-NACK takes it as an acknowledge; otherwise
ERR_NACK is recorded and the STOP that frees the bus is issued, or waited for when it was issued, or the message is
over in error and the waiter signalled when it has been seen (R317). M_ARB records ERR_ARB, M_FAULT nothing; each ends
a transfer that is waited for, and no other (log entry 37), in error and signals any waiter (R318, R320). M_STOP_DONE
signals recovery's STOP, ends a message in M_STOPPING well or, with an error recorded, in error, and logs any other
STOP as stray (R319). M_PREEMPT ends a transfer that is waited for with ERR_PREEMPT and resets the master side,
FUN_CTRL as before, and changes nothing otherwise (R321); that a receive it drops leaves DMA_LEN, the page, the window
and the read buffer as they were is the model's choice, log entry 29. -/
def Obligations.MasterEndingsSignalTheWaiter : Prop :=
  ∀ (s : State) (i : InstId) (x : Inst) (stop : Bool) (d : Word) (m : Msg), s.Has i x → x.lockM = none →
    let seen := x.master.stopSeen || stop
    let y : Inst := { x with master := { x.master with stopSeen := seen, err := x.master.err ||| 0x00000002#32 } }
    let leaves (r : Instr) (y : Inst) : Prop := exec r s = .next (s.put i.toNat y s.poolOwner s.draws .none)
    (¬ x.Waited → exec (.mNack i stop) s = .next (s.put i.toNat
      { x with outs := { x.outs with log := x.outs.log ++ [.nackWithNoChunk] } } s.poolOwner s.draws .none))
    ∧ (x.Waited → x.master.msgs = some d → s.message d x.master.cur.toNat = some m →
      (m.ignoreNak = true → exec (.mNack i stop) s = exec (.mDone i .tx stop) s)
      ∧ (m.ignoreNak = false →
        (x.master.stopIssued = true → seen = true → exec (.mNack i stop) s = .next (s.put i.toNat
          (y.over .completeErr) s.poolOwner s.draws .none))
        ∧ (x.master.stopIssued = true → seen = false → exec (.mNack i stop) s = .next (s.put i.toNat
          { y with master := { y.master with mstate := .stopping } } s.poolOwner s.draws .none))
        ∧ (x.master.stopIssued = false → x.core.inflight = none → ∃ (code : XferState) (j : Nat), sideCode .stop code
          ∧ exec (.mNack i stop) s = .next (s.put i.toNat (y.stopping code) s.poolOwner j .none))))
    ∧ leaves (.mArb i) (x.ended 0x00000008#32)
    ∧ leaves (.mFault i) (x.ended 0#32)
    ∧ (x.master.waiting = .recovStop → leaves (.mStopDone i) { x with master := { x.master with done := true } })
    ∧ (x.master.waiting = .xfer → x.master.mstate = .stopping → leaves (.mStopDone i)
        (({ x with master := { x.master with stopSeen := true } } : Inst).over
          (if x.master.err = 0#32 then .completeOk else .completeErr)))
    ∧ (x.master.waiting ≠ .recovStop → ¬ (x.master.waiting = .xfer ∧ x.master.mstate = .stopping) →
        leaves (.mStopDone i) { x with outs := { x.outs with log := x.outs.log ++ [.strayStop] } })
    ∧ (∃ (a b c : Bool) (j : Nat), exec (.mPreempt i) s = .next (s.put i.toNat (x.preempted a b c) s.poolOwner j .none))
    ∧ (x.master.waiting ≠ .xfer → leaves (.mPreempt i) x)

/-! ## The interrupt-status decoder -/

/-- SMBUS_STAGE, on any word: an enabled alert is disabled in INTR_CTRL and forwarded, the SMBus bits of the word are
cleared in one write, the residue is what is left; without an SMBus bit nothing is written (R383). SLAVE_STOP_STAGE in
the slave role runs S_STOP, whose failing data resets the bus first, clears the bits it consumed in one write and
leaves the rest; in the master role the word passes unchanged (R385, R380). Stage 0 answers whether the instance's bit
of GROUP_STS is 1 and writes nothing (R381); a word of 0 is handled with no effect (R382). FAULT_STAGE raises
ERR_ABNORMAL and ERR_SCL_TO for the bits of the word, clears the whole word in one write, runs BUS_RESET and ends any
wait in error, a message with it when its transfer is waited for (R384, R320; log entry 37). SWEEP logs the word,
clears every set bit by a write of its own in ascending order, raises ERR_UNCLASS and does the same (R399); no handler
runs. That the SLAVE_STOP row passes a word on in the master role, that the row of stage 0 answers the line and that
the row of an empty word has no effect is log entry 20's reading; that a command these BUS_RESETs drop leaves DMA_LEN
and what a receive may have filled as they were is log entry 29's choice. -/
def Obligations.StagesAndSweepTakeTheirBits : Prop :=
  ∀ (s : State) (i : InstId) (x : Inst) (w : Word) (cur v : Nat) (d : List Byte), s.Has i x → x.Unlocked →
    let resets (r : Instr) (y : Inst) : Prop := ∃ (a b c : Bool) (j : Nat), exec r s = .next (s.put i.toNat
      ((y.busReset s.cfg (s.cfg.inst i.toNat) a b c).ended 0#32) (x.resetOwner s.cfg s.poolOwner) j (.word 1#32))
    (∀ r ∈ [Instr.stsSmbusAlert i w, .stsSmbusArp i w, .stsSmbusAlertResp i w],
      exec r s = .next (s.put i.toNat (x.smbused w) s.poolOwner s.draws (.word (w &&& 0xFFFFF1FF#32))))
    ∧ (x.master.slaveOp = false → exec (.stsSlaveStop i w) s = .next { s with ret := .word w })
    ∧ (x.master.slaveOp = true → x.slave.ring.length = s.cfg.ringCap → (x.slave.sstate = .rx → x.slave.sCur = some cur) →
      let data : Bool := w.getLsbD 2 && !w.getLsbD 7 && x.slave.sstate == .rx
      let leaves (y : Inst) (used : Word) : Prop := exec (.stsSlaveStop i w) s = .next (s.put i.toNat
        ((y.finished s.cfg.ringCap).cleared used) (x.release .slave s.poolOwner) s.draws (.word (w &&& ~~~used)))
      (data = false → leaves x (0x0010#32 ||| if x.slave.sstate = .tx then w &&& 0x0003#32 else 0#32))
      ∧ (data = true → x.dmaInFlight = none → x.extracted s.cfg x.slave.sXmode x.slave.sXlen.toNat = some v → v ≤ x.slave.sXlen.toNat →
          s.received i x .slave x.slave.sXmode v = some d → slotLen x.slave cur + v ≤ s.cfg.slotCap →
          leaves (x.appended cur d) 0x0014#32)
      ∧ (data = true → s.cfg.slavePresent = true → x.dmaInFlight = none → ∀ e : Word, s.SlaveFails i x cur d e →
          ∃ (a b c : Bool) (j : Nat), exec (.stsSlaveStop i w) s = .next (s.put i.toNat
            (((x.slaveFailed e s.cfg (s.cfg.inst i.toNat) a b c).finished s.cfg.ringCap).cleared 0x0014#32)
            (x.release .slave s.poolOwner) j (.word (w &&& ~~~0x0014#32)))))
    ∧ exec (.stsNotMine i) s = .next { s with
        ret := .word (if x.regs.intrSts &&& x.regs.intrCtrl = 0#32 then 0#32 else 1#32) }
    ∧ exec (.stsEmpty i) s = .next { s with ret := .word 1#32 }
    ∧ (∀ r ∈ [Instr.stsAbnormal i w, .stsSclTimeout i w],
      resets r ((x.raised ((if w.getLsbD 5 then 0x20#32 else 0#32) ||| if w.getLsbD 6 then 0x40#32 else 0#32)).cleared w))
    ∧ resets (.stsSweep i w) (({ x with outs := { x.outs with
        log := x.outs.log ++ [.unexpectedCombination w]
        regTrace := x.outs.regTrace ++ ((List.range 15).filter fun b => w.getLsbD b).map fun b =>
          (.intrSts, 1#32 <<< b) } } : Inst).raised 0x00020000#32)

/-- The exact-combination table: on each of its twelve words the row's bits are cleared by one write and the handler
that its role column names is run, S_TX_ACK, S_FINAL and S_DATA in the slave role, M_DONE, M_NACK and M_STOP_DONE in the
master role, M_ARB for ARB_LOSS, S_MATCH for a match, followed by S_FINAL when NORMAL_STOP is with it in the master role
and preceded by M_ARB when ARB_LOSS is, and recovery's waiter woken or the word logged for BUS_RECOVER_DONE (R386 to
R398). A word whose row does not admit the role, or has SLAVE_MATCH without the slave engine, is swept (R386, R399), as
log entry 20 reads it for the rows as operations. A row answers 1; the second of two handlers reads no answer of the
first. -/
def Obligations.ExactRowsClearThenRunTheirHandler : Prop :=
  ∀ (s : State) (i : InstId) (x : Inst), s.Has i x → x.Unlocked →
    let at' (w : Word) : State := s.put i.toNat (x.cleared w) s.poolOwner s.draws s.ret
    let runs (r : Instr) (w : Word) (handler : Instr) : Prop := exec r s = giving (exec handler (at' w)) (.word 1#32)
    let both (r : Instr) (w : Word) (first second : Instr) : Prop := ∃ v : Ret, exec r s = match exec first (at' w) with
      | .next t => giving (exec second { t with ret := v }) (.word 1#32)
      | o => o
    let swept (r : Instr) (w : Word) : Prop := exec r s = exec (.stsSweep i w) s
    (x.master.slaveOp = true → s.cfg.slavePresent = true →
      runs (.stsTxAck i) 0x0001#32 (.sTxAck i) ∧ runs (.stsTxNak i) 0x0002#32 (.sFinal i)
      ∧ runs (.stsRxDone i) 0x0004#32 (.sData i false)
      ∧ swept (.stsTxAckStop i) 0x0011#32 ∧ swept (.stsTxNakStop i) 0x0012#32 ∧ swept (.stsRxDoneStop i) 0x0014#32
      ∧ swept (.stsStop i) 0x0010#32 ∧ swept (.stsMatchStop i) 0x0094#32)
    ∧ (x.master.slaveOp = false →
      runs (.stsTxAck i) 0x0001#32 (.mDone i .tx false) ∧ runs (.stsTxAckStop i) 0x0011#32 (.mDone i .tx true)
      ∧ runs (.stsTxNak i) 0x0002#32 (.mNack i false) ∧ runs (.stsTxNakStop i) 0x0012#32 (.mNack i true)
      ∧ runs (.stsRxDone i) 0x0004#32 (.mDone i .rx false) ∧ runs (.stsRxDoneStop i) 0x0014#32 (.mDone i .rx true)
      ∧ runs (.stsStop i) 0x0010#32 (.mStopDone i)
      ∧ (s.cfg.slavePresent = true → both (.stsMatchStop i) 0x0094#32 (.sMatch i) (.sFinal i)))
    ∧ (s.cfg.slavePresent = true → runs (.stsMatch i) 0x0084#32 (.sMatch i)
        ∧ both (.stsArbLossMatch i) 0x008C#32 (.mArb i) (.sMatch i))
    ∧ (s.cfg.slavePresent = false → swept (.stsMatch i) 0x0084#32 ∧ swept (.stsMatchStop i) 0x0094#32
        ∧ swept (.stsArbLossMatch i) 0x008C#32)
    ∧ runs (.stsArbLoss i) 0x0008#32 (.mArb i)
    ∧ exec (.stsRecoverDone i) s = .next (s.put i.toNat (if x.master.waiting = .recovCmd then
          { x.cleared 0x2000#32 with master := { x.master with done := true } }
        else { x.cleared 0x2000#32 with
          outs := { (x.cleared 0x2000#32).outs with log := x.outs.log ++ [.recoveryWithNoInitiator] } })
        s.poolOwner s.draws (.word 1#32))

/-- What the rows of the master role leave of a message: TX_ACK and RX_DONE, alone or with NORMAL_STOP, account for
the chunk, store what it brought and complete a message that is over (R387, R388, R391, R392, R316); TX_NAK records
ERR_NACK and waits for the STOP already issued, TX_NAK with NORMAL_STOP ends the message in error (R389, R390, R317);
NORMAL_STOP ends a message that waits for it (R395, R319). In either role ARB_LOSS records ERR_ARB and ends a transfer
that is waited for (log entry 37) in error (R396, R318); BUS_RECOVER_DONE wakes the recovery that waits for it and is
logged otherwise (R398). -/
def Obligations.ExactRowsCompleteTheMessage : Prop :=
  ∀ (s : State) (i : InstId) (x : Inst) (d : Word) (m : Msg) (src : List Byte) (b : Byte), s.Has i x → x.Unlocked →
    let leaves (r : Instr) (t : State) (y : Inst) : Prop :=
      exec r s = .next (t.put i.toNat y s.poolOwner s.draws (.word 1#32))
    let nack (w : Word) : Inst := (x.cleared w).raised 0x00000002#32
    (x.master.slaveOp = false →
      (∀ q ∈ [(Instr.stsTxAck i, 0x0001#32, Kind.tx, false), (.stsTxAckStop i, 0x0011#32, .tx, true),
          (.stsRxDone i, 0x0004#32, .rx, false), (.stsRxDoneStop i, 0x0014#32, .rx, true)],
        s.CanAccount i (x.cleared q.2.1) q.2.2.1 m src b → ((x.cleared q.2.1).accounted m q.2.2.2 b).master.Ended →
        leaves q.1 { s with mem := s.copied x m src } (((x.cleared q.2.1).accounted m q.2.2.2 b).over .completeOk))
      ∧ (x.Waited → x.master.msgs = some d → s.message d x.master.cur.toNat = some m → m.ignoreNak = false →
          x.master.stopIssued = true →
          (x.master.stopSeen = false → leaves (.stsTxNak i) s
            { nack 0x0002#32 with master := { (nack 0x0002#32).master with mstate := .stopping } })
          ∧ leaves (.stsTxNakStop i) s
            (({ nack 0x0012#32 with master := { (nack 0x0012#32).master with stopSeen := true } } : Inst).over
              .completeErr))
      ∧ (x.master.waiting = .xfer → x.master.mstate = .stopping → leaves (.stsStop i) s
          (({ x.cleared 0x0010#32 with master := { x.master with stopSeen := true } } : Inst).over
            (if x.master.err = 0#32 then .completeOk else .completeErr))))
    ∧ leaves (.stsArbLoss i) s ((x.cleared 0x0008#32).ended 0x00000008#32)
    ∧ (x.master.waiting = .recovCmd → leaves (.stsRecoverDone i) s
        { x.cleared 0x2000#32 with master := { x.master with done := true } })
    ∧ (x.master.waiting ≠ .recovCmd → leaves (.stsRecoverDone i) s
        { x.cleared 0x2000#32 with
          outs := { (x.cleared 0x2000#32).outs with log := x.outs.log ++ [.recoveryWithNoInitiator] } })

/-- The rows with SLAVE_MATCH, no slave transaction being under way: RX_DONE | SLAVE_MATCH opens the transaction of
the matched address after pre-empting a transfer that is waited for (R393, R341); with NORMAL_STOP in the master role
the transaction is opened and finished at once (R394, R348); with ARB_LOSS the arbitration loss is recorded first
(R397). They complete so whenever nothing is in flight after the pre-emption, which drops a master command (R321) and
leaves DMA_LEN and what a receive may have filled as they were (log entry 29). -/
def Obligations.MatchRowsOpenATransaction : Prop :=
  ∀ (s : State) (i : InstId) (x : Inst) (w : Nat) (d : List Byte), s.Has i x → x.Unlocked → s.cfg.slavePresent = true →
    x.slave.ring.length = s.cfg.ringCap → x.slave.sstate = .idle →
    let m := selected (s.cfg.inst i.toNat) .slave s.poolOwner
    let p := if m = .buf then some (i.toNat, Side.slave) else s.poolOwner
    let a := x.regs.byteRx
    ∀ q ∈ [(Instr.stsMatch i, x.cleared 0x0084#32, false), (.stsMatchStop i, x.cleared 0x0094#32, true),
        (.stsArbLossMatch i, (x.cleared 0x008C#32).ended 0x00000008#32, false)],
      (q.2.2 = true → x.master.slaveOp = false) →
      ∃ (a1 a2 a3 : Bool),
        let z : Inst := (q.2.1.preempted a1 a2 a3).matched m
        z.core.inflight = none → s.CanServe i z a w d → ∃ (code : XferState) (j : Nat), sideCode (serveCmd a) code ∧
          let y := z.serving s.cfg a w d code
          exec q.1 s = .next ((s.served z a w d).put i.toNat (if q.2.2 then y.finished s.cfg.ringCap else y)
            (if q.2.2 then y.release .slave p else p) j (.word 1#32))

/-- IRQ (R380): 0 with nothing read or written when the instance's line is off; else INTR_STS is read once, the SMBus
stage takes its bits, and 1 is the answer: with nothing left, at once; with a fault bit left, after FAULT_STAGE on what
is left; with NORMAL_STOP left in the slave role, after SLAVE_STOP_STAGE and then the table on its residue, if any;
otherwise after the table on what is left. The table on a word is the row whose pattern equals it, and the sweep on
every other word (R386, R399, R402). -/
def Obligations.InterruptRunsTheStagesInOrder : Prop :=
  ∀ (s : State) (i : InstId) (x : Inst), s.Has i x → x.Unlocked →
    let t : State := s.put i.toNat (x.smbused x.regs.intrSts) s.poolOwner s.draws s.ret
    let r : Word := x.regs.intrSts &&& 0xFFFFF1FF#32
    let table (q : Word) (u : State) : Host.Outcome State Fault Refusal :=
      if q = 0x0001#32 then exec (.stsTxAck i) u else if q = 0x0011#32 then exec (.stsTxAckStop i) u
      else if q = 0x0002#32 then exec (.stsTxNak i) u else if q = 0x0012#32 then exec (.stsTxNakStop i) u
      else if q = 0x0004#32 then exec (.stsRxDone i) u else if q = 0x0014#32 then exec (.stsRxDoneStop i) u
      else if q = 0x0084#32 then exec (.stsMatch i) u else if q = 0x0094#32 then exec (.stsMatchStop i) u
      else if q = 0x0010#32 then exec (.stsStop i) u else if q = 0x0008#32 then exec (.stsArbLoss i) u
      else if q = 0x008C#32 then exec (.stsArbLossMatch i) u else if q = 0x2000#32 then exec (.stsRecoverDone i) u
      else exec (.stsSweep i q) u
    (x.regs.intrSts &&& x.regs.intrCtrl = 0#32 → exec (.irq i) s = .next { s with ret := .word 0#32 })
    ∧ (x.regs.intrSts &&& x.regs.intrCtrl ≠ 0#32 →
      (r = 0#32 → exec (.irq i) s = .next { t with ret := .word 1#32 })
      ∧ (r &&& 0x0060#32 ≠ 0#32 → exec (.irq i) s = exec (.stsAbnormal i r) t)
      ∧ (r ≠ 0#32 → r &&& 0x0060#32 = 0#32 → (r.getLsbD 4 && x.master.slaveOp) = false →
          exec (.irq i) s = table r t)
      ∧ (r &&& 0x0060#32 = 0#32 → r.getLsbD 4 = true → x.master.slaveOp = true →
          match exec (.stsSlaveStop i r) t with
          | .next u => ∃ (q : Word) (v : Ret), u.ret = .word q
            ∧ exec (.irq i) s = if q = 0#32 then .next { u with ret := .word 1#32 } else table q { u with ret := v }
          | o => exec (.irq i) s = o))

/-- Clearing (R400): when an invocation of the decoder that was the instance's returns, every status bit it read has
been cleared and no other bit has been set. -/
def Obligations.EveryStatusBitReadIsCleared : Prop :=
  ∀ (s t : State) (i : InstId) (x y : Inst), s.Has i x → x.regs.intrSts &&& 0xFFFF8000#32 = 0#32 →
    x.regs.intrSts &&& x.regs.intrCtrl ≠ 0#32 → exec (.irq i) s = .next t → t.Has i y →
    y.regs.intrSts = 0#32 ∧ t.ret = .word 1#32

/-! ## Bus recovery -/

/-- RECOVER (R421), from the operator (RECOVER_REQ, R432) or called by WAIT_IDLE: E_BUSY with nothing touched while a
wait is outstanding or a slave transaction runs, else CMD is read once and the path it selects comes next; while a
blocking call runs RECOVER_REQ returns E_BUSY without effect (R502), at every line of any call, which is log entry
22's reading. Each path's entry: PATH_IDLE sets its status bit and returns R_NOTHING (R422); PATH_MASTER_STOP counts,
sets its bit, arms the wait and sends C.STOP (R423); PATH_SLAVE_DEAD counts, sets its bit, saves FUN_CTRL and starts
the first of its rounds (R424); PATH_UNCLASSIFIED logs, sets its bits and returns E_RECOV (R425). The counters
saturate (R426). Where the thread stands is the model's, log entry 6; that each step needs lock M free, log entry 8's.
-/
def Obligations.RecoverClassifiesThenEntersAPath : Prop :=
  ∀ (s : State) (i : InstId) (x : Inst) (c : Word), s.Has i x → x.lockM = none →
    let put (y : Inst) (r : Ret) : Host.Outcome State Fault Refusal := .next (s.put i.toNat y s.poolOwner s.draws r)
    let busy : Prop := x.master.waiting ≠ .none ∨ x.master.slaveOp = true
    let classified (call : Call) : Inst := { x with thread := { x.thread with call := call, pc := .classify x.cmdView } }
    let marked (w : Word) : Recov := { x.recov with recovStatus := x.recov.recovStatus ||| w }
    let counted (k : Word) : Word := if k = 0xFFFFFFFF#32 then k else k + 1#32
    (∀ r ∈ [Instr.recover i, .recoverReq i], x.thread.pc = .idle → x.regs.funCtrl.getLsbD 0 = true →
      (busy → exec r s = put { x with thread := Thread.idle } (.word (s.cfg.code .busy)))
      ∧ (¬ busy → exec r s = put (classified .recover) .none))
    ∧ (x.thread.pc ≠ .idle → exec (.recoverReq i) s = .next { s with ret := .word (s.cfg.code .busy) })
    ∧ (x.thread.pc = .recoverEntry →
      (busy → exec (.recover i) s = .next (s.recovered i x .busy))
      ∧ (¬ busy → exec (.recover i) s = put (classified x.thread.call) .none))
    ∧ (x.thread.pc = .idle ∨ x.thread.pc = .classify c →
      exec (.lIdle i c) s = .next (s.recovered i { x with thread := x.entering, recov := marked 0x001#32 } .nothing)
      ∧ (x.core.inflight = none → ∃ (code : XferState) (j : Nat), sideCode .stop code
        ∧ let y := { (x.awaiting .recovStop).sends .stop 0#4 0 [] code with
            recov := { marked 0x002#32 with masterResetCnt := counted x.recov.masterResetCnt, rstate := .stopWait }
            thread := { x.entering with pc := .stopWait } }
          exec (.lMasterHold i c) s = .next (s.put i.toNat y s.poolOwner j .none))
      ∧ exec (.lSlaveHold i c) s = put
          { x with
            recov := { marked 0x004#32 with
              slaveRecoverCnt := counted x.recov.slaveRecoverCnt, savedFun := x.regs.funCtrl, rstate := .slaveLoop 1 }
            thread := { x.entering with pc := .deadInit 1 0 } } .none)
    ∧ (x.thread.pc = .idle → exec (.lOther i) s = .next (s.recovered i
        { x with recov := marked 0x808#32, outs := { x.outs with log := x.outs.log ++ [.unclassifiedLines] } } .recov))

/-- The steps of RECOVER's paths after their entry. The STOP's wait over: E_TIMEOUT when it expired, E_IO when an
error was recorded, each with its status bit, else R_OK (R423). Each round of the slave-dead loop makes REG_INIT's six
writes, arms its wait and sends C.RECOVER; the wait over, SDA high returns R_OK, SDA low starts the next of ten
rounds, and after the tenth FUN_CTRL is written with both enables off and then with the value saved, and E_RECOV is
returned with its status bit (R424). A command the FUN_CTRL writes drop leaves DMA_LEN and what a receive may have
filled as they were (log entry 29). That each step needs lock M free is log entry 8's choice. -/
def Obligations.RecoveryPathsRunTheirSteps : Prop :=
  ∀ (s : State) (i : InstId) (x : Inst), s.Has i x → x.lockM = none →
    let put (y : Inst) : Host.Outcome State Fault Refusal := .next (s.put i.toNat y s.poolOwner s.draws .none)
    let woken : Inst := { x with master := { x.master with done := false, waiting := .none } }
    let rest (w : Word) : Recov := { x.recov with recovStatus := x.recov.recovStatus ||| w, rstate := .idle }
    (∀ e : Bool, x.thread.pc = .stopWake e → exec (.recover i) s = .next (
      if e then s.recovered i { woken with recov := rest 0x100#32 } .timeout
      else if x.master.err = 0#32 then s.recovered i { woken with recov := rest 0#32 } .ok
      else s.recovered i { woken with recov := rest 0x200#32 } .io))
    ∧ (∀ t a : Nat, x.thread.pc = .deadInit t a → a < 6 → ∃ (b c d : Bool) (j : Nat),
        exec (.recover i) s = .next (s.put i.toNat
          { x.initStep s.cfg (s.cfg.inst i.toNat) a b c d with
            thread := { x.thread with pc := .deadInit t (a + 1) } } s.poolOwner j .none))
    ∧ (∀ t a : Nat, x.thread.pc = .deadInit t a → 6 ≤ a → x.core.inflight = none →
        ∃ (code : XferState) (j : Nat), sideCode .recover code
        ∧ let y := { (x.awaiting .recovCmd).sends .recover 0#4 0 [] code with
            thread := { x.thread with pc := .deadWait t } }
          exec (.recover i) s = .next (s.put i.toNat y s.poolOwner j .none))
    ∧ (∀ (t : Nat) (e : Bool), x.thread.pc = .deadWake t e →
        (x.core.sda = true → exec (.recover i) s = .next (s.recovered i { woken with recov := rest 0#32 } .ok))
        ∧ (x.core.sda = false → t < 10 → exec (.recover i) s = put
            { woken with recov := { x.recov with rstate := .slaveLoop (t + 1) }
                         thread := { x.thread with pc := .deadInit (t + 1) 0 } })
        ∧ (x.core.sda = false → 10 ≤ t → exec (.recover i) s = put
            { woken with thread := { x.thread with pc := .deadRestore 0 } }))
    ∧ (∀ a : Nat, x.thread.pc = .deadRestore a → ∃ (b c d : Bool) (j : Nat),
        let v : Word := if a = 0 then x.recov.savedFun &&& 0xFFFFFFFC#32 else x.recov.savedFun
        let y : Inst := { x with regs := { x.regs with funCtrl := v }, core := x.core.afterFun x.regs.funCtrl v b c d
                                 outs := x.noted .funCtrl v }
        exec (.recover i) s = .next (if a = 0 then
            s.put i.toNat { y with thread := { x.thread with pc := .deadRestore 1 } } s.poolOwner j .none
          else { s.recovered i { y with recov := rest 0x400#32 } .recov with draws := j }))

/-- READ_MRST_CNT and READ_SREC_CNT return the two counters and change nothing (R433); READ_RECOV_STATUS returns the
status and clears it, and nothing else (R434). -/
def Obligations.CountersReadAndStatusReadsToClear : Prop :=
  ∀ (s : State) (i : InstId) (x : Inst), s.Has i x → x.regs.funCtrl.getLsbD 0 = true →
    exec (.readMrstCnt i) s = .next { s with ret := .word x.recov.masterResetCnt }
    ∧ exec (.readSrecCnt i) s = .next { s with ret := .word x.recov.slaveRecoverCnt }
    ∧ exec (.readRecovStatus i) s = .next (s.put i.toNat
        { x with recov := { x.recov with recovStatus := 0#32 } } s.poolOwner s.draws (.word x.recov.recovStatus))

/-- CTRL_RESET writes FUN_CTRL with both enables off and then as it was, so each enabled side of the core is reset and
FUN_CTRL keeps its value (R428). A command that CTRL_RESET or BUS_RESET drops leaves DMA_LEN, the page and the window
as they were, and a slave's BYTE_DATA and ACT_CNT, the model's choice (log entry 29). BUS_RESET from the operator
returns E_BUSY without effect while a wait is outstanding or a blocking call runs (R429, R502; log entry 22);
otherwise it captures FUN_CTRL and goes on, one register access a step (R112), by the rows of CTRL_RESET, TIMING_INIT
and, with the slave engine, S_ABORT, which log entry 15 lets drive it: the captured value with both enables off, then
the captured value, then TIMING_INIT's four writes. Run without anything between, they do what CTRL_RESET, TIMING_INIT
and S_ABORT do and return R_OK (R429); a second run leaves FUN_CTRL, AC_TIMING1 and AC_TIMING2 as the first did, and
FUN_CTRL is as it was before (R430). -/
def Obligations.ResetsRestoreFunctionControl : Prop :=
  ∀ (s : State) (i : InstId) (x : Inst), s.Has i x →
    let ops : List Instr := [.busReset i, .ctrlReset i, .ctrlReset i, .timingInit i, .timingInit i, .timingInit i,
      .timingInit i] ++ if s.cfg.slavePresent then [.sAbort i] else []
    let at' (y : Inst) (pc : Pc) (j : Nat) : Host.Outcome State Fault Refusal :=
      .next (s.put i.toNat { y with thread := { x.thread with pc := pc } } s.poolOwner j .none)
    ((∀ f a, x.thread.pc ≠ .resetCtrl f a) → ∃ (a b c : Bool) (j : Nat),
      exec (.ctrlReset i) s = .next (s.put i.toNat (x.ctrlReset a b c) s.poolOwner j .none))
    ∧ (x.regs.funCtrl.getLsbD 0 = true → x.lockM = none →
      (x.master.waiting = .none → x.thread.pc = .idle → exec (.busReset i) s = .next (s.put i.toNat
        { x with thread := { x.thread with pc := .resetCtrl x.regs.funCtrl 0, call := .reset } } s.poolOwner s.draws .none))
      ∧ (x.master.waiting ≠ .none ∨ x.thread.pc ≠ .idle →
        exec (.busReset i) s = .next { s with ret := .word (s.cfg.code .busy) }))
    ∧ (∀ (f : Word) (a : Nat), x.thread.pc = .resetCtrl f a → ∃ (b c d : Bool) (j : Nat),
        let v : Word := if a = 0 then f &&& 0xFFFFFFFC#32 else f
        exec (.ctrlReset i) s = at' { x with regs := { x.regs with funCtrl := v }
                                             core := x.core.afterFun x.regs.funCtrl v b c d, outs := x.noted .funCtrl v }
          (if a = 0 then .resetCtrl f 1 else .resetTiming 0) j)
    ∧ (∀ a : Nat, x.thread.pc = .resetTiming a → ∃ (b c d : Bool) (j : Nat),
        let y : Inst := x.initStep s.cfg (s.cfg.inst i.toNat) (a + 2) b c d
        (a < 3 → exec (.timingInit i) s = at' y (.resetTiming (a + 1)) j)
        ∧ (3 ≤ a → exec (.timingInit i) s = if s.cfg.slavePresent then at' y .resetAbort j
            else .next (s.put i.toNat { y with thread := Thread.idle } s.poolOwner j (.word (s.cfg.code .ok)))))
    ∧ (x.thread.pc = .resetAbort → x.Unlocked → s.cfg.slavePresent = true → exec (.sAbort i) s = .next (s.put i.toNat
        { x.aborted with thread := Thread.idle } (x.release .slave s.poolOwner) s.draws (.word (s.cfg.code .ok))))
    ∧ (x.regs.funCtrl.getLsbD 0 = true → x.Unlocked → x.master.waiting = .none → x.thread.pc = .idle →
      (∃ (a b c : Bool) (j : Nat), runs ops s = some (s.put i.toNat
        { x.busReset s.cfg (s.cfg.inst i.toNat) a b c with thread := Thread.idle }
        (x.resetOwner s.cfg s.poolOwner) j (.word (s.cfg.code .ok))))
      ∧ ∀ (t u : State) (y z : Inst), runs ops s = some t → t.Has i y → runs ops t = some u → u.Has i z →
        z.regs.funCtrl = y.regs.funCtrl ∧ z.regs.acTiming1 = y.regs.acTiming1 ∧ z.regs.acTiming2 = y.regs.acTiming2
        ∧ y.regs.funCtrl = x.regs.funCtrl)

/-! ## The core and the bus -/

/-- The outcomes of a transmit whose data phase runs, of the master or of C.S_TX: ACKED, every byte acknowledged, and
NACKED(j), j bytes sent and the last refused (R216, R223; the trace of S_NACKED(j) is log entry 30's). The count is
reported by the path, or an arbitrary one in a miscount (R218); START first when the command carries it; TX_ACK or
TX_NAK is latched, with NORMAL_STOP when a STOP the command carries comes in the same step; the bus is held unless it
does. After a refused C.S_TX the remote master's STOP may come in the same step, while the core is a slave (R222). A
STOP no rule allows, with an acknowledge or with a refusal of a master's bytes, is not enabled, nor is a refusal of a
byte the command does not have. -/
def Obligations.TransmitOutcomesReportAndLatch : Prop :=
  ∀ (s : State) (i : InstId) (x : Inst) (f : InFlight) (stop : Bool) (mis : Option Word) (j : Word), s.Has i x →
    x.core.inflight = some f → f.phase = .data → cmdIsTx f.cmd = true →
    let ic := s.cfg.inst i.toNat
    let start : List TraceItem := if cmdHasStart f.cmd then [.start] else []
    let with' (w : Word) : Word := if stop && cmdHasStop f.cmd then w ||| 0x0010#32 else w
    let leaves (r : Instr) (y : Inst) : Prop := exec r s = .next (s.put i.toNat y s.poolOwner s.draws .none)
    (stop = false ∨ cmdHasStop f.cmd = true → leaves (.kAck i stop mis)
      { x with regs := (x.reported s.cfg ic f f.n mis).latched (with' 0x0001#32)
               core := x.core.ends f stop (start ++ f.data.map fun b => .byte b true) })
    ∧ (1 ≤ j.toNat → j.toNat ≤ f.n → f.data.length = f.n →
      let t := start ++ ((f.data.take (j.toNat - 1)).map fun b => TraceItem.byte b true)
        ++ (((f.data.drop (j.toNat - 1)).take 1).map fun b => TraceItem.byte b false)
      let y : Inst := { x with regs := (x.reported s.cfg ic f j.toNat mis).latched (with' 0x0002#32)
                               core := x.core.ends f stop t }
      (stop = false ∨ cmdHasStop f.cmd = true → leaves (.kNack i j stop mis) y)
      ∧ (f.cmd = .sTx → stop = true → x.core.xfer.isSlave = true → leaves (.kNack i j stop mis) y.remoteStopped)
      ∧ (f.cmd = .sTx → stop = true → x.core.xfer.isSlave = false → exec (.kNack i j stop mis) s = .refused .notEnabled))
    ∧ (stop = true → cmdHasStop f.cmd = false → exec (.kAck i stop mis) s = .refused .notEnabled)
    ∧ (stop = true → cmdHasStop f.cmd = false → f.cmd ≠ .sTx → exec (.kNack i j stop mis) s = .refused .notEnabled)
    ∧ (j.toNat = 0 ∨ f.n < j.toNat → exec (.kNack i j stop mis) s = .refused .notEnabled)

/-- Received data. A master receive in its data phase takes exactly its n bytes to the sink of its path, for DMA from
the DMA_BASE it was issued with (R500), reports n, puts them on the trace, the last refused by C.RX_LAST and
C.RX_LAST_STOP, and latches RX_DONE, with NORMAL_STOP when its STOP comes in the same step (R217, R215, R218). An open
slave window of n bytes takes m ≤ n bytes, reports m, is gone, and latches RX_DONE when it holds a byte; the remote
master's STOP may come with it, while the core is a slave (R221, R222). A byte for no window goes to BYTE_DATA.RX and
latches RX_DONE exactly when the core is a written slave, no receive enable is set and RX_DONE is clear, whatever is
in flight; the remote master's STOP that comes with it closes a window that is open all the same, a C.NOP having
cleared its enables, with a count of 0 (R221, R222); the operand that tells it from a window's data is log entry 27's.
-/
def Obligations.ReceivedBytesReachTheirSink : Prop :=
  ∀ (s : State) (i : InstId) (x : Inst) (f : InFlight) (bs : List Byte) (b : Byte) (stop : Bool) (mis : Option Word),
    s.Has i x →
    let ic := s.cfg.inst i.toNat
    let leaves (d : RxData) (t : State) (y : Inst) : Prop :=
      exec (.kRx i d stop mis) s = .next (t.put i.toNat y s.poolOwner s.draws .none)
    let stopped (y : Inst) : Inst := if stop then y.remoteStopped else y
    let direct : Prop := x.core.xfer.isSlave = true ∧ x.core.matchRd = false ∧ x.regs.en &&& 0xA#4 = 0#4
      ∧ x.regs.intrSts.getLsbD 2 = false
    (x.core.inflight = some f → f.phase = .data → cmdIsRx f.cmd = true →
      (f.path = .dma → f.base.toNat + bs.length ≤ 4294967296) →
      let y : Inst := x.sunk f.path bs
      (f.cmd ≠ .sRx → bs.length = f.n → 1 ≤ f.n → (stop = true → cmdHasStop f.cmd = true) →
        leaves (.window bs) (s.sunk f bs)
          { y with regs := (y.reported s.cfg ic f f.n mis).latched (if stop then 0x0014#32 else 0x0004#32)
                   core := x.core.ends f stop
                     ((bs.dropLast.map fun b => .byte b true)
                       ++ (bs.drop (f.n - 1)).map fun b => .byte b !(cmdNacksLast f.cmd)) })
      ∧ (f.cmd = .sRx → bs.length ≤ f.n → stop = true → x.core.xfer.isSlave = false →
        exec (.kRx i (.window bs) stop mis) s = .refused .notEnabled)
      ∧ (f.cmd = .sRx → bs.length ≤ f.n → (stop = true → x.core.xfer.isSlave = true) →
        let r := y.reported s.cfg ic f bs.length mis
        leaves (.window bs) (s.sunk f bs) (stopped
          { y with regs := if bs = [] then r else r.latched 0x0004#32, core := { x.core with inflight := none } })))
    ∧ (let z : Inst := { x with regs := { x.regs with byteRx := b }.latched 0x0004#32 }
      let windowOpen : Prop := ∃ g : InFlight, x.core.inflight = some g ∧ g.cmd = .sRx
      (direct → stop = false ∨ ¬ windowOpen → leaves (.direct b) s (stopped z))
      ∧ (direct → stop = true → x.core.inflight = some f → f.cmd = .sRx → leaves (.direct b) s
          ({ z with regs := z.reported s.cfg ic f 0 none
                    core := { x.core with inflight := none } } : Inst).remoteStopped))
    ∧ (¬ direct → exec (.kRx i (.direct b) stop mis) s = .refused .notEnabled)
    ∧ (x.core.inflight = none → exec (.kRx i (.window bs) stop mis) s = .refused .notEnabled)

/-- A STOP on the bus latches NORMAL_STOP, frees the bus and makes XFER_STATE idle: of C.STOP, after which the lines
are as they may be when this controller did not hold the bus, and as they were when it did, which is what log entry 32
reads in R210, the pending one of a command with STOP (R216), each put on the trace, the command gone; and a remote
master's, with the core a slave, which an open window completes with no byte (R222, R221) and which leaves any other
command in flight as it is (log entry 19). C.RECOVER ends with BUS_RECOVER_DONE latched, SCL high and SDA as the bus
makes it (R213). A remote master's address (R220): with the slave side enabled and idle and the address the one in
DEV_ADDR, the address byte goes to BYTE_DATA.RX, SLAVE_MATCH and RX_DONE are latched, the bus is busy, XFER_STATE a
slave code. A master command in flight is dropped, its count, its part of the trace and what of a receive reached the
sink not stated, as R219 has it for ARB_LOSS and log entry 11 without it; ARB_LOSS is latched only while this
controller is mastering, which is log entry 17's reading. Otherwise the match is not enabled. Lines change at any step
and nothing with them (R224); an SMBus event latches its bit and nothing else (R228). -/
def Obligations.StopsMatchesAndEventsLatchTheirBits : Prop :=
  ∀ (s : State) (i : InstId) (x : Inst) (f : InFlight) (a : Byte) (arb sda scl busy : Bool) (m : SmbusBit), s.Has i x →
    let leaves (r : Instr) (y : Inst) : Prop := exec r s = .next (s.put i.toNat y s.poolOwner s.draws .none)
    let mine : Prop := x.regs.funCtrl.getLsbD 1 = true ∧ a.extractLsb' 1 7 = x.regs.devAddr.extractLsb' 0 7
      ∧ x.core.xfer.isSlave = false
    let driving : Prop := ∃ f : InFlight, x.core.inflight = some f ∧ cmdIsMaster f.cmd = true
    let mastering : Prop := driving ∨ x.core.xfer.isMaster = true
    let matched (y : Inst) (code : XferState) : Inst :=
      { y with regs := { y.regs with byteRx := a }.latched (if arb then 0x008C#32 else 0x0084#32)
               core := { y.core with xfer := code, busy := true, matchRd := a.getLsbD 0 } }
    let stopped : Inst :=
      { x with regs := x.regs.latched 0x0010#32
               core := { x.core with
                 inflight := none, busy := false, xfer := .idle, trace := x.core.trace ++ [.stop] } }
    (x.core.inflight = some f → f.cmd = .stop ∨ f.phase = .stopPending →
      (f.cmd = .stop → f.held = false → ∃ (sda scl : Bool) (j : Nat), exec (.kStop i) s = .next (s.put i.toNat
        { stopped with core := { stopped.core with sda := sda, scl := scl } } s.poolOwner j .none))
      ∧ (f.cmd ≠ .stop ∨ f.held = true → leaves (.kStop i) stopped))
    ∧ (x.core.xfer.isSlave = true →
      (x.core.inflight = none → leaves (.kStop i) x.remoteStopped)
      ∧ (x.core.inflight = some f → f.phase = .data → f.cmd ≠ .stop → f.cmd ≠ .sRx → leaves (.kStop i) x.remoteStopped)
      ∧ (x.core.inflight = some f → f.phase = .data → f.cmd = .sRx →
        leaves (.kStop i)
        (({ x with regs := x.reported s.cfg (s.cfg.inst i.toNat) f 0 none
                   core := { x.core with inflight := none } } : Inst).remoteStopped)))
    ∧ (x.core.inflight = none ∨ (∃ f : InFlight, x.core.inflight = some f ∧ f.cmd ≠ .stop ∧ f.phase = .data) →
        x.core.xfer.isSlave = false → exec (.kStop i) s = .refused .notEnabled)
    ∧ (x.core.inflight = some f → f.phase = .data → f.cmd = .recover → leaves (.kRecovered i sda)
      { x with regs := x.regs.latched 0x2000#32
               core := { x.core with inflight := none, sda := sda, scl := true, xfer := .idle
                                     trace := x.core.trace ++ [.recover] } })
    ∧ (mine → (arb = true → mastering) → ∃ code : XferState, code.isSlave = true
      ∧ (¬ driving → ∃ j : Nat, exec (.kMatch i a arb) s = .next (s.put i.toNat (matched x code) s.poolOwner j .none))
      ∧ (x.core.inflight = some f → cmdIsMaster f.cmd = true → (f.path = .dma → f.base.toNat + f.n ≤ 4294967296) →
        ∃ (t : State) (v : Byte) (w : Word) (l : List TraceItem) (j : Nat), s.CutSpaces f t
        ∧ exec (.kMatch i a arb) s = .next (t.put i.toNat
            (matched (x.cut s.cfg (s.cfg.inst i.toNat) f v w l) code) s.poolOwner j .none)))
    ∧ (¬ mine ∨ (arb = true ∧ ¬ mastering) → exec (.kMatch i a arb) s = .refused .notEnabled)
    ∧ exec (.kLine i sda scl busy) s = .next (s.put i.toNat
        { x with core := { x.core with sda := sda, scl := scl, busy := busy } } s.poolOwner s.draws .none)
    ∧ exec (.kSmbus i m) s = .next (s.put i.toNat
        { x with regs := x.regs.latched (match m with
            | .alert => 0x0200#32
            | .arp => 0x0400#32
            | .alertResp => 0x0800#32
            | .reserved8 => 0x0100#32
            | .reserved12 => 0x1000#32
            | .reserved14 => 0x4000#32) } s.poolOwner s.draws .none)

/-- ARB_LOSS of a command in flight, ABNORMAL and SCL_TIMEOUT at any time (R219): the command is gone, the bit is
latched beside those that were, with the other bits w latched with it (which of them a step may set is log entry 28's).
The count, the trace and the bytes of a receive that reached the sink are not stated: of the registers only ACT_CNT,
DMA_LEN and BYTE_DATA.RX may differ, the trace only grows, of the spaces only the receive's own window, at the DMA_BASE
it was issued with, may differ, which is log entry 11's reading. With nothing in flight only the bits, XFER_STATE and
SCL change. ARB_LOSS leaves XFER_STATE idle; it is not enabled with nothing in flight. -/
def Obligations.BusFaultsDropTheCommand : Prop :=
  ∀ (s : State) (i : InstId) (x : Inst) (w : Word), s.Has i x →
    (∀ q ∈ [(Instr.kArb ⟨i, w⟩, 0x0008#32), (.kAbn ⟨i, w⟩, 0x0020#32), (.kSclto ⟨i, w⟩, 0x0040#32)],
      (∀ f : InFlight, x.core.inflight = some f →
        (f.path = .dma → f.base.toNat + f.n ≤ 4294967296) →
        ∃ (t : State) (y : Inst) (u : Word) (v : Byte) (l : List TraceItem), exec q.1 s = .next t ∧ t.Has i y
          ∧ s.SameOthers t i ∧ t.poolOwner = s.poolOwner ∧ t.ret = .none ∧ SameBytes s.mem t.mem
          ∧ (if cmdIsRx f.cmd && f.path == .buf then SameOutside s.pool t.pool 0 f.n else SameBytes s.pool t.pool)
          ∧ (if cmdIsRx f.cmd && f.path == .dma then SameOutside s.dma t.dma f.base.toNat f.n
              else SameBytes s.dma t.dma)
          ∧ y = { x with
              regs := { ({ x.regs with byteRx := v } : Regs) with
                bufCtrl := y.regs.bufCtrl, dmaLen := u }.latched (q.2 ||| w)
              core := { x.core with
                inflight := none, xfer := y.core.xfer, scl := y.core.scl, trace := x.core.trace ++ l
                cuts := x.core.cuts + 1 } }
          ∧ y.regs.bufCtrl &&& 0xC00FFFFF#32 = x.regs.bufCtrl &&& 0xC00FFFFF#32
          ∧ (q.1 = .kArb ⟨i, w⟩ → y.core.xfer = .idle) ∧ (q.1 ≠ .kSclto ⟨i, w⟩ → y.core.scl = x.core.scl))
      ∧ (x.core.inflight = none → q.1 ≠ .kArb ⟨i, w⟩ → ∃ (code : XferState) (scl : Bool) (j : Nat),
          exec q.1 s = .next (s.put i.toNat { x with regs := x.regs.latched (q.2 ||| w)
                                                     core := { x.core with xfer := code, scl := scl } }
            s.poolOwner j .none)
          ∧ (q.1 = .kAbn ⟨i, w⟩ → scl = x.core.scl)))
    ∧ (x.core.inflight = none → exec (.kArb ⟨i, w⟩) s = .refused .notEnabled)
end

