-- ==== Sys2Proof/Laws/State.lean ====
section
/-! SUPPORT. The small lemmas of State: one per field per update, true by unfolding, so that no later proof unfolds a
record update; reading an instance after changing one; the reset values. -/

namespace Sys2Proof.Machine

open Sys2Proof

section updInst

variable (s : State) (i j : Nat) (f g : Inst → Inst) (x : Inst)

@[simp] theorem updInst_cfg : (s.updInst i f).cfg = s.cfg := rfl
@[simp] theorem updInst_poolOwner : (s.updInst i f).poolOwner = s.poolOwner := rfl
@[simp] theorem updInst_pool : (s.updInst i f).pool = s.pool := rfl
@[simp] theorem updInst_dma : (s.updInst i f).dma = s.dma := rfl
@[simp] theorem updInst_mem : (s.updInst i f).mem = s.mem := rfl
@[simp] theorem updInst_draws : (s.updInst i f).draws = s.draws := rfl
@[simp] theorem updInst_ret : (s.updInst i f).ret = s.ret := rfl
@[simp] theorem updInst_inbox : (s.updInst i f).inbox = s.inbox := rfl

@[simp] theorem updInst_length : (s.updInst i f).insts.length = s.insts.length := by
  simp [State.updInst]

/-- The changed instance. -/
@[simp] theorem updInst_same : (s.updInst i f).insts[i]? = s.insts[i]?.map f := by
  simp [State.updInst]

/-- Every other instance is as it was. -/
theorem updInst_other (h : i ≠ j) : (s.updInst i f).insts[j]? = s.insts[j]? := by
  simp [State.updInst, h]

/-- Two changes of one instance are one change. -/
@[simp] theorem updInst_updInst (s : State) (i : Nat) (f g : Inst → Inst) :
    (s.updInst i f).updInst i g = s.updInst i (fun x => g (f x)) := by
  simp only [State.updInst, State.mk.injEq, true_and, and_true]
  apply List.ext_getElem?
  intro n
  rw [List.getElem?_modify, List.getElem?_modify, List.getElem?_modify]
  split <;> simp [Function.comp_def]

/-- Any instance after a change of one. -/
theorem updInst_get : (s.updInst i f).insts[j]? = if i = j then s.insts[j]?.map f else s.insts[j]? := by
  by_cases h : i = j
  · subst h; simp
  · rw [if_neg h, updInst_other s i j f h]

/-- A change that leaves the instance as it is changes nothing. -/
theorem updInst_id (hx : s.insts[i]? = some x) (h : f x = x) : s.updInst i f = s := by
  cases s
  simp only [State.updInst, State.mk.injEq, true_and, and_true] at *
  apply List.ext_getElem?
  intro n
  rw [List.getElem?_modify]
  split
  · subst_vars; simp [hx, h]
  · simp

end updInst

section setters

variable (s : State) (i : Nat) (f : Inst → Inst) (m : Memory) (o : Option (Nat × Side)) (r : Ret) (n : Nat)
  (b : List (List Byte))

/-! Changing a shared field leaves the instances, and the two kinds of change commute. -/

@[simp] theorem updInst_setPool : ({ s with pool := m }).updInst i f = { s.updInst i f with pool := m } := rfl
@[simp] theorem updInst_setDma : ({ s with dma := m }).updInst i f = { s.updInst i f with dma := m } := rfl
@[simp] theorem updInst_setMem : ({ s with mem := m }).updInst i f = { s.updInst i f with mem := m } := rfl
@[simp] theorem updInst_setOwner : ({ s with poolOwner := o }).updInst i f = { s.updInst i f with poolOwner := o } :=
  rfl
@[simp] theorem updInst_setDraws : ({ s with draws := n }).updInst i f = { s.updInst i f with draws := n } := rfl
@[simp] theorem updInst_setRet : ({ s with ret := r }).updInst i f = { s.updInst i f with ret := r } := rfl
@[simp] theorem updInst_setInbox : ({ s with inbox := b }).updInst i f = { s.updInst i f with inbox := b } := rfl

end setters

/-! ## Reset -/

@[simp] theorem reset_cfg : State.reset.cfg = Config.default := rfl
@[simp] theorem reset_pool : State.reset.pool = [] := rfl
@[simp] theorem reset_dma : State.reset.dma = [] := rfl
@[simp] theorem reset_mem : State.reset.mem = [] := rfl
@[simp] theorem reset_poolOwner : State.reset.poolOwner = none := rfl
@[simp] theorem reset_inbox : State.reset.inbox = [] := rfl
@[simp] theorem reset_draws : State.reset.draws = 0 := rfl
@[simp] theorem reset_ret : State.reset.ret = .none := rfl

/-- Every instance is in its reset state. -/
theorem reset_insts (i : Nat) (x : Inst) (h : State.reset.insts[i]? = some x) : x = Inst.reset 4 := by
  simp only [State.reset, State.resetWith, Config.default, List.getElem?_replicate] at h
  split at h
  · simpa using h.symm
  · cases h

end Sys2Proof.Machine
end

