-- ==== Sys2Proof/Laws/Ops.lean ====
section
/-! SUPPORT. How operations run: sequencing, and one equation for each primitive of Ops.lean, so that a meaning applied
to a state evaluates by `simp` to its outcome. -/

namespace Sys2Proof.Machine

open Sys2Proof

section running

variable {α β : Type} (s : State)

/-- Running a sequence. -/
@[simp] theorem op_bind (op : Op α) (f : α → Op β) :
    (op >>= f) s = match op s with
      | .ok (a, s') => f a s'
      | .error e => .error e := by
  show Except.bind (op s) _ = _
  unfold Except.bind
  cases op s <;> rfl

/-- Mapping a value. -/
@[simp] theorem op_map (op : Op α) (f : α → β) :
    (f <$> op) s = match op s with
      | .ok (a, s') => .ok (f a, s')
      | .error e => .error e := by
  rw [map_eq_pure_bind, op_bind]
  rfl

@[simp] theorem op_pure (a : α) : (pure a : Op α) s = .ok (a, s) := rfl
@[simp] theorem op_fault (r : Fault) : (opFault r : Op α) s = .error (.fault r) := rfl
@[simp] theorem op_refuse (r : Refusal) : (opRefuse r : Op α) s = .error (.refuse r) := rfl
@[simp] theorem op_getState : getState s = .ok (s, s) := rfl
@[simp] theorem op_modState (f : State → State) : modState f s = .ok ((), f s) := rfl
@[simp] theorem op_draw : draw s = .ok (s.draws, { s with draws := s.draws + 1 }) := rfl
@[simp] theorem op_getCfg : getCfg s = .ok (s.cfg, s) := rfl
@[simp] theorem op_getInstCfg (i : Nat) : getInstCfg i s = .ok (s.cfg.inst i, s) := rfl
@[simp] theorem op_modInst (i : Nat) (f : Inst → Inst) : modInst i f s = .ok ((), s.updInst i f) := rfl
@[simp] theorem op_modRegs (i : Nat) (f : Regs → Regs) :
    modRegs i f s = .ok ((), s.updInst i fun x => { x with regs := f x.regs }) := rfl
@[simp] theorem op_modCore (i : Nat) (f : Core → Core) :
    modCore i f s = .ok ((), s.updInst i fun x => { x with core := f x.core }) := rfl
@[simp] theorem op_modMaster (i : Nat) (f : Master → Master) :
    modMaster i f s = .ok ((), s.updInst i fun x => { x with master := f x.master }) := rfl
@[simp] theorem op_modSlave (i : Nat) (f : Slave → Slave) :
    modSlave i f s = .ok ((), s.updInst i fun x => { x with slave := f x.slave }) := rfl
@[simp] theorem op_modRecov (i : Nat) (f : Recov → Recov) :
    modRecov i f s = .ok ((), s.updInst i fun x => { x with recov := f x.recov }) := rfl
@[simp] theorem op_modOuts (i : Nat) (f : Outs → Outs) :
    modOuts i f s = .ok ((), s.updInst i fun x => { x with outs := f x.outs }) := rfl
@[simp] theorem op_modThread (i : Nat) (f : Thread → Thread) :
    modThread i f s = .ok ((), s.updInst i fun x => { x with thread := f x.thread }) := rfl

/-- Reading an instance that exists. -/
theorem op_getInst (i : Nat) (x : Inst) (h : s.insts[i]? = some x) : getInst i s = .ok (x, s) := by
  simp [getInst, h]

/-- An instance that does not exist is refused. -/
theorem op_getInst_none (i : Nat) (h : s.insts[i]? = none) : getInst i s = .error (.refuse .noSuchInstance) := by
  simp [getInst, h]

@[simp] theorem op_whenB_true (op : Op Unit) : whenB true op s = op s := rfl
@[simp] theorem op_whenB_false (op : Op Unit) : whenB false op s = .ok ((), s) := rfl
@[simp] theorem op_require_true (r : Refusal) : require true r s = .ok ((), s) := rfl
@[simp] theorem op_require_false (r : Refusal) : require false r s = .error (.refuse r) := rfl

/-- A conditional operation, as a conditional outcome. -/
theorem op_whenB (c : Bool) (op : Op Unit) : whenB c op s = if c then op s else .ok ((), s) := by
  cases c <;> rfl

@[simp] theorem op_retWord (w : Word) : retWord w s = .ok (.word w, s) := rfl
@[simp] theorem op_retNat (n : Nat) : retNat n s = .ok (.word (BitVec.ofNat 32 n), s) := rfl
@[simp] theorem op_retCode (r : Code) : retCode r s = .ok (.word (s.cfg.code r), s) := rfl

/-- An operation that completes is a next state holding its value. -/
theorem runOp_ok (op : Op Ret) (r : Ret) (s' : State) (h : op s = .ok (r, s')) :
    runOp op s = .next { s' with ret := r } := by
  simp [runOp, h]

/-- A step is a next state exactly when its operation completes. -/
theorem runOp_next (op : Op Ret) (t : State) :
    runOp op s = .next t ↔ ∃ r s', op s = .ok (r, s') ∧ t = { s' with ret := r } := by
  unfold runOp
  constructor
  · intro h
    split at h
    · rename_i r s' he; exact ⟨r, s', he, by injection h with h; exact h.symm⟩
    · cases h
    · cases h
  · rintro ⟨r, s', he, rfl⟩; simp [he]

/-- A condition that holds picks the first branch, whatever decides it. -/
theorem op_if_pos {c : Prop} {d : Decidable c} (h : c) (a b : Op α) : (@ite _ c d a b) s = a s := by
  rw [if_pos h]

/-- A condition that fails picks the second branch, whatever decides it. -/
theorem op_if_neg {c : Prop} {d : Decidable c} (h : ¬ c) (a b : Op α) : (@ite _ c d a b) s = b s := by
  rw [if_neg h]

end running

/-! ## Locks -/

/-- A free lock lets the operation through. -/
theorem op_needM (s : State) (i : Nat) (x : Inst) (h : s.insts[i]? = some x) (hl : x.lockM = none) :
    needM i s = .ok ((), s) := by
  simp [needM, op_getInst s i x h, hl]

theorem op_needM_held (s : State) (i : Nat) (x : Inst) (h : s.insts[i]? = some x) (hl : x.lockM ≠ none) :
    needM i s = .error (.refuse .lockHeld) := by
  cases e : x.lockM <;> simp_all [needM, op_getInst s i x h]

theorem op_needS (s : State) (i : Nat) (x : Inst) (h : s.insts[i]? = some x) (hl : x.lockS = none) :
    needS i s = .ok ((), s) := by
  simp [needS, op_getInst s i x h, hl]

/-! ## Streams, errors, signals -/

section simple

variable (s : State) (i : Nat)

@[simp] theorem op_logRec (r : LogRec) :
    logRec i r s = .ok ((), s.updInst i fun x => { x with outs := { x.outs with log := x.outs.log ++ [r] } }) := rfl

@[simp] theorem op_raiseErr (e : Word) :
    raiseErr i e s = .ok ((), s.updInst i fun x => { x with master := { x.master with err := x.master.err ||| e } }) :=
  rfl

@[simp] theorem op_complete :
    complete i s = .ok ((), s.updInst i fun x => { x with master := { x.master with
      done := if x.master.waiting = .none then x.master.done else true } }) := rfl

@[simp] theorem op_armWait (w : Waiting) :
    armWait i w s = .ok ((), s.updInst i fun x => { x with master := { x.master with done := false, waiting := w } }) :=
  rfl

@[simp] theorem op_disarmWait :
    disarmWait i s = .ok ((), s.updInst i fun x => { x with master :=
      { x.master with done := false, waiting := .none } }) := rfl

@[simp] theorem op_latch (w : Word) :
    latch i w s = .ok ((), s.updInst i fun x => { x with regs :=
      { x.regs with intrSts := (x.regs.intrSts ||| w) &&& STS_ANY } }) := rfl

@[simp] theorem op_noteWrite (r : Reg) (v : Word) :
    noteWrite i r v s = .ok ((), s.updInst i fun x => { x with outs :=
      { x.outs with regTrace := x.outs.regTrace ++ [(r, v)] } }) := rfl

end simple

/-! ## Register reads -/

/-- A register read returns the register's view and changes nothing, DMA_LEN in flight apart (R170). -/
theorem op_regRead (s : State) (i : Nat) (r : Reg) (x : Inst) (h : s.insts[i]? = some x)
    (hd : r ≠ .dmaLen ∨ x.dmaInFlight = none) : regRead i r s = .ok (x.view r, s) := by
  unfold regRead
  simp only [op_bind, op_getState, op_getInst s i x h]
  cases r <;> first | rfl | skip
  cases hd with
  | inl h => exact absurd rfl h
  | inr h => rw [h]; rfl

/-- CMD reads as its view. -/
theorem op_regRead_cmd (s : State) (i : Nat) (x : Inst) (h : s.insts[i]? = some x) :
    regRead i .cmd s = .ok (x.cmdView, s) :=
  op_regRead s i .cmd x h (.inl (by decide))

/-- A read of DMA_LEN in flight picks a value between the programmed and the final one and changes nothing (R182,
R104). -/
theorem op_regRead_flight (s : State) (i : Nat) (x : Inst) (f : InFlight) (h : s.insts[i]? = some x)
    (hd : x.dmaInFlight = some f) :
    regRead i .dmaLen s = .ok (dmaPick (coreInc (s.cfg.inst i) (cmdIsMaster f.cmd)) f.prog (s.dmaFinal i x f)
      (Config.freeNat s.draws), { s with draws := s.draws + 1 }) := by
  unfold regRead
  simp only [op_bind, op_getState, op_getInst s i x h, hd]
  rfl

/-- A side that holds the loan may use the pool page (R106). -/
theorem op_needLoan (s : State) (i : Nat) (d : Side) (x : Inst) (h : s.insts[i]? = some x) (hl : x.loan d = true) :
    needLoan i d s = .ok ((), s) := by
  simp [needLoan, op_getInst s i x h, hl]

/-- A side without the loan is refused the pool page (R106). -/
theorem op_needLoan_none (s : State) (i : Nat) (d : Side) (x : Inst) (h : s.insts[i]? = some x)
    (hl : x.loan d = false) : needLoan i d s = .error (.refuse .poolNotOwned) := by
  simp [needLoan, op_getInst s i x h, hl]

end Sys2Proof.Machine
end

