-- ==== Sys2Proof/Laws/Memory.lean ====
section
/-! SUPPORT. The laws of a byte space: a write is read back, leaves every other byte alone, and keeps the canonical
form. -/

namespace Sys2Proof.Machine

open Sys2Proof

/-! ## One byte -/

@[simp] theorem get_nil (a : Nat) : Memory.get [] a = none := rfl

theorem get_set_same (m : Memory) (a : Nat) (v : Byte) : Memory.get (Memory.set m a v) a = some v := by
  induction m with
  | nil => simp [Memory.set, Memory.get]
  | cons c m ih =>
    obtain ⟨k, b⟩ := c
    simp only [Memory.set]
    split
    · simp [Memory.get]
    · split
      · simp [Memory.get]
      · rename_i h; simp [Memory.get, Ne.symm h, ih]

theorem get_set_other (m : Memory) (a b : Nat) (v : Byte) (h : b ≠ a) :
    Memory.get (Memory.set m a v) b = Memory.get m b := by
  induction m with
  | nil => simp [Memory.set, Memory.get, Ne.symm h]
  | cons c m ih =>
    obtain ⟨k, x⟩ := c
    simp only [Memory.set]
    split
    · simp [Memory.get, Ne.symm h]
    · split
      · rename_i h'; subst h'; simp [Memory.get, Ne.symm h]
      · simp only [Memory.get, ih]

/-- A key of a written space is the written address or an old key. -/
theorem mem_set_key (m : Memory) (a : Nat) (v : Byte) (c : Host.Cell) (h : c ∈ Memory.set m a v) :
    c.1 = a ∨ c ∈ m := by
  induction m with
  | nil => simp [Memory.set] at h; simp [h]
  | cons d m ih =>
    obtain ⟨k, b⟩ := d
    simp only [Memory.set] at h
    split at h
    · rcases List.mem_cons.1 h with h | h
      · simp [h]
      · exact .inr h
    · split at h
      · rcases List.mem_cons.1 h with h | h
        · simp [h]
        · exact .inr (List.mem_cons_of_mem _ h)
      · rcases List.mem_cons.1 h with h | h
        · simp [h]
        · exact (ih h).imp id (List.mem_cons_of_mem _)

theorem wf_iff (m : Memory) : Memory.wf m = true ↔ m.Pairwise (fun x y => x.1 < y.1) := by simp [Memory.wf]

@[simp] theorem wf_nil : Memory.wf [] = true := rfl

/-- Writing a byte keeps the canonical form. -/
theorem set_wf (m : Memory) (a : Nat) (v : Byte) (h : Memory.wf m = true) : Memory.wf (Memory.set m a v) = true := by
  rw [wf_iff] at *
  induction m with
  | nil => simp [Memory.set]
  | cons c m ih =>
    obtain ⟨k, b⟩ := c
    obtain ⟨hk, hm⟩ := List.pairwise_cons.1 h
    simp only [Memory.set]
    split
    · rename_i hlt
      refine List.pairwise_cons.2 ⟨fun c hc => ?_, h⟩
      rcases List.mem_cons.1 hc with rfl | hc
      · exact hlt
      · exact Nat.lt_trans hlt (hk c hc)
    · split
      · rename_i he; subst he; exact List.pairwise_cons.2 ⟨hk, hm⟩
      · rename_i hge hne
        refine List.pairwise_cons.2 ⟨fun c hc => ?_, ih hm⟩
        rcases mem_set_key m a v c hc with hc | hc
        · show k < c.1; omega
        · exact hk c hc

/-! ## Lists of bytes -/

/-- A write of a list keeps the canonical form. -/
theorem writeN_wf (m : Memory) (a : Nat) (bs : List Byte) (h : Memory.wf m = true) :
    Memory.wf (Memory.writeN m a bs) = true := by
  induction bs generalizing m a with
  | nil => exact h
  | cons b bs ih => exact ih _ _ (set_wf m a b h)

/-- A write of a list leaves every byte outside it alone. -/
theorem get_writeN_outside (m : Memory) (a b : Nat) (bs : List Byte) (h : b < a ∨ a + bs.length ≤ b) :
    Memory.get (Memory.writeN m a bs) b = Memory.get m b := by
  induction bs generalizing m a with
  | nil => rfl
  | cons c bs ih =>
    simp only [List.length_cons] at h
    rw [Memory.writeN, ih _ _ (by omega), get_set_other _ _ _ _ (by omega)]

/-- A write of a list is read back. -/
theorem get_writeN_inside (m : Memory) (a j : Nat) (bs : List Byte) (h : j < bs.length) :
    Memory.get (Memory.writeN m a bs) (a + j) = bs[j]? := by
  induction bs generalizing m a j with
  | nil => simp at h
  | cons c bs ih =>
    rw [Memory.writeN]
    cases j with
    | zero => rw [get_writeN_outside _ _ _ _ (by omega), Nat.add_zero, get_set_same]; rfl
    | succ j =>
      have h' : j < bs.length := by simpa using h
      rw [show a + (j + 1) = (a + 1) + j by omega, ih _ _ _ h', List.getElem?_cons_succ]

theorem writeN_outside (m : Memory) (a : Nat) (bs : List Byte) : SameOutside m (Memory.writeN m a bs) a bs.length :=
  fun b h => get_writeN_outside m a b bs h

theorem writeN_holds (m : Memory) (a : Nat) (bs : List Byte) : Holds (Memory.writeN m a bs) a bs :=
  fun j h => get_writeN_inside m a j bs h

@[simp] theorem sameBytes_refl (m : Memory) : SameBytes m m := fun _ => rfl

/-- Reading n bytes is reading each of them. -/
theorem readN_eq_some (m : Memory) (a n : Nat) (bs : List Byte) :
    Memory.readN m a n = some bs ↔ bs.length = n ∧ Holds m a bs := by
  induction n generalizing a bs with
  | zero =>
    simp only [Memory.readN, Option.some.injEq]
    constructor
    · rintro rfl; exact ⟨rfl, fun j h => absurd h (Nat.not_lt_zero j)⟩
    · rintro ⟨h, -⟩; exact (List.eq_nil_of_length_eq_zero h).symm
  | succ n ih =>
    constructor
    · intro h
      simp only [Memory.readN] at h
      split at h
      · rename_i b r hb hr
        cases h
        obtain ⟨hl, hh⟩ := (ih _ _).1 hr
        refine ⟨by simp [hl], fun j hj => ?_⟩
        cases j with
        | zero => simpa using hb
        | succ j =>
          rw [show a + (j + 1) = (a + 1) + j by omega, hh j (by simpa using hj), List.getElem?_cons_succ]
      · cases h
    · rintro ⟨hl, hh⟩
      cases bs with
      | nil => simp at hl
      | cons b r =>
        have h0 : Memory.get m a = some b := by simpa using hh 0 (by simp)
        have hr : Memory.readN m (a + 1) n = some r := (ih _ _).2 ⟨by simpa using hl, fun j hj => by
          have := hh (j + 1) (by simpa using hj)
          rwa [show a + (j + 1) = (a + 1) + j by omega, List.getElem?_cons_succ] at this⟩
        simp [Memory.readN, h0, hr]

/-- What was written is read. -/
theorem readN_writeN (m : Memory) (a : Nat) (bs : List Byte) :
    Memory.readN (Memory.writeN m a bs) a bs.length = some bs :=
  (readN_eq_some _ _ _ _).2 ⟨rfl, writeN_holds m a bs⟩

/-- A readable stretch of bytes inside a space is read. -/
theorem op_memRead (s : State) (m : Memory) (a n : Nat) (bs : List Byte) (hb : a + n ≤ spaceSize)
    (h : Memory.readN m a n = some bs) : memRead m a n s = .ok (bs, s) := by
  simp [memRead, hb, h]

/-- A read inside a space changes nothing. -/
theorem memRead_ok (s t : State) (m : Memory) (a n : Nat) (bs : List Byte) (h : memRead m a n s = .ok (bs, t)) :
    t = s ∧ Memory.readN m a n = some bs := by
  unfold memRead at h
  by_cases hb : a + n ≤ spaceSize
  · rw [if_pos hb] at h
    cases hr : Memory.readN m a n with
    | none => rw [hr] at h; cases h
    | some r => rw [hr] at h; cases h; exact ⟨rfl, rfl⟩
  · rw [if_neg hb] at h; cases h

end Sys2Proof.Machine
end

