-- ==== Sys2Proof/Laws/Regs.lean ====
section
/-! SUPPORT. Register writes as one change of the instance: plain registers, FUN_CTRL with its core resets, CMD with
the command it issues; and the sequences built from them. -/

namespace Sys2Proof.Machine

open Sys2Proof

section plain

variable (s : State) (k : Nat) (v : Word)

@[simp] theorem op_regWrite_acTiming1 : regWrite k .acTiming1 v s = .ok ((), s.updInst k fun x =>
    { x with regs := { x.regs with acTiming1 := v }, outs := x.noted .acTiming1 v }) := by
  simp [regWrite, Inst.noted]

@[simp] theorem op_regWrite_acTiming2 : regWrite k .acTiming2 v s = .ok ((), s.updInst k fun x =>
    { x with regs := { x.regs with acTiming2 := v }, outs := x.noted .acTiming2 v }) := by
  simp [regWrite, Inst.noted]

@[simp] theorem op_regWrite_intrCtrl : regWrite k .intrCtrl v s = .ok ((), s.updInst k fun x =>
    { x with regs := { x.regs with intrCtrl := v }, outs := x.noted .intrCtrl v }) := by
  simp [regWrite, Inst.noted]

@[simp] theorem op_regWrite_intrSts : regWrite k .intrSts v s = .ok ((), s.updInst k fun x =>
    { x with regs := { x.regs with intrSts := w1c x.regs.intrSts v }, outs := x.noted .intrSts v }) := by
  simp [regWrite, Inst.noted]

@[simp] theorem op_regWrite_devAddr : regWrite k .devAddr v s = .ok ((), s.updInst k fun x =>
    { x with regs := { x.regs with devAddr := v }, outs := x.noted .devAddr v }) := by
  simp [regWrite, Inst.noted]

@[simp] theorem op_regWrite_bufCtrl : regWrite k .bufCtrl v s = .ok ((), s.updInst k fun x =>
    { x with regs := { x.regs with bufCtrl := (v &&& 0xC00FFFFF#32) ||| (x.regs.bufCtrl &&& 0x3FF00000#32) },
             outs := x.noted .bufCtrl v }) := by
  simp [regWrite, Inst.noted]

@[simp] theorem op_regWrite_byteData : regWrite k .byteData v s = .ok ((), s.updInst k fun x =>
    { x with regs := { x.regs with byteTx := v.extractLsb' 0 8 }, outs := x.noted .byteData v }) := by
  simp [regWrite, Inst.noted]

@[simp] theorem op_regWrite_dmaBase : regWrite k .dmaBase v s = .ok ((), s.updInst k fun x =>
    { x with regs := { x.regs with dmaBase := v }, outs := x.noted .dmaBase v }) := by
  simp [regWrite, Inst.noted]

@[simp] theorem op_regWrite_dmaLen : regWrite k .dmaLen v s = .ok ((), s.updInst k fun x =>
    { x with regs := { x.regs with dmaLen := v }, outs := x.noted .dmaLen v }) := by
  simp [regWrite, Inst.noted]

end plain

/-- Changing an instance two ways that agree on it. -/
theorem updInst_congr (s : State) (k : Nat) (f g : Inst → Inst) (x : Inst) (hx : s.insts[k]? = some x)
    (h : f x = g x) : s.updInst k f = s.updInst k g := by
  simp only [State.updInst, State.mk.injEq, true_and, and_true]
  apply List.ext_getElem?
  intro j
  rw [List.getElem?_modify, List.getElem?_modify]
  by_cases e : k = j
  · subst e; simp [hx, h]
  · simp [e]

/-! ## FUN_CTRL -/

/-- The value picked for a read of DMA_LEN in flight lies between the two it is picked from (R182). -/
theorem dmaPick_between (inc : Bool) (p q : Word) (k : Nat) : dmaBetween inc p q (dmaPick inc p q k) := by
  unfold dmaBetween dmaPick
  cases inc
  · simp only [Bool.false_eq_true, if_false, BitVec.le_def, BitVec.toNat_ofNat]
    have h := Nat.mod_lt k (show 0 < max p.toNat q.toNat - min p.toNat q.toNat + 1 by omega)
    have := p.isLt; have := q.isLt
    rw [Nat.mod_eq_of_lt (by omega)]
    omega
  · simp only [if_true]
    have h := Nat.mod_lt k (show 0 < (p.toInt - q.toInt).natAbs + 1 by omega)
    have := p.le_toInt; have := p.toInt_lt; have := q.le_toInt; have := q.toInt_lt
    rw [BitVec.toInt_ofInt_eq_self (by decide) (by omega) (by omega)]
    omega

/-- Writing the value already held changes nothing in the core (R172). -/
@[simp] theorem afterFun_same (c : Core) (w : Word) (a b d : Bool) : c.afterFun w w a b d = c := by
  simp [Core.afterFun]

/-- A FUN_CTRL write is noted, stored, and resets the side it disables (R172). -/
theorem op_regWrite_funCtrl (s : State) (k : Nat) (v : Word) (x : Inst) (hx : s.insts[k]? = some x) :
    ∃ n a b d, regWrite k .funCtrl v s = .ok ((), { s.updInst k (fun y =>
      { y with regs := { y.regs with funCtrl := v }, core := y.core.afterFun x.regs.funCtrl v a b d,
               outs := y.noted .funCtrl v }) with draws := n }) := by
  have hx' : (s.updInst k fun y => { y with outs := { y.outs with regTrace := y.outs.regTrace ++ [(.funCtrl, v)] } }
    ).insts[k]? = some { x with outs := { x.outs with regTrace := x.outs.regTrace ++ [(.funCtrl, v)] } } := by
    simp [hx]
  simp only [regWrite, op_bind, op_noteWrite, writeFunCtrl, op_getInst _ k _ hx', op_modRegs, op_whenB]
  by_cases h0 : (x.regs.funCtrl.getLsbD 0 && !v.getLsbD 0) = true <;>
  by_cases h1 : (x.regs.funCtrl.getLsbD 1 && !v.getLsbD 1) = true
  · refine ⟨s.draws + 6, Config.freeBit (s.draws + 3), Config.freeBit (s.draws + 4), Config.freeBit (s.draws + 5), ?_⟩
    simp only [h0, h1, if_true, coreResetMaster, coreResetSlave, op_bind, op_draw, op_modCore, Core.afterFun]
    simp only [State.updInst, List.modify_modify_eq, Function.comp_def]
    rfl
  · refine ⟨s.draws + 3, Config.freeBit s.draws, Config.freeBit (s.draws + 1), Config.freeBit (s.draws + 2), ?_⟩
    simp only [h0, h1, if_true, Bool.false_eq_true, if_false, coreResetMaster, op_bind, op_draw, op_modCore, Core.afterFun]
    simp only [State.updInst, List.modify_modify_eq, Function.comp_def]
    rfl
  · refine ⟨s.draws + 3, Config.freeBit s.draws, Config.freeBit (s.draws + 1), Config.freeBit (s.draws + 2), ?_⟩
    simp only [h0, h1, if_true, Bool.false_eq_true, if_false, coreResetSlave, op_bind, op_draw, op_modCore, Core.afterFun]
    simp only [State.updInst, List.modify_modify_eq, Function.comp_def]
    rfl
  · refine ⟨s.draws, true, true, true, ?_⟩
    simp only [h0, h1, Bool.false_eq_true, if_false, Core.afterFun]
    simp only [State.updInst, List.modify_modify_eq, Function.comp_def]
    rfl

/-! ## CMD -/

/-- C.NOP stores the enables and the level, and issues nothing (R214). -/
theorem op_regWrite_nop (s : State) (k : Nat) (v : Word) (h : cmdOf v = some .nop) :
    regWrite k .cmd v s = .ok ((), s.updInst k fun x =>
      { x with regs := { x.regs with en := cmdEn v, alertEn := cmdAlert v }, outs := x.noted .cmd v }) := by
  simp only [regWrite, op_bind, op_noteWrite, writeCmd, h, op_modRegs, Inst.noted]
  simp

theorem op_memBytes (s : State) (m : Memory) (a n : Nat) (d : List Byte) (h : m.bytes a n = some d) :
    memRead m a n s = .ok (d, s) := by
  unfold Memory.bytes at h
  by_cases hb : a + n ≤ spaceSize
  · rw [if_pos hb] at h; exact op_memRead s m a n d hb h
  · rw [if_neg hb] at h; cases h

theorem op_sampleData (s : State) (x : Inst) (c : Cmd) (p : Path) (n : Nat) (d : List Byte)
    (h : s.sampled x c p n = some d) : sampleData x c p n s = .ok (d, s) := by
  unfold State.sampled at h
  unfold sampleData
  by_cases ht : cmdIsTx c = true
  · rw [if_pos ht] at h ⊢
    cases p
    · simp only [Option.some.injEq] at h; subst h; rfl
    · exact op_memBytes s s.pool 0 n d h
    · exact op_memBytes s s.dma _ n d h
  · rw [if_neg ht] at h ⊢
    simp only [Option.some.injEq] at h; subst h; rfl

/-- A command is accepted: nothing is in flight, its side is enabled, its chunk size is legal, its data readable
(R202). -/
structure Accepts (s : State) (x : Inst) (ic : InstConfig) (c : Cmd) (en : BitVec 4) (d : List Byte) : Prop where
  idle : x.core.inflight = none
  enabled : (if cmdIsMaster c then x.regs.funCtrl.getLsbD 0 else x.regs.funCtrl.getLsbD 1) = true
  count : (cmdIsTx c || cmdIsRx c) = true →
    1 ≤ cmdCount x s.cfg ic c (pathOf en) ∧ cmdCount x s.cfg ic c (pathOf en) ≤ maxPath s.cfg (pathOf en)
  data : s.sampled x c (pathOf en) (cmdCount x s.cfg ic c (pathOf en)) = some d

/-- An accepted command goes in flight with its data (R202). -/
theorem op_issueCmd (s : State) (k : Nat) (x : Inst) (c : Cmd) (en : BitVec 4) (d : List Byte)
    (hx : s.insts[k]? = some x) (h : Accepts s x (s.cfg.inst k) c en d) :
    issueCmd k c en s = .ok ((), { s.updInst k (fun y =>
      { y with core := y.core.issue (.mk c (pathOf en) (cmdCount x s.cfg (s.cfg.inst k) c (pathOf en)) d
                 x.regs.dmaLen .data x.regs.dmaBase y.core.xfer.isMaster) s.draws }) with
      draws := s.draws + 1 }) := by
  obtain ⟨hf, hen, hlen, hd⟩ := h
  have hm1 : (cmdIsMaster c && !x.regs.funCtrl.getLsbD 0) = false := by
    cases hm : cmdIsMaster c <;> simp_all
  have hm2 : (!cmdIsMaster c && !x.regs.funCtrl.getLsbD 1) = false := by
    cases hm : cmdIsMaster c <;> simp_all
  have hl : ((cmdIsTx c || cmdIsRx c) && (cmdCount x s.cfg (s.cfg.inst k) c (pathOf en) == 0 ||
      decide (maxPath s.cfg (pathOf en) < cmdCount x s.cfg (s.cfg.inst k) c (pathOf en)))) = false := by
    cases hb : (cmdIsTx c || cmdIsRx c) with
    | false => rfl
    | true =>
      obtain ⟨h1, h2⟩ := hlen hb
      simp only [Bool.true_and, Bool.or_eq_false_iff, beq_eq_false_iff_ne, decide_eq_false_iff_not]
      exact ⟨by omega, by omega⟩
  simp only [issueCmd, op_bind, op_getInst _ k _ hx, op_getCfg, op_getInstCfg, hf, Option.isSome_none,
    Bool.false_eq_true, if_false, hm1, hm2, hl]
  rw [op_sampleData _ _ _ _ _ _ hd]
  rfl

/-- The command a word selects goes in flight when it is accepted (R177, R202). -/
theorem op_regWrite_issue (s : State) (k : Nat) (v : Word) (x : Inst) (c : Cmd) (d : List Byte)
    (hx : s.insts[k]? = some x) (hc : cmdOf v = some c) (hn : c ≠ .nop)
    (h : Accepts s x (s.cfg.inst k) c (cmdEn v) d) :
    regWrite k .cmd v s = .ok ((), { s.updInst k (fun y =>
      { y with regs := { y.regs with en := cmdEn v, alertEn := cmdAlert v }, outs := y.noted .cmd v,
               core := y.core.issue (.mk c (pathOf (cmdEn v)) (cmdCount x s.cfg (s.cfg.inst k) c (pathOf (cmdEn v)))
                 d x.regs.dmaLen .data x.regs.dmaBase y.core.xfer.isMaster) s.draws }) with draws := s.draws + 1 }) := by
  have hnop : (c != .nop) = true := by simpa using hn
  simp only [regWrite, op_bind, op_noteWrite, writeCmd, hc, op_modRegs, op_whenB, hnop, if_true, updInst_updInst]
  refine (op_issueCmd _ k
    { x with regs := { x.regs with en := cmdEn v, alertEn := cmdAlert v }, outs := x.noted .cmd v } c (cmdEn v) d ?_ ?_).trans ?_
  · rw [updInst_same, hx]; rfl
  · exact ⟨h.idle, h.enabled, h.count, h.data⟩
  · simp only [State.updInst, List.modify_modify_eq, Function.comp_def]
    rfl

/-- A command of a disabled side is ignored; the enables and the level are stored (R202). -/
theorem op_regWrite_disabled (s : State) (k : Nat) (v : Word) (x : Inst) (c : Cmd)
    (hx : s.insts[k]? = some x) (hc : cmdOf v = some c) (hn : c ≠ .nop) (hf : x.core.inflight = none)
    (hen : (if cmdIsMaster c then x.regs.funCtrl.getLsbD 0 else x.regs.funCtrl.getLsbD 1) = false) :
    regWrite k .cmd v s = .ok ((), s.updInst k fun y =>
      { y with regs := { y.regs with en := cmdEn v, alertEn := cmdAlert v }, outs := y.noted .cmd v }) := by
  have hnop : (c != .nop) = true := by simpa using hn
  simp only [regWrite, op_bind, op_noteWrite, writeCmd, hc, op_modRegs, op_whenB, hnop, if_true, updInst_updInst,
    issueCmd, op_getCfg, op_getInstCfg]
  rw [op_getInst _ k { x with regs := { x.regs with en := cmdEn v, alertEn := cmdAlert v }, outs := x.noted .cmd v }
    (by rw [updInst_same, hx]; rfl)]
  cases hm : cmdIsMaster c <;> rw [hm] at hen <;> simp_all [Inst.noted]

/-- While a command is in flight every command but C.NOP is refused (R495). -/
theorem op_regWrite_busy (s : State) (k : Nat) (v : Word) (x : Inst) (c : Cmd)
    (hx : s.insts[k]? = some x) (hc : cmdOf v = some c) (hn : c ≠ .nop) (hf : x.core.inflight ≠ none) :
    regWrite k .cmd v s = .error (.refuse .commandInFlight) := by
  have hnop : (c != .nop) = true := by simpa using hn
  simp only [regWrite, op_bind, op_noteWrite, writeCmd, hc, op_modRegs, op_whenB, hnop, if_true, updInst_updInst,
    issueCmd, op_getCfg, op_getInstCfg]
  rw [op_getInst _ k { x with regs := { x.regs with en := cmdEn v, alertEn := cmdAlert v }, outs := x.noted .cmd v }
    (by rw [updInst_same, hx]; rfl)]
  have : x.core.inflight.isSome = true := by
    cases h : x.core.inflight
    · exact absurd h hf
    · rfl
  simp [this]

/-- A reserved command word is refused (R141). -/
theorem op_regWrite_reserved (s : State) (k : Nat) (v : Word) (hc : cmdOf v = none) :
    regWrite k .cmd v s = .error (.refuse .reservedCommand) := by
  simp [regWrite, writeCmd, hc]

end Sys2Proof.Machine
end

