-- ==== Sys2Proof/Laws/Wire.lean ====
section
/-! SUPPORT. The parts of a frame: each reader gives back what its writer laid down, and the command and address words
give back their fields. -/

namespace Sys2Proof

/-! ## Readers after writers -/

theorem ofBytes_toBytes (w : Word) : Word.ofBytes (w.extractLsb' 0 8) (w.extractLsb' 8 8) (w.extractLsb' 16 8)
    (w.extractLsb' 24 8) = w := by
  unfold Word.ofBytes
  apply BitVec.eq_of_getLsbD_eq
  intro j hj
  simp only [BitVec.getLsbD_append, BitVec.getLsbD_extractLsb']
  split
  · simp [*]
  · split
    · rename_i h1 h2
      have : j - 8 < 8 := h2
      simp only [decide_true, Bool.true_and, this]
      rw [show 8 + (j - 8) = j by omega]
    · split
      · rename_i h1 h2 h3
        have : j - 8 - 8 < 8 := h3
        simp only [decide_true, Bool.true_and, this]
        rw [show 16 + (j - 8 - 8) = j by omega]
      · have : j - 8 - 8 - 8 < 8 := by omega
        simp only [decide_true, Bool.true_and, this]
        rw [show 24 + (j - 8 - 8 - 8) = j by omega]

@[simp] theorem parseWord_toBytes (w : Word) (r : List Byte) : parseWord (w.toBytes ++ r) = .ok (w, r) := by
  simp [Word.toBytes, parseWord, ofBytes_toBytes]

@[simp] theorem parseWord_toBytes_nil (w : Word) : parseWord w.toBytes = .ok (w, []) := by
  simpa using parseWord_toBytes w []

@[simp] theorem parseInst_byteOfInst (i : InstId) (r : List Byte) : parseInst (byteOfInst i :: r) = .ok (i, r) := by
  have h : (byteOfInst i).toNat < 32 := by
    have := i.isLt
    simp only [byteOfInst, BitVec.toNat_setWidth]
    omega
  rw [parseInst, if_pos h]
  simp [byteOfInst]

@[simp] theorem parseByte_cons (b : Byte) (r : List Byte) : parseByte (b :: r) = .ok (b, r) := rfl

@[simp] theorem parseBool_byteOfBool (b : Bool) (r : List Byte) : parseBool (byteOfBool b :: r) = .ok (b, r) := by
  cases b <;> rfl

@[simp] theorem parseSide_byteOfSide (d : Side) (r : List Byte) : parseSide (byteOfSide d :: r) = .ok (d, r) := by
  cases d <;> rfl

@[simp] theorem parseKind_byteOfKind (k : Kind) (r : List Byte) : parseKind (byteOfKind k :: r) = .ok (k, r) := by
  cases k <;> rfl

@[simp] theorem parseSmbus_pos (m : SmbusBit) (r : List Byte) :
    parseSmbus (BitVec.ofNat 8 m.pos :: r) = .ok (m, r) := by
  cases m <;> rfl

@[simp] theorem parseOptWord_bytes (w : Option Word) (r : List Byte) :
    parseOptWord (bytesOfOptWord w ++ r) = .ok (w, r) := by
  cases w with
  | none => rfl
  | some w =>
    have h : parseBool (1#8 :: (w.toBytes ++ r)) = .ok (true, w.toBytes ++ r) := rfl
    simp [parseOptWord, bytesOfOptWord, h]

@[simp] theorem parseOptWord_bytes_nil (w : Option Word) : parseOptWord (bytesOfOptWord w) = .ok (w, []) := by
  simpa using parseOptWord_bytes w []

@[simp] theorem parseOptByte_bytes (b : Option Byte) : parseOptByte (bytesOfOptByte b) = .ok (b, []) := by
  cases b <;> rfl

@[simp] theorem parseArm_bytes (d : ArmData) : parseArm (bytesOfArm d) = .ok d := by
  cases d with
  | tx d => simp [parseArm, bytesOfArm]
  | rx n => simp [parseArm, bytesOfArm]

@[simp] theorem andParse_ok {α : Type} (a : α) (r : List Byte) (f : α → List Byte → Except DecodeError Instr) :
    andParse (.ok (a, r)) f = f a r := rfl

@[simp] theorem finish_nil (i : Instr) : finish i [] = .ok i := rfl

/-! ## The fields of an address -/

/-- The high part of an address in an instance's window is the window's base, a multiple of 0x40 (R40, R131). -/
theorem window_high (b : Word) (off : BitVec 6) (h : b &&& 0x3F#32 = 0#32) :
    (b + off.setWidth 32) &&& 0xFFFFFFC0#32 = b := by
  have hl : ∀ j, j < 6 → b.getLsbD j = false := fun j hj => by
    have := congrArg (fun w : Word => w.getLsbD j) h
    have hm : (0x3F#32).getLsbD j = true := by
      have : ∀ j : Fin 6, (0x3F#32).getLsbD j.val = true := by decide
      exact this ⟨j, hj⟩
    simpa [BitVec.getLsbD_and, hm] using this
  have hz : b &&& off.setWidth 32 = 0#32 := by
    apply BitVec.eq_of_getLsbD_eq
    intro j _
    by_cases h6 : j < 6
    · simp [hl j h6]
    · simp [BitVec.getLsbD_of_ge off j (by omega)]
  rw [BitVec.add_eq_or_of_and_eq_zero _ _ hz]
  apply BitVec.eq_of_getLsbD_eq
  intro j hj
  have hm : (0xFFFFFFC0#32).getLsbD j = decide (6 ≤ j) := by
    have : ∀ j : Fin 32, (0xFFFFFFC0#32).getLsbD j.val = decide (6 ≤ j.val) := by decide
    exact this ⟨j, hj⟩
  by_cases h6 : 6 ≤ j
  · simp [BitVec.getLsbD_and, hm, h6]
  · simp [BitVec.getLsbD_and, hm, h6, hl j (by omega)]

/-- The low part is the offset. -/
theorem window_low (b : Word) (off : BitVec 6) (h : b &&& 0x3F#32 = 0#32) :
    (b + off.setWidth 32).extractLsb' 0 6 = off := by
  have hb : b.toNat % 64 = 0 := by
    have := congrArg BitVec.toNat h
    rw [BitVec.toNat_and] at this
    have e : (0x3F#32).toNat = 2 ^ 6 - 1 := rfl
    rw [e, Nat.and_two_pow_sub_one_eq_mod] at this
    simpa using this
  apply BitVec.eq_of_toNat_eq
  have := off.isLt
  simp only [BitVec.extractLsb'_toNat, BitVec.toNat_add, BitVec.toNat_setWidth, Nat.shiftRight_zero]
  omega

theorem extract_low (w : Word) : w.extractLsb' 0 2 = (w.extractLsb' 0 6).extractLsb' 0 2 := by
  apply BitVec.eq_of_getLsbD_eq
  intro j hj
  simp [hj]

/-- What a machine's windows being placed says of one of them (R40, R131). -/
theorem placed_inst {c : Config} (hp : c.placed = true) {k : Nat} (hk : k < c.insts.length) :
    (c.inst k).base &&& 0x3F#32 = 0#32 ∧ c.groupBase &&& 0xFFFFFFC0#32 ≠ (c.inst k).base
    ∧ (c.insts.findIdx? fun x => x.base == (c.inst k).base) = some k ∧ c.insts.length ≤ 32 := by
  simp only [Config.placed, Bool.and_eq_true, decide_eq_true_eq, List.all_eq_true, beq_iff_eq, bne_iff_ne] at hp
  obtain ⟨⟨⟨⟨hl, hn⟩, ha⟩, hd⟩, -⟩ := hp
  have hx : c.inst k = c.insts[k] := by simp [Config.inst, List.getD_eq_getElem?_getD, hk]
  have hm := ha _ (List.getElem_mem hk)
  rw [hx]
  refine ⟨hm.1, fun e => hm.2 e.symm, ?_, by omega⟩
  rw [List.findIdx?_eq_some_iff_getElem]
  refine ⟨hk, by simp, fun j hj => ?_⟩
  have hne := List.pairwise_iff_getElem.1 hd j k (by simp; omega) (by simpa using hk) hj
  simp only [List.getElem_map] at hne
  simpa using hne

/-- The place of an address inside the window of an existing instance (R131). -/
theorem placeOf_regAddr {c : Config} (hp : c.placed = true) (i : InstId) (off : BitVec 6)
    (hi : i.toNat < c.insts.length) (ho : off.extractLsb' 0 2 = 0#2) :
    c.placeOf (regAddr c i off) = .ok (match regAt off with | some r => .reg i r | none => .reserved i off) := by
  obtain ⟨hb, hg, hf, -⟩ := placed_inst hp hi
  have hw : c.windowOf (regAddr c i off) = some i := by
    simp [Config.windowOf, regAddr, window_high _ off hb, hf]
  have hn : regAddr c i off ≠ c.groupBase := fun e => hg (by rw [← e, regAddr, window_high _ off hb])
  have hl : (regAddr c i off).extractLsb' 0 6 = off := window_low _ off hb
  unfold Config.placeOf
  rw [if_neg hn, extract_low, hl, if_neg (by simp [ho]), hw]
  dsimp only
  cases regAt off <;> rfl

theorem placeOf_group (c : Config) : c.placeOf c.groupBase = .ok .group := by simp [Config.placeOf]

@[simp] theorem regAt_offset (r : Reg) : regAt r.offset = some r := by cases r <;> rfl

theorem offset_aligned (r : Reg) : r.offset.extractLsb' 0 2 = 0#2 := by cases r <;> rfl

/-- A reserved offset is aligned and names no register (R143). -/
theorem reserved_regAt (off : BitVec 6) (h : reservedOffset off = true) :
    regAt off = none ∧ off.extractLsb' 0 2 = 0#2 := by
  revert off
  decide

/-! ## The fields of a command word -/

/-- The bits of a command word. -/
theorem cmdWord_bit (c : Cmd) (en : BitVec 4) (al : Bool) (hi : BitVec 16) (j : Nat) (hj : j < 32) :
    (cmdWord c en al hi).getLsbD j = ((decide (16 ≤ j) && hi.getLsbD (j - 16)) || c.action.getLsbD j
      || (decide (6 ≤ j) && decide (j < 10) && en.getLsbD (j - 6)) || (decide (j = 10) && al)) := by
  simp only [cmdWord, BitVec.getLsbD_or, BitVec.getLsbD_append]
  have e1 : (if j < 16 then (0#16).getLsbD j else hi.getLsbD (j - 16)) = (decide (16 ≤ j) && hi.getLsbD (j - 16)) := by
    by_cases h : j < 16 <;> simp [h]; omega
  have e2 : (if j < 6 then (0#6).getLsbD j else if j - 6 < 4 then en.getLsbD (j - 6) else (0#22).getLsbD (j - 6 - 4)) =
      (decide (6 ≤ j) && decide (j < 10) && en.getLsbD (j - 6)) := by
    by_cases h : j < 6
    · simp [h]
    · by_cases h2 : j < 10
      · simp [h, h2, show j - 6 < 4 by omega]; omega
      · simp [h, h2, show ¬ j - 6 < 4 by omega]
  have e3 : (if j < 10 then (0#10).getLsbD j else if j - 10 < 1 then (BitVec.ofBool al).getLsbD (j - 10)
      else (0#21).getLsbD (j - 10 - 1)) = (decide (j = 10) && al) := by
    by_cases h : j < 10
    · simp [h]; omega
    · by_cases h2 : j = 10
      · subst h2; simp
      · simp [h, h2, show ¬ j - 10 < 1 by omega]
  rw [e1, e2, e3]

/-- No action part reaches above bit 11. -/
theorem action_high (c : Cmd) (j : Nat) (h : 12 ≤ j) : c.action.getLsbD j = false := by
  rw [← BitVec.testBit_toNat]
  refine Nat.testBit_lt_two_pow (Nat.lt_of_lt_of_le (m := 2 ^ 12) ?_ (Nat.pow_le_pow_right (by omega) h))
  cases c <;> decide

/-- No action part uses bits 10:6. -/
theorem action_gap (c : Cmd) (j : Fin 5) : c.action.getLsbD (6 + j.val) = false := by
  revert j; cases c <;> decide

/-- Every action part lies inside the mask that selects it. -/
theorem action_mask (c : Cmd) (j : Fin 32) : (c.action.getLsbD j.val && (0xF83F#32).getLsbD j.val)
    = c.action.getLsbD j.val := by
  revert j; cases c <;> decide

@[simp] theorem cmdEn_cmdWord (c : Cmd) (en : BitVec 4) (al : Bool) (hi : BitVec 16) :
    cmdEn (cmdWord c en al hi) = en := by
  apply BitVec.eq_of_getLsbD_eq
  intro j hj
  rw [cmdEn, BitVec.getLsbD_extractLsb', cmdWord_bit _ _ _ _ _ (by omega)]
  have := action_gap c ⟨j, by omega⟩
  simp only at this
  rw [this]
  simp [hj, show ¬ 16 ≤ 6 + j by omega, show 6 + j < 10 by omega, show ¬ 6 + j = 10 by omega]

@[simp] theorem cmdAlert_cmdWord (c : Cmd) (en : BitVec 4) (al : Bool) (hi : BitVec 16) :
    cmdAlert (cmdWord c en al hi) = al := by
  have : c.action.getLsbD 10 = false := action_gap c ⟨4, by omega⟩
  rw [cmdAlert, cmdWord_bit _ _ _ _ _ (by omega), this]
  simp

@[simp] theorem cmdHigh_cmdWord (c : Cmd) (en : BitVec 4) (al : Bool) (hi : BitVec 16) :
    cmdHigh (cmdWord c en al hi) = hi := by
  apply BitVec.eq_of_getLsbD_eq
  intro j hj
  rw [cmdHigh, BitVec.getLsbD_extractLsb', cmdWord_bit _ _ _ _ _ (by omega), action_high c _ (by omega)]
  simp [hj, show ¬ 16 + j < 10 by omega, show ¬ 16 + j = 10 by omega]

/-- The action part of a command word is its command's (R133). -/
theorem cmdWord_action (c : Cmd) (en : BitVec 4) (al : Bool) (hi : BitVec 16) :
    cmdWord c en al hi &&& 0xF83F#32 = c.action := by
  apply BitVec.eq_of_getLsbD_eq
  intro j hj
  have hm := action_mask c ⟨j, hj⟩
  simp only at hm
  rw [BitVec.getLsbD_and, cmdWord_bit _ _ _ _ _ hj]
  have hmask : (0xF83F#32).getLsbD j = true → ¬ 16 ≤ j ∧ ¬ (6 ≤ j ∧ j < 10) ∧ j ≠ 10 := by
    have : ∀ j : Fin 32, (0xF83F#32).getLsbD j.val = true → ¬ 16 ≤ j.val ∧ ¬ (6 ≤ j.val ∧ j.val < 10) ∧ j.val ≠ 10 := by
      decide
    exact this ⟨j, hj⟩
  cases hb : (0xF83F#32).getLsbD j with
  | false => rw [hb] at hm; simpa using hm
  | true =>
    obtain ⟨h1, h2, h3⟩ := hmask hb
    by_cases h6 : 6 ≤ j
    · simp [h1, h3, show ¬ j < 10 by omega]
    · simp [h1, h3, h6]

/-- A command is found exactly by its action part and an enable of its column: no two commands share one (R133). -/
theorem cmdOf_eq_some (w : Word) (c : Cmd) :
    cmdOf w = some c → w &&& 0xF83F#32 = c.action ∧ cmdEn w ∈ c.enables := by
  intro h
  have := List.find?_some h
  rw [Bool.and_eq_true, beq_iff_eq, List.contains_iff_mem] at this
  exact ⟨this.1.symm, this.2⟩

@[simp] theorem cmdOf_cmdWord (c : Cmd) (en : BitVec 4) (al : Bool) (hi : BitVec 16) (h : en ∈ c.enables) :
    cmdOf (cmdWord c en al hi) = some c := by
  unfold cmdOf
  rw [cmdWord_action, cmdEn_cmdWord]
  revert en
  cases c <;> decide

/-! ## The fields of a host request -/

theorem hostOpc_hostWord (o : Byte) (i : InstId) (a : BitVec 16) : hostOpc (hostWord o i a) = o := by
  apply BitVec.eq_of_getLsbD_eq
  intro j hj
  simp only [hostOpc, hostWord, BitVec.getLsbD_extractLsb', BitVec.getLsbD_append]
  rw [if_pos (by omega)]
  simp [hj]

theorem hostInst_hostWord (o : Byte) (i : InstId) (a : BitVec 16) : hostInst (hostWord o i a) = i := by
  apply BitVec.eq_of_getLsbD_eq
  intro j hj
  simp only [hostInst, hostWord, BitVec.getLsbD_extractLsb', BitVec.getLsbD_append]
  rw [if_neg (by omega), if_pos (by omega)]
  simp [hj]

theorem hostRes_hostWord (o : Byte) (i : InstId) (a : BitVec 16) : hostRes (hostWord o i a) = 0#3 := by
  apply BitVec.eq_of_getLsbD_eq
  intro j hj
  simp only [hostRes, hostWord, BitVec.getLsbD_extractLsb', BitVec.getLsbD_append]
  rw [if_neg (by omega), if_neg (by omega), if_pos (by omega)]
  simp

theorem hostA_hostWord (o : Byte) (i : InstId) (a : BitVec 16) : hostA (hostWord o i a) = a := by
  apply BitVec.eq_of_getLsbD_eq
  intro j hj
  simp only [hostA, hostWord, BitVec.getLsbD_extractLsb', BitVec.getLsbD_append]
  rw [if_neg (by omega), if_neg (by omega), if_neg (by omega)]
  simp only [hj, decide_true, Bool.true_and]
  rw [show 16 + j - 8 - 5 - 3 = j by omega]

/-! ## Whole frames -/

variable {c : Config}

theorem decode_frameRd (hp : c.placed = true) (i : InstId) (r : Reg) (hi : i.toNat < c.insts.length) :
    decode c (frameRd (regAddr c i r.offset)) = .ok (rdInstr i r) := by
  simp [decode, frameRd, decodeReg, placeOf_regAddr hp i _ hi (offset_aligned r)]

theorem decode_frameWr (hp : c.placed = true) (i : InstId) (r : Reg) (v : Word) (hi : i.toNat < c.insts.length) :
    decode c (frameWr (regAddr c i r.offset) v) = .ok (wrInstr i v r) := by
  simp [decode, frameWr, decodeReg, placeOf_regAddr hp i _ hi (offset_aligned r)]

theorem decode_rdReserved (hp : c.placed = true) (i : InstId) (off : BitVec 6) (hi : i.toNat < c.insts.length)
    (ho : reservedOffset off = true) : decode c (frameRd (regAddr c i off)) = .ok (.rdReserved i off) := by
  obtain ⟨hr, ha⟩ := reserved_regAt off ho
  simp [decode, frameRd, decodeReg, placeOf_regAddr hp i _ hi ha, hr]

theorem decode_wrReserved (hp : c.placed = true) (i : InstId) (off : BitVec 6) (v : Word)
    (hi : i.toNat < c.insts.length) (ho : reservedOffset off = true) :
    decode c (frameWr (regAddr c i off) v) = .ok (.wrReserved i off v) := by
  obtain ⟨hr, ha⟩ := reserved_regAt off ho
  simp [decode, frameWr, decodeReg, placeOf_regAddr hp i _ hi ha, hr]

theorem decode_frameCmd (i : InstId) (x : Cmd) (en : BitVec 4) (al : Bool) (hi : BitVec 16) (h : en ∈ x.enables) :
    decode c (frameCmd i (cmdWord x en al hi)) = .ok (cmdInstr i en al hi x) := by
  simp [decode, frameCmd, decodeCmd, h]

theorem decode_frameSts (i : InstId) (st : Byte) (w : Word) (x : Instr) (h : stsInstr i st w = .ok x) :
    decode c (frameSts i st w) = .ok x := by
  simp [decode, frameSts, decodeSts, h]

theorem decode_frameLine (i : InstId) (w : Word) : decode c (frameLine i w) = .ok (lineInstr i w) := by
  simp [decode, frameLine, decodeLine]

theorem decode_frameHost (w0 w1 w2 : Word) :
    decode c (frameHost w0 w1 w2) = .ok ((hostOf w0 w1 w2).getD (.reservedHost w0 w1 w2)) := by
  simp [decode, frameHost, decodeHost]

end Sys2Proof
end

