-- ==== Sys2Proof/Laws/Run.lean ====
section
/-! SUPPORT. Running operations on one instance: a state is `s.put k x o n r`, and each operation used by the meanings
takes such a state to such a state, so that a meaning evaluates by rewriting. -/

namespace Sys2Proof.Machine

open Sys2Proof

section put

variable (s : State) (k : Nat) (x y : Inst) (o p : Option (Nat × Side)) (n m : Nat) (r q : Ret)

/-- A state is itself with instance k put back. -/
theorem put_self (h : s.insts[k]? = some x) : s.put k x s.poolOwner s.draws s.ret = s := by
  cases s
  simp only [State.put, State.mk.injEq, true_and, and_true]
  obtain ⟨hk, rfl⟩ := List.getElem?_eq_some_iff.1 h
  simp

@[simp] theorem put_cfg : (s.put k x o n r).cfg = s.cfg := rfl
@[simp] theorem put_pool : (s.put k x o n r).pool = s.pool := rfl
@[simp] theorem put_dma : (s.put k x o n r).dma = s.dma := rfl
@[simp] theorem put_mem : (s.put k x o n r).mem = s.mem := rfl
@[simp] theorem put_owner : (s.put k x o n r).poolOwner = o := rfl
@[simp] theorem put_draws : (s.put k x o n r).draws = n := rfl
@[simp] theorem put_ret : (s.put k x o n r).ret = r := rfl
@[simp] theorem put_inbox : (s.put k x o n r).inbox = s.inbox := rfl
@[simp] theorem put_length : (s.put k x o n r).insts.length = s.insts.length := by simp [State.put]
@[simp] theorem put_put : (s.put k x o n r).put k y p m q = s.put k y p m q := by simp [State.put]

/-- The instance that was put. -/
theorem put_get (hk : k < s.insts.length) : (s.put k x o n r).insts[k]? = some x := by simp [State.put, hk]

/-- Another instance is as it was. -/
theorem put_other (j : Nat) (h : j ≠ k) : (s.put k x o n r).insts[j]? = s.insts[j]? := by
  simp [State.put, Ne.symm h]

theorem updInst_put (f : Inst → Inst) (hk : k < s.insts.length) :
    (s.put k x o n r).updInst k f = s.put k (f x) o n r := by
  simp only [State.put, State.updInst, State.mk.injEq, true_and, and_true]
  apply List.ext_getElem?
  intro j
  rw [List.getElem?_modify, List.getElem?_set, List.getElem?_set]
  by_cases h : k = j
  · subst h; simp [hk]
  · simp [h]

theorem getInst_put (hk : k < s.insts.length) : getInst k (s.put k x o n r) = .ok (x, s.put k x o n r) :=
  op_getInst _ k x (put_get s k x o n r hk)

theorem draw_put : draw (s.put k x o n r) = .ok (n, s.put k x o (n + 1) r) := rfl

@[simp] theorem put_setPool (b : Memory) :
    ({ s.put k x o n r with pool := b } : State) = ({ s with pool := b }).put k x o n r := rfl
@[simp] theorem put_setDma (b : Memory) :
    ({ s.put k x o n r with dma := b } : State) = ({ s with dma := b }).put k x o n r := rfl
@[simp] theorem put_setMem (b : Memory) :
    ({ s.put k x o n r with mem := b } : State) = ({ s with mem := b }).put k x o n r := rfl
theorem put_setDraws : ({ s.put k x o n r with draws := m } : State) = s.put k x o m r := rfl
theorem put_setRet : ({ s.put k x o n r with ret := q } : State) = s.put k x o n q := rfl

theorem poolWrite_put (bs : List Byte) : poolWrite bs (s.put k x o n r) =
    .ok ((), ({ s with pool := Memory.writeN s.pool 0 bs }).put k x o n r) := rfl

theorem dmaWrite_put (a : Nat) (bs : List Byte) (h : a + bs.length ≤ spaceSize) : dmaWrite a bs (s.put k x o n r) =
    .ok ((), ({ s with dma := Memory.writeN s.dma a bs }).put k x o n r) := by
  unfold dmaWrite; rw [if_pos h]; rfl

theorem hostWrite_put (a : Nat) (bs : List Byte) (h : a + bs.length ≤ spaceSize) : hostWrite a bs (s.put k x o n r) =
    .ok ((), ({ s with mem := Memory.writeN s.mem a bs }).put k x o n r) := by
  unfold hostWrite; rw [if_pos h]; rfl

theorem poolRead_put (j : Nat) (d : List Byte) (h : s.pool.bytes 0 j = some d) :
    poolRead j (s.put k x o n r) = .ok (d, s.put k x o n r) := by
  simp only [poolRead, op_bind, op_getState]; exact op_memBytes _ _ _ _ _ h

theorem dmaRead_put (a j : Nat) (d : List Byte) (h : s.dma.bytes a j = some d) :
    dmaRead a j (s.put k x o n r) = .ok (d, s.put k x o n r) := by
  simp only [dmaRead, op_bind, op_getState]; exact op_memBytes _ _ _ _ _ h

theorem hostRead_put (a j : Nat) (d : List Byte) (h : s.mem.bytes a j = some d) :
    hostRead a j (s.put k x o n r) = .ok (d, s.put k x o n r) := by
  simp only [hostRead, op_bind, op_getState]; exact op_memBytes _ _ _ _ _ h

theorem regRead_put (g : Reg) (hk : k < s.insts.length) (hd : g ≠ .dmaLen ∨ x.dmaInFlight = none) :
    regRead k g (s.put k x o n r) = .ok (x.view g, s.put k x o n r) :=
  op_regRead _ k g x (put_get s k x o n r hk) hd

theorem needM_put (hk : k < s.insts.length) (hl : x.lockM = none) :
    needM k (s.put k x o n r) = .ok ((), s.put k x o n r) := op_needM _ k x (put_get s k x o n r hk) hl

theorem needM_put_held (hk : k < s.insts.length) (hl : x.lockM ≠ none) :
    needM k (s.put k x o n r) = .error (.refuse .lockHeld) := op_needM_held _ k x (put_get s k x o n r hk) hl

theorem needS_put (hk : k < s.insts.length) (hl : x.lockS = none) :
    needS k (s.put k x o n r) = .ok ((), s.put k x o n r) := op_needS _ k x (put_get s k x o n r hk) hl

theorem needLocks_put (hk : k < s.insts.length) (hl : x.Unlocked) :
    needLocks k (s.put k x o n r) = .ok ((), s.put k x o n r) := by
  simp only [needLocks, op_bind, needM_put _ _ _ _ _ _ hk hl.1, needS_put _ _ _ _ _ _ hk hl.2]

theorem needLoan_put (d : Side) (hk : k < s.insts.length) (hl : x.loan d = true) :
    needLoan k d (s.put k x o n r) = .ok ((), s.put k x o n r) := op_needLoan _ k d x (put_get s k x o n r hk) hl

theorem needSlave_put (h : s.cfg.slavePresent = true) :
    needSlave (s.put k x o n r) = .ok ((), s.put k x o n r) := by
  simp [needSlave, h]

/-- A step of an existing instance is its operation's outcome. -/
theorem stepOn_put (i : InstId) (op : Nat → Op Ret) (h : s.Has i x) :
    stepOn i op s = runOp (op i.toNat) (s.put i.toNat x s.poolOwner s.draws s.ret) := by
  unfold State.Has at h
  rw [put_self s i.toNat x h]
  unfold stepOn runOp
  rw [op_bind, op_getInst s _ x h]

/-- A host request of an existing instance is its operation's outcome. -/
theorem hostCall_put (i : InstId) (op : Nat → Op Ret) (h : s.Has i x) :
    hostCall i op s = runOp (op i.toNat) (s.put i.toNat x s.poolOwner s.draws s.ret) := by
  unfold State.Has at h
  rw [put_self s i.toNat x h]
  have : i.toNat < s.insts.length := (List.getElem?_eq_some_iff.1 h).1
  unfold hostCall
  rw [if_pos this]

/-- An instance that exists has a place. -/
theorem has_lt (i : InstId) (h : s.Has i x) : i.toNat < s.insts.length := (List.getElem?_eq_some_iff.1 h).1

/-- The outcome of an operation that ends on instance k. -/
theorem runOp_put (op : Op Ret) (t : State) (h : op t = .ok (q, s.put k x o n r)) :
    runOp op t = .next (s.put k x o n q) := by
  rw [runOp_ok t op q _ h]; rfl

/-- A step of an existing instance, run. -/
theorem step_run {t : State} {i : InstId} {op : Nat → Op Ret} (h : s.Has i x)
    (he : op i.toNat (s.put i.toNat x s.poolOwner s.draws s.ret) = .ok (q, t.put i.toNat y o n s.ret)) :
    stepOn i op s = .next (t.put i.toNat y o n q) := by
  rw [stepOn_put s x i op h]; exact runOp_put t i.toNat y o n s.ret q _ _ he

/-- A host request of an existing instance, run. -/
theorem call_run {t : State} {i : InstId} {op : Nat → Op Ret} (h : s.Has i x)
    (he : op i.toNat (s.put i.toNat x s.poolOwner s.draws s.ret) = .ok (q, t.put i.toNat y o n s.ret)) :
    hostCall i op s = .next (t.put i.toNat y o n q) := by
  rw [hostCall_put s x i op h]; exact runOp_put t i.toNat y o n s.ret q _ _ he

/-- Nothing but the value returned changes. -/
theorem put_same (i : InstId) (h : s.Has i x) : s.put i.toNat x s.poolOwner s.draws q = { s with ret := q } := by
  rw [← put_setRet s i.toNat x s.poolOwner s.draws s.ret q, put_self s i.toNat x h]

end put

/-! ## The pool loan -/

section loan

variable (s : State) (k : Nat) (x : Inst) (o : Option (Nat × Side)) (n : Nat) (r : Ret) (d : Side)

theorem setLoan_put (b : Bool) (hk : k < s.insts.length) :
    setLoan k d b (s.put k x o n r) = .ok ((), s.put k (x.setLoan d b) o n r) := by
  cases d <;> simp [setLoan, updInst_put, hk, Inst.setLoan]

/-- POOL_ACQ: granted exactly when nobody owns the page (R277). -/
theorem poolAcq_put (hk : k < s.insts.length) : poolAcq k d (s.put k x o n r) =
    if o.isNone then .ok (true, s.put k (x.setLoan d true) (some (k, d)) n r) else .ok (false, s.put k x o n r) := by
  cases o with
  | none =>
    have h : ({ s.put k x none n r with poolOwner := some (k, d) } : State) = s.put k x (some (k, d)) n r := rfl
    show (do setLoan k d true; pure true : Op Bool) ({ s.put k x none n r with poolOwner := some (k, d) } : State) = _
    rw [h, op_bind, setLoan_put _ _ _ _ _ _ _ _ hk]
    rfl
  | some p => rfl

/-- A side without a loan has nothing to give back. -/
theorem setLoan_same (h : x.loan d = false) : x.setLoan d false = x := by
  cases d <;> simp only [Inst.loan] at h <;> simp only [Inst.setLoan] <;> rw [← h]

/-- POOL_REL: the loan, if there is one, is given back; the bit is 0 either way (R278). -/
theorem poolRel_put (hk : k < s.insts.length) : poolRel k d (s.put k x o n r) =
    .ok ((), s.put k (x.setLoan d false) (x.release d o) n r) := by
  simp only [poolRel, op_bind, getInst_put _ _ _ _ _ _ hk, Inst.release]
  split
  · rename_i h
    simp only [op_bind, op_modState]
    have : ({ s.put k x o n r with poolOwner := none } : State) = s.put k x none n r := rfl
    rw [this, setLoan_put _ _ _ _ _ _ _ _ hk]
  · rename_i h
    rw [setLoan_same x d (by simpa using h)]
    rfl

end loan

/-! ## FUN_CTRL and the resets -/

/-- The core after a write of FUN_CTRL over `old`, its line levels the free values from the n-th on. -/
def Core.wrFun (c : Core) (old new : Word) (n : Nat) : Core :=
  let m := old.getLsbD 0 && !new.getLsbD 0
  let a := if m then c.resetMaster (Config.freeBit n) (Config.freeBit (n + 1)) (Config.freeBit (n + 2)) else c
  let j := if m then n + 3 else n
  if old.getLsbD 1 && !new.getLsbD 1 then
    a.resetSlave (Config.freeBit j) (Config.freeBit (j + 1)) (Config.freeBit (j + 2))
  else a

/-- The count of free values after a write of FUN_CTRL. -/
def funDraws (old new : Word) (n : Nat) : Nat :=
  let j := if old.getLsbD 0 && !new.getLsbD 0 then n + 3 else n
  if old.getLsbD 1 && !new.getLsbD 1 then j + 3 else j

/-- The core after a FUN_CTRL write, for some levels of the lines (R229). -/
theorem wrFun_after (c : Core) (old new : Word) (n : Nat) :
    ∃ a b d, c.wrFun old new n = c.afterFun old new a b d := by
  unfold Core.wrFun Core.afterFun
  cases (old.getLsbD 0 && !new.getLsbD 0) <;> cases (old.getLsbD 1 && !new.getLsbD 1)
  · exact ⟨true, true, true, rfl⟩
  · exact ⟨Config.freeBit n, Config.freeBit (n + 1), Config.freeBit (n + 2), rfl⟩
  · exact ⟨Config.freeBit n, Config.freeBit (n + 1), Config.freeBit (n + 2), rfl⟩
  · exact ⟨Config.freeBit (n + 3), Config.freeBit (n + 4), Config.freeBit (n + 5), rfl⟩

/-- A write that turns neither enable off changes nothing in the core (R172). -/
theorem wrFun_keep (c : Core) (old new : Word) (n : Nat) (h0 : old.getLsbD 0 = true → new.getLsbD 0 = true)
    (h1 : old.getLsbD 1 = true → new.getLsbD 1 = true) : c.wrFun old new n = c ∧ funDraws old new n = n := by
  unfold Core.wrFun funDraws
  cases h2 : old.getLsbD 0 <;> cases h3 : old.getLsbD 1 <;> simp_all

section funCtrl

variable (s : State) (k : Nat) (x : Inst) (o : Option (Nat × Side)) (n : Nat) (r : Ret)

theorem regWrite_funCtrl_put (v : Word) (hk : k < s.insts.length) :
    regWrite k .funCtrl v (s.put k x o n r) = .ok ((), s.put k
      { x with regs := { x.regs with funCtrl := v }, core := x.core.wrFun x.regs.funCtrl v n
               outs := x.noted .funCtrl v } o (funDraws x.regs.funCtrl v n) r) := by
  simp only [regWrite, op_bind, op_noteWrite, updInst_put _ _ _ _ _ _ _ hk, writeFunCtrl,
    getInst_put _ _ _ _ _ _ hk, op_modRegs, op_whenB, Core.wrFun, funDraws]
  by_cases h0 : (x.regs.funCtrl.getLsbD 0 && !v.getLsbD 0) = true <;>
  by_cases h1 : (x.regs.funCtrl.getLsbD 1 && !v.getLsbD 1) = true <;>
  simp only [h0, h1, if_true, Bool.false_eq_true, if_false, coreResetMaster, coreResetSlave, op_bind, draw_put,
    op_modCore, updInst_put _ _ _ _ _ _ _ hk] <;> rfl

/-- Clearing both enables and putting them back (R428). -/
theorem ctrlReset_put (hk : k < s.insts.length) : ∃ a b d j,
    ctrlReset k (s.put k x o n r) = .ok ((), s.put k (x.ctrlReset a b d) o j r) := by
  have hmask : ∀ w : Word, w &&& ~~~(MASTER_EN ||| SLAVE_EN) = w &&& 0xFFFFFFFC#32 := fun _ => rfl
  have hb : ∀ (w : Word) (j : Nat), j < 2 → (w &&& 0xFFFFFFFC#32).getLsbD j = false := by
    intro w j hj
    have : ∀ j : Fin 2, (0xFFFFFFFC#32).getLsbD j.val = false := by decide
    rw [BitVec.getLsbD_and, this ⟨j, hj⟩, Bool.and_false]
  obtain ⟨a, b, d, h⟩ := wrFun_after x.core x.regs.funCtrl (x.regs.funCtrl &&& 0xFFFFFFFC#32) n
  refine ⟨a, b, d, funDraws x.regs.funCtrl (x.regs.funCtrl &&& 0xFFFFFFFC#32) n, ?_⟩
  simp only [ctrlReset, op_bind, regRead_put _ _ _ _ _ _ .funCtrl hk (.inl (by decide)),
    regWrite_funCtrl_put _ _ _ _ _ _ _ hk, hmask, Inst.view]
  obtain ⟨h1, h2⟩ := wrFun_keep (x.core.wrFun x.regs.funCtrl (x.regs.funCtrl &&& 0xFFFFFFFC#32) n)
    (x.regs.funCtrl &&& 0xFFFFFFFC#32) x.regs.funCtrl
    (funDraws x.regs.funCtrl (x.regs.funCtrl &&& 0xFFFFFFFC#32) n)
    (fun h => absurd h (by rw [hb _ 0 (by omega)]; decide)) (fun h => absurd h (by rw [hb _ 1 (by omega)]; decide))
  rw [h1, h2, h]
  simp [Inst.ctrlReset, Inst.noted, Inst.notedAll]

theorem w1c_all (w : Word) : w1c w 0xFFFFFFFF#32 = 0#32 := by
  have : ~~~(0xFFFFFFFF#32) = 0#32 := by decide
  simp [w1c, this]

/-- TIMING_INIT (R244). -/
theorem timingInit_put (hk : k < s.insts.length) : timingInit k (s.put k x o n r) =
    .ok ((), s.put k (x.timed s.cfg (s.cfg.inst k)) o n r) := by
  simp [timingInit, timingWord, updInst_put _ _ _ _ _ _ _ hk, Inst.timed, Inst.noted, Inst.notedAll, w1c_all]

/-- S_ABORT (R357). -/
theorem sAbort_put (hk : k < s.insts.length) : sAbort k (s.put k x o n r) =
    .ok ((), s.put k x.aborted (x.release .slave o) n r) := by
  simp only [sAbort, op_bind, op_modSlave, updInst_put _ _ _ _ _ _ _ hk, poolRel_put _ _ _ _ _ _ _ hk, op_modMaster]
  cases h : x.slave.sCur <;> simp only [discardOpen, h] <;>
    (simp only [Inst.aborted, Inst.setLoan, Inst.release, Inst.loan, modSlot, h]; rfl)

/-- BUS_RESET (R429). -/
theorem busReset_put (hk : k < s.insts.length) : ∃ a b d j, busReset k (s.put k x o n r) =
    .ok ((), s.put k (x.busReset s.cfg (s.cfg.inst k) a b d) (x.resetOwner s.cfg o) j r) := by
  obtain ⟨a, b, d, j, h⟩ := ctrlReset_put s k x o n r hk
  refine ⟨a, b, d, j, ?_⟩
  simp only [busReset, op_bind, h, timingInit_put _ _ _ _ _ _ hk, op_getCfg, put_cfg, op_whenB,
    sAbort_put _ _ _ _ _ _ hk, Inst.busReset, Inst.resetOwner]
  split <;> rfl

end funCtrl

/-! ## Command words of the engine -/

/-- The XFER_STATE a command shows, its code the n-th free value. -/
def codeAt (c : Cmd) (n : Nat) : XferState :=
  if cmdIsMaster c then .master (Config.freeMasterCode n) else .slave (Config.freeSlaveCode n)

theorem codeAt_side (c : Cmd) (n : Nat) : sideCode c (codeAt c n) := by
  unfold sideCode codeAt
  split <;> simp_all [XferState.isMaster, XferState.isSlave]

/-- The level bit of CMD as it reads (R177). -/
theorem cmdView_level (x : Inst) : x.cmdView &&& 0x400#32 = if x.regs.alertEn then 0x400#32 else 0#32 := by
  have hbit : ∀ (w : Word), w &&& 0x400#32 = if w.getLsbD 10 then 0x400#32 else 0#32 := by
    intro w
    have h4 : ∀ j : Fin 32, (0x400#32).getLsbD j.val = decide (j.val = 10) := by decide
    apply BitVec.eq_of_getLsbD_eq
    intro j hj
    rw [BitVec.getLsbD_and, h4 ⟨j, hj⟩]
    by_cases h : j = 10
    · subst h; cases w.getLsbD 10 <;> simp
    · have := h4 ⟨j, hj⟩
      simp only at this
      cases w.getLsbD 10 <;> simp [h, this]
  rw [hbit]
  have : x.cmdView.getLsbD 10 = x.regs.alertEn := by
    unfold Inst.cmdView
    simp only [BitVec.getLsbD_or, BitVec.getLsbD_shiftLeft]
    have ha : ∀ c : Cmd, c.action.getLsbD 10 = false := fun c => action_gap c ⟨4, by omega⟩
    have he : ∀ e : BitVec 4, (0#22 ++ e ++ 0#6).getLsbD 10 = false := by decide
    rw [he]
    cases x.core.inflight <;> simp only [ha] <;>
    cases x.core.sda <;> cases x.core.scl <;> cases x.core.busy <;> cases x.regs.alertEn <;> rfl
  rw [this]

/-- BUS_BUSY and SDA of a CMD read (R46, R177). -/
theorem cmdView_lines (x : Inst) : x.cmdView.getLsbD 16 = x.core.busy ∧ x.cmdView.getLsbD 18 = x.core.sda := by
  have ha : ∀ c : Cmd, c.action.getLsbD 16 = false ∧ c.action.getLsbD 18 = false := by intro c; cases c <;> decide
  have he : ∀ e : BitVec 4, (0#22 ++ e ++ 0#6).getLsbD 16 = false ∧ (0#22 ++ e ++ 0#6).getLsbD 18 = false := by decide
  unfold Inst.cmdView
  simp only [BitVec.getLsbD_or, BitVec.getLsbD_shiftLeft, (he _).1, (he _).2]
  cases x.core.inflight <;> simp only [(ha _).1, (ha _).2] <;>
  cases x.core.sda <;> cases x.core.scl <;> cases x.core.busy <;> cases x.regs.alertEn <;> exact ⟨rfl, rfl⟩

/-- A command word as the engine puts it together (R263, R285). -/
theorem word_of_parts (c : Cmd) (al : Bool) :
    (c.action ||| if al then 0x400#32 else 0#32) = cmdWord c 0#4 al 0#16
    ∧ (c.action ||| 0x040#32 ||| if al then 0x400#32 else 0#32) = cmdWord c 1#4 al 0#16
    ∧ (c.action ||| 0x080#32 ||| if al then 0x400#32 else 0#32) = cmdWord c 2#4 al 0#16
    ∧ (c.action ||| 0x100#32 ||| if al then 0x400#32 else 0#32) = cmdWord c 4#4 al 0#16
    ∧ (c.action ||| 0x200#32 ||| if al then 0x400#32 else 0#32) = cmdWord c 8#4 al 0#16 := by
  cases c <;> cases al <;> decide

section send

variable (s : State) (k : Nat) (x : Inst) (o : Option (Nat × Side)) (n : Nat) (r : Ret) (c : Cmd) (en : BitVec 4)

/-- The count of free values after a command word. -/
def sendDraws (x : Inst) (c : Cmd) (n : Nat) : Nat := if x.enabled c then n + 1 else n

/-- A command word written while nothing is in flight: in flight with its count and data when its side is enabled,
ignored otherwise (R202). -/
theorem regWrite_cmd_put (j : Nat) (d : List Byte) (hk : k < s.insts.length) (hc : c ≠ .nop) (hen : en ∈ c.enables)
    (hf : x.core.inflight = none)
    (hd : x.enabled c = true → j = cmdCount x s.cfg (s.cfg.inst k) c (pathOf en)
      ∧ ((cmdIsTx c || cmdIsRx c) = true → 1 ≤ j ∧ j ≤ maxPath s.cfg (pathOf en))
      ∧ s.sampled x c (pathOf en) j = some d) :
    regWrite k .cmd (cmdWord c en x.regs.alertEn 0#16) (s.put k x o n r) =
      .ok ((), s.put k (x.sends c en j d (codeAt c n)) o (sendDraws x c n) r) := by
  have hw := cmdOf_cmdWord c en x.regs.alertEn 0#16 hen
  have hg := put_get s k x o n r hk
  cases he : x.enabled c with
  | true =>
    obtain ⟨hj, hl, hs⟩ := hd he
    have ha : Accepts (s.put k x o n r) x (s.cfg.inst k) c en d := ⟨hf, he, fun h => hj ▸ hl h, hj ▸ hs⟩
    rw [op_regWrite_issue (s.put k x o n r) k _ x c d hg hw hc (by rw [cmdEn_cmdWord]; exact ha)]
    simp only [updInst_put _ _ _ _ _ _ _ hk, put_draws, put_cfg, cmdEn_cmdWord, cmdAlert_cmdWord,
      Inst.sends, Core.takes, he, if_true, sendDraws, Core.issue, codeAt, ← hj]
    cases cmdHasStart c <;> rfl
  | false =>
    rw [op_regWrite_disabled (s.put k x o n r) k _ x c hg hw hc hf he]
    simp only [updInst_put _ _ _ _ _ _ _ hk, cmdEn_cmdWord, cmdAlert_cmdWord, Inst.sends, Core.takes, he, sendDraws]
    rfl

/-- The engine's C.NOP (R214, R285). -/
theorem engineNop_put (hk : k < s.insts.length) :
    engineCmd k (Cmd.action .nop) (s.put k x o n r) = .ok ((), s.put k x.rearmed o n r) := by
  simp only [engineCmd, op_bind, regRead_put _ _ _ _ _ _ .cmd hk (.inl (by decide)), Inst.view, cmdView_level,
    (word_of_parts .nop x.regs.alertEn).1]
  rw [op_regWrite_nop _ _ _ (cmdOf_cmdWord _ _ _ _ (by decide)), updInst_put _ _ _ _ _ _ _ hk]
  simp [Inst.rearmed]

/-- The engine's command word w = A with the enables en, the level kept (R263, R285). -/
theorem engineCmd_put (w : Word) (j : Nat) (d : List Byte) (hk : k < s.insts.length)
    (hw : (w ||| if x.regs.alertEn then 0x400#32 else 0#32) = cmdWord c en x.regs.alertEn 0#16)
    (hc : c ≠ .nop) (hen : en ∈ c.enables) (hf : x.core.inflight = none)
    (hd : x.enabled c = true → j = cmdCount x s.cfg (s.cfg.inst k) c (pathOf en)
      ∧ ((cmdIsTx c || cmdIsRx c) = true → 1 ≤ j ∧ j ≤ maxPath s.cfg (pathOf en))
      ∧ s.sampled x c (pathOf en) j = some d) :
    engineCmd k w (s.put k x o n r) =
      .ok ((), s.put k (x.sends c en j d (codeAt c n)) o (sendDraws x c n) r) := by
  simp only [engineCmd, op_bind, regRead_put _ _ _ _ _ _ .cmd hk (.inl (by decide)), Inst.view, cmdView_level, hw]
  exact regWrite_cmd_put s k x o n r c en j d hk hc hen hf hd

/-- The engine's C.STOP (R210, R285). -/
theorem engineStop_put (hk : k < s.insts.length) (hf : x.core.inflight = none) :
    engineCmd k (Cmd.action .stop) (s.put k x o n r) =
      .ok ((), s.put k (x.sends .stop 0#4 0 [] (codeAt .stop n)) o (sendDraws x .stop n) r) :=
  engineCmd_put s k x o n r .stop 0#4 _ 0 [] hk (word_of_parts .stop x.regs.alertEn).1 (by decide) (by decide) hf
    (fun _ => ⟨rfl, fun h => absurd h (by decide), rfl⟩)

/-- The engine's C.RECOVER (R213, R285). -/
theorem engineRecover_put (hk : k < s.insts.length) (hf : x.core.inflight = none) :
    engineCmd k (Cmd.action .recover) (s.put k x o n r) =
      .ok ((), s.put k (x.sends .recover 0#4 0 [] (codeAt .recover n)) o (sendDraws x .recover n) r) :=
  engineCmd_put s k x o n r .recover 0#4 _ 0 [] hk (word_of_parts .recover x.regs.alertEn).1 (by decide) (by decide) hf
    (fun _ => ⟨rfl, fun h => absurd h (by decide), rfl⟩)

end send

/-! ## Programming a chunk (R264 to R267) -/

section prog

variable (s : State) (i : InstId) (x : Inst) (o : Option (Nat × Side)) (n : Nat) (r : Ret) (c : Cmd)

/-- The enables of a transmit (R133). -/
theorem tx_enables (h : cmdIsTx c = true) : (0#4 ∈ c.enables) ∧ (1#4 ∈ c.enables) ∧ (4#4 ∈ c.enables) ∧ c ≠ .nop := by
  cases c <;> first | exact absurd h (by decide) | decide

/-- The enables of a receive (R133); C.S_RX has none in byte mode. -/
theorem rx_enables (h : cmdIsRx c = true) :
    (c ≠ .sRx → 0#4 ∈ c.enables) ∧ (2#4 ∈ c.enables) ∧ (8#4 ∈ c.enables) ∧ c ≠ .nop ∧ cmdIsTx c = false := by
  cases c <;> first | exact absurd h (by decide) | decide

/-- The TX_LEN field a transmit's BUF_CTRL write leaves (R179, R265). -/
theorem bufSet_tx (b : Word) (j : Nat) (h : j < 1024) :
    ((((BitVec.ofNat 32 j &&& 0xC00FFFFF#32) ||| (b &&& 0x3FF00000#32)) : Word).extractLsb' 0 10).toNat = j := by
  have : (((BitVec.ofNat 32 j &&& 0xC00FFFFF#32) ||| (b &&& 0x3FF00000#32)) : Word).extractLsb' 0 10
      = BitVec.ofNat 10 j := by
    apply BitVec.eq_of_getLsbD_eq
    intro q hq
    have h1 : ∀ q : Fin 10, (0xC00FFFFF#32).getLsbD q.val = true := by decide
    have h2 : ∀ q : Fin 10, (0x3FF00000#32).getLsbD q.val = false := by decide
    simp only [BitVec.getLsbD_extractLsb', BitVec.getLsbD_or, BitVec.getLsbD_and, BitVec.getLsbD_ofNat, Nat.zero_add,
      h1 ⟨q, hq⟩, h2 ⟨q, hq⟩]
    simp [hq, show q < 32 by omega]
  rw [this, BitVec.toNat_ofNat, Nat.mod_eq_of_lt h]

/-- The RX_SIZE field a receive's BUF_CTRL write leaves (R179, R265). -/
theorem bufSet_rx (b : Word) (j : Nat) (h : j < 1024) :
    ((((BitVec.ofNat 32 j <<< 10 &&& 0xC00FFFFF#32) ||| (b &&& 0x3FF00000#32)) : Word).extractLsb' 10 10).toNat = j := by
  have : (((BitVec.ofNat 32 j <<< 10 &&& 0xC00FFFFF#32) ||| (b &&& 0x3FF00000#32)) : Word).extractLsb' 10 10
      = BitVec.ofNat 10 j := by
    apply BitVec.eq_of_getLsbD_eq
    intro q hq
    have h1 : ∀ q : Fin 10, (0xC00FFFFF#32).getLsbD (10 + q.val) = true := by decide
    have h2 : ∀ q : Fin 10, (0x3FF00000#32).getLsbD (10 + q.val) = false := by decide
    simp only [BitVec.getLsbD_extractLsb', BitVec.getLsbD_or, BitVec.getLsbD_and, BitVec.getLsbD_ofNat,
      BitVec.getLsbD_shiftLeft, h1 ⟨q, hq⟩, h2 ⟨q, hq⟩]
    simp [hq, show 10 + q < 32 by omega, show q < 32 by omega]
  rw [this, BitVec.toNat_ofNat, Nat.mod_eq_of_lt h]

/-- What was written to a space is read back whole. -/
theorem bytes_writeN (m : Memory) (a : Nat) (bs : List Byte) (h : a + bs.length ≤ spaceSize) :
    (Memory.writeN m a bs).bytes a bs.length = some bs := by
  unfold Memory.bytes; rw [if_pos h, readN_writeN]

/-- The three ways a command's path is chosen by an engine's enable (R202). -/
theorem paths : pathOf 0#4 = .byte ∧ pathOf 1#4 = .buf ∧ pathOf 2#4 = .buf ∧ pathOf 4#4 = .dma ∧ pathOf 8#4 = .dma := by
  decide

theorem maxPath_values (g : Config) : maxPath g .byte = 1 ∧ maxPath g .buf = g.poolPage ∧ maxPath g .dma = g.dmaWin :=
  ⟨rfl, rfl, rfl⟩

/-- A transmit is programmed in byte mode (R264). -/
theorem progByteTx_put (b : Byte) (hk : i.toNat < s.insts.length) (ht : cmdIsTx c = true)
    (hf : x.core.inflight = none) : progByte i.toNat c.action (some b) (s.put i.toNat x o n r) =
    .ok ((), s.put i.toNat ((x.byteSet b).sends c 0#4 1 [b] (codeAt c n)) o (sendDraws x c n) r) := by
  have hb : BitVec.extractLsb' 0 8 (0#24 ++ b) = b := by
    apply BitVec.eq_of_getLsbD_eq
    intro j hj
    rw [BitVec.getLsbD_extractLsb', BitVec.getLsbD_append]
    simp [hj]
  have hw : (s.put i.toNat x o n r).updInst i.toNat (fun y => { y with
      regs := { y.regs with byteTx := BitVec.extractLsb' 0 8 (0#24 ++ b) }, outs := y.noted .byteData (0#24 ++ b) })
      = s.put i.toNat (x.byteSet b) o n r := by
    rw [updInst_put _ _ _ _ _ _ _ hk, hb]; rfl
  obtain ⟨h0, -, -, hn⟩ := tx_enables c ht
  simp only [progByte, op_bind, op_regWrite_byteData, hw]
  exact engineCmd_put s i.toNat (x.byteSet b) o n r c 0#4 _ 1 [b] hk (word_of_parts c _).1 hn h0 hf (fun _ =>
    ⟨by simp [cmdCount, ht, paths.1], fun _ => by rw [paths.1]; exact ⟨Nat.le_refl _, Nat.le_refl _⟩,
     by simp [State.sampled, ht, paths.1, Inst.byteSet]⟩)

/-- A receive is programmed in byte mode (R264). -/
theorem progByteRx_put (hk : i.toNat < s.insts.length) (ht : cmdIsRx c = true) (hs : c ≠ .sRx)
    (hf : x.core.inflight = none) : progByte i.toNat c.action none (s.put i.toNat x o n r) =
    .ok ((), s.put i.toNat (x.sends c 0#4 1 [] (codeAt c n)) o (sendDraws x c n) r) := by
  obtain ⟨h0, -, -, hn, htx⟩ := rx_enables c ht
  exact engineCmd_put s i.toNat x o n r c 0#4 _ 1 [] hk (word_of_parts c _).1 hn (h0 hs) hf (fun _ =>
    ⟨by simp [cmdCount, ht, paths.1], fun _ => by rw [paths.1]; exact ⟨Nat.le_refl _, Nat.le_refl _⟩,
     by simp [State.sampled, htx]⟩)

/-- A transmit is programmed in the pool page (R265). -/
theorem progBufTx_put (d : Side) (bs : List Byte) (hk : i.toNat < s.insts.length) (ht : cmdIsTx c = true)
    (hf : x.core.inflight = none) (h : s.CanProg i (x.loan d) .buf c 0 bs.length) :
    progBuf i.toNat d c.action (.tx bs) (s.put i.toNat x o n r) = .ok ((), (s.loaded .buf 0 bs).put i.toNat
      ((x.bufSet (BitVec.ofNat 32 bs.length)).sends c 1#4 bs.length bs (codeAt c n)) o (sendDraws x c n) r) := by
  obtain ⟨hd, h1, h2, h3⟩ := h
  obtain ⟨-, he, -, hn⟩ := tx_enables c ht
  have hl : (bs.length == 0 || decide (s.cfg.poolPage < bs.length)) = false := by
    simp only [Bool.or_eq_false_iff, beq_eq_false_iff_ne, decide_eq_false_iff_not]; omega
  have hk' : i.toNat < ({ s with pool := Memory.writeN s.pool 0 bs } : State).insts.length := hk
  simp only [progBuf, op_bind, needLoan_put _ _ _ _ _ _ _ hk hd, op_getCfg, put_cfg, hl, Bool.false_eq_true, if_false, poolWrite_put,
    op_regWrite_bufCtrl, updInst_put _ _ _ _ _ _ _ hk']
  exact engineCmd_put ({ s with pool := Memory.writeN s.pool 0 bs }) i.toNat (x.bufSet (BitVec.ofNat 32 bs.length)) o n r
    c 1#4 _ bs.length bs hk (word_of_parts c _).2.1 hn he hf (fun _ =>
    ⟨by rw [paths.2.1]; simp only [cmdCount, ht, Bool.true_or, if_true]; exact (bufSet_tx _ _ h3).symm,
     fun _ => by rw [paths.2.1]; exact ⟨h1, h2⟩,
     by rw [paths.2.1]; simp only [State.sampled, ht, if_true]; exact bytes_writeN _ _ _ (by unfold spaceSize; omega)⟩)

/-- A receive window is programmed in the pool page (R265). -/
theorem progBufRx_put (d : Side) (j : Nat) (hk : i.toNat < s.insts.length) (ht : cmdIsRx c = true)
    (hf : x.core.inflight = none) (h : s.CanProg i (x.loan d) .buf c 0 j) :
    progBuf i.toNat d c.action (.rx (BitVec.ofNat 32 j)) (s.put i.toNat x o n r) = .ok ((), s.put i.toNat
      ((x.bufSet (BitVec.ofNat 32 j <<< 10)).sends c 2#4 j [] (codeAt c n)) o (sendDraws x c n) r) := by
  obtain ⟨hd, h1, h2, h3⟩ := h
  obtain ⟨-, he, -, hn, htx⟩ := rx_enables c ht
  have hj : (BitVec.ofNat 32 j).toNat = j := by rw [BitVec.toNat_ofNat]; omega
  have hl : (BitVec.ofNat 32 j == 0#32 || decide (s.cfg.poolPage < (BitVec.ofNat 32 j).toNat)) = false := by
    rw [hj]
    simp only [Bool.or_eq_false_iff, beq_eq_false_iff_ne, decide_eq_false_iff_not]
    exact ⟨fun hz => by have := congrArg BitVec.toNat hz; rw [hj] at this; simp at this; omega, by omega⟩
  simp only [progBuf, op_bind, needLoan_put _ _ _ _ _ _ _ hk hd, op_getCfg, put_cfg, hl, Bool.false_eq_true, if_false,
    op_regWrite_bufCtrl, updInst_put _ _ _ _ _ _ _ hk]
  exact engineCmd_put s i.toNat (x.bufSet (BitVec.ofNat 32 j <<< 10)) o n r
    c 2#4 _ j [] hk (word_of_parts c _).2.2.1 hn he hf (fun _ =>
    ⟨by rw [paths.2.2.1]; simp only [cmdCount, ht, htx, Bool.false_or, if_true, Bool.false_eq_true, if_false]
        exact (bufSet_rx _ _ h3).symm,
     fun _ => by rw [paths.2.2.1]; exact ⟨h1, h2⟩,
     by simp [State.sampled, htx]⟩)

/-- The facts of a programmable DMA chunk, for either variant (R266, R267, R283). -/
theorem canProg_dma (inc lent : Bool) (w j : Nat) (h : s.CanProg i lent (if inc then .dmaInc else .dmaDec) c w j) :
    1 ≤ j ∧ j ≤ s.cfg.dmaWin ∧ j < 4294967296 ∧ w + j ≤ 4294967296 ∧ w < 4294967296
      ∧ (s.cfg.inst i.toNat).dmaAddr = some w
      ∧ dmaCount (coreCodec s.cfg (s.cfg.inst i.toNat) (cmdIsMaster c)) (dmaEncode (s.cfg.codec inc) j) = j := by
  cases inc <;> exact h

/-- A DMA chunk of n bytes that the core counts as k can be programmed at the window w (R266, R267, R202). -/
structure DmaChunk (inc : Bool) (w n k : Nat) : Prop where
  pos : 1 ≤ n
  fits : n ≤ s.cfg.dmaWin
  word : n < 4294967296
  inside : w + n ≤ 4294967296
  addr : w < 4294967296
  window : (s.cfg.inst i.toNat).dmaAddr = some w
  count : dmaCount (coreCodec s.cfg (s.cfg.inst i.toNat) (cmdIsMaster c)) (dmaEncode (s.cfg.codec inc) n) = k
  legal : 1 ≤ k ∧ k ≤ s.cfg.dmaWin

theorem DmaChunk.of (inc lent : Bool) (w n : Nat) (h : s.CanProg i lent (if inc then .dmaInc else .dmaDec) c w n) :
    DmaChunk s i c inc w n n := by
  obtain ⟨h1, h2, h3, h4, h5, h6, h7⟩ := canProg_dma s i c inc lent w n h
  exact ⟨h1, h2, h3, h4, h5, h6, h7, h1, h2⟩

/-- A transmit is programmed in the DMA window, the core counting k bytes (R266, R267). -/
theorem progDmaTx_put (inc : Bool) (w k : Nat) (bs e : List Byte) (hk : i.toNat < s.insts.length)
    (ht : cmdIsTx c = true) (hf : x.core.inflight = none) (h : DmaChunk s i c inc w bs.length k)
    (hd : Memory.bytes (Memory.writeN s.dma w bs) w k = some e) :
    progDma i.toNat inc c.action (.tx bs) (s.put i.toNat x o n r) =
    .ok ((), ({ s with dma := Memory.writeN s.dma w bs }).put i.toNat
      ((x.dmaSet w (dmaEncode (s.cfg.codec inc) bs.length)).sends c 4#4 k e (codeAt c n)) o (sendDraws x c n) r) := by
  obtain ⟨h1, h2, h5, h3, h4, ha, hc, hl⟩ := h
  obtain ⟨-, -, he, hn⟩ := tx_enables c ht
  have hz : (bs.length == 0 || decide (s.cfg.dmaWin < bs.length)) = false := by
    simp only [Bool.or_eq_false_iff, beq_eq_false_iff_ne, decide_eq_false_iff_not]; omega
  have hw : (BitVec.ofNat 32 w).toNat = w := by rw [BitVec.toNat_ofNat]; omega
  have hk' : i.toNat < ({ s with dma := Memory.writeN s.dma w bs } : State).insts.length := hk
  have hmode : txEnable (if inc then .dmaInc else .dmaDec) = 0x100#32 := by cases inc <;> rfl
  have hset : ({ s with dma := Memory.writeN s.dma w bs } : State).put i.toNat
      { x with regs := { x.regs with dmaBase := BitVec.ofNat 32 w, dmaLen := dmaEncode (s.cfg.codec inc) bs.length }
               outs := { x.outs with regTrace := x.outs.regTrace ++ [(.dmaBase, BitVec.ofNat 32 w)]
                 ++ [(.dmaLen, dmaEncode (s.cfg.codec inc) bs.length)] } } o n r
      = ({ s with dma := Memory.writeN s.dma w bs } : State).put i.toNat
          (x.dmaSet w (dmaEncode (s.cfg.codec inc) bs.length)) o n r := by
    simp [Inst.dmaSet, Inst.notedAll]
  simp only [progDma, op_bind, op_getCfg, put_cfg, dmaAddrOf, op_getInstCfg, ha, op_pure, hz, Bool.false_eq_true,
    if_false, dmaWrite_put _ _ _ _ _ _ w bs (by unfold spaceSize; omega), op_regWrite_dmaBase, op_regWrite_dmaLen,
    updInst_put _ _ _ _ _ _ _ hk', Inst.noted, hset, hmode]
  exact engineCmd_put ({ s with dma := Memory.writeN s.dma w bs }) i.toNat
    (x.dmaSet w (dmaEncode (s.cfg.codec inc) bs.length)) o n r
    c 4#4 _ k e hk (word_of_parts c _).2.2.2.1 hn he hf (fun _ =>
    ⟨by rw [paths.2.2.2.1]; simp only [cmdCount, ht, Bool.true_or, if_true]; exact hc.symm,
     fun _ => by rw [paths.2.2.2.1]; exact hl,
     by rw [paths.2.2.2.1]; simp only [State.sampled, ht, if_true, Inst.dmaSet, hw]; exact hd⟩)

/-- A receive window is programmed in the DMA window, the core counting k bytes (R266, R267). -/
theorem progDmaRx_put (inc : Bool) (w j k : Nat) (hk : i.toNat < s.insts.length) (ht : cmdIsRx c = true)
    (hf : x.core.inflight = none) (h : DmaChunk s i c inc w j k) :
    progDma i.toNat inc c.action (.rx (BitVec.ofNat 32 j)) (s.put i.toNat x o n r) =
    .ok ((), s.put i.toNat
      ((x.dmaSet w (dmaEncode (s.cfg.codec inc) j)).sends c 8#4 k [] (codeAt c n)) o (sendDraws x c n) r) := by
  obtain ⟨h1, h2, h5, h3, h4, ha, hc, hl⟩ := h
  obtain ⟨-, -, he, hn, htx⟩ := rx_enables c ht
  have hj : (BitVec.ofNat 32 j).toNat = j := by rw [BitVec.toNat_ofNat]; omega
  have hz : (BitVec.ofNat 32 j == 0#32 || decide (s.cfg.dmaWin < j)) = false := by
    simp only [Bool.or_eq_false_iff, beq_eq_false_iff_ne, decide_eq_false_iff_not]
    exact ⟨fun hz => by have := congrArg BitVec.toNat hz; rw [hj] at this; simp at this; omega, by omega⟩
  have hmode : rxEnable (if inc then .dmaInc else .dmaDec) = 0x200#32 := by cases inc <;> rfl
  have hset : s.put i.toNat
      { x with regs := { x.regs with dmaBase := BitVec.ofNat 32 w, dmaLen := dmaEncode (s.cfg.codec inc) j }
               outs := { x.outs with regTrace := x.outs.regTrace ++ [(.dmaBase, BitVec.ofNat 32 w)]
                 ++ [(.dmaLen, dmaEncode (s.cfg.codec inc) j)] } } o n r
      = s.put i.toNat (x.dmaSet w (dmaEncode (s.cfg.codec inc) j)) o n r := by
    simp [Inst.dmaSet, Inst.notedAll]
  simp only [progDma, op_bind, op_getCfg, put_cfg, dmaAddrOf, op_getInstCfg, ha, op_pure, hz, Bool.false_eq_true,
    if_false, op_regWrite_dmaBase, op_regWrite_dmaLen, updInst_put _ _ _ _ _ _ _ hk, Inst.noted, hj, hset, hmode]
  exact engineCmd_put s i.toNat (x.dmaSet w (dmaEncode (s.cfg.codec inc) j)) o n r
    c 8#4 _ k [] hk (word_of_parts c _).2.2.2.2 hn he hf (fun _ =>
    ⟨by rw [paths.2.2.2.2]
        simp only [cmdCount, ht, htx, Bool.false_or, if_true]; exact hc.symm,
     fun _ => by rw [paths.2.2.2.2]; exact hl,
     by simp [State.sampled, htx]⟩)

/-- What the core takes from the DMA window is what was put there, when it counts as many bytes. -/
theorem DmaChunk.data {s : State} {i : InstId} {c : Cmd} {inc : Bool} {w : Nat} {bs : List Byte} {k : Nat}
    (h : DmaChunk s i c inc w bs.length k) :
    Memory.bytes (Memory.writeN s.dma w bs) w bs.length = some bs :=
  bytes_writeN _ _ _ (by unfold spaceSize; exact h.inside)

/-- Programming bytes to send, in any mode (R264 to R267). -/
theorem progTx_put (d : Side) (m : Mode) (w : Nat) (bs : List Byte) (hk : i.toNat < s.insts.length) (ht : cmdIsTx c = true)
    (hf : x.core.inflight = none) (h : s.CanProg i (x.loan d) m c w bs.length) :
    progTx i.toNat d m c.action bs (s.put i.toNat x o n r) = .ok ((), (s.loaded m w bs).put i.toNat
      (x.progTx s.cfg m c w bs (codeAt c n)) o (sendDraws x c n) r) := by
  cases m with
  | byte =>
    obtain ⟨b, rfl⟩ : ∃ b, bs = [b] := List.length_eq_one_iff.1 h
    exact progByteTx_put s i x o n r c b hk ht hf
  | buf => exact progBufTx_put s i x o n r c d bs hk ht hf h
  | dmaDec =>
    have h' := DmaChunk.of s i c false _ w _ h
    exact progDmaTx_put s i x o n r c false w _ bs bs hk ht hf h' h'.data
  | dmaInc =>
    have h' := DmaChunk.of s i c true _ w _ h
    exact progDmaTx_put s i x o n r c true w _ bs bs hk ht hf h' h'.data

/-- Programming a receive window, in any mode (R264 to R267). -/
theorem progRx_put (d : Side) (m : Mode) (w j : Nat) (hk : i.toNat < s.insts.length) (ht : cmdIsRx c = true)
    (hs : m = .byte → c ≠ .sRx) (hf : x.core.inflight = none) (h : s.CanProg i (x.loan d) m c w j) :
    progRx i.toNat d m c.action j (s.put i.toNat x o n r) = .ok ((), s.put i.toNat
      (x.progRx s.cfg m c w j (codeAt c n)) o (sendDraws x c n) r) := by
  cases m with
  | byte => exact progByteRx_put s i x o n r c hk ht (hs rfl) hf
  | buf => exact progBufRx_put s i x o n r c d j hk ht hf h
  | dmaDec => exact progDmaRx_put s i x o n r c false w j j hk ht hf (DmaChunk.of s i c false _ w j h)
  | dmaInc => exact progDmaRx_put s i x o n r c true w j j hk ht hf (DmaChunk.of s i c true _ w j h)

end prog

end Sys2Proof.Machine
end

