-- ==== Sys2Proof/Laws/Engines.lean ====
section
/-! SUPPORT. What the engines' shared operations do to an instance: reading a message, extraction, the slave's windows,
opening and finishing a slot, the pre-emption of the master. -/

namespace Sys2Proof.Machine

open Sys2Proof

section master

variable (s : State) (k : Nat) (x : Inst) (o : Option (Nat × Side)) (n : Nat) (r : Ret)

/-- The hypothesis that a descriptor can be read, taken apart. -/
theorem message_some (d : Word) (j : Nat) (m : Msg) (h : s.message d j = some m) :
    ∃ b0 b1 b2 b3 b4 b5 b6 b7 b8 b9 ba bb : Byte,
      s.mem.bytes (d.toNat + 12 * j) 12 = some [b0, b1, b2, b3, b4, b5, b6, b7, b8, b9, ba, bb]
      ∧ m = msgOfWords (Word.ofBytes b0 b1 b2 b3) (Word.ofBytes b4 b5 b6 b7) (Word.ofBytes b8 b9 ba bb) := by
  unfold State.message at h
  split at h
  · rename_i b0 b1 b2 b3 b4 b5 b6 b7 b8 b9 ba bb hb
    exact ⟨b0, b1, b2, b3, b4, b5, b6, b7, b8, b9, ba, bb, hb, (Option.some.inj h).symm⟩
  · cases h

theorem readMsg_put (d : Word) (j : Nat) (m : Msg) (h : s.message d j = some m) :
    readMsg d j (s.put k x o n r) = .ok (m, s.put k x o n r) := by
  obtain ⟨b0, b1, b2, b3, b4, b5, b6, b7, b8, b9, ba, bb, hb, rfl⟩ := message_some s d j m h
  simp only [readMsg, op_bind, hostRead_put s k x o n r _ _ _ hb, wordsOf]
  rfl

theorem curMsg_put (d : Word) (m : Msg) (hk : k < s.insts.length) (hd : x.master.msgs = some d)
    (h : s.message d x.master.cur.toNat = some m) : curMsg k (s.put k x o n r) = .ok (m, s.put k x o n r) := by
  simp only [curMsg, op_bind, getInst_put _ _ _ _ _ _ hk, hd, readMsg_put s k x o n r d _ m h]

/-- A descriptor that readMsg reads is the message. -/
theorem message_of_readMsg (t : State) (d : Word) (j : Nat) (m : Msg) (h : readMsg d j s = .ok (m, t)) :
    s.message d j = some m := by
  simp only [readMsg, op_bind, hostRead] at h
  split at h
  · rename_i a s' he
    obtain ⟨rfl, hr⟩ := memRead_ok _ _ _ _ _ _ he
    have hb : d.toNat + 12 * j + 12 ≤ spaceSize := by
      by_cases hh : d.toNat + 12 * j + 12 ≤ spaceSize
      · exact hh
      · unfold memRead at he; simp [hh] at he
    have hl := ((readN_eq_some _ _ _ _).1 hr).1
    match a, hl with
    | [a, b, c, e, f, g, h', i, j, l, m', n], _ =>
      simp only [wordsOf] at h
      cases h
      unfold State.message Memory.bytes
      rw [if_pos hb, hr]
  · cases h

/-- The part of a read buffer past its first f m bytes lies inside the buffer of message j. -/
theorem unfilled_some (d : Word) (j : Nat) (f : Msg → Nat) (a c : Nat)
    (h : unfilled (s.put k x o n r) d j f = some (a, c)) :
    ∃ m, s.message d j = some m ∧ m.rd = true ∧ a = m.buf + f m ∧ c ≤ m.cap - f m := by
  unfold unfilled at h
  split at h
  · cases h
  · rename_i m t he
    split at h
    · rename_i hr
      cases h
      exact ⟨m, message_of_readMsg (s.put k x o n r) t d j m he, hr, rfl, by unfold inside; omega⟩
    · cases h

/-- Losing parts of host memory changes nothing else, and no byte outside them. -/
theorem loseParts_put (l : List (Nat × Nat)) : ∃ p j, (∀ b, (∀ q ∈ l, b < q.1 ∨ q.1 + q.2 ≤ b) →
      Memory.get p b = Memory.get s.mem b)
    ∧ loseParts l (s.put k x o n r) = .ok ((), ({ s with mem := p } : State).put k x o j r) := by
  induction l generalizing s n with
  | nil => exact ⟨s.mem, n, fun _ _ => rfl, rfl⟩
  | cons q l ih =>
    obtain ⟨a, c⟩ := q
    obtain ⟨p, j, hp, he⟩ := ih ({ s with mem := Memory.writeN s.mem a (freeBytes n c) }) (n + 1)
    refine ⟨p, j, fun b hb => ?_, he⟩
    rw [hp b fun q hq => hb q (List.mem_cons_of_mem _ hq)]
    have hlen : (freeBytes n c).length = c := by simp [freeBytes]
    exact get_writeN_outside _ _ _ _ (by have := hb (a, c) (by simp); rw [hlen]; omega)

theorem loseTail_put (hk : k < s.insts.length) : ∃ p j, s.TailLost x p
    ∧ loseTail k (s.put k x o n r) = .ok ((), ({ s with mem := p } : State).put k x o j r) := by
  simp only [loseTail, op_bind, op_getState, getInst_put _ _ _ _ _ _ hk]
  cases ht : readTail (s.put k x o n r) x with
  | none => exact ⟨s.mem, n, fun _ _ => rfl, rfl⟩
  | some q =>
    obtain ⟨a, c⟩ := q
    obtain ⟨p, j, hp, he⟩ := loseParts_put s k x o n r [(a, c)]
    refine ⟨p, j, fun b hb => hp b ?_, he⟩
    unfold readTail at ht
    split at ht
    · cases ht
    · rename_i d hd
      obtain ⟨m, hm, hr, rfl, hc⟩ := unfilled_some s k x o n r _ _ _ _ _ ht
      intro q hq
      obtain rfl := List.mem_singleton.1 hq
      have := hb d m hd hm hr
      omega

/-- A failed call loses its read buffers past the chunks that completed, and nothing else (R300). -/
theorem loseTails_put (hk : k < s.insts.length) : ∃ p j, s.TailsLost x p
    ∧ loseTails k (s.put k x o n r) = .ok ((), ({ s with mem := p } : State).put k x o j r) := by
  simp only [loseTails, op_bind, op_getState, getInst_put _ _ _ _ _ _ hk]
  obtain ⟨p, j, hp, he⟩ := loseParts_put s k x o n r (readTails (s.put k x o n r) x)
  refine ⟨p, j, fun b hb => hp b fun q hq => ?_, he⟩
  obtain ⟨g, hg, hu⟩ := List.mem_filterMap.1 hq
  obtain ⟨m, hm, hr, ha, hc⟩ := unfilled_some s k x o n r _ _ _ _ _ hu
  have := hb g m (List.mem_range.1 hg) hm hr
  unfold Inst.filled at ha hc
  omega

/-- EXT in every mode, with no DMA command moving bytes (R271 to R274). -/
theorem extract_put (m : Mode) (j : Nat) (hk : k < s.insts.length) (hd : x.dmaInFlight = none) :
    extract k m j (s.put k x o n r) = .ok (x.extracted s.cfg m j, s.put k x o n r) := by
  cases m
  · rfl
  · simp only [extract, op_bind, op_getCfg, regRead_put _ _ _ _ _ _ .bufCtrl hk (.inl (by decide)), op_pure, Inst.view]; rfl
  · simp only [extract, op_bind, op_getCfg, regRead_put _ _ _ _ _ _ .dmaLen hk (.inr hd), op_pure, Inst.view]; rfl
  · simp only [extract, op_bind, op_getCfg, regRead_put _ _ _ _ _ _ .dmaLen hk (.inr hd), op_pure, Inst.view]; rfl

/-- The high byte of BYTE_DATA is RX (R180). -/
theorem byteData_rx (a b : Byte) : BitVec.extractLsb' 8 8 (0#16 ++ a ++ b) = a := by
  apply BitVec.eq_of_getLsbD_eq
  intro j hj
  rw [BitVec.getLsbD_extractLsb', BitVec.getLsbD_append, BitVec.getLsbD_append]
  simp [hj]

theorem byteRead_put (hk : k < s.insts.length) : regRead k .byteData (s.put k x o n r) =
    .ok (0#16 ++ x.regs.byteRx ++ x.regs.byteTx, s.put k x o n r) :=
  regRead_put _ _ _ _ _ _ .byteData hk (.inl (by decide))

end master

/-- Programming a chunk changes registers, the core and the record of writes alone. -/
@[simp] theorem progTx_slave (x : Inst) (g : Config) (m : Mode) (c : Cmd) (w : Nat) (bs : List Byte)
    (code : XferState) : (x.progTx g m c w bs code).slave = x.slave := by cases m <;> rfl
@[simp] theorem progTx_master (x : Inst) (g : Config) (m : Mode) (c : Cmd) (w : Nat) (bs : List Byte)
    (code : XferState) : (x.progTx g m c w bs code).master = x.master := by cases m <;> rfl
@[simp] theorem progTx_thread (x : Inst) (g : Config) (m : Mode) (c : Cmd) (w : Nat) (bs : List Byte)
    (code : XferState) : (x.progTx g m c w bs code).thread = x.thread := by cases m <;> rfl
@[simp] theorem progRx_slave (x : Inst) (g : Config) (m : Mode) (c : Cmd) (w j : Nat) (code : XferState) :
    (x.progRx g m c w j code).slave = x.slave := by cases m <;> rfl
@[simp] theorem progRx_master (x : Inst) (g : Config) (m : Mode) (c : Cmd) (w j : Nat) (code : XferState) :
    (x.progRx g m c w j code).master = x.master := by cases m <;> rfl
@[simp] theorem progRx_thread (x : Inst) (g : Config) (m : Mode) (c : Cmd) (w j : Nat) (code : XferState) :
    (x.progRx g m c w j code).thread = x.thread := by cases m <;> rfl

section slave

variable (s : State) (i : InstId) (x : Inst) (o : Option (Nat × Side)) (n : Nat) (r : Ret)

/-- The received bytes of a chunk (R275, R345). -/
theorem received_put (e : Side) (m : Mode) (j : Nat) (d : List Byte) (hk : i.toNat < s.insts.length)
    (h : s.received i x e m j = some d) :
    received i.toNat e m j (s.put i.toNat x o n r) = .ok (d, s.put i.toNat x o n r) := by
  unfold State.received at h
  cases m
  · simp only [received, op_bind, byteRead_put _ _ _ _ _ _ hk, byteData_rx, op_pure]
    simp only at h
    cases h; rfl
  · simp only at h
    by_cases hl : x.loan e = true
    · rw [if_pos hl] at h
      simp only [received, op_bind, needLoan_put _ _ _ _ _ _ _ hk hl]
      exact poolRead_put _ _ _ _ _ _ _ _ h
    · rw [if_neg hl] at h; cases h
  all_goals
    simp only [received, op_bind, dmaAddrOf, op_getInstCfg, put_cfg]
    cases ha : (s.cfg.inst i.toNat).dmaAddr with
    | none => rw [ha] at h; cases h
    | some a =>
      rw [ha] at h
      simp only [op_pure]
      exact dmaRead_put _ _ _ _ _ _ _ _ _ h

/-- SELECT_MODE: the mode, the loan taken exactly for BUF (R279). -/
theorem selectMode_put (d : Side) (hk : i.toNat < s.insts.length) :
    selectMode i.toNat d (s.put i.toNat x o n r) =
      .ok (selected (s.cfg.inst i.toNat) d o,
        s.put i.toNat (if selected (s.cfg.inst i.toNat) d o = .buf then x.setLoan d true else x)
          (if selected (s.cfg.inst i.toNat) d o = .buf then some (i.toNat, d) else o) n r) := by
  simp only [selectMode, op_bind, op_getInstCfg, put_cfg]
  have hs : ∀ md, prefMode (s.cfg.inst i.toNat) d = md → selected (s.cfg.inst i.toNat) d o = match md with
      | .byte => .byte
      | .buf => if o = none then .buf else .byte
      | .dmaDec => if (s.cfg.inst i.toNat).dmaAddr = none then .byte else .dmaDec
      | .dmaInc => if (s.cfg.inst i.toNat).dmaAddr = none then .byte else .dmaInc := by
    rintro md rfl; rfl
  cases hp : prefMode (s.cfg.inst i.toNat) d with
  | byte => rw [hs _ hp]; rfl
  | buf =>
    rw [hs _ hp]
    cases o with
    | none => simp only [op_bind, poolAcq_put _ _ _ _ _ _ _ hk]; rfl
    | some p => simp only [op_bind, poolAcq_put _ _ _ _ _ _ _ hk]; rfl
  | dmaDec => rw [hs _ hp]; cases (s.cfg.inst i.toNat).dmaAddr <;> rfl
  | dmaInc => rw [hs _ hp]; cases (s.cfg.inst i.toNat).dmaAddr <;> rfl

/-- S_ARM_RX (R280). -/
theorem sArmRx_put (w : Nat) (hk : i.toNat < s.insts.length) (hf : x.core.inflight = none)
    (h : s.CanRx i x.slave w) : ∃ code j, sideCode .sRx code ∧
    sArmRx i.toNat (s.put i.toNat x o n r) = .ok ((), s.put i.toNat (x.rxWindow s.cfg w code) o j r) := by
  refine ⟨codeAt .sRx n, if x.slave.sMode = .byte then n else sendDraws x .sRx n, codeAt_side _ _, ?_⟩
  simp only [sArmRx, op_bind, op_getCfg, getInst_put _ _ _ _ _ _ hk, put_cfg]
  cases hm : x.slave.sMode
  · simp only [setSlaveChunk, op_modSlave, updInst_put _ _ _ _ _ _ _ hk, Inst.rxWindow, hm]; rfl
  all_goals
    have hc := h (by rw [hm]; decide)
    rw [hm] at hc
    simp only [maxChunk] at hc
  · simp only [op_bind, progBufRx_put s i x o n r .sRx .slave _ hk rfl hf hc, setSlaveChunk, op_modSlave,
      updInst_put _ _ _ _ _ _ _ hk, Inst.rxWindow, hm, Inst.progRx, maxChunk, Inst.sends, Inst.bufSet]; rfl
  · simp only [op_bind, progDmaRx_put s i x o n r .sRx false w _ _ hk rfl hf (DmaChunk.of s i .sRx false _ w _ hc), setSlaveChunk, op_modSlave,
      updInst_put _ _ _ _ _ _ _ hk, Inst.rxWindow, hm, Inst.progRx, maxChunk, Inst.sends, Inst.dmaSet]; rfl
  · simp only [op_bind, progDmaRx_put s i x o n r .sRx true w _ _ hk rfl hf (DmaChunk.of s i .sRx true _ w _ hc), setSlaveChunk, op_modSlave,
      updInst_put _ _ _ _ _ _ _ hk, Inst.rxWindow, hm, Inst.progRx, maxChunk, Inst.sends, Inst.dmaSet]; rfl

/-- S_ARM_TX (R281). -/
theorem sArmTx_put (w : Nat) (d : List Byte) (hk : i.toNat < s.insts.length) (hf : x.core.inflight = none)
    (h : s.CanTx i x.slave w d) : ∃ code j, sideCode .sTx code ∧
    sArmTx i.toNat (s.put i.toNat x o n r) =
      .ok ((), (s.loaded (x.slave.txMode s.cfg) w d).put i.toNat (x.txChunk s.cfg w d code) o j r) := by
  refine ⟨codeAt .sTx n, sendDraws x .sTx n, codeAt_side _ _, ?_⟩
  obtain ⟨hd, hc⟩ := h
  have hk' : ∀ m, i.toNat < (s.loaded m w d).insts.length := fun m => by cases m <;> exact hk
  have hp := progTx_put s i x o n r .sTx .slave (x.slave.txMode s.cfg) w d hk rfl hf hc
  simp only [sArmTx, op_bind, op_getCfg, getInst_put _ _ _ _ _ _ hk, put_cfg]
  change (if (x.slave.nextTx s.cfg == 0) = true then _ else _ : Op Unit) _ = _
  by_cases hz : x.slave.nextTx s.cfg = 0
  · simp only [Slave.txData, Slave.txMode, hz, if_true, Option.some.injEq] at hd hp hk'
    subst hd
    rw [if_pos (by simpa using hz)]
    simp only [op_bind, hp, setSlaveChunk, op_modSlave, updInst_put _ _ _ _ _ _ _ (hk' _), Inst.txChunk, Slave.txMode,
      hz, if_true, List.length_cons, List.length_nil]
    rfl
  · simp only [Slave.txData, Slave.txMode, hz, if_false] at hd hp
    have hl : d.length = x.slave.nextTx s.cfg := by
      unfold Memory.bytes at hd
      split at hd
      · exact ((readN_eq_some _ _ _ _).1 hd).1
      · cases hd
    rw [if_neg (by simpa using hz)]
    have hr := op_memBytes (s.put i.toNat x o n r) _ _ _ _ hd
    simp only [op_bind, Slave.nextTx] at hr ⊢
    rw [hr]
    simp only [hp, setSlaveChunk, op_modSlave, updInst_put _ _ _ _ _ _ _ (hk' _), Inst.txChunk, Slave.txMode,
      hz, if_false, hl, progTx_slave]
    rfl

theorem rx_cases (a b : Prop) [Decidable a] [Decidable b] :
    cmdIsRx (if a then .rx else if b then .rxLastStop else .rxLast) = true
    ∧ (if a then Cmd.rx else if b then .rxLastStop else .rxLast) ≠ .sRx := by
  split
  · exact ⟨rfl, by decide⟩
  · split
    · exact ⟨rfl, by decide⟩
    · exact ⟨rfl, by decide⟩

theorem tx_cases (a b c : Prop) [Decidable a] [Decidable b] [Decidable c] :
    cmdIsTx (if a then if b then .startTxStop else .startTx else if c then .txStop else .tx) = true := by
  split <;> split <;> rfl

/-- A planned receive is one of the three receive commands (R263). -/
theorem plan_rx (c : Config) (m : Msg) (p : Master) (hr : m.rd = true) (ha : (planChunk c m p).addressing = false) :
    cmdIsRx (planChunk c m p).cmd = true ∧ (planChunk c m p).cmd ≠ .sRx := by
  unfold planChunk at ha ⊢
  simp only [hr, Bool.true_and] at ha ⊢
  split at ha
  · cases ha
  · rename_i hh
    simp only [hh, Bool.false_eq_true, if_false, if_true]
    exact rx_cases _ _

/-- A planned transmit is one of the four transmit commands (R263, R268). -/
theorem plan_tx (c : Config) (m : Msg) (p : Master) (h : m.rd = false ∨ (planChunk c m p).addressing = true) :
    cmdIsTx (planChunk c m p).cmd = true := by
  unfold planChunk at h ⊢
  cases hr : m.rd
  · simp only [Bool.false_and, Bool.false_eq_true, if_false]
    exact tx_cases _ _ _
  · simp only [hr, Bool.true_and, Bool.true_eq_false, false_or] at h ⊢
    split at h
    · rename_i hh
      simp only [hh, if_true]; rfl
    · cases h

/-- The length of bytes that were read. -/
theorem bytes_length {m : Memory} {a j : Nat} {d : List Byte} (h : m.bytes a j = some d) : d.length = j := by
  unfold Memory.bytes at h
  split at h
  · exact ((readN_eq_some _ _ _ _).1 h).1
  · cases h

theorem loaded_length (m : Mode) (w : Nat) (bs : List Byte) : (s.loaded m w bs).insts.length = s.insts.length := by
  cases m <;> rfl

/-- ARM_NEXT of a receive window (R260). -/
theorem armNextRx_put (d : Word) (m : Msg) (q : Plan) (w : Nat) (hk : i.toNat < s.insts.length)
    (hf : x.core.inflight = none) (hd : x.master.msgs = some d) (hm : s.message d x.master.cur.toNat = some m)
    (hq : q = planChunk s.cfg m x.master) (hr : m.rd = true) (ha : q.addressing = false)
    (hc : s.CanProg i x.master.mLoan x.master.mode q.cmd w (planLen q)) : ∃ code j, sideCode q.cmd code
      ∧ armNext i.toNat (s.put i.toNat x o n r) = .ok ((), s.put i.toNat
          { x.progRx s.cfg x.master.mode q.cmd w (planLen q) code with master := x.planned q } o j r) := by
  obtain ⟨hrx, hns⟩ := plan_rx s.cfg m x.master hr (hq ▸ ha)
  rw [← hq] at hrx hns
  refine ⟨codeAt q.cmd n, sendDraws x q.cmd n, codeAt_side _ _, ?_⟩
  have hp := progRx_put s i x o n r q.cmd .master x.master.mode w (planLen q) hk hrx (fun _ => hns) hf hc
  simp only [armNext, op_bind, curMsg_put s _ x _ _ _ d m hk hd hm, op_getCfg, put_cfg, getInst_put _ _ _ _ _ _ hk, ← hq,
    hr, ha, Bool.true_and, Bool.not_false, if_true, Bool.false_eq_true, if_false, hp, op_modMaster,
    updInst_put _ _ _ _ _ _ _ hk, progRx_master, Inst.planned]

/-- ARM_NEXT of bytes to send (R260, R262, R268). -/
theorem armNextTx_put (d : Word) (m : Msg) (q : Plan) (w : Nat) (pay : List Byte) (hk : i.toNat < s.insts.length)
    (hf : x.core.inflight = none) (hd : x.master.msgs = some d) (hm : s.message d x.master.cur.toNat = some m)
    (hq : q = planChunk s.cfg m x.master) (hr : m.rd = false ∨ q.addressing = true)
    (hc : s.CanProg i x.master.mLoan (if q.addressing then .byte else x.master.mode) q.cmd w (planLen q))
    (hpay : s.mem.bytes (m.buf + x.master.cnt.toNat) q.payload = some pay) : ∃ code j, sideCode q.cmd code
      ∧ armNext i.toNat (s.put i.toNat x o n r) = .ok ((),
          (s.loaded (if q.addressing then .byte else x.master.mode) w
            ((if q.addr then [abyte m.addr m.rd] else []) ++ pay)).put i.toNat
          { x.progTx s.cfg (if q.addressing then .byte else x.master.mode) q.cmd w
              ((if q.addr then [abyte m.addr m.rd] else []) ++ pay) code with master := x.planned q } o j r) := by
  have htx := plan_tx s.cfg m x.master (hq ▸ hr)
  rw [← hq] at htx
  refine ⟨codeAt q.cmd n, sendDraws x q.cmd n, codeAt_side _ _, ?_⟩
  have hlen : ((if q.addr then [abyte m.addr m.rd] else []) ++ pay).length = planLen q := by
    simp only [planLen, List.length_append, bytes_length hpay]
    cases q.addr <;> simp [Nat.add_comm]
  have hp := progTx_put s i x o n r q.cmd .master (if q.addressing then .byte else x.master.mode) w
    ((if q.addr then [abyte m.addr m.rd] else []) ++ pay) hk htx hf (hlen ▸ hc)
  have hif : (m.rd && !q.addressing) = false := by rcases hr with hr | hr <;> simp [hr]
  have hk' : i.toNat < (s.loaded (if q.addressing then .byte else x.master.mode) w
    ((if q.addr then [abyte m.addr m.rd] else []) ++ pay)).insts.length := by rw [loaded_length]; exact hk
  simp only [armNext, op_bind, curMsg_put s _ x _ _ _ d m hk hd hm, op_getCfg, put_cfg, getInst_put _ _ _ _ _ _ hk, ← hq,
    hif, Bool.false_eq_true, if_false, hostRead_put s _ x _ _ _ _ _ _ hpay, hp, op_modMaster,
    updInst_put _ _ _ _ _ _ _ hk', progTx_master, Inst.planned]

/-- ARM_NEXT (R260). -/
theorem armNext_put (d : Word) (m : Msg) (q : Plan) (w : Nat) (pay : List Byte) (hk : i.toNat < s.insts.length)
    (hd : x.master.msgs = some d) (hm : s.message d x.master.cur.toNat = some m) (hc : s.CanArm i x m q w pay) :
    ∃ code j, sideCode q.cmd code
      ∧ armNext i.toNat (s.put i.toNat x o n r) = .ok ((), s.armed i x m q w pay code o j r) := by
  obtain ⟨hf, hq, hp, hpay⟩ := hc
  cases hb : m.rd && !q.addressing with
  | true =>
    obtain ⟨hr, ha⟩ := Bool.and_eq_true_iff.1 hb
    have ha' : q.addressing = false := by simpa using ha
    rw [ha', if_neg (by decide)] at hp
    obtain ⟨code, j, h1, h2⟩ := armNextRx_put s i x o n r d m q w hk hf hd hm hq hr ha' hp
    refine ⟨code, j, h1, ?_⟩
    rw [h2, State.armed, if_pos hb]
    simp only [ha', Bool.false_eq_true, if_false]
  | false =>
    have hr : m.rd = false ∨ q.addressing = true := by
      rcases Bool.and_eq_false_iff.1 hb with h | h
      · exact .inl h
      · exact .inr (by simpa using h)
    obtain ⟨code, j, h1, h2⟩ := armNextTx_put s i x o n r d m q w pay hk hf hd hm hq hr hp (hpay hb)
    refine ⟨code, j, h1, ?_⟩
    rw [h2]
    simp only [State.armed, hb, Bool.false_eq_true, if_false, chunkBytes]

/-- START_OF_WRITE (R342, R343). -/
theorem startOfWrite_put (a : Byte) (w : Nat) (hk : i.toNat < s.insts.length) (hf : x.core.inflight = none)
    (hl : x.slave.ring.length = s.cfg.ringCap) (h : s.CanRx i x.slave w) : ∃ code j, sideCode .sRx code ∧
    startOfWrite i.toNat a (s.put i.toNat x o n r) =
      .ok ((), s.put i.toNat ((x.opened s.cfg.ringCap a).rxWindow s.cfg w code) o j r) := by
  have hm : (x.opened s.cfg.ringCap a).slave.sMode = x.slave.sMode
      ∧ (x.opened s.cfg.ringCap a).slave.sLoan = x.slave.sLoan := by
    simp only [Inst.opened]; split <;> exact ⟨rfl, rfl⟩
  have hw : s.CanRx i (x.opened s.cfg.ringCap a).slave w := by unfold State.CanRx; rw [hm.1, hm.2]; exact h
  have hf' : (x.opened s.cfg.ringCap a).core.inflight = none := hf
  obtain ⟨code, j, hc, he⟩ := sArmRx_put s i (x.opened s.cfg.ringCap a) o n r w hk hf' hw
  refine ⟨code, j, hc, ?_⟩
  rw [← he]
  simp only [startOfWrite, selectSlot, op_bind, getInst_put _ _ _ _ _ _ hk, op_whenB]
  cases hfull : ringFull x.slave <;>
  simp only [op_modSlave, op_logRec, updInst_put _ _ _ _ _ _ _ hk, if_true, Bool.false_eq_true, if_false] <;>
  (congr 2; simp only [Inst.opened, show (slotState x.slave x.slave.wr == .full) = _ from hfull, openSlot, modSlot,
    evictOldest, Slave.evicted, hl]; rfl)

/-- START_OF_READ (R344). -/
theorem startOfRead_put (a : Byte) (w : Nat) (d : List Byte) (hk : i.toNat < s.insts.length)
    (hf : x.core.inflight = none) (h : s.CanTx i x.reading.slave w d) : ∃ code j, sideCode .sTx code ∧
    startOfRead i.toNat a (s.put i.toNat x o n r) =
      .ok ((), (s.loaded (x.reading.slave.txMode s.cfg) w d).put i.toNat (x.reading.txChunk s.cfg w d code) o j r) := by
  obtain ⟨code, j, hc, he⟩ := sArmTx_put s i x.reading o n r w d hk hf h
  refine ⟨code, j, hc, ?_⟩
  rw [← he]
  simp only [startOfRead, op_bind, op_modSlave, updInst_put _ _ _ _ _ _ _ hk]
  rfl

/-- S_FINAL (R348). -/
theorem sFinal_put (hk : i.toNat < s.insts.length) (hl : x.slave.ring.length = s.cfg.ringCap)
    (hc : x.slave.sstate = .rx → x.slave.sCur ≠ none) : sFinal i.toNat (s.put i.toNat x o n r) =
    .ok ((), s.put i.toNat (x.finished s.cfg.ringCap) (x.release .slave o) n r) := by
  simp only [sFinal, op_bind, getInst_put _ _ _ _ _ _ hk, op_whenB]
  cases hs : x.slave.sstate
  · simp only [show (SState.idle == SState.rx) = false from rfl, Bool.false_eq_true, if_false, op_modSlave,
      poolRel_put _ _ _ _ _ _ _ hk, engineNop_put _ _ _ _ _ _ hk, op_modMaster, updInst_put _ _ _ _ _ _ _ hk]
    simp only [Inst.finished, hs]; rfl
  · obtain ⟨c, hc'⟩ := Option.ne_none_iff_exists'.1 (hc hs)
    simp only [show (SState.rx == SState.rx) = true from rfl, if_true, op_modSlave, op_modOuts,
      poolRel_put _ _ _ _ _ _ _ hk, engineNop_put _ _ _ _ _ _ hk, op_modMaster, updInst_put _ _ _ _ _ _ _ hk]
    simp only [closeSlot, hc', Inst.finished, hs, modSlot, hl]; rfl
  · simp only [show (SState.tx == SState.rx) = false from rfl, Bool.false_eq_true, if_false, op_modSlave,
      poolRel_put _ _ _ _ _ _ _ hk, engineNop_put _ _ _ _ _ _ hk, op_modMaster, updInst_put _ _ _ _ _ _ _ hk]
    simp only [Inst.finished, hs]; rfl

/-- M_PREEMPT (R321). -/
theorem mPreempt_put (hk : i.toNat < s.insts.length) : ∃ a b d j,
    mPreempt i.toNat (s.put i.toNat x o n r) = .ok ((), s.put i.toNat (x.preempted a b d) o j r) := by
  have hbit : ∀ (w : Word), (w &&& 0xFFFFFFFE#32).getLsbD 0 = false ∧ (w &&& 0xFFFFFFFE#32).getLsbD 1 = w.getLsbD 1 := by
    intro w
    constructor
    · rw [BitVec.getLsbD_and, show (0xFFFFFFFE#32).getLsbD 0 = false by decide, Bool.and_false]
    · rw [BitVec.getLsbD_and, show (0xFFFFFFFE#32).getLsbD 1 = true by decide, Bool.and_true]
  obtain ⟨a, b, d, h⟩ := wrFun_after x.core x.regs.funCtrl (x.regs.funCtrl &&& 0xFFFFFFFE#32) n
  obtain ⟨h1, h2⟩ := wrFun_keep (x.core.wrFun x.regs.funCtrl (x.regs.funCtrl &&& 0xFFFFFFFE#32) n)
    (x.regs.funCtrl &&& 0xFFFFFFFE#32) x.regs.funCtrl (funDraws x.regs.funCtrl (x.regs.funCtrl &&& 0xFFFFFFFE#32) n)
    (fun h => absurd h (by rw [(hbit _).1]; decide)) (fun h => (hbit _).2 ▸ h)
  rw [h] at h1
  refine ⟨a, b, d, if x.master.waiting = .xfer then funDraws x.regs.funCtrl (x.regs.funCtrl &&& 0xFFFFFFFE#32) n else n,
    ?_⟩
  simp only [mPreempt, op_bind, getInst_put _ _ _ _ _ _ hk]
  by_cases hw : x.master.waiting = .xfer
  · rw [if_pos hw, if_pos hw]
    have hmask : ∀ w : Word, w &&& ~~~MASTER_EN = w &&& 0xFFFFFFFE#32 := fun _ => rfl
    simp only [op_bind, op_raiseErr, updInst_put _ _ _ _ _ _ _ hk, regRead_put _ _ _ _ _ _ .funCtrl hk (.inl (by decide)),
      Inst.view, hmask, regWrite_funCtrl_put _ _ _ _ _ _ _ hk, finishMsg, op_modMaster, op_complete, h, h1, h2]
    simp only [Inst.preempted, hw, if_true, Inst.noted, Inst.notedAll, List.append_assoc]
    rfl
  · rw [if_neg hw, if_neg hw]
    simp only [Inst.preempted, hw]; rfl

/-- Pre-emption changes nothing of the slave engine, the registers and the loans. -/
theorem preempted_keeps (a b d : Bool) : (x.preempted a b d).slave = x.slave ∧ (x.preempted a b d).regs = x.regs
    ∧ (x.core.inflight = none → (x.preempted a b d).core.inflight = none)
    ∧ (x.preempted a b d).master.mLoan = x.master.mLoan := by
  unfold Inst.preempted
  split
  · refine ⟨rfl, rfl, fun h => ?_, rfl⟩
    simp only [Core.afterFun]
    split <;> split <;> simp [Core.resetMaster, Core.resetSlave, h]
  · exact ⟨rfl, rfl, fun h => h, rfl⟩

/-- A slave failure (R345, R346, R347). -/
theorem slaveFail_put (e : Word) (hk : i.toNat < s.insts.length) (hp : s.cfg.slavePresent = true) : ∃ a b c j,
    slaveFail i.toNat e (s.put i.toNat x o n r) = .ok ((), s.put i.toNat
      (x.slaveFailed e s.cfg (s.cfg.inst i.toNat) a b c) (x.release .slave o) j r) := by
  obtain ⟨a, b, c, j, h⟩ := busReset_put s i.toNat (x.raised e) o n r hk
  refine ⟨a, b, c, j, ?_⟩
  have e1 : (x.raised e).resetOwner s.cfg o = x.release .slave o := by
    simp only [Inst.resetOwner, hp, if_true]; rfl
  rw [e1] at h
  simp only [slaveFail, op_bind, op_raiseErr, updInst_put _ _ _ _ _ _ _ hk]
  exact h

end slave

section ends

variable (s : State) (i : InstId) (x : Inst) (o : Option (Nat × Side)) (n : Nat) (r : Ret)

/-- ARM_NEXT leaves a state with the instance put, its thread as it was. -/
theorem armed_put (m : Msg) (q : Plan) (w : Nat) (pay : List Byte) (code : XferState) : ∃ (z : State) (y : Inst),
    z.insts.length = s.insts.length ∧ y.thread = x.thread
    ∧ ∀ r, s.armed i x m q w pay code o n r = z.put i.toNat y o n r := by
  cases hb : m.rd && !q.addressing
  · refine ⟨_, { x.progTx s.cfg (if q.addressing then .byte else x.master.mode) q.cmd w (chunkBytes m q pay) code with
      master := x.planned q }, loaded_length s (if q.addressing then .byte else x.master.mode) w (chunkBytes m q pay),
      progTx_thread _ _ _ _ _ _ _, fun r => ?_⟩
    simp only [State.armed, hb, Bool.false_eq_true, if_false]
  · refine ⟨s, { x.progRx s.cfg (if q.addressing then .byte else x.master.mode) q.cmd w (planLen q) code with
      master := x.planned q }, rfl, progRx_thread _ _ _ _ _ _ _, fun r => ?_⟩
    simp only [State.armed, hb, if_true]

/-- BUS_BUSY as WAIT_IDLE reads it (R305). -/
theorem busBusy_put (hk : i.toNat < s.insts.length) :
    busBusy i.toNat (s.put i.toNat x o n r) = .ok (x.core.busy, s.put i.toNat x o n r) := by
  simp only [busBusy, op_bind, regRead_put _ _ _ _ _ _ .cmd hk (.inl (by decide)), Inst.view, (cmdView_lines x).1,
    op_pure]

/-- The head condition of M_DONE and M_NACK. -/
theorem chunkWaited_iff : chunkWaited x.master = true ↔ x.Waited := by
  simp [chunkWaited, Inst.Waited]

/-- M_DONE when no chunk is waited for (R316). -/
theorem mDone_stray (kind : Kind) (stop : Bool) (hk : i.toNat < s.insts.length) (hw : ¬ x.Waited) :
    mDone i.toNat kind stop (s.put i.toNat x o n r) = .ok ((), s.put i.toNat
      { x with outs := { x.outs with log := x.outs.log ++ [.completionWithNoChunk] } } o n r) := by
  unfold mDone
  simp only [op_bind, getInst_put _ _ _ _ _ _ hk]
  rw [op_if_pos _ (by rw [Bool.not_eq_true', Bool.eq_false_iff]; exact fun h => hw ((chunkWaited_iff x).1 h))]
  simp only [op_logRec, updInst_put _ _ _ _ _ _ _ hk]

/-- The bytes a chunk brings are as many as it advances the message by. -/
theorem received_advance (m : Msg) (src : List Byte)
    (h3 : x.extracted s.cfg x.master.xmode x.master.xlen.toNat = some x.master.xlen.toNat) (hc : x.copies m = true)
    (h1 : s.received i x .master x.master.xmode x.advance = some src) : src.length = x.advance := by
  unfold State.received at h1
  cases hx : x.master.xmode <;> simp only [hx] at h1 h3
  · simp only [Inst.extracted, Option.some.injEq] at h3 h1
    have : 0 < x.advance := by simpa using (Bool.and_eq_true_iff.1 hc).2
    subst h1
    simp only [List.length_cons, List.length_nil]
    simp only [Inst.advance] at this ⊢
    revert this; cases x.master.addrInChunk <;> simp only [if_true, if_false, Bool.false_eq_true] <;> omega
  · split at h1
    · exact bytes_length h1
    · cases h1
  all_goals
    cases ha : (s.cfg.inst i.toNat).dmaAddr <;> simp only [ha] at h1
    · cases h1
    · exact bytes_length h1

/-- Accounting and copy-out of a chunk (R275, R276). -/
theorem account_put (m : Msg) (src : List Byte) (b : Byte) (hk : i.toNat < s.insts.length)
    (hcount : x.extracted s.cfg x.master.xmode x.master.xlen.toNat = some x.master.xlen.toNat)
    (hcp : x.copies m = true → s.received i x .master x.master.xmode x.advance = some src
      ∧ m.buf + x.master.cnt.toNat + x.advance ≤ 4294967296)
    (hext : x.lengthens m = true → Memory.bytes (s.copied x m src) m.buf 1 = some [b]) :
    account i.toNat m x.master.xlen.toNat (s.put i.toNat x o n r) = .ok ((),
      ({ s with mem := s.copied x m src } : State).put i.toNat { x with master := { x.master with
        cnt := x.master.cnt + BitVec.ofNat 32 x.advance, addrInChunk := false
        len := if x.lengthens m then x.master.len + b.setWidth 32 else x.master.len
        lenExt := x.lengthens m || x.master.lenExt } } o n r) := by
  have hk' : i.toNat < ({ s with mem := s.copied x m src } : State).insts.length := hk
  have hw1 : whenB (m.rd && decide (0 < x.master.xlen.toNat - (if x.master.addrInChunk then 1 else 0))) (do
      let src ← received i.toNat .master x.master.xmode (x.master.xlen.toNat - (if x.master.addrInChunk then 1 else 0))
      hostWrite (m.buf + x.master.cnt.toNat) src) (s.put i.toNat x o n r)
      = .ok ((), ({ s with mem := s.copied x m src } : State).put i.toNat x o n r) := by
    rw [op_whenB]
    cases hc : (m.rd && decide (0 < x.master.xlen.toNat - (if x.master.addrInChunk then 1 else 0)))
    · simp only [Bool.false_eq_true, if_false, State.copied, show x.copies m = false from hc]
    · obtain ⟨h1, h2⟩ := hcp hc
      have hlen := received_advance s i x m src hcount hc h1
      unfold Inst.advance at h1
      simp only [if_true, op_bind, received_put s i x _ _ _ _ _ _ src hk h1,
        hostWrite_put _ _ _ _ _ _ _ _ (show _ ≤ spaceSize by rw [hlen]; exact h2)]
      simp only [State.copied, show x.copies m = true from hc, if_true]
  have hw2 : ∀ z : Inst, whenB (m.recvLen && !x.master.lenExt
      && x.master.cnt.toNat + (x.master.xlen.toNat - (if x.master.addrInChunk then 1 else 0)) == 1) (do
      let b ← hostRead m.buf 1
      modMaster i.toNat fun p => { p with len := p.len + (b.headD 0#8).setWidth 32, lenExt := true })
        (({ s with mem := s.copied x m src } : State).put i.toNat z o n r)
      = .ok ((), ({ s with mem := s.copied x m src } : State).put i.toNat
          (if x.lengthens m then { z with master := { z.master with len := z.master.len + b.setWidth 32, lenExt := true } }
           else z) o n r) := by
    intro z
    rw [op_whenB]
    cases he : (m.recvLen && !x.master.lenExt
      && x.master.cnt.toNat + (x.master.xlen.toNat - (if x.master.addrInChunk then 1 else 0)) == 1)
    · simp only [Bool.false_eq_true, if_false, show x.lengthens m = false from he]
    · simp only [if_true, op_bind, hostRead_put _ _ _ _ _ _ _ _ _
        (show ({ s with mem := s.copied x m src } : State).mem.bytes m.buf 1 = some [b] from hext he), op_modMaster,
        updInst_put _ _ _ _ _ _ _ hk', show x.lengthens m = true from he]
      rfl
  simp only [account, op_bind, getInst_put _ _ _ _ _ _ hk]
  rw [hw1]
  simp only [updInst_put _ _ _ _ _ _ _ hk', op_modMaster]
  rw [hw2]
  cases he : x.lengthens m
  · simp only [Bool.false_eq_true, if_false, Bool.false_or, Inst.advance]
  · simp only [if_true, Bool.true_or, Inst.advance]

/-- M_DONE of the completion that is waited for: the chunk is accounted for, then what is left is looked at (R316). -/
theorem mDone_account (kind : Kind) (stop : Bool) (m : Msg) (src : List Byte) (b : Byte)
    (hk : i.toNat < s.insts.length) (h : s.CanAccount i x kind m src b) :
    mDone i.toNat kind stop (s.put i.toNat x o n r) =
      afterChunk i.toNat (({ s with mem := s.copied x m src } : State).put i.toNat (x.accounted m stop b) o n r) := by
  obtain ⟨hw, ⟨d, hd, hm⟩, hdf, hkind, hcount, hcp, hext⟩ := h
  have ha := account_put s i { x with master := { x.master with stopSeen := x.master.stopSeen || stop } } o n r m src b hk
    hcount hcp hext
  unfold mDone
  simp only [op_bind, getInst_put _ _ _ _ _ _ hk]
  rw [op_if_neg _ (by rw [(chunkWaited_iff x).2 hw]; decide)]
  simp only [noteStop, op_bind, op_modMaster, updInst_put _ _ _ _ _ _ _ hk]
  rw [curMsg_put s _ { x with master := { x.master with stopSeen := x.master.stopSeen || stop } } _ _ _ d m hk hd hm]
  simp only [extract_put s _ { x with master := { x.master with stopSeen := x.master.stopSeen || stop } } _ _ _ _ _ hk
    hdf]
  rw [op_if_neg _ (by
    simp only [Bool.or_eq_true, bne_iff_ne, not_or, not_not]
    exact ⟨hkind, hcount⟩)]
  simp only [op_bind, ha]
  rfl

/-- What is left of a message that is over: it is complete and its waiter signalled (R316). -/
theorem afterChunk_ended (hk : i.toNat < s.insts.length) (he : x.master.Ended) (hw : x.master.waiting = .xfer) :
    afterChunk i.toNat (s.put i.toNat x o n r) = .ok ((), s.put i.toNat (x.over .completeOk) o n r) := by
  obtain ⟨hge, hor⟩ := he
  unfold afterChunk
  simp only [op_bind, getInst_put _ _ _ _ _ _ hk]
  rw [op_if_neg _ (Nat.not_lt.2 hge), op_if_neg _ (by rcases hor with ⟨h1, -⟩ | ⟨h1, -⟩ <;> rw [h1] <;> simp),
    op_if_neg _ (by rcases hor with ⟨-, h1⟩ | ⟨-, h1⟩ <;> rw [h1] <;> simp)]
  simp only [finishMsg, op_bind, op_complete, op_modMaster, updInst_put _ _ _ _ _ _ _ hk,
    if_neg (show x.master.waiting ≠ .none by rw [hw]; decide)]
  rfl

/-- C.STOP is sent and waited for (R316, R317). -/
theorem issueStop_put (hk : i.toNat < s.insts.length) (hf : x.core.inflight = none) : ∃ code j, sideCode .stop code ∧
    issueStop i.toNat (s.put i.toNat x o n r) = .ok ((), s.put i.toNat (x.stopping code) o j r) := by
  refine ⟨codeAt .stop n, sendDraws x .stop n, codeAt_side _ _, ?_⟩
  simp only [issueStop, op_bind, engineStop_put s _ x _ _ _ hk hf, op_modMaster, updInst_put _ _ _ _ _ _ _ hk]
  rfl

/-- M_NACK of a message that does not ignore it (R317). -/
theorem mNack_put (stop : Bool) (d : Word) (m : Msg) (hk : i.toNat < s.insts.length) (hw : x.Waited)
    (hd : x.master.msgs = some d) (hm : s.message d x.master.cur.toNat = some m) (hi : m.ignoreNak = false) :
    mNack i.toNat stop (s.put i.toNat x o n r) =
      (if x.master.stopIssued && (x.master.stopSeen || stop) then finishMsg i.toNat .completeErr
      else if x.master.stopIssued then modMaster i.toNat fun p => { p with mstate := .stopping }
      else issueStop i.toNat) (s.put i.toNat { x with master := { x.master with
        stopSeen := x.master.stopSeen || stop, err := x.master.err ||| 0x00000002#32 } } o n r) := by
  unfold mNack
  simp only [op_bind, getInst_put _ _ _ _ _ _ hk]
  rw [op_if_neg _ (by rw [(chunkWaited_iff x).2 hw]; decide)]
  simp only [op_bind, curMsg_put s _ x _ _ _ d m hk hd hm, hi, Bool.false_eq_true, if_false, noteStop, op_modMaster,
    op_raiseErr, updInst_put _ _ _ _ _ _ _ hk]
  rfl

/-- A message ends and its waiter is signalled (R315). -/
theorem finishMsg_put (m : MState) (hk : i.toNat < s.insts.length) (hw : x.master.waiting ≠ .none) :
    finishMsg i.toNat m (s.put i.toNat x o n r) = .ok ((), s.put i.toNat (x.over m) o n r) := by
  simp only [finishMsg, op_bind, op_complete, op_modMaster, updInst_put _ _ _ _ _ _ _ hk, if_neg hw]
  rfl

/-- M_ARB (R318). -/
theorem mArb_put (hk : i.toNat < s.insts.length) :
    mArb i.toNat (s.put i.toNat x o n r) = .ok ((), s.put i.toNat (x.ended 0x00000008#32) o n r) := by
  simp only [mArb, op_bind, op_raiseErr, op_modMaster, op_complete, updInst_put _ _ _ _ _ _ _ hk]
  rfl

/-- M_FAULT (R320). -/
theorem mFault_put (hk : i.toNat < s.insts.length) :
    mFault i.toNat (s.put i.toNat x o n r) = .ok ((), s.put i.toNat (x.ended 0#32) o n r) := by
  simp only [mFault, op_bind, op_modMaster, op_complete, updInst_put _ _ _ _ _ _ _ hk, Inst.ended, BitVec.or_zero]

/-- M_STOP_DONE at the end of a message (R319). -/
theorem mStopDone_put (hk : i.toNat < s.insts.length) (hw : x.master.waiting = .xfer)
    (hm : x.master.mstate = .stopping) : mStopDone i.toNat (s.put i.toNat x o n r) = .ok ((), s.put i.toNat
      (({ x with master := { x.master with stopSeen := true } } : Inst).over
        (if x.master.err = 0#32 then .completeOk else .completeErr)) o n r) := by
  have h1 : ¬ (x.master.waiting = .recovStop) := by rw [hw]; decide
  simp only [mStopDone, op_bind, getInst_put _ _ _ _ _ _ hk, op_if_neg _ h1, op_if_pos _ (And.intro hw hm), noteStop,
    op_modMaster, updInst_put _ _ _ _ _ _ _ hk, Bool.or_true,
    finishMsg_put s i { x with master := { x.master with stopSeen := true } } o n r _ hk
      (show x.master.waiting ≠ .none by rw [hw]; decide)]

/-- A transaction opens for address byte a (R341, R343, R344). -/
theorem serve_put (a : Byte) (w : Nat) (d : List Byte) (hk : i.toNat < s.insts.length) (hf : x.core.inflight = none)
    (hr : x.slave.ring.length = s.cfg.ringCap) (h : s.CanServe i x a w d) : ∃ code j, sideCode (serveCmd a) code ∧
    (if a.getLsbD 0 then startOfRead i.toNat a else startOfWrite i.toNat a) (s.put i.toNat x o n r) =
      .ok ((), (s.served x a w d).put i.toNat (x.serving s.cfg a w d code) o j r) := by
  unfold State.CanServe at h
  cases hb : a.getLsbD 0
  · rw [hb, if_neg (by decide)] at h
    obtain ⟨code, j, h1, h2⟩ := startOfWrite_put s i x o n r a w hk hf hr h
    refine ⟨code, j, by unfold serveCmd; rw [hb]; exact h1, ?_⟩
    simp only [Bool.false_eq_true, if_false, h2, State.served, Inst.serving, hb]
  · rw [hb, if_pos rfl] at h
    obtain ⟨code, j, h1, h2⟩ := startOfRead_put s i x o n r a w d hk hf h
    refine ⟨code, j, by unfold serveCmd; rw [hb]; exact h1, ?_⟩
    simp only [if_true, h2, State.served, Inst.serving, hb]

/-- S_MATCH, with nothing in flight once a transfer waited for is pre-empted (R341, R321). -/
theorem sMatch_put (w : Nat) (d : List Byte) (hk : i.toNat < s.insts.length)
    (hr : x.slave.ring.length = s.cfg.ringCap) (hc : x.slave.sstate = .rx → x.slave.sCur ≠ none) : ∃ (a b c : Bool),
    let idle : Bool := x.slave.sstate == .idle
    let y : Inst := if idle then x.preempted a b c else (x.preempted a b c).finished s.cfg.ringCap
    let p := if idle then o else x.release .slave o
    let m := selected (s.cfg.inst i.toNat) .slave p
    (y.matched m).core.inflight = none → s.CanServe i (y.matched m) x.regs.byteRx w d →
    ∃ code j, sideCode (serveCmd x.regs.byteRx) code ∧
      sMatch i.toNat (s.put i.toNat x o n r) = .ok ((), (s.served (y.matched m) x.regs.byteRx w d).put i.toNat
        ((y.matched m).serving s.cfg x.regs.byteRx w d code) (if m = .buf then some (i.toNat, Side.slave) else p) j r) := by
  obtain ⟨a, b, c, j, hpre⟩ := mPreempt_put s i x o n r hk
  obtain ⟨k1, k2, -⟩ := preempted_keeps x a b c
  refine ⟨a, b, c, ?_⟩
  intro idle y p m hf hcs
  have hfin : whenB ((x.preempted a b c).slave.sstate != .idle) (sFinal i.toNat)
      (s.put i.toNat (x.preempted a b c) o j r) = .ok ((), s.put i.toNat y p j r) := by
    rw [op_whenB]
    have hid : ((x.preempted a b c).slave.sstate != .idle) = !idle := by rw [k1]; rfl
    rw [hid]
    cases hi : idle
    · simp only [Bool.not_false, if_true]
      rw [sFinal_put s i _ _ _ _ hk (k1 ▸ hr) (k1 ▸ hc)]
      simp only [y, p, hi, Bool.false_eq_true, if_false, Inst.release, Inst.loan, k1]
      rfl
    · simp only [y, p, hi]; rfl
  have hy : y.regs.byteRx = x.regs.byteRx ∧ y.slave.ring.length = s.cfg.ringCap := by
    cases hi : idle
    · simp only [y, hi, Bool.false_eq_true, if_false]
      refine ⟨by simp only [Inst.finished, Inst.rearmed, k2], ?_⟩
      simp only [Inst.finished, Inst.rearmed, k1]
      split <;> simp [hr]
    · simp only [y, hi, if_true]
      exact ⟨by rw [k2], by rw [k1]; exact hr⟩
  obtain ⟨code, l, h1, h2⟩ := serve_put s i (y.matched m) (if m = .buf then some (i.toNat, Side.slave) else p) j r
    x.regs.byteRx w d hk hf hy.2 hcs
  refine ⟨code, l, h1, ?_⟩
  rw [← h2]
  simp only [sMatch, op_bind, hpre, getInst_put _ _ _ _ _ _ hk, hfin, op_modMaster, updInst_put _ _ _ _ _ _ _ hk,
    byteRead_put _ _ _ _ _ _ hk, selectMode_put _ _ _ _ _ _ _ hk, op_modSlave, byteData_rx, hy.1]
  by_cases hm : selected (s.cfg.inst i.toNat) .slave p = .buf
  · simp only [m, hm, if_true, Inst.matched]; rfl
  · have hb : (selected (s.cfg.inst i.toNat) .slave p == .buf) = false := by simpa using hm
    simp only [m, hm, hb, if_false, Inst.matched, Bool.false_or]

end ends

/-- A status bit is tested by its mask (R134). -/
theorem anyOf_bit (w : Word) (j : Fin 15) : anyOf w (1#32 <<< j.val) = w.getLsbD j.val := by
  have hone : ∀ (j : Fin 15) (q : Fin 32), (1#32 <<< j.val).getLsbD q.val = decide (q.val = j.val) := by decide
  have hm : w &&& (1#32 <<< j.val) = if w.getLsbD j.val then 1#32 <<< j.val else 0#32 := by
    apply BitVec.eq_of_getLsbD_eq
    intro q hq
    rw [BitVec.getLsbD_and, hone j ⟨q, hq⟩]
    by_cases e : q = j.val
    · subst e
      cases hb : w.getLsbD j.val <;> simp [hone j ⟨j.val, hq⟩]
    · have := hone j ⟨q, hq⟩
      simp only at this
      cases hb : w.getLsbD j.val <;> simp [this, e]
  have hne : ∀ j : Fin 15, (1#32 <<< j.val != 0#32) = true := by decide
  unfold anyOf
  rw [hm]
  cases w.getLsbD j.val
  · rfl
  · exact hne j

end Sys2Proof.Machine
end

