-- ==== Sys2Proof/Laws/Decoder.lean ====
section
/-! SUPPORT. What the stages of the interrupt-status decoder and the recovery FSM's shared operations do to an
instance. -/

namespace Sys2Proof.Machine

open Sys2Proof

/-- Bit k of GROUP_STS is the k-th instance's line, 0 where there is no instance (R53, R183). -/
theorem groupWord_bit (l : List Inst) : ∀ k : Nat, k < 32 → (groupWord l).getLsbD k = (match l[k]? with
    | some x => x.irq
    | none => false) := by
  induction l with
  | nil => intro k _; simp [groupWord]
  | cons x r ih =>
    intro k hk
    cases k with
    | zero =>
      simp only [groupWord, BitVec.getLsbD_or, BitVec.getLsbD_shiftLeft, List.getElem?_cons_zero]
      cases x.irq <;> simp
    | succ k =>
      have := ih k (by omega)
      have hone : ∀ j : Fin 31, (1#32).getLsbD (j.val + 1) = false := by decide
      have h1 := hone ⟨k, by omega⟩
      simp only at h1
      have hlt : ¬ (k + 1 < 1) := by omega
      simp only [groupWord, BitVec.getLsbD_or, BitVec.getLsbD_shiftLeft, List.getElem?_cons_succ, hk, decide_true, hlt,
        decide_false, Bool.not_false, Bool.true_and, Nat.add_sub_cancel, this]
      cases x.irq <;> simp [h1]

section stages

variable (s : State) (i : InstId) (x : Inst) (o : Option (Nat × Side)) (n : Nat) (r : Ret)

theorem clearSts_put (w : Word) (hk : i.toNat < s.insts.length) :
    clearSts i.toNat w (s.put i.toNat x o n r) = .ok ((), s.put i.toNat (x.cleared w) o n r) := by
  simp only [clearSts, op_regWrite_intrSts, updInst_put _ _ _ _ _ _ _ hk]
  rfl

/-- Stage 0 (R381). -/
theorem mine_put (hk : i.toNat < s.insts.length) :
    mine i.toNat (s.put i.toNat x o n r) = .ok (x.irq, s.put i.toNat x o n r) := by
  have h := groupWord_bit (s.put i.toNat x o n r).insts i.toNat i.isLt
  rw [put_get _ _ _ _ _ _ hk] at h
  simp only [mine, readGroup, op_bind, op_getState, op_pure, State.groupSts, h]

theorem and_smbus (w : Word) (h : w &&& 0x0E00#32 = 0#32) : w &&& 0xFFFFF1FF#32 = w := by
  apply BitVec.eq_of_getLsbD_eq
  intro j hj
  have h1 := congrArg (fun v => v.getLsbD j) h
  have h2 : ∀ q : Fin 32, ((0xFFFFF1FF#32).getLsbD q.val || (0x0E00#32).getLsbD q.val) = true := by decide
  have h3 := h2 ⟨j, hj⟩
  simp only [BitVec.getLsbD_and, BitVec.getLsbD_zero] at h1 h3 ⊢
  revert h1 h3
  cases w.getLsbD j <;> cases (0xFFFFF1FF#32).getLsbD j <;> simp

/-- SMBUS_STAGE (R383). -/
theorem smbusStage_put (w : Word) (hk : i.toNat < s.insts.length) :
    smbusStage i.toNat w (s.put i.toNat x o n r) = .ok (w &&& 0xFFFFF1FF#32, s.put i.toNat (x.smbused w) o n r) := by
  unfold smbusStage
  have hm : STS_SMBUS = 0x0E00#32 := by decide
  have hn : ∀ w : Word, w &&& ~~~0x0E00#32 = w &&& 0xFFFFF1FF#32 := fun _ => rfl
  by_cases h : w &&& 0x0E00#32 = 0#32
  · rw [op_if_neg _ (by rw [hm]; unfold anyOf; simp [h])]
    simp only [op_pure, and_smbus w h, Inst.smbused, h, if_true]
  · rw [op_if_pos _ (by rw [hm]; unfold anyOf; simpa using h)]
    have h9 : ∀ w : Word, anyOf w SMBUS_ALERT = w.getLsbD 9 := fun w => anyOf_bit w ⟨9, by omega⟩
    have hm9 : ∀ w : Word, w &&& ~~~SMBUS_ALERT = w &&& 0xFFFFFDFF#32 := fun _ => rfl
    simp only [op_bind, regRead_put _ _ _ _ _ _ .intrCtrl hk (.inl (by decide)), Inst.view, h9, op_whenB, hm9,
      op_regWrite_intrCtrl, op_modOuts, updInst_put _ _ _ _ _ _ _ hk]
    cases hb : (w.getLsbD 9 && x.regs.intrCtrl.getLsbD 9)
    · simp only [Bool.false_eq_true, if_false, clearSts_put _ _ _ _ _ _ _ hk, op_pure, hm, hn, Inst.smbused, h, hb]
    · simp only [if_true, clearSts_put _ _ _ _ _ _ _ hk, op_pure, hm, hn, Inst.smbused, h, hb, if_false]
      rfl

/-- A finished transaction keeps its engine idle. -/
theorem anyOf_rx (w : Word) : anyOf w RX_DONE = w.getLsbD 2 ∧ anyOf w SLAVE_MATCH = w.getLsbD 7
    ∧ anyOf w NORMAL_STOP = w.getLsbD 4 ∧ anyOf w ABNORMAL = w.getLsbD 5 ∧ anyOf w SCL_TIMEOUT = w.getLsbD 6 :=
  ⟨anyOf_bit w ⟨2, by omega⟩, anyOf_bit w ⟨7, by omega⟩, anyOf_bit w ⟨4, by omega⟩, anyOf_bit w ⟨5, by omega⟩,
    anyOf_bit w ⟨6, by omega⟩⟩

/-- S_STOP without data (R349). -/
theorem sStop_put (w : Word) (hk : i.toNat < s.insts.length) (hr : x.slave.ring.length = s.cfg.ringCap)
    (hc : x.slave.sstate = .rx → x.slave.sCur ≠ none)
    (hd : (w.getLsbD 2 && !w.getLsbD 7 && x.slave.sstate == .rx) = false) :
    sStop i.toNat w (s.put i.toNat x o n r) =
      .ok (0x0010#32 ||| (if x.slave.sstate = .tx then w &&& 0x0003#32 else 0#32),
        s.put i.toNat (x.finished s.cfg.ringCap) (x.release .slave o) n r) := by
  obtain ⟨h2, h7, -⟩ := anyOf_rx w
  simp only [sStop, op_bind, getInst_put _ _ _ _ _ _ hk, h2, h7, hd, op_whenB_false, sFinal_put s i x _ _ _ hk hr hc,
    op_pure]
  cases x.slave.sstate <;> rfl

/-- S_STOP with the data that came with the STOP (R349). -/
theorem sStop_data_put (w : Word) (cur v : Nat) (d : List Byte) (hk : i.toNat < s.insts.length)
    (hr : x.slave.ring.length = s.cfg.ringCap) (hc : x.slave.sCur = some cur)
    (hd : (w.getLsbD 2 && !w.getLsbD 7 && x.slave.sstate == .rx) = true) (hdm : x.dmaInFlight = none)
    (hx : x.extracted s.cfg x.slave.sXmode x.slave.sXlen.toNat = some v) (hle : v ≤ x.slave.sXlen.toNat)
    (hrc : s.received i x .slave x.slave.sXmode v = some d) (hfit : slotLen x.slave cur + v ≤ s.cfg.slotCap) :
    sStop i.toNat w (s.put i.toNat x o n r) =
      .ok (0x0014#32, s.put i.toNat ((x.appended cur d).finished s.cfg.ringCap) (x.release .slave o) n r) := by
  obtain ⟨h2, h7, -⟩ := anyOf_rx w
  have hrx : x.slave.sstate = .rx := by
    simp only [Bool.and_eq_true, beq_iff_eq] at hd; exact hd.2
  have hsd : sData i.toNat true (s.put i.toNat x o n r) = .ok ((), s.put i.toNat (x.appended cur d) o n r) := by
    simp only [sData, op_bind, getInst_put _ _ _ _ _ _ hk, op_getCfg, hrx, hc, extract_put _ _ _ _ _ _ _ _ hk hdm, hx]
    rw [if_neg (Nat.not_lt.2 hle)]
    simp only [op_bind, received_put s i x _ _ _ _ _ v d hk hrc, put_cfg]
    refine (op_if_neg _ (Nat.not_lt.2 hfit) _ _).trans ?_
    simp only [op_bind, op_modSlave, updInst_put _ _ _ _ _ _ _ hk, Bool.not_true, op_whenB_false]
    rfl
  simp only [sStop, op_bind, getInst_put _ _ _ _ _ _ hk, h2, h7, hd, op_whenB_true, hsd,
    sFinal_put s i (x.appended cur d) _ _ _ hk (by simp [Inst.appended, hr])
      (fun _ => by simp [Inst.appended, hc]), op_pure]
  have : ((x.appended cur d).slave.sstate == SState.tx) = false := by simp [Inst.appended, hrx]
  simp only [this, if_true, Bool.false_eq_true, if_false]; rfl

/-- FAULT_STAGE (R384). -/
theorem faultStage_put (w : Word) (hk : i.toNat < s.insts.length) : ∃ a b c j,
    faultStage i.toNat w (s.put i.toNat x o n r) = .ok ((), s.put i.toNat
      ((((x.raised ((if w.getLsbD 5 then 0x20#32 else 0#32) ||| if w.getLsbD 6 then 0x40#32 else 0#32)).cleared
        w).busReset s.cfg (s.cfg.inst i.toNat) a b c).ended 0#32) (x.resetOwner s.cfg o) j r) := by
  obtain ⟨-, -, -, h5, h6⟩ := anyOf_rx w
  obtain ⟨a, b, c, j, h⟩ := busReset_put s i.toNat
    ((x.raised ((if w.getLsbD 5 then 0x20#32 else 0#32) ||| if w.getLsbD 6 then 0x40#32 else 0#32)).cleared w) o n r hk
  refine ⟨a, b, c, j, ?_⟩
  have hr : faultStage i.toNat w (s.put i.toNat x o n r) =
      (do busReset i.toNat; mFault i.toNat : Op Unit) (s.put i.toNat
        ((x.raised ((if w.getLsbD 5 then 0x20#32 else 0#32) ||| if w.getLsbD 6 then 0x40#32 else 0#32)).cleared w)
        o n r) := by
    simp only [faultStage, op_bind, op_whenB, h5, h6]
    cases w.getLsbD 5 <;> cases w.getLsbD 6 <;>
    simp only [Bool.false_eq_true, if_false, if_true, op_raiseErr, updInst_put _ _ _ _ _ _ _ hk,
      clearSts_put _ _ _ _ _ _ _ hk, Inst.raised, BitVec.or_zero, BitVec.or_assoc] <;> rfl
  rw [hr]
  simp only [op_bind, h, mFault_put _ _ _ _ _ _ hk]
  rfl

/-- The sweep's clearing writes (R399): what they leave but for INTR_STS itself. -/
theorem sweepClear_put (w : Word) (hk : i.toNat < s.insts.length) : ∀ (l : List Nat) (x : Inst), ∃ v : Word,
    sweepClear i.toNat w l (s.put i.toNat x o n r) = .ok ((), s.put i.toNat
      { x with regs := { x.regs with intrSts := v }
               outs := x.notedAll ((l.filter fun b => w.getLsbD b).map fun b => (.intrSts, 1#32 <<< b)) } o n r) := by
  intro l
  induction l with
  | nil => intro x; exact ⟨x.regs.intrSts, by simp [sweepClear, Inst.notedAll]⟩
  | cons b l ih =>
    intro x
    simp only [sweepClear, op_bind, op_whenB]
    cases hb : w.getLsbD b
    · obtain ⟨v, h⟩ := ih x
      refine ⟨v, ?_⟩
      simp only [Bool.false_eq_true, if_false, h, List.filter_cons, hb]
    · obtain ⟨v, h⟩ := ih (x.cleared (1#32 <<< b))
      refine ⟨v, ?_⟩
      simp only [if_true, clearSts_put _ _ _ _ _ _ _ hk, h, List.filter_cons, hb]
      simp only [Inst.cleared, Inst.notedAll, Inst.noted, List.map_cons, List.append_assoc]
      rfl

/-- BUS_RESET does not look at INTR_STS. -/
theorem busReset_intrSts (g : Config) (ic : InstConfig) (v : Word) (a b c : Bool) :
    ({ x with regs := { x.regs with intrSts := v } } : Inst).busReset g ic a b c = x.busReset g ic a b c := by
  unfold Inst.busReset; split <;> rfl

/-- SWEEP (R399). -/
theorem sweep_put (w : Word) (hk : i.toNat < s.insts.length) : ∃ a b c j,
    sweep i.toNat w (s.put i.toNat x o n r) = .ok ((), s.put i.toNat
      (((({ x with outs := { x.outs with
        log := x.outs.log ++ [.unexpectedCombination w]
        regTrace := x.outs.regTrace ++ ((List.range 15).filter fun b => w.getLsbD b).map fun b =>
          (.intrSts, 1#32 <<< b) } } : Inst).raised 0x00020000#32).busReset s.cfg (s.cfg.inst i.toNat) a b c).ended 0#32)
      (x.resetOwner s.cfg o) j r) := by
  obtain ⟨v, hv⟩ := sweepClear_put s i o n r w hk [0, 1, 2, 3, 4, 5, 6, 7, 8, 9, 10, 11, 12, 13, 14]
    { x with outs := { x.outs with log := x.outs.log ++ [.unexpectedCombination w] } }
  obtain ⟨a, b, c, j, h⟩ := busReset_put s i.toNat (({ x with
      regs := { x.regs with intrSts := v }
      outs := { x.outs with
        log := x.outs.log ++ [.unexpectedCombination w]
        regTrace := x.outs.regTrace ++ ((List.range 15).filter fun b => w.getLsbD b).map fun b =>
          (.intrSts, 1#32 <<< b) } } : Inst).raised 0x00020000#32) o n r hk
  refine ⟨a, b, c, j, ?_⟩
  have hr : sweep i.toNat w (s.put i.toNat x o n r) = (do busReset i.toNat; mFault i.toNat : Op Unit) (s.put i.toNat
      (({ x with
        regs := { x.regs with intrSts := v }
        outs := { x.outs with
          log := x.outs.log ++ [.unexpectedCombination w]
          regTrace := x.outs.regTrace ++ ((List.range 15).filter fun b => w.getLsbD b).map fun b =>
            (.intrSts, 1#32 <<< b) } } : Inst).raised 0x00020000#32) o n r) := by
    simp only [sweep, op_bind, op_logRec, updInst_put _ _ _ _ _ _ _ hk, hv, op_raiseErr]
    rfl
  rw [hr]
  simp only [op_bind, h, mFault_put _ _ _ _ _ _ hk]
  rw [show (({ x with
      regs := { x.regs with intrSts := v }
      outs := { x.outs with
        log := x.outs.log ++ [.unexpectedCombination w]
        regTrace := x.outs.regTrace ++ ((List.range 15).filter fun b => w.getLsbD b).map fun b =>
          (.intrSts, 1#32 <<< b) } } : Inst).raised 0x00020000#32).busReset s.cfg (s.cfg.inst i.toNat) a b c = _ from
    busReset_intrSts (({ x with outs := { x.outs with
        log := x.outs.log ++ [.unexpectedCombination w]
        regTrace := x.outs.regTrace ++ ((List.range 15).filter fun b => w.getLsbD b).map fun b =>
          (.intrSts, 1#32 <<< b) } } : Inst).raised 0x00020000#32) _ _ _ _ _ _]
  rfl

/-- Stages 5 and 6 (R386, R399). -/
theorem tableStages_put (w : Word) (hk : i.toNat < s.insts.length) :
    tableStages i.toNat w (s.put i.toNat x o n r) = (match rowOf x.master.slaveOp s.cfg.slavePresent w with
      | some row => runRow i.toNat x.master.slaveOp row (s.put i.toNat (x.cleared w) o n r)
      | none => sweep i.toNat w (s.put i.toNat x o n r)) := by
  simp only [tableStages, op_bind, getInst_put _ _ _ _ _ _ hk, op_getCfg, put_cfg]
  cases rowOf x.master.slaveOp s.cfg.slavePresent w <;> simp only [op_bind, clearSts_put _ _ _ _ _ _ _ hk]

end stages

end Sys2Proof.Machine
end

