-- ==== Sys2Proof/Laws/Ring.lean ====
section
/-! SUPPORT. The slave receive ring: each of its updates keeps it well formed (R81 c and d). -/

namespace Sys2Proof.Machine

open Sys2Proof

/-! ## Slots -/

theorem slotState_modSlot (v : Slave) (k j : Nat) (f : Slot → Slot) (h : j < v.ring.length) :
    slotState (modSlot v k f) j = if k = j then (f v.ring[j]).state else slotState v j := by
  simp only [slotState, modSlot, List.getElem?_modify, List.getElem?_eq_getElem h]
  by_cases e : k = j <;> simp [e]

theorem slotState_outside (v : Slave) (j : Nat) (h : v.ring.length ≤ j) : slotState v j = .empty := by
  simp [slotState, List.getElem?_eq_none h]

theorem mem_modSlot (v : Slave) (k : Nat) (f : Slot → Slot) (q : Slot) (h : q ∈ (modSlot v k f).ring) :
    q ∈ v.ring ∨ ∃ p ∈ v.ring, q = f p := by
  obtain ⟨j, hj⟩ := List.mem_iff_getElem?.1 h
  simp only [modSlot, List.getElem?_modify] at hj
  by_cases e : k = j
  · subst e
    simp only [if_true, Option.map_eq_map, Option.map_eq_some_iff] at hj
    obtain ⟨p, hp, rfl⟩ := hj
    exact .inr ⟨p, List.mem_of_getElem? hp, rfl⟩
  · simp only [e, if_false, id_map'] at hj
    exact .inl (List.mem_of_getElem? hj)

@[simp] theorem modSlot_length (v : Slave) (k : Nat) (f : Slot → Slot) :
    (modSlot v k f).ring.length = v.ring.length := by simp [modSlot]

@[simp] theorem modSlot_rd (v : Slave) (k : Nat) (f : Slot → Slot) : (modSlot v k f).rd = v.rd := rfl
@[simp] theorem modSlot_wr (v : Slave) (k : Nat) (f : Slot → Slot) : (modSlot v k f).wr = v.wr := rfl
@[simp] theorem modSlot_ready (v : Slave) (k : Nat) (f : Slot → Slot) : (modSlot v k f).ready = v.ready := rfl
@[simp] theorem modSlot_sCur (v : Slave) (k : Nat) (f : Slot → Slot) : (modSlot v k f).sCur = v.sCur := rfl
@[simp] theorem modSlot_sstate (v : Slave) (k : Nat) (f : Slot → Slot) : (modSlot v k f).sstate = v.sstate := rfl
@[simp] theorem modSlot_txLen (v : Slave) (k : Nat) (f : Slot → Slot) : (modSlot v k f).txLen = v.txLen := rfl
@[simp] theorem modSlot_txbuf (v : Slave) (k : Nat) (f : Slot → Slot) : (modSlot v k f).txbuf = v.txbuf := rfl
@[simp] theorem modSlot_sLoan (v : Slave) (k : Nat) (f : Slot → Slot) : (modSlot v k f).sLoan = v.sLoan := rfl

/-! ## Indices modulo the capacity -/

theorem add_mod_cap (rd j cap : Nat) (hr : rd < cap) (hj : j ≤ cap) :
    (rd + j) % cap = if rd + j < cap then rd + j else rd + j - cap := by
  split
  · exact Nat.mod_eq_of_lt ‹_›
  · rw [Nat.mod_eq_sub_mod (by omega), Nat.mod_eq_of_lt (by omega)]

theorem succ_mod_cap (k cap : Nat) (h : k < cap) : (k + 1) % cap = if k + 1 < cap then k + 1 else 0 := by
  split
  · exact Nat.mod_eq_of_lt ‹_›
  · rw [show k + 1 = cap by omega, Nat.mod_self]

section ring

variable {v : Slave} {cap size : Nat}

theorem Slave.Ok.cap_pos (h : v.Ok cap size) : 0 < cap := Nat.lt_of_le_of_lt (Nat.zero_le _) h.rd_lt

/-- A full slot, by its index. -/
theorem Slave.Ok.full_at (h : v.Ok cap size) (k : Nat) (hk : k < cap) :
    slotState v k = .full ↔ (if v.rd ≤ k then k - v.rd else k + cap - v.rd) < v.ready := by
  have hr := h.rd_lt
  have := h.full_iff (if v.rd ≤ k then k - v.rd else k + cap - v.rd) (by split <;> omega)
  rwa [add_mod_cap _ _ _ hr (by split <;> omega),
    show (if v.rd + (if v.rd ≤ k then k - v.rd else k + cap - v.rd) < cap
      then v.rd + (if v.rd ≤ k then k - v.rd else k + cap - v.rd)
      else v.rd + (if v.rd ≤ k then k - v.rd else k + cap - v.rd) - cap) = k by split <;> split <;> omega] at this

theorem Slave.Ok.wr_at (h : v.Ok cap size) :
    v.wr = if v.rd + v.ready < cap then v.rd + v.ready else v.rd + v.ready - cap := by
  rw [h.wr_eq, add_mod_cap _ _ _ h.rd_lt h.ready_le]

theorem Slave.Ok.wr_lt (h : v.Ok cap size) : v.wr < cap := by
  rw [h.wr_eq]; exact Nat.mod_lt _ h.cap_pos

/-- The slot to write next is full exactly when the ring is (R342). -/
theorem Slave.Ok.ringFull_iff (h : v.Ok cap size) : ringFull v = true ↔ v.ready = cap := by
  have hr := h.rd_lt; have hl := h.ready_le; have hc := h.cap_pos
  have hw := h.wr_at
  simp only [ringFull, beq_iff_eq]
  rw [h.full_at _ h.wr_lt, hw]
  split <;> split <;> omega

/-- A change of the fields that do not make up the ring keeps it well formed. -/
theorem Slave.Ok.congr {w : Slave} (h : v.Ok cap size) (hring : w.ring = v.ring) (hrd : w.rd = v.rd)
    (hwr : w.wr = v.wr) (hready : w.ready = v.ready) (hcur : w.sCur = v.sCur)
    (hst : w.sstate = .rx → v.sstate = .rx) (htl : w.txLen = v.txLen) (htb : w.txbuf = v.txbuf) :
    w.Ok cap size := by
  have hs : ∀ k, slotState w k = slotState v k := fun k => by simp [slotState, hring]
  exact {
    length_ring := by rw [hring]; exact h.length_ring
    rd_lt := by rw [hrd]; exact h.rd_lt
    ready_le := by rw [hready]; exact h.ready_le
    wr_eq := by rw [hwr, hrd, hready]; exact h.wr_eq
    full_iff := fun j hj => by rw [hs, hrd, hready]; exact h.full_iff j hj
    ongoing_iff := fun k => by rw [hs, hcur]; exact h.ongoing_iff k
    cur_eq := fun k hk => by rw [hwr]; exact h.cur_eq k (hcur ▸ hk)
    rx_cur := fun e => by rw [hcur]; exact h.rx_cur (hst e)
    len_le := by rw [hring]; exact h.len_le
    txLen_le := by rw [htl]; exact h.txLen_le
    bufs_wf := by rw [hring]; exact h.bufs_wf
    txbuf_wf := by rw [htb]; exact h.txbuf_wf }

/-- The oldest message taken out, read or dropped (R342, R350). -/
theorem Slave.Ok.evict (h : v.Ok cap size) (hp : 0 < v.ready) : (evictOldest v).Ok cap size := by
  have hr := h.rd_lt; have hl := h.ready_le; have hc := h.cap_pos; have hlen := h.length_ring
  have hw := h.wr_at; have hwl := h.wr_lt
  have hfull := h.full_at v.rd hr
  have hrd : slotState v v.rd = .full := by rw [hfull]; simp; omega
  have hs : ∀ k, slotState (evictOldest v) k = if k = v.rd then .empty else slotState v k := fun k => by
    show slotState (modSlot v v.rd fun q => { q with state := .empty, len := 0 }) k = _
    by_cases hk : k < cap
    · rw [slotState_modSlot _ _ _ _ (by omega)]
      by_cases e : v.rd = k
      · simp [e]
      · simp [e, Ne.symm e]
    · rw [slotState_outside _ _ (by simp; omega), slotState_outside v k (by omega)]
      simp
  have hmem : ∀ q ∈ (evictOldest v).ring, q ∈ v.ring ∨ ∃ p ∈ v.ring, q = { p with state := .empty, len := 0 } :=
    fun q hq => mem_modSlot v v.rd _ q hq
  have hrd' : (evictOldest v).rd = if v.rd + 1 < cap then v.rd + 1 else 0 := by
    show (v.rd + 1) % v.ring.length = _
    rw [hlen, succ_mod_cap _ _ hr]
  have hrl : (evictOldest v).rd < cap := by rw [hrd']; split <;> omega
  have hready : (evictOldest v).ready = v.ready - 1 := rfl
  have hwr' : (evictOldest v).wr = v.wr := rfl
  exact {
    length_ring := by simp [evictOldest, hlen]
    rd_lt := hrl
    ready_le := by rw [hready]; omega
    wr_eq := by
      rw [add_mod_cap _ _ _ hrl (by rw [hready]; omega), hready, hrd', hwr', hw]
      split_ifs <;> omega
    full_iff := fun j hj => by
      have hI := add_mod_cap (evictOldest v).rd j cap hrl (by omega)
      generalize ((evictOldest v).rd + j) % cap = k at *
      rw [hrd'] at hI
      have hf := h.full_at k (by split_ifs at hI <;> omega)
      rw [hs, hready]
      by_cases e : k = v.rd
      · simp only [e, if_true, reduceCtorEq, false_iff, not_lt]
        split_ifs at hI <;> omega
      · rw [if_neg e, hf]
        split_ifs at hI ⊢ <;> omega
    ongoing_iff := fun k => by
      rw [hs]
      show _ ↔ v.sCur = some k
      rw [← h.ongoing_iff]
      split
      · rename_i e; simp [e, hrd]
      · rfl
    cur_eq := fun k hk => h.cur_eq k hk
    rx_cur := h.rx_cur
    len_le := fun q hq => by
      rcases hmem q hq with hq | ⟨p, -, rfl⟩
      · exact h.len_le q hq
      · exact Nat.zero_le _
    txLen_le := h.txLen_le
    bufs_wf := fun q hq => by
      rcases hmem q hq with hq | ⟨p, hp, rfl⟩
      · exact h.bufs_wf q hq
      · exact h.bufs_wf p hp
    txbuf_wf := h.txbuf_wf }

/-- A slot opened for a write (R343). -/
theorem Slave.Ok.open (h : v.Ok cap size) (a : Byte) (hn : v.ready < cap) : (openSlot a v).Ok cap size := by
  have hr := h.rd_lt; have hwl := h.wr_lt; have hlen := h.length_ring
  have hs : ∀ k, slotState (openSlot a v) k = if k = v.wr then .ongoing else slotState v k := fun k => by
    show slotState (modSlot v v.wr _) k = _
    by_cases hk : k < cap
    · rw [slotState_modSlot _ _ _ _ (by omega)]
      by_cases e : v.wr = k
      · simp [e]
      · simp [e, Ne.symm e]
    · rw [slotState_outside _ _ (by simp; omega), slotState_outside v k (by omega), if_neg (by omega)]
  have hmem : ∀ q ∈ (openSlot a v).ring, q ∈ v.ring ∨ ∃ p ∈ v.ring, q = { p with state := .ongoing, addr := a, len := 0 } :=
    fun q hq => mem_modSlot v v.wr _ q hq
  have hw := h.wr_at
  exact {
    length_ring := by simp [openSlot, hlen]
    rd_lt := hr
    ready_le := h.ready_le
    wr_eq := h.wr_eq
    full_iff := fun j hj => by
      have hf := h.full_iff j hj
      show slotState (openSlot a v) ((v.rd + j) % cap) = _ ↔ j < v.ready
      rw [hs]
      split
      · rename_i e
        simp only [reduceCtorEq, false_iff, not_lt]
        rw [add_mod_cap _ _ _ hr (by omega), hw] at e
        split at e <;> split at e <;> omega
      · exact hf
    ongoing_iff := fun k => by
      rw [hs]
      show _ ↔ some v.wr = some k
      by_cases e : k = v.wr
      · simp [e]
      · simp only [e, if_false, Option.some.injEq, Ne.symm e, iff_false]
        intro ho
        exact e (h.cur_eq k ((h.ongoing_iff k).1 ho))
    cur_eq := fun k hk => by
      have : some v.wr = some k := hk
      exact (Option.some.inj this).symm
    rx_cur := fun _ => by show some v.wr ≠ none; simp
    len_le := fun q hq => by
      rcases hmem q hq with hq | ⟨p, -, rfl⟩
      · exact h.len_le q hq
      · exact Nat.zero_le _
    txLen_le := h.txLen_le
    bufs_wf := fun q hq => by
      rcases hmem q hq with hq | ⟨p, hp, rfl⟩
      · exact h.bufs_wf q hq
      · exact h.bufs_wf p hp
    txbuf_wf := h.txbuf_wf }

/-- The open slot completed (R348). -/
theorem Slave.Ok.close (h : v.Ok cap size) : (closeSlot v).Ok cap size := by
  cases hc : v.sCur with
  | none => rw [closeSlot, hc]; exact h
  | some k =>
    have hr := h.rd_lt; have hwl := h.wr_lt; have hlen := h.length_ring; have hl := h.ready_le
    have hk := h.cur_eq k hc
    have ho := (h.ongoing_iff k).2 hc
    subst hk
    have hnf : v.ready ≠ cap := fun e => by
      have := h.ringFull_iff.2 e
      rw [ringFull, ho] at this
      cases this
    have hw := h.wr_at
    have heq : closeSlot v = { modSlot v v.wr (fun q => { q with state := .full }) with
      wr := (v.wr + 1) % v.ring.length, ready := v.ready + 1, sCur := none, sstate := .idle } := by
      rw [closeSlot, hc]
    have hs : ∀ j, slotState (closeSlot v) j = if j = v.wr then .full else slotState v j := fun j => by
      rw [heq]
      show slotState (modSlot v v.wr _) j = _
      by_cases hj : j < cap
      · rw [slotState_modSlot _ _ _ _ (by omega)]
        by_cases e : v.wr = j
        · simp [e]
        · simp [e, Ne.symm e]
      · rw [slotState_outside _ _ (by simp; omega), slotState_outside v j (by omega), if_neg (by omega)]
    have hmem : ∀ q ∈ (closeSlot v).ring, q ∈ v.ring ∨ ∃ p ∈ v.ring, q = { p with state := .full } := fun q hq => by
      rw [heq] at hq
      exact mem_modSlot v v.wr _ q hq
    have hrd' : (closeSlot v).rd = v.rd := by rw [heq]; rfl
    have hready' : (closeSlot v).ready = v.ready + 1 := by rw [heq]
    have hcur' : (closeSlot v).sCur = none := by rw [heq]
    have hst' : (closeSlot v).sstate = .idle := by rw [heq]
    exact {
      length_ring := by rw [heq]; simp [hlen]
      rd_lt := by rw [hrd']; exact hr
      ready_le := by rw [hready']; omega
      wr_eq := by
        rw [hrd', hready', add_mod_cap _ _ _ hr (by omega), heq]
        show (v.wr + 1) % v.ring.length = _
        rw [hlen, succ_mod_cap _ _ hwl, hw]
        split <;> split <;> split <;> omega
      full_iff := fun j hj => by
        have hf := h.full_iff j hj
        rw [hrd', hready', hs]
        split
        · rename_i e
          simp only [true_iff]
          rw [add_mod_cap _ _ _ hr (by omega), hw] at e
          split at e <;> split at e <;> omega
        · rename_i e
          rw [hf]
          rw [add_mod_cap _ _ _ hr (by omega), hw] at e
          split at e <;> split at e <;> omega
      ongoing_iff := fun j => by
        rw [hs, hcur']
        simp only [reduceCtorEq, iff_false]
        by_cases e : j = v.wr
        · simp [e]
        · simp only [e, if_false]
          intro hj
          exact e (h.cur_eq j ((h.ongoing_iff j).1 hj))
      cur_eq := fun j hj => by rw [hcur'] at hj; cases hj
      rx_cur := fun e => by rw [hst'] at e; cases e
      len_le := fun q hq => by
        rcases hmem q hq with hq | ⟨p, hp, rfl⟩
        · exact h.len_le q hq
        · exact h.len_le p hp
      txLen_le := by rw [heq]; exact h.txLen_le
      bufs_wf := fun q hq => by
        rcases hmem q hq with hq | ⟨p, hp, rfl⟩
        · exact h.bufs_wf q hq
        · exact h.bufs_wf p hp
      txbuf_wf := by rw [heq]; exact h.txbuf_wf }

/-- The slave engine's abort: the open slot is discarded (R357). -/
theorem Slave.Ok.abort (h : v.Ok cap size) :
    ({ discardOpen v with sCur := none, sstate := .idle, txOff := 0, sXlen := 0 } : Slave).Ok cap size := by
  cases hc : v.sCur with
  | none =>
    rw [discardOpen, hc]
    exact h.congr rfl rfl rfl rfl hc.symm (fun e => nomatch e) rfl rfl
  | some k =>
    have hr := h.rd_lt; have hwl := h.wr_lt; have hlen := h.length_ring; have hl := h.ready_le
    have hk := h.cur_eq k hc
    have ho := (h.ongoing_iff k).2 hc
    subst hk
    rw [discardOpen, hc]
    have hs : ∀ j, slotState { modSlot v v.wr (fun q => { q with state := .empty, len := 0 }) with
        sCur := none, sstate := .idle, txOff := 0, sXlen := 0 } j = if j = v.wr then .empty else slotState v j :=
      fun j => by
        show slotState (modSlot v v.wr _) j = _
        by_cases hj : j < cap
        · rw [slotState_modSlot _ _ _ _ (by omega)]
          by_cases e : v.wr = j
          · simp [e]
          · simp [e, Ne.symm e]
        · rw [slotState_outside _ _ (by simp; omega), slotState_outside v j (by omega), if_neg (by omega)]
    exact {
      length_ring := by simp [hlen]
      rd_lt := hr
      ready_le := hl
      wr_eq := h.wr_eq
      full_iff := fun j hj => by
        have hf := h.full_iff j hj
        show slotState _ ((v.rd + j) % cap) = _ ↔ j < v.ready
        rw [hs]
        split
        · rename_i e
          rw [← hf, e, ho]
          simp
        · exact hf
      ongoing_iff := fun j => by
        rw [hs]
        simp only [reduceCtorEq, iff_false]
        by_cases e : j = v.wr
        · simp [e]
        · simp only [e, if_false]
          intro hj
          exact e (h.cur_eq j ((h.ongoing_iff j).1 hj))
      cur_eq := fun j hj => nomatch hj
      rx_cur := fun e => nomatch e
      len_le := fun q hq => by
        rcases mem_modSlot v v.wr _ q hq with hq | ⟨p, -, rfl⟩
        · exact h.len_le q hq
        · exact Nat.zero_le _
      txLen_le := h.txLen_le
      bufs_wf := fun q hq => by
        rcases mem_modSlot v v.wr _ q hq with hq | ⟨p, hp, rfl⟩
        · exact h.bufs_wf q hq
        · exact h.bufs_wf p hp
      txbuf_wf := h.txbuf_wf }

/-- Bytes appended to the open slot that fit it (R345). -/
theorem Slave.Ok.append (h : v.Ok cap size) (k : Nat) (d : List Byte) (hf : slotLen v k + d.length ≤ size) :
    (appendSlot k d v).Ok cap size := by
  have hlen := h.length_ring
  have hs : ∀ j, slotState (appendSlot k d v) j = slotState v j := fun j => by
    show slotState (modSlot v k _) j = _
    by_cases hj : j < cap
    · rw [slotState_modSlot _ _ _ _ (by omega)]
      by_cases e : k = j
      · simp [e, slotState, List.getElem?_eq_getElem (show j < v.ring.length by omega)]
      · simp [e]
    · rw [slotState_outside _ _ (by simp; omega), slotState_outside v j (by omega)]
  exact {
    length_ring := by simp [appendSlot, hlen]
    rd_lt := h.rd_lt
    ready_le := h.ready_le
    wr_eq := h.wr_eq
    full_iff := fun j hj => by rw [hs]; exact h.full_iff j hj
    ongoing_iff := fun j => by rw [hs]; exact h.ongoing_iff j
    cur_eq := h.cur_eq
    rx_cur := h.rx_cur
    len_le := fun q hq => by
      obtain ⟨j, hj⟩ := List.mem_iff_getElem?.1 hq
      simp only [appendSlot, modSlot, List.getElem?_modify] at hj
      by_cases e : k = j
      · subst e
        simp only [if_true, Option.map_eq_map, Option.map_eq_some_iff] at hj
        obtain ⟨p, hp, rfl⟩ := hj
        simpa [slotLen, hp] using hf
      · simp only [e, if_false, id_map'] at hj
        exact h.len_le q (List.mem_of_getElem? hj)
    txLen_le := h.txLen_le
    bufs_wf := fun q hq => by
      rcases mem_modSlot v k _ q hq with hq | ⟨p, hp, rfl⟩
      · exact h.bufs_wf q hq
      · exact writeN_wf _ _ _ (h.bufs_wf p hp)
    txbuf_wf := h.txbuf_wf }

/-- A reply stored that fits the transmit buffer (R351). -/
theorem Slave.Ok.setTx (h : v.Ok cap size) (d : List Byte) (n : Nat) (hn : n ≤ size) :
    ({ v with txbuf := Memory.writeN v.txbuf 0 d, txLen := n } : Slave).Ok cap size :=
  { length_ring := h.length_ring, rd_lt := h.rd_lt, ready_le := h.ready_le, wr_eq := h.wr_eq,
    full_iff := h.full_iff, ongoing_iff := h.ongoing_iff, cur_eq := h.cur_eq, rx_cur := h.rx_cur,
    len_le := h.len_le, txLen_le := hn, bufs_wf := h.bufs_wf, txbuf_wf := writeN_wf _ _ _ h.txbuf_wf }

end ring

/-- The ring after reset is well formed (R80). -/
theorem Slave.reset_ok (cap size : Nat) (hc : 0 < cap) : (Slave.reset cap).Ok cap size := by
  have hs : ∀ k, slotState (Slave.reset cap) k = .empty := fun k => by
    simp only [slotState, Slave.reset, List.getElem?_replicate]
    split
    · rename_i h; split at h <;> cases h; rfl
    · rfl
  exact {
    length_ring := by simp [Slave.reset]
    rd_lt := hc
    ready_le := Nat.zero_le _
    wr_eq := (Nat.zero_mod cap).symm
    full_iff := fun j hj => by rw [hs]; simp [Slave.reset]
    ongoing_iff := fun k => by rw [hs]; simp [Slave.reset]
    cur_eq := fun k hk => nomatch hk
    rx_cur := fun e => nomatch e
    len_le := fun q hq => by rw [(List.mem_replicate.1 hq).2]; exact Nat.zero_le _
    txLen_le := Nat.zero_le _
    bufs_wf := fun q hq => by rw [(List.mem_replicate.1 hq).2]; rfl
    txbuf_wf := rfl }

end Sys2Proof.Machine
end

