-- ==== Sys2Proof/Laws/Moves.lean ====
section
/-! SUPPORT. What a step can do, said once: every operation is a chain of the few moves listed here, all of them on the
instance it acts on and on the shared spaces. Each invariant is then a check of the moves (Laws/Keeps.lean). -/

namespace Sys2Proof.Machine

open Sys2Proof

/-- What an operation may do beside the moves allowed to all: move the thread and its wait, count a recovery, latch
status bits. -/
structure Perm where
  thread : Bool
  count  : Bool
  latch  : Bool

/-- What a change of the registers may do to INTR_STS: nothing, or leave only bits below 15, of which only a latching
operation sets one. -/
def RegsStep (p : Perm) (r q : Regs) : Prop :=
  q.intrSts = r.intrSts
  ∨ q.intrSts &&& 0xFFFF8000#32 = 0#32 ∧ (p.latch = true ∨ q.intrSts &&& ~~~r.intrSts = 0#32)

/-- One move of an operation on instance k. -/
inductive Move (k : Nat) (p : Perm) : State → State → Prop
  | ret (s : State) (r : Ret) : Move k p s { s with ret := r }
  | draw (s : State) : Move k p s { s with draws := s.draws + 1 }
  | regs (s : State) (f : Regs → Regs)
      (h : ∀ r, RegsStep p r (f r)) :
      Move k p s (s.updInst k fun x => { x with regs := f x.regs })
  | core (s : State) (f : Core → Core) : Move k p s (s.updInst k fun x => { x with core := f x.core })
  | master (s : State) (f : Master → Master) (h : ∀ m, (f m).mLoan = m.mLoan ∧ (f m).waiting = m.waiting) :
      Move k p s (s.updInst k fun x => { x with master := f x.master })
  | await (s : State) (f : Master → Master) (hp : p.thread = true) (h : ∀ m, (f m).mLoan = m.mLoan) :
      Move k p s (s.updInst k fun x => { x with master := f x.master })
  | slave (s : State) (f : Slave → Slave)
      (h : ∀ x cap size, s.insts[k]? = some x → cap = s.cfg.ringCap → size = s.cfg.slotCap →
        x.slave.Ok cap size → (f x.slave).Ok cap size)
      (hl : ∀ v, (f v).sLoan = v.sLoan) :
      Move k p s (s.updInst k fun x => { x with slave := f x.slave })
  | recov (s : State) (f : Recov → Recov)
      (h : ∀ v, (f v).masterResetCnt = v.masterResetCnt ∧ (f v).slaveRecoverCnt = v.slaveRecoverCnt) :
      Move k p s (s.updInst k fun x => { x with recov := f x.recov })
  | count (s : State) (f : Recov → Recov) (hp : p.count = true)
      (h : ∀ v, v.masterResetCnt ≤ (f v).masterResetCnt ∧ v.slaveRecoverCnt ≤ (f v).slaveRecoverCnt) :
      Move k p s (s.updInst k fun x => { x with recov := f x.recov })
  | outs (s : State) (f : Outs → Outs) : Move k p s (s.updInst k fun x => { x with outs := f x.outs })
  | thread (s : State) (f : Thread → Thread) (hp : p.thread = true) :
      Move k p s (s.updInst k fun x => { x with thread := f x.thread })
  | pool (s : State) (a : Nat) (bs : List Byte) : Move k p s { s with pool := Memory.writeN s.pool a bs }
  | dma (s : State) (a : Nat) (bs : List Byte) : Move k p s { s with dma := Memory.writeN s.dma a bs }
  | mem (s : State) (a : Nat) (bs : List Byte) : Move k p s { s with mem := Memory.writeN s.mem a bs }
  | acquire (s : State) (d : Side) (x : Inst) (hx : s.insts[k]? = some x) (h : s.poolOwner = none) :
      Move k p s (({ s with poolOwner := some (k, d) } : State).updInst k fun x => match d with
        | .master => { x with master := { x.master with mLoan := true } }
        | .slave => { x with slave := { x.slave with sLoan := true } })
  | release (s : State) (d : Side) (x : Inst) (hx : s.insts[k]? = some x) (h : x.loan d = true) :
      Move k p s (({ s with poolOwner := none } : State).updInst k fun x => match d with
        | .master => { x with master := { x.master with mLoan := false } }
        | .slave => { x with slave := { x.slave with sLoan := false } })

/-- A chain of moves. -/
abbrev Moves (k : Nat) (p : Perm) : State → State → Prop := Relation.ReflTransGen (Move k p)

/-- No move changes how many instances there are. -/
theorem Moves.length {k : Nat} {p : Perm} {s t : State} (h : Moves k p s t) :
    t.insts.length = s.insts.length := by
  induction h with
  | refl => rfl
  | tail _ h ih =>
    rw [← ih]
    cases h <;> simp

/-- An operation that only makes moves. -/
def Does (k : Nat) (p : Perm) {α : Type} (op : Op α) : Prop :=
  ∀ s a t, k < s.insts.length → op s = .ok (a, t) → Moves k p s t

section rules

variable {k : Nat} {p : Perm} {α β : Type}

theorem does_pure (a : α) : Does k p (pure a : Op α) := fun _ _ _ _ h => by cases h; exact .refl

theorem does_bind {op : Op α} {f : α → Op β} (h : Does k p op) (hf : ∀ a, Does k p (f a)) :
    Does k p (op >>= f) := fun s b t hk ht => by
  rw [op_bind] at ht
  cases ho : op s with
  | error e => rw [ho] at ht; cases ht
  | ok r =>
    rw [ho] at ht
    have h1 := h s r.1 r.2 hk ho
    exact h1.trans (hf r.1 r.2 b t (h1.length ▸ hk) ht)

theorem does_fault (f : Fault) : Does k p (opFault f : Op α) := fun _ _ _ _ h => by cases h
theorem does_refuse (r : Refusal) : Does k p (opRefuse r : Op α) := fun _ _ _ _ h => by cases h

theorem does_ite {c : Prop} [Decidable c] {a b : Op α} (ha : Does k p a) (hb : Does k p b) :
    Does k p (if c then a else b) := by split <;> assumption

theorem does_whenB {c : Bool} {op : Op Unit} (h : Does k p op) : Does k p (whenB c op) := does_ite h (does_pure _)

theorem does_require {c : Bool} {r : Refusal} : Does k p (require c r) := does_ite (does_pure _) (does_refuse _)

/-- An operation that leaves the state as it is. -/
theorem does_same {op : Op α} (h : ∀ s a t, op s = .ok (a, t) → t = s) : Does k p op := fun s a t _ ht => by
  rw [h s a t ht]

theorem does_one {op : Op α} (h : ∀ s a t, op s = .ok (a, t) → Move k p s t) : Does k p op :=
  fun s a t _ ht => .single (h s a t ht)

/-! ## The primitives -/

theorem does_getState : Does k p getState := does_same fun _ _ _ h => by cases h; rfl
theorem does_getCfg : Does k p getCfg := does_same fun _ _ _ h => by cases h; rfl
theorem does_getInstCfg {i : Nat} : Does k p (getInstCfg i) := does_same fun _ _ _ h => by cases h; rfl
theorem does_draw : Does k p draw := does_one fun s _ _ h => by cases h; exact .draw s

theorem getInst_ok {i : Nat} {s t : State} {x : Inst} (h : getInst i s = .ok (x, t)) :
    t = s ∧ s.insts[i]? = some x := by
  unfold getInst at h
  split at h
  · rename_i y hy; cases h; exact ⟨rfl, hy⟩
  · cases h

theorem does_getInst {i : Nat} : Does k p (getInst i) := does_same fun _ _ _ h => (getInst_ok h).1

theorem does_retWord {w : Word} : Does k p (retWord w) := does_pure _
theorem does_retNat {n : Nat} : Does k p (retNat n) := does_pure _
theorem does_retCode {r : Code} : Does k p (retCode r) := does_same fun _ _ _ h => by cases h; rfl
theorem does_noRet {op : Op Unit} (h : Does k p op) : Does k p (noRet op) := does_bind h fun _ => does_pure _

theorem does_modRegs {f : Regs → Regs}
    (h : ∀ r, RegsStep p r (f r)) : Does k p (modRegs k f) :=
  does_one fun s _ _ e => by cases e; exact .regs s f h
theorem does_modCore {f : Core → Core} : Does k p (modCore k f) := does_one fun s _ _ e => by cases e; exact .core s f
theorem does_modMaster {f : Master → Master} (h : ∀ m, (f m).mLoan = m.mLoan ∧ (f m).waiting = m.waiting) :
    Does k p (modMaster k f) := does_one fun s _ _ e => by cases e; exact .master s f h
theorem does_await {f : Master → Master} (hp : p.thread = true) (h : ∀ m, (f m).mLoan = m.mLoan) :
    Does k p (modMaster k f) := does_one fun s _ _ e => by cases e; exact .await s f hp h
theorem does_modSlave {f : Slave → Slave} (h : ∀ v cap size, v.Ok cap size → (f v).Ok cap size)
    (hl : ∀ v, (f v).sLoan = v.sLoan) : Does k p (modSlave k f) :=
  does_one fun s _ _ e => by cases e; exact .slave s f (fun x cap size _ _ _ hx => h x.slave cap size hx) hl
theorem does_modRecov {f : Recov → Recov}
    (h : ∀ v, (f v).masterResetCnt = v.masterResetCnt ∧ (f v).slaveRecoverCnt = v.slaveRecoverCnt) :
    Does k p (modRecov k f) := does_one fun s _ _ e => by cases e; exact .recov s f h
theorem does_count {f : Recov → Recov} (hp : p.count = true)
    (h : ∀ v, v.masterResetCnt ≤ (f v).masterResetCnt ∧ v.slaveRecoverCnt ≤ (f v).slaveRecoverCnt) :
    Does k p (modRecov k f) := does_one fun s _ _ e => by cases e; exact .count s f hp h
theorem does_modOuts {f : Outs → Outs} : Does k p (modOuts k f) := does_one fun s _ _ e => by cases e; exact .outs s f
theorem does_modThread {f : Thread → Thread} (hp : p.thread = true) : Does k p (modThread k f) :=
  does_one fun s _ _ e => by cases e; exact .thread s f hp

theorem does_needM {i : Nat} : Does k p (needM i) := does_bind does_getInst fun _ => does_require
theorem does_needS {i : Nat} : Does k p (needS i) := does_bind does_getInst fun _ => does_require
theorem does_needSlave : Does k p needSlave := does_bind does_getCfg fun _ => does_require
theorem does_needLocks {i : Nat} : Does k p (needLocks i) := does_bind does_needM fun _ => does_needS
theorem does_needLoan {i : Nat} {d : Side} : Does k p (needLoan i d) := does_bind does_getInst fun _ => does_require

/-! ## Byte spaces -/

theorem does_memRead {m : Memory} {a n : Nat} : Does k p (memRead m a n) :=
  does_same fun s _ t h => (memRead_ok s t m a n _ h).1
theorem does_poolRead {n : Nat} : Does k p (poolRead n) := does_bind does_getState fun _ => does_memRead
theorem does_dmaRead {a n : Nat} : Does k p (dmaRead a n) := does_bind does_getState fun _ => does_memRead
theorem does_hostRead {a n : Nat} : Does k p (hostRead a n) := does_bind does_getState fun _ => does_memRead
theorem does_poolWrite {bs : List Byte} : Does k p (poolWrite bs) :=
  does_one fun s _ _ e => by cases e; exact .pool s 0 bs
theorem does_dmaWrite {a : Nat} {bs : List Byte} : Does k p (dmaWrite a bs) :=
  does_ite (does_one fun s _ _ e => by cases e; exact .dma s a bs) (does_fault _)
theorem does_hostWrite {a : Nat} {bs : List Byte} : Does k p (hostWrite a bs) :=
  does_ite (does_one fun s _ _ e => by cases e; exact .mem s a bs) (does_fault _)

theorem does_readMsg {d : Word} {n : Nat} : Does k p (readMsg d n) :=
  does_bind does_hostRead fun _ => by split <;> first | exact does_pure _ | exact does_fault _

theorem does_readMsgs {d : Word} {j n : Nat} : Does k p (readMsgs d j n) := by
  induction n generalizing j with
  | zero => exact does_pure _
  | succ n ih => exact does_bind does_readMsg fun _ => does_bind ih fun _ => does_pure _

theorem does_curMsg {i : Nat} : Does k p (curMsg i) :=
  does_bind does_getInst fun _ => by split <;> first | exact does_readMsg | exact does_refuse _

/-! ## Streams, errors, signals -/

theorem does_logRec {r : LogRec} : Does k p (logRec k r) := does_modOuts
theorem does_raiseErr {e : Word} : Does k p (raiseErr k e) := does_modMaster fun _ => ⟨rfl, rfl⟩
theorem does_complete : Does k p (complete k) := does_modMaster fun _ => ⟨rfl, rfl⟩
theorem does_armWait {w : Waiting} (hp : p.thread = true) : Does k p (armWait k w) := does_await hp fun _ => rfl
theorem does_disarmWait (hp : p.thread = true) : Does k p (disarmWait k) := does_await hp fun _ => rfl

theorem and_sts_any_high (w : Word) : w &&& STS_ANY &&& 0xFFFF8000#32 = 0#32 := by
  rw [BitVec.and_assoc]; simp [STS_ANY]

theorem does_latch {w : Word} (hp : p.latch = true) : Does k p (latch k w) :=
  does_modRegs fun _ => .inr ⟨and_sts_any_high _, .inl hp⟩

/-- Writing ones clears and sets nothing. -/
theorem w1c_new (w v : Word) : w1c w v &&& ~~~w = 0#32 := by
  apply BitVec.eq_of_getLsbD_eq
  intro j hj
  simp only [w1c, BitVec.getLsbD_and, BitVec.getLsbD_not, hj, decide_true, Bool.true_and, BitVec.getLsbD_zero]
  cases w.getLsbD j <;> simp

/-! ## Registers -/

theorem does_regRead {r : Reg} : Does k p (regRead k r) :=
  does_bind does_getState fun _ => does_bind does_getInst fun _ => by
  split
  · exact does_bind does_draw fun _ => does_pure _
  · exact does_pure _

theorem does_readGroup : Does k p readGroup := does_bind does_getState fun _ => does_pure _
theorem does_noteWrite {r : Reg} {v : Word} : Does k p (noteWrite k r v) := does_modOuts
theorem does_coreResetMaster : Does k p (coreResetMaster k) :=
  does_bind does_draw fun _ => does_bind does_draw fun _ => does_bind does_draw fun _ => does_modCore
theorem does_coreResetSlave : Does k p (coreResetSlave k) :=
  does_bind does_draw fun _ => does_bind does_draw fun _ => does_bind does_draw fun _ => does_modCore
theorem does_writeFunCtrl {v : Word} : Does k p (writeFunCtrl k v) :=
  does_bind does_getInst fun _ => does_bind (does_modRegs fun _ => .inl rfl) fun _ =>
    does_bind (does_whenB does_coreResetMaster) fun _ => does_whenB does_coreResetSlave

theorem does_sampleData {x : Inst} {c : Cmd} {q : Path} {n : Nat} : Does k p (sampleData x c q n) :=
  does_ite (by cases q; exacts [does_pure _, does_poolRead, does_dmaRead]) (does_pure _)

theorem does_issueCmd {c : Cmd} {en : BitVec 4} : Does k p (issueCmd k c en) :=
  does_bind does_getInst fun _ => does_bind does_getCfg fun _ => does_bind does_getInstCfg fun _ =>
    does_ite (does_refuse _) <| does_ite (does_pure _) <| does_ite (does_pure _) <| does_ite (does_refuse _) <|
      does_bind does_sampleData fun _ => does_bind does_draw fun _ => does_modCore

theorem does_writeCmd {v : Word} : Does k p (writeCmd k v) := by
  unfold writeCmd
  split
  · exact does_refuse _
  · exact does_bind (does_modRegs fun _ => .inl rfl) fun _ => does_whenB does_issueCmd

theorem does_regWrite {r : Reg} {v : Word} : Does k p (regWrite k r v) := does_bind does_noteWrite fun _ => by
  cases r
  case funCtrl => exact does_writeFunCtrl
  case cmd => exact does_writeCmd
  case intrSts => exact does_modRegs fun r => .inr ⟨and_sts_any_high _, .inr (w1c_new r.intrSts v)⟩
  all_goals exact does_modRegs fun _ => .inl rfl

theorem does_engineCmd {w : Word} : Does k p (engineCmd k w) := does_bind does_regRead fun _ => does_regWrite

/-! ## The pool loan -/

theorem does_poolAcq {d : Side} : Does k p (poolAcq k d) := fun s a t hk h => by
  unfold poolAcq at h
  simp only [op_bind, op_getState] at h
  by_cases ho : s.poolOwner.isNone
  · rw [if_pos ho] at h
    cases d <;> cases h
    · exact .single (.acquire s .master s.insts[k] (List.getElem?_eq_getElem hk) (Option.isNone_iff_eq_none.1 ho))
    · exact .single (.acquire s .slave s.insts[k] (List.getElem?_eq_getElem hk) (Option.isNone_iff_eq_none.1 ho))
  · rw [if_neg ho] at h
    cases h; exact .refl

theorem does_poolRel {d : Side} : Does k p (poolRel k d) := fun s a t hk h => by
  unfold poolRel at h
  rw [op_bind, op_getInst s k s.insts[k] (List.getElem?_eq_getElem hk)] at h
  dsimp only at h
  by_cases ho : s.insts[k].loan d = true
  · rw [if_pos ho] at h
    cases d <;> cases h
    · exact .single (.release s .master s.insts[k] (List.getElem?_eq_getElem hk) ho)
    · exact .single (.release s .slave s.insts[k] (List.getElem?_eq_getElem hk) ho)
  · rw [if_neg ho] at h
    cases h; exact .refl

theorem does_selectMode {d : Side} : Does k p (selectMode k d) := does_bind does_getInstCfg fun _ => by
  split
  · exact does_pure _
  · exact does_bind does_poolAcq fun _ => does_pure _
  · exact does_pure _
  · exact does_pure _

/-! ## Timing and initialisation -/

theorem does_timingWord {i : Nat} : Does k p (timingWord i) :=
  does_bind does_getCfg fun _ => does_bind does_getInstCfg fun _ => does_pure _

theorem does_timingInit : Does k p (timingInit k) :=
  does_bind does_getCfg fun _ => does_bind does_timingWord fun _ => does_bind does_regWrite fun _ =>
    does_bind does_regWrite fun _ => does_bind does_regWrite fun _ => does_regWrite

theorem does_regInit : Does k p (regInit k) :=
  does_bind does_regWrite fun _ => does_bind does_getInst fun _ => does_bind does_regWrite fun _ => does_timingInit

theorem does_regInitWrite {a : Nat} : Does k p (regInitWrite k a) :=
  does_bind does_getInst fun _ => does_bind does_getCfg fun _ => does_bind does_timingWord fun _ => by
    split <;> exact does_regWrite

/-! ## Buffers a failure leaves unspecified -/

theorem does_losePart {a n : Nat} : Does k p (losePart a n) :=
  does_bind does_draw fun _ => does_one fun s _ _ h => by cases h; exact .mem s _ _

theorem does_loseParts : ∀ l : List (Nat × Nat), Does k p (loseParts l)
  | [] => does_pure _
  | _ :: r => does_bind does_losePart fun _ => does_loseParts r

theorem does_loseTail : Does k p (loseTail k) := does_bind does_getState fun _ => does_bind does_getInst fun _ => by
  split
  · exact does_pure _
  · exact does_losePart

theorem does_loseTails : Does k p (loseTails k) :=
  does_bind does_getState fun _ => does_bind does_getInst fun _ => does_loseParts _

theorem does_loseBuffers : Does k p (loseBuffers k) :=
  does_bind does_getInst fun _ => does_bind does_getCfg fun _ => does_bind does_getInstCfg fun ic =>
    does_bind does_draw fun _ => does_bind (does_whenB does_poolWrite) fun _ => does_bind does_draw fun _ =>
      does_bind (by
        cases ic.dmaAddr
        · exact does_same fun s _ _ h => by cases h; rfl
        · exact does_one fun s _ _ h => by cases h; exact .dma s _ _) fun _ =>
        does_bind does_draw fun _ => does_bind (does_modRegs fun _ => .inl rfl) fun _ => does_loseTail

/-! ## Transfer modes -/

theorem does_progByte {a : Word} {d : Option Byte} : Does k p (progByte k a d) := by
  cases d
  · exact does_engineCmd
  · exact does_bind does_regWrite fun _ => does_engineCmd

theorem does_progBuf {e : Side} {a : Word} {d : ArmData} : Does k p (progBuf k e a d) :=
  does_bind does_needLoan fun _ => does_bind does_getCfg fun _ => by
    cases d
    · exact does_ite (does_refuse _) <| does_bind does_poolWrite fun _ => does_bind does_regWrite fun _ =>
        does_engineCmd
    · exact does_ite (does_refuse _) <| does_bind does_regWrite fun _ => does_engineCmd

theorem does_dmaAddrOf {i : Nat} : Does k p (dmaAddrOf i) := does_bind does_getInstCfg fun _ => by
  split <;> first | exact does_pure _ | exact does_refuse _

theorem does_progDma {inc : Bool} {a : Word} {d : ArmData} : Does k p (progDma k inc a d) :=
  does_bind does_getCfg fun _ => does_bind does_dmaAddrOf fun _ => by
    cases d
    · exact does_ite (does_refuse _) <| does_bind does_dmaWrite fun _ => does_bind does_regWrite fun _ =>
        does_bind does_regWrite fun _ => does_engineCmd
    · exact does_ite (does_refuse _) <| does_bind does_regWrite fun _ => does_bind does_regWrite fun _ =>
        does_engineCmd

theorem does_progTx {e : Side} {m : Mode} {a : Word} {bs : List Byte} : Does k p (progTx k e m a bs) := by
  cases m
  · exact does_progByte
  · exact (does_progBuf : Does k p (progBuf k e a (.tx bs)))
  · exact (does_progDma : Does k p (progDma k false a (.tx bs)))
  · exact (does_progDma : Does k p (progDma k true a (.tx bs)))

theorem does_progRx {e : Side} {m : Mode} {a : Word} {n : Nat} : Does k p (progRx k e m a n) := by
  cases m
  · exact (does_progByte : Does k p (progByte k a none))
  · exact (does_progBuf : Does k p (progBuf k e a (.rx (BitVec.ofNat 32 n))))
  · exact (does_progDma : Does k p (progDma k false a (.rx (BitVec.ofNat 32 n))))
  · exact (does_progDma : Does k p (progDma k true a (.rx (BitVec.ofNat 32 n))))

theorem does_setChunk {n : Nat} {m : Mode} : Does k p (setChunk k n m) := does_modMaster fun _ => ⟨rfl, rfl⟩

/-- A change of the slave's fields that do not make up the ring. -/
theorem does_slaveFields {f : Slave → Slave}
    (h : ∀ v, (f v).ring = v.ring ∧ (f v).rd = v.rd ∧ (f v).wr = v.wr ∧ (f v).ready = v.ready ∧ (f v).sCur = v.sCur
      ∧ ((f v).sstate = .rx → v.sstate = .rx) ∧ (f v).txLen = v.txLen ∧ (f v).txbuf = v.txbuf
      ∧ (f v).sLoan = v.sLoan) : Does k p (modSlave k f) :=
  does_modSlave (fun v _ _ hv => hv.congr (h v).1 (h v).2.1 (h v).2.2.1 (h v).2.2.2.1 (h v).2.2.2.2.1
    (h v).2.2.2.2.2.1 (h v).2.2.2.2.2.2.1 (h v).2.2.2.2.2.2.2.1) fun v => (h v).2.2.2.2.2.2.2.2

theorem does_setSlaveChunk {n : Nat} {m : Mode} : Does k p (setSlaveChunk k n m) :=
  does_slaveFields fun _ => ⟨rfl, rfl, rfl, rfl, rfl, id, rfl, rfl, rfl⟩

theorem does_armNext : Does k p (armNext k) :=
  does_bind does_curMsg fun _ => does_bind does_getCfg fun _ => does_bind does_getInst fun _ => by
    dsimp only
    split
    · exact does_bind does_progRx fun _ => does_modMaster fun _ => ⟨rfl, rfl⟩
    · exact does_bind does_hostRead fun _ => does_bind does_progTx fun _ => does_modMaster fun _ => ⟨rfl, rfl⟩

theorem does_extract {m : Mode} {n : Nat} : Does k p (extract k m n) := does_bind does_getCfg fun _ => by
  cases m
  · exact does_pure _
  all_goals exact does_bind does_regRead fun _ => does_pure _

theorem does_received {e : Side} {m : Mode} {n : Nat} : Does k p (received k e m n) := by
  cases m
  · exact does_bind does_regRead fun _ => does_pure _
  · exact does_bind does_needLoan fun _ => does_poolRead
  all_goals exact does_bind does_dmaAddrOf fun _ => does_dmaRead

theorem does_sArmRx : Does k p (sArmRx k) := does_bind does_getCfg fun _ => does_bind does_getInst fun _ => by
  split
  · exact does_setSlaveChunk
  · exact does_bind does_progBuf fun _ => does_setSlaveChunk
  all_goals exact does_bind does_progDma fun _ => does_setSlaveChunk

theorem does_sArmTx : Does k p (sArmTx k) := does_bind does_getCfg fun _ => does_bind does_getInst fun _ =>
  does_ite (does_bind does_progTx fun _ => does_setSlaveChunk)
    (does_bind does_memRead fun _ => does_bind does_progTx fun _ => does_setSlaveChunk)

/-! ## Resets -/

theorem does_ctrlReset : Does k p (ctrlReset k) :=
  does_bind does_regRead fun _ => does_bind does_regWrite fun _ => does_regWrite

theorem discardOpen_sLoan (v : Slave) : (discardOpen v).sLoan = v.sLoan := by
  unfold discardOpen; split <;> rfl

theorem does_sAbort : Does k p (sAbort k) :=
  does_bind (does_modSlave (fun _ _ _ h => h.abort) discardOpen_sLoan) fun _ => does_bind does_poolRel fun _ =>
    does_modMaster fun _ => ⟨rfl, rfl⟩

theorem does_busReset : Does k p (busReset k) :=
  does_bind does_ctrlReset fun _ => does_bind does_timingInit fun _ => does_bind does_getCfg fun _ =>
    does_whenB does_sAbort

/-! ## The master engine -/

theorem does_finishMsg {m : MState} : Does k p (finishMsg k m) :=
  does_bind (does_modMaster fun _ => ⟨rfl, rfl⟩) fun _ => does_complete
theorem does_noteStop {b : Bool} : Does k p (noteStop k b) := does_modMaster fun _ => ⟨rfl, rfl⟩
theorem does_issueStop : Does k p (issueStop k) :=
  does_bind does_engineCmd fun _ => does_modMaster fun _ => ⟨rfl, rfl⟩

theorem does_account {m : Msg} {n : Nat} : Does k p (account k m n) := does_bind does_getInst fun _ =>
  does_bind (does_whenB (does_bind does_received fun _ => does_hostWrite)) fun _ =>
    does_bind (does_modMaster fun _ => ⟨rfl, rfl⟩) fun _ =>
      does_whenB (does_bind does_hostRead fun _ => does_modMaster fun _ => ⟨rfl, rfl⟩)

theorem does_afterChunk : Does k p (afterChunk k) := does_bind does_getInst fun _ =>
  does_ite does_armNext <| does_ite does_issueStop <| does_ite (does_modMaster fun _ => ⟨rfl, rfl⟩) does_finishMsg

theorem does_mDone {kind : Kind} {b : Bool} : Does k p (mDone k kind b) := does_bind does_getInst fun _ =>
  does_ite does_logRec <| does_bind does_noteStop fun _ => does_bind does_curMsg fun _ =>
    does_bind does_extract fun _ => does_ite (does_bind does_raiseErr fun _ => does_finishMsg)
      (does_bind does_account fun _ => does_afterChunk)

theorem does_mNack {b : Bool} : Does k p (mNack k b) := does_bind does_getInst fun _ =>
  does_ite does_logRec <| does_bind does_curMsg fun _ => does_ite does_mDone <| does_bind does_noteStop fun _ =>
    does_bind does_raiseErr fun _ => does_ite does_finishMsg <|
      does_ite (does_modMaster fun _ => ⟨rfl, rfl⟩) does_issueStop

theorem does_mArb : Does k p (mArb k) := does_bind does_raiseErr fun _ =>
  does_bind (does_modMaster fun _ => ⟨rfl, rfl⟩) fun _ => does_complete

theorem does_mStopDone : Does k p (mStopDone k) := does_bind does_getInst fun _ =>
  does_ite does_complete <| does_ite (does_bind does_noteStop fun _ => does_finishMsg) does_logRec

theorem does_mFault : Does k p (mFault k) :=
  does_bind (does_modMaster fun _ => ⟨rfl, rfl⟩) fun _ => does_complete

theorem does_mPreempt : Does k p (mPreempt k) := does_bind does_getInst fun _ =>
  does_ite (does_bind does_raiseErr fun _ => does_bind does_regRead fun _ => does_bind does_regWrite fun _ =>
    does_bind does_regWrite fun _ => does_finishMsg) (does_pure _)

theorem does_setPc {pc : Pc} (hp : p.thread = true) : Does k p (setPc k pc) := does_modThread hp

theorem does_validSet {d : Word} {n : Nat} : Does k p (validSet d n) :=
  does_ite (does_pure _) (does_bind does_readMsgs fun _ => does_pure _)

theorem does_submit {n : Nat} {d b : Word} (hp : p.thread = true) : Does k p (submit k n d b) :=
  does_bind does_getInst fun _ => does_ite (does_refuse _) <| does_ite does_retCode <|
    does_bind does_validSet fun _ => does_ite (does_bind (does_modThread hp) fun _ => does_pure _) does_retCode

theorem does_attemptDone {r : Result} (hp : p.thread = true) : Does k p (attemptDone k r) :=
  does_bind does_getInst fun _ => does_bind does_getCfg fun _ => does_ite (does_bind (does_modThread hp) fun _ => does_pure _)
    (does_bind (does_whenB does_loseTails) fun _ => does_bind (does_modThread hp) fun _ => does_retWord)

theorem does_startMsg {n : Nat} (hp : p.thread = true) : Does k p (startMsg k n) :=
  does_bind does_getInst fun _ => does_ite (does_pure _) <| by
    split
    · exact does_refuse _
    · exact does_bind does_readMsg fun _ => does_bind (does_modMaster fun _ => ⟨rfl, rfl⟩) fun _ =>
        does_bind (does_armWait hp) fun _ => does_bind does_armNext fun _ =>
          does_bind (does_modMaster fun _ => ⟨rfl, rfl⟩) fun _ => does_pure _

theorem does_writeBackLen {d : Word} {n l : Nat} : Does k p (writeBackLen d n l) :=
  by
    unfold writeBackLen
    split
    · exact does_bind (does_pure _) fun _ => does_hostWrite
    · exact does_bind does_draw fun _ => does_bind (does_pure _) fun _ => does_hostWrite

theorem does_wakeSignalled (hp : p.thread = true) : Does k p (wakeSignalled k) :=
  does_bind (does_disarmWait hp) fun _ => does_bind does_getInst fun _ => by
    split
    · exact does_bind (does_whenB does_busReset) fun _ => does_bind does_loseTail fun _ => does_pure _
    · split
      · exact does_refuse _
      · exact does_bind does_readMsg fun _ => does_bind (does_whenB does_writeBackLen) fun _ => does_pure _

theorem does_wakeExpired (hp : p.thread = true) : Does k p (wakeExpired k) :=
  does_bind (does_await hp fun _ => rfl) fun _ => does_bind does_busReset fun _ => does_bind does_loseBuffers fun _ =>
    does_pure _

theorem does_xferExit (hp : p.thread = true) : Does k p (xferExit k) :=
  does_bind (does_modMaster fun _ => ⟨rfl, rfl⟩) fun _ => does_bind (does_disarmWait hp) fun _ => does_poolRel

theorem does_busBusy : Does k p (busBusy k) := does_bind does_regRead fun _ => does_pure _

/-! ## The slave engine -/

/-- Opening a slot: after the eviction the ring has room (R342, R343). -/
theorem does_openSlot {a : Byte} {f : Unit → Op α} (hf : Does k p (f ())) :
    Does k p (selectSlot k >>= fun _ => modSlave k (openSlot a) >>= fun u => f u) := fun s b t hk h => by
  have hx := List.getElem?_eq_getElem hk
  simp only [selectSlot, op_bind, op_getInst s k _ hx, op_whenB] at h
  cases hfull : ringFull s.insts[k].slave with
  | false =>
    rw [hfull] at h
    refine .trans (.single (.slave s (openSlot a) (fun x cap size hx' _ _ hv => ?_) fun v => rfl))
      (hf _ b t (by simpa using hk) h)
    obtain rfl : x = s.insts[k] := by rw [hx] at hx'; exact (Option.some.inj hx').symm
    exact hv.open a (Nat.lt_of_le_of_ne hv.ready_le fun e => by rw [hv.ringFull_iff.2 e] at hfull; cases hfull)
  | true =>
    rw [hfull] at h
    simp only [if_true, op_modSlave, op_logRec, updInst_updInst] at h
    have hm : Move k p s _ := .slave s (fun v => openSlot a (evictOldest v)) (fun x cap size hx' _ _ hv => ?_)
      fun v => rfl
    · refine .trans (.single hm) (.trans (.single (.outs _ fun o => { o with log := o.log ++ [.ringOverrun] }))
        (hf _ b t ?_ ?_))
      · simpa using hk
      · rw [updInst_updInst]; exact h
    · obtain rfl : x = s.insts[k] := by rw [hx] at hx'; exact (Option.some.inj hx').symm
      have hr := hv.ringFull_iff.1 hfull
      have hc := hv.cap_pos
      exact (hv.evict (by omega)).open a (show _ - 1 < cap by omega)

theorem does_startOfWrite {a : Byte} : Does k p (startOfWrite k a) := does_openSlot does_sArmRx

theorem does_startOfRead {a : Byte} : Does k p (startOfRead k a) :=
  does_bind (does_slaveFields fun _ => ⟨rfl, rfl, rfl, rfl, rfl, (nomatch ·), rfl, rfl, rfl⟩) fun _ => does_sArmTx

theorem closeSlot_sLoan (v : Slave) : (closeSlot v).sLoan = v.sLoan := by unfold closeSlot; split <;> rfl

theorem does_sFinal : Does k p (sFinal k) := does_bind does_getInst fun _ =>
  does_bind (does_whenB (does_bind (does_modSlave (fun _ _ _ h => h.close) closeSlot_sLoan) fun _ => does_modOuts))
    fun _ => does_bind
      (does_slaveFields fun _ => ⟨rfl, rfl, rfl, rfl, rfl, (nomatch ·), rfl, rfl, rfl⟩) fun _ =>
        does_bind does_poolRel fun _ => does_bind does_engineCmd fun _ => does_modMaster fun _ => ⟨rfl, rfl⟩

theorem does_sMatch : Does k p (sMatch k) :=
  does_bind does_mPreempt fun _ => does_bind does_getInst fun _ => does_bind (does_whenB does_sFinal) fun _ =>
    does_bind (does_modMaster fun _ => ⟨rfl, rfl⟩) fun _ => does_bind does_regRead fun _ =>
      does_bind does_selectMode fun _ =>
        does_bind (does_slaveFields fun _ => ⟨rfl, rfl, rfl, rfl, rfl, id, rfl, rfl, rfl⟩) fun _ =>
          does_ite does_startOfRead does_startOfWrite

theorem does_slaveFail {e : Word} : Does k p (slaveFail k e) := does_bind does_raiseErr fun _ => does_busReset

end rules

/-! ## Operations that only read -/

/-- An operation that changes nothing but the core of instance i and the count of the free values taken. -/
def Reads {α : Type} (i : Nat) (op : Op α) : Prop := ∀ s a t, op s = .ok (a, t) →
  ∃ (g : Core → Core) (n : Nat), t = { s.updInst i (fun x => { x with core := g x.core }) with draws := n }

section reads

variable {α β : Type} {i n : Nat}

theorem reads_same {op : Op α} (h : ∀ s a t, op s = .ok (a, t) → ∃ n, t = { s with draws := n }) : Reads i op :=
  fun s a t ht => by
    obtain ⟨n, rfl⟩ := h s a t ht
    refine ⟨id, n, ?_⟩
    cases s
    simp only [State.updInst, id]
    congr 1
    exact (List.modify_id i _).symm

theorem reads_pure (a : α) : Reads i (pure a : Op α) := reads_same fun s _ _ h => by cases h; exact ⟨s.draws, rfl⟩

theorem reads_bind {op : Op α} {f : α → Op β} (h : Reads i op) (hf : ∀ a, Reads i (f a)) : Reads i (op >>= f) :=
  fun s b t ht => by
    rw [op_bind] at ht
    cases ho : op s with
    | error e => rw [ho] at ht; cases ht
    | ok r =>
      rw [ho] at ht
      obtain ⟨g, n, hn⟩ := h s r.1 r.2 ho
      obtain ⟨g', m, hm⟩ := hf r.1 r.2 b t ht
      refine ⟨fun c => g' (g c), m, ?_⟩
      rw [hm, hn, updInst_setDraws, updInst_updInst]

theorem reads_refuse (r : Refusal) : Reads i (opRefuse r : Op α) := fun _ _ _ h => by cases h
theorem reads_draw : Reads i draw := reads_same fun s _ _ h => by cases h; exact ⟨s.draws + 1, rfl⟩
theorem reads_getState : Reads i getState := reads_same fun s _ _ h => by cases h; exact ⟨s.draws, rfl⟩
theorem reads_getCfg : Reads i getCfg := reads_same fun s _ _ h => by cases h; exact ⟨s.draws, rfl⟩
theorem reads_getInstCfg {j : Nat} : Reads i (getInstCfg j) :=
  reads_same fun s _ _ h => by cases h; exact ⟨s.draws, rfl⟩
theorem reads_getInst {j : Nat} : Reads i (getInst j) := reads_same fun s _ _ h => ⟨s.draws, (getInst_ok h).1⟩
theorem reads_require {c : Bool} {r : Refusal} : Reads i (require c r) := by
  unfold require
  split
  · exact reads_pure _
  · exact reads_refuse _
theorem reads_modCore {f : Core → Core} : Reads i (modCore i f) := fun s _ _ h => by
  cases h; exact ⟨f, s.draws, rfl⟩
theorem reads_memRead {m : Memory} {a n : Nat} : Reads i (memRead m a n) :=
  reads_same fun s _ t h => ⟨s.draws, (memRead_ok s t m a n _ h).1⟩

theorem reads_regRead {r : Reg} : Reads i (regRead i r) :=
  reads_bind reads_getState fun _ => reads_bind reads_getInst fun _ => by
  split
  · exact reads_bind reads_draw fun _ => reads_pure _
  · exact reads_pure _

theorem reads_extract {m : Mode} : Reads i (extract i m n) := reads_bind reads_getCfg fun _ => by
  cases m
  · exact reads_pure _
  all_goals exact reads_bind reads_regRead fun _ => reads_pure _

theorem reads_needLoan {d : Side} : Reads i (needLoan i d) := reads_bind reads_getInst fun _ => reads_require

theorem reads_dmaAddrOf : Reads i (dmaAddrOf i) := reads_bind reads_getInstCfg fun _ => by
  split <;> first | exact reads_pure _ | exact reads_refuse _

theorem reads_received {e : Side} {m : Mode} : Reads i (received i e m n) := by
  cases m
  · exact reads_bind reads_regRead fun _ => reads_pure _
  · exact reads_bind reads_needLoan fun _ => reads_bind reads_getState fun _ => reads_memRead
  all_goals exact reads_bind reads_dmaAddrOf fun _ => reads_bind reads_getState fun _ => reads_memRead

end reads

/-! ## The slave engine's data, and everything above it -/

section above

variable {k : Nat} {p : Perm} {α : Type}

theorem memRead_length {s t : State} {m : Memory} {a n : Nat} {bs : List Byte}
    (h : memRead m a n s = .ok (bs, t)) : bs.length = n :=
  ((readN_eq_some m a n bs).1 (memRead_ok s t m a n bs h).2).1

/-- The received bytes are as many as were moved; a byte chunk is one byte. -/
theorem received_length {i n : Nat} {e : Side} {m : Mode} {s t : State} {d : List Byte}
    (h : received i e m n s = .ok (d, t)) : d.length = if m = .byte then 1 else n := by
  cases m
  · unfold received at h
    simp only [op_bind] at h
    cases hr : regRead i .byteData s with
    | error e => simp [hr] at h
    | ok r => simp only [hr, op_pure, Except.ok.injEq, Prod.mk.injEq] at h; simp [← h.1]
  · unfold received at h
    simp only [op_bind] at h
    cases hl : needLoan i e s with
    | error e => simp [hl] at h
    | ok r => rw [hl] at h; exact memRead_length (m := r.2.pool) (a := 0) h
  all_goals
    unfold received dmaAddrOf at h
    cases hd : (s.cfg.inst i).dmaAddr with
    | none => simp [hd] at h
    | some a =>
      simp only [hd, op_bind, op_getInstCfg, op_pure] at h
      exact memRead_length (m := s.dma) (a := a) h

/-- A byte chunk counts one byte. -/
theorem extract_byte {i n : Nat} {s t : State} {c : Option Nat} (h : extract i .byte n s = .ok (c, t)) :
    c = some 1 := by cases h; rfl

/-- Reading leaves the slave engine of the instance alone. -/
theorem reads_slave {op : Op α} {s t : State} {a : α} {x : Inst} (h : Reads k op) (ho : op s = .ok (a, t))
    (hx : s.insts[k]? = some x) : ∃ y, t.insts[k]? = some y ∧ y.slave = x.slave := by
  obtain ⟨g, n, rfl⟩ := h s a t ho
  exact ⟨{ x with core := g x.core }, by simp [hx], rfl⟩

/-- The received bytes of the open slot: extracted, fetched and appended (R345). -/
theorem does_slaveData {b : Bool} {x : Inst} {c : Config} {cur : Nat} (s : State) (u : Unit) (t : State)
    (hk : k < s.insts.length) (hx : s.insts[k]? = some x) (hc : s.cfg = c)
    (h : (extract k x.slave.sXmode x.slave.sXlen.toNat >>= fun n => match n with
      | none => slaveFail k ERR_PROTO
      | some n =>
        if x.slave.sXlen.toNat < n then slaveFail k ERR_PROTO
        else received k .slave x.slave.sXmode n >>= fun d =>
          if c.slotCap < slotLen x.slave cur + n then slaveFail k ERR_OVERRUN
          else modSlave k (appendSlot cur d) >>= fun _ => whenB (!b) (sArmRx k)) s = .ok (u, t)) :
    Moves k p s t := by
  rw [op_bind] at h
  cases he : extract k x.slave.sXmode x.slave.sXlen.toNat s with
  | error e => rw [he] at h; cases h
  | ok r =>
    obtain ⟨n, s1⟩ := r
    rw [he] at h
    have m1 : Moves k p s s1 := does_extract s n s1 hk he
    have hk1 : k < s1.insts.length := by rw [m1.length]; exact hk
    obtain ⟨x1, hx1, hv1⟩ := reads_slave reads_extract he hx
    cases n with
    | none => exact m1.trans (does_slaveFail _ u t hk1 h)
    | some n =>
      dsimp only at h
      by_cases hn : x.slave.sXlen.toNat < n
      · rw [if_pos hn] at h; exact m1.trans (does_slaveFail _ u t hk1 h)
      · rw [if_neg hn, op_bind] at h
        cases hd : received k .slave x.slave.sXmode n s1 with
        | error e => rw [hd] at h; cases h
        | ok r =>
          obtain ⟨d, s2⟩ := r
          rw [hd] at h
          have m2 : Moves k p s1 s2 := does_received s1 d s2 hk1 hd
          have hk2 : k < s2.insts.length := by rw [m2.length]; exact hk1
          obtain ⟨x2, hx2, hv2⟩ := reads_slave reads_received hd hx1
          have hcfg : s2.cfg = c := by
            obtain ⟨_, _, rfl⟩ := reads_extract s _ s1 he
            obtain ⟨_, _, rfl⟩ := reads_received _ d s2 hd
            exact hc
          have hdl : d.length = n := by
            rw [received_length hd]
            split
            · rename_i hm; rw [hm] at he; exact (Option.some.inj (extract_byte he)).symm
            · rfl
          dsimp only at h
          by_cases hcap : c.slotCap < slotLen x.slave cur + n
          · rw [if_pos hcap] at h; exact (m1.trans m2).trans (does_slaveFail _ u t hk2 h)
          · rw [if_neg hcap] at h
            simp only [op_bind, op_modSlave] at h
            refine (m1.trans m2).trans (.trans (.single (.slave _ (appendSlot cur d) ?_ fun v => rfl))
              (does_whenB does_sArmRx _ u t (by simpa using hk2) h))
            intro y cap size hy _ hsize hv
            obtain rfl : y = x2 := by rw [hx2] at hy; exact (Option.some.inj hy).symm
            refine hv.append cur d ?_
            rw [hdl, hsize, hcfg, hv2, hv1]
            exact Nat.le_of_not_lt hcap

theorem does_sData {b : Bool} : Does k p (sData k b) := fun s u t hk h => by
  have hx := List.getElem?_eq_getElem hk
  simp only [sData, op_bind, op_getInst s k _ hx, op_getCfg] at h
  cases hst : s.insts[k].slave.sstate <;> cases hcur : s.insts[k].slave.sCur <;> simp only [hst, hcur] at h
  case rx.some cur => exact does_slaveData s u t hk hx rfl h
  all_goals exact does_logRec s u t hk h

end above

end Sys2Proof.Machine
end

