-- ==== Sys2Proof/Laws/Exec.lean ====
section
/-! SUPPORT. Every operation, and so every step, is a chain of moves on the instance it names. -/

namespace Sys2Proof.Machine

open Sys2Proof

section ops

variable {k : Nat} {p : Perm}

/-! ## The slave engine and the interrupt decoder -/

theorem does_sTxAck : Does k p (sTxAck k) := does_bind does_getInst fun _ =>
  does_ite does_logRec <| does_bind does_extract fun n => by
    cases n
    · exact does_slaveFail
    · exact does_ite does_slaveFail <| does_bind
        (does_slaveFields fun _ => ⟨rfl, rfl, rfl, rfl, rfl, id, rfl, rfl, rfl⟩) fun _ => does_sArmTx

theorem does_sStop {w : Word} : Does k p (sStop k w) := does_bind does_getInst fun _ =>
  does_bind (does_whenB does_sData) fun _ => does_bind does_getInst fun _ => does_bind does_sFinal fun _ => does_pure _

theorem does_mine {i : Nat} : Does k p (mine i) := does_bind does_readGroup fun _ => does_pure _

theorem does_clearSts {w : Word} : Does k p (clearSts k w) := does_regWrite

theorem does_smbusStage {w : Word} : Does k p (smbusStage k w) := does_ite
  (does_bind does_regRead fun _ => does_bind (does_whenB (does_bind does_regWrite fun _ => does_modOuts)) fun _ =>
    does_bind does_clearSts fun _ => does_pure _) (does_pure _)

theorem does_faultStage {w : Word} : Does k p (faultStage k w) :=
  does_bind (does_whenB does_raiseErr) fun _ => does_bind (does_whenB does_raiseErr) fun _ =>
    does_bind does_clearSts fun _ => does_bind does_busReset fun _ => does_mFault

theorem does_slaveStopStage {w : Word} : Does k p (slaveStopStage k w) :=
  does_bind does_sStop fun _ => does_bind does_clearSts fun _ => does_pure _

theorem does_recoverDone : Does k p (recoverDone k) := does_bind does_getInst fun _ => does_ite does_complete does_logRec

theorem does_runRow {b : Bool} {r : Row} : Does k p (runRow k b r) := by
  cases r
  case txAck => exact does_ite does_sTxAck does_mDone
  case txNak => exact does_ite does_sFinal does_mNack
  case rxDone => exact does_ite does_sData does_mDone
  case txAckStop => exact does_mDone
  case txNakStop => exact does_mNack
  case rxDoneStop => exact does_mDone
  case matched => exact does_sMatch
  case matchedStop => exact does_bind does_sMatch fun _ => does_sFinal
  case stop => exact does_mStopDone
  case arbLoss => exact does_mArb
  case arbLossMatch => exact does_bind does_mArb fun _ => does_sMatch
  case recoverDone => exact does_recoverDone

theorem does_sweepClear {w : Word} {l : List Nat} : Does k p (sweepClear k w l) := by
  induction l with
  | nil => exact does_pure _
  | cons b l ih => exact does_bind (does_whenB does_clearSts) fun _ => ih

theorem does_sweep {w : Word} : Does k p (sweep k w) :=
  does_bind does_logRec fun _ => does_bind does_sweepClear fun _ => does_bind does_raiseErr fun _ =>
    does_bind does_busReset fun _ => does_mFault

theorem does_tableStages {w : Word} : Does k p (tableStages k w) :=
  does_bind does_getInst fun _ => does_bind does_getCfg fun _ => by
    split
    · exact does_bind does_clearSts fun _ => does_runRow
    · exact does_sweep

theorem does_lateStages {w : Word} : Does k p (lateStages k w) := does_bind does_getInst fun _ =>
  does_ite (does_bind does_slaveStopStage fun _ => does_whenB does_tableStages) does_tableStages

theorem does_irq : Does k p (irq k) := does_bind does_mine fun _ => does_ite does_retNat <|
  does_bind does_regRead fun _ => does_bind does_smbusStage fun _ => does_ite does_retNat <|
    does_ite (does_bind does_faultStage fun _ => does_retNat) (does_bind does_lateStages fun _ => does_retNat)

/-! ## Recovery -/

theorem does_recoverReturn {r : Code} (hp : p.thread = true) : Does k p (recoverReturn k r) :=
  does_bind does_getInst fun _ => does_ite (does_bind (does_setPc hp) fun _ => does_pure _)
    (does_bind (does_modThread hp) fun _ => does_retCode)

theorem does_addStatus {w : Word} : Does k p (addStatus k w) := does_modRecov fun _ => ⟨rfl, rfl⟩
theorem does_setRState {r : RState} : Does k p (setRState k r) := does_modRecov fun _ => ⟨rfl, rfl⟩
theorem does_armRecovery {w : Waiting} (hp : p.thread = true) : Does k p (armRecovery k w) :=
  does_bind (does_modMaster fun _ => ⟨rfl, rfl⟩) fun _ => does_armWait hp

theorem does_recoverEntry (hp : p.thread = true) : Does k p (recoverEntry k) := does_bind does_getInst fun _ =>
  does_ite (does_recoverReturn hp) (does_bind does_regRead fun _ => does_bind (does_setPc hp) fun _ => does_pure _)

theorem does_pathIdle (hp : p.thread = true) : Does k p (pathIdle k) :=
  does_bind does_addStatus fun _ => does_recoverReturn hp

theorem le_satInc (c : Word) : c ≤ satInc c := by
  unfold satInc
  split
  · exact BitVec.le_refl _
  · rename_i h
    have : c.toNat ≠ 4294967295 := fun e => h (BitVec.eq_of_toNat_eq (by simpa using e))
    rw [BitVec.le_def, BitVec.toNat_add]
    have := c.isLt
    simp
    omega

theorem does_pathMasterStop (hp : p.thread = true) (hc : p.count = true) : Does k p (pathMasterStop k) :=
  does_bind (does_count hc fun _ => ⟨le_satInc _, BitVec.le_refl _⟩) fun _ => does_bind does_addStatus fun _ =>
    does_bind (does_armRecovery hp) fun _ => does_bind does_setRState fun _ => does_bind does_engineCmd fun _ =>
      does_bind (does_setPc hp) fun _ => does_pure _

theorem does_stopWake {e : Bool} (hp : p.thread = true) : Does k p (stopWake k e) :=
  does_bind does_getInst fun _ => does_bind (does_disarmWait hp) fun _ => does_bind does_setRState fun _ =>
    does_ite (does_bind does_addStatus fun _ => does_recoverReturn hp) <|
      does_ite (does_bind does_addStatus fun _ => does_recoverReturn hp) (does_recoverReturn hp)

theorem does_pathSlaveDead (hp : p.thread = true) (hc : p.count = true) : Does k p (pathSlaveDead k) :=
  does_bind (does_count hc fun _ => ⟨BitVec.le_refl _, le_satInc _⟩) fun _ => does_bind does_addStatus fun _ =>
    does_bind does_regRead fun _ => does_bind (does_modRecov fun _ => ⟨rfl, rfl⟩) fun _ =>
      does_bind does_setRState fun _ => does_bind (does_setPc hp) fun _ => does_pure _

theorem does_deadStep {t a : Nat} (hp : p.thread = true) : Does k p (deadStep k t a) := does_ite
  (does_bind does_regInitWrite fun _ => does_bind (does_setPc hp) fun _ => does_pure _)
  (does_bind (does_armRecovery hp) fun _ => does_bind does_engineCmd fun _ => does_bind (does_setPc hp) fun _ =>
    does_pure _)

theorem does_deadWake {t : Nat} (hp : p.thread = true) : Does k p (deadWake k t) :=
  does_bind (does_disarmWait hp) fun _ => does_bind does_regRead fun _ =>
    does_ite (does_bind does_setRState fun _ => does_recoverReturn hp) <|
      does_ite (does_bind does_setRState fun _ => does_bind (does_setPc hp) fun _ => does_pure _)
        (does_bind (does_setPc hp) fun _ => does_pure _)

theorem does_deadRestore {a : Nat} (hp : p.thread = true) : Does k p (deadRestore k a) :=
  does_bind does_getInst fun _ => does_ite
    (does_bind does_regWrite fun _ => does_bind (does_setPc hp) fun _ => does_pure _)
    (does_bind does_regWrite fun _ => does_bind does_addStatus fun _ => does_bind does_setRState fun _ =>
      does_recoverReturn hp)

theorem does_pathUnclassified (hp : p.thread = true) : Does k p (pathUnclassified k) :=
  does_bind does_logRec fun _ => does_bind does_addStatus fun _ => does_recoverReturn hp

theorem does_enterPath {c : Word} (hp : p.thread = true) : Does k p (enterPath k c) :=
  does_bind does_needM fun _ => does_bind does_getInst fun _ => does_bind does_require fun _ =>
    does_whenB (does_modThread hp)

/-! ## Host operations -/

theorem does_offered {i : Nat} : Does k p (offered i) := does_bind does_getInst fun _ => does_require

theorem does_devInit : Does k p (devInit k) :=
  does_bind does_getCfg fun _ => does_bind does_getInstCfg fun _ => does_ite does_retCode <|
    does_bind does_needM fun _ => does_bind does_getInst fun _ =>
      does_ite does_retCode <| does_bind does_regInit fun _ => does_retCode

theorem evictOldest_sLoan (v : Slave) : (evictOldest v).sLoan = v.sLoan := rfl

theorem does_slaveRead {d c : Word} : Does k p (slaveRead k d c) := fun s r t hk h => by
  have hx := List.getElem?_eq_getElem hk
  simp only [slaveRead, op_bind, op_getInst s k _ hx] at h
  by_cases h0 : s.insts[k].slave.ready = 0
  · rw [if_pos h0] at h; exact does_retCode s r t hk h
  · rw [if_neg h0] at h
    by_cases h1 : c.toNat < slotLen s.insts[k].slave s.insts[k].slave.rd
    · rw [if_pos h1] at h; exact does_retCode s r t hk h
    · rw [if_neg h1] at h
      cases hq : s.insts[k].slave.ring[s.insts[k].slave.rd]? with
      | none => rw [hq] at h; exact does_retCode s r t hk h
      | some q =>
        simp only [hq, op_bind] at h
        cases hm : memRead q.buf 0 (slotLen s.insts[k].slave s.insts[k].slave.rd) s with
        | error e => rw [hm] at h; cases h
        | ok z =>
          obtain ⟨bs, s1⟩ := z
          obtain ⟨rfl, -⟩ := memRead_ok s s1 _ _ _ bs hm
          rw [hm] at h
          dsimp only at h
          unfold hostWrite at h
          by_cases hw : d.toNat + bs.length ≤ spaceSize
          · simp only [if_pos hw, op_modState, op_modSlave, op_retWord] at h
            cases h
            refine .trans (.single (.mem s1 d.toNat bs)) (.single (.slave _ evictOldest ?_ evictOldest_sLoan))
            intro y cap size hy _ _ hv
            obtain rfl : y = s1.insts[k] := by
              have : s1.insts[k]? = some y := hy
              rw [hx] at this; exact (Option.some.inj this).symm
            exact hv.evict (Nat.pos_of_ne_zero h0)
          · rw [if_neg hw] at h; cases h

theorem does_slaveWrite {n : Nat} {w : Word} : Does k p (slaveWrite k n w) := fun s r t hk h => by
  have hx := List.getElem?_eq_getElem hk
  simp only [slaveWrite, op_bind, op_getInst s k _ hx, op_getCfg] at h
  by_cases h0 : s.cfg.slotCap < n
  · rw [if_pos h0] at h; exact does_retCode s r t hk h
  · rw [if_neg h0] at h
    by_cases h1 : s.insts[k].slave.sstate = .tx
    · rw [if_pos h1] at h; exact does_retCode s r t hk h
    · rw [if_neg h1, op_bind] at h
      cases hm : hostRead w.toNat n s with
      | error e => rw [hm] at h; cases h
      | ok z =>
        obtain ⟨d, s1⟩ := z
        obtain ⟨rfl, -⟩ := memRead_ok s s1 s.mem _ _ d hm
        rw [hm] at h
        cases h
        refine .single (.slave s1 (fun v => { v with txbuf := Memory.writeN v.txbuf 0 d, txLen := n }) ?_ fun v => rfl)
        intro y cap size hy _ hs hv
        exact hv.setTx d n (by omega)

theorem does_slaveEnable {a : BitVec 16} : Does k p (slaveEnable k a) := does_ite does_retCode <|
  does_bind does_regWrite fun _ => does_bind does_regRead fun _ => does_bind does_regWrite fun _ =>
    does_bind (does_slaveFields fun _ => ⟨rfl, rfl, rfl, rfl, rfl, id, rfl, rfl, rfl⟩) fun _ => does_retCode

theorem does_slaveDisable : Does k p (slaveDisable k) :=
  does_bind does_regRead fun _ => does_bind does_regWrite fun _ =>
    does_bind (does_slaveFields fun _ => ⟨rfl, rfl, rfl, rfl, rfl, id, rfl, rfl, rfl⟩) fun _ =>
      does_bind does_sAbort fun _ => does_retCode

/-! ## The environment -/

theorem report_intrSts (r : Regs) (c : Codec) (f : InFlight) (n : Nat) (m : Option Word) :
    (r.report c f n m).intrSts = r.intrSts := by unfold Regs.report; split <;> rfl

theorem does_reportCount {f : InFlight} {n : Nat} {m : Option Word} : Does k p (reportCount k f n m) :=
  does_bind does_getCfg fun _ => does_bind does_getInstCfg fun _ =>
    does_modRegs fun _ => .inl (report_intrSts _ _ _ _ _)

theorem does_sinkData {f : InFlight} {bs : List Byte} : Does k p (sinkData k f bs) := by
  unfold sinkData
  split
  · split
    · exact does_modRegs fun _ => .inl rfl
    · exact does_pure _
  · exact does_poolWrite
  · exact does_dmaWrite

theorem does_addTrace {t : List TraceItem} : Does k p (addTrace k t) := does_modCore

theorem does_closeWindow {f : Option InFlight} : Does k p (closeWindow k f) := by
  cases f
  · exact does_pure _
  · exact does_whenB (does_bind does_reportCount fun _ => does_modCore)

theorem does_remoteStop (hp : p.latch = true) : Does k p (remoteStop k) := does_bind does_getInst fun _ =>
  does_bind does_require fun _ => does_bind does_closeWindow fun _ => does_bind does_modCore fun _ => does_latch hp

theorem does_endData {f : InFlight} {n : Nat} {m : Option Word} {t : List TraceItem} {b : Word} {s : Bool} (hp : p.latch = true) :
    Does k p (endData k f n m t b s) :=
  does_bind does_reportCount fun _ => does_bind does_addTrace fun _ => does_bind does_modCore fun _ => (does_latch hp)

theorem does_coreAck {b : Bool} {m : Option Word} (hp : p.latch = true) : Does k p (coreAck k b m) := does_bind does_getInst fun _ => by
  split
  · exact does_ite (does_endData hp) (does_refuse _)
  · exact does_refuse _

theorem does_coreNack {j : Nat} {b : Bool} {m : Option Word} (hp : p.latch = true) : Does k p (coreNack k j b m) :=
  does_bind does_getInst fun _ => by
    split
    · exact does_ite (does_bind (does_endData hp) fun _ => does_whenB (does_remoteStop hp)) (does_refuse _)
    · exact does_refuse _

theorem does_coreReceive {f : InFlight} {bs : List Byte} {b : Bool} {m : Option Word} (hp : p.latch = true) :
    Does k p (coreReceive k f bs b m) := does_ite (does_bind does_sinkData fun _ => (does_endData hp)) (does_refuse _)

theorem does_slaveWindow {f : InFlight} {bs : List Byte} {b : Bool} {m : Option Word} (hp : p.latch = true) :
    Does k p (slaveWindow k f bs b m) := does_ite
  (does_bind does_sinkData fun _ => does_bind does_reportCount fun _ => does_bind does_modCore fun _ =>
    does_bind (does_whenB (does_latch hp)) fun _ => does_whenB (does_remoteStop hp)) (does_refuse _)

theorem does_remoteByte {a : Byte} {b : Bool} (hp : p.latch = true) : Does k p (remoteByte k a b) :=
  does_bind does_getInst fun _ => does_ite (does_bind (does_modRegs fun _ => .inl rfl) fun _ =>
    does_bind (does_latch hp) fun _ => does_whenB (does_remoteStop hp)) (does_refuse _)

theorem does_coreRx {d : RxData} {b : Bool} {m : Option Word} (hp : p.latch = true) :
    Does k p (coreRx k d b m) := does_bind does_getInst fun _ => by
  split
  · exact does_remoteByte hp
  · exact does_ite (does_slaveWindow hp) <| does_ite (does_coreReceive hp) (does_refuse _)
  · exact does_refuse _

theorem does_drawLines : Does k p (drawLines k) := does_bind does_draw fun _ => does_bind does_draw fun _ => does_modCore

theorem does_coreStop (hp : p.latch = true) : Does k p (coreStop k) := does_bind does_getInst fun _ => by
  split
  · exact does_ite (does_bind does_addTrace fun _ => does_bind does_modCore fun _ => does_bind (does_latch hp) fun _ =>
      does_whenB does_drawLines) (does_remoteStop hp)
  · exact does_remoteStop hp

theorem does_faultData {f : InFlight} {bs : List Byte} : Does k p (faultData k f bs) := does_ite
  (does_bind does_draw fun _ => does_sinkData) (does_pure _)

theorem does_cutShort {f : Option InFlight} : Does k p (cutShort k f) := by
  cases f
  · exact does_pure _
  · exact does_bind does_getInst fun _ => does_bind does_draw fun _ => does_bind does_faultData fun _ => does_bind does_draw fun _ =>
      does_bind does_reportCount fun _ => does_bind does_draw fun _ => does_bind does_addTrace fun _ => does_modCore

theorem does_coreFault {w a : Word} (hp : p.latch = true) : Does k p (coreFault k w a) :=
  does_bind does_getInst fun _ => does_bind does_cutShort fun _ => does_latch hp

theorem does_drawXfer : Does k p (drawXfer k) :=
  does_bind does_draw fun _ => does_bind does_draw fun _ => does_modCore

theorem does_coreArb {a : Word} (hp : p.latch = true) : Does k p (coreArb k a) := does_bind does_getInst fun _ =>
  does_bind does_require fun _ => does_bind (does_coreFault hp) fun _ => does_modCore
theorem does_coreAbn {a : Word} (hp : p.latch = true) : Does k p (coreAbn k a) :=
  does_bind (does_coreFault hp) fun _ => does_drawXfer
theorem does_coreSclto {a : Word} (hp : p.latch = true) : Does k p (coreSclto k a) :=
  does_bind (does_coreFault hp) fun _ => does_bind does_drawXfer fun _ => does_bind does_draw fun _ => does_modCore

theorem does_coreMatch {a : Byte} {b : Bool} (hp : p.latch = true) : Does k p (coreMatch k a b) :=
  does_bind does_getInst fun _ => does_bind does_require fun _ => does_bind does_cutShort fun _ =>
    does_bind does_draw fun _ => does_bind (does_modRegs fun _ => .inl rfl) fun _ =>
      does_bind does_modCore fun _ => does_latch hp

theorem does_coreRecovered {b : Bool} (hp : p.latch = true) : Does k p (coreRecovered k b) := does_bind does_getInst fun _ => by
  split
  · exact does_ite (does_bind does_addTrace fun _ => does_bind does_modCore fun _ => (does_latch hp)) (does_refuse _)
  · exact does_refuse _

theorem does_expireWait {pc : Pc} (hp : p.thread = true) : Does k p (expireWait k pc) := does_bind does_needM fun _ =>
  does_bind does_getInst fun _ => does_bind does_require fun _ => does_bind (does_await hp fun _ => rfl) fun _ => does_setPc hp

theorem does_expire (hp : p.thread = true) : Does k p (expire k) := does_bind does_getInst fun _ => by
  split
  · exact does_bind (does_expireWait hp) fun _ => does_loseBuffers
  · exact does_expireWait hp
  · exact does_expireWait hp
  · exact does_bind does_require fun _ => does_setPc hp
  · exact does_setPc hp
  · exact does_refuse _

/-! ## The operator's BUS_RESET -/

theorem does_resetReturn (hp : p.thread = true) : Does k p (resetReturn k) :=
  does_bind (does_modThread hp) fun _ => does_retCode

theorem does_resetCtrlStep {f : Word} {a : Nat} (hp : p.thread = true) : Does k p (resetCtrlStep k f a) := does_ite
  (does_bind does_regWrite fun _ => does_bind (does_setPc hp) fun _ => does_pure _)
  (does_bind does_regWrite fun _ => does_bind (does_setPc hp) fun _ => does_pure _)

theorem does_resetTimingStep {a : Nat} (hp : p.thread = true) : Does k p (resetTimingStep k a) :=
  does_bind does_getCfg fun _ => does_bind does_regInitWrite fun _ => does_ite
    (does_bind (does_setPc hp) fun _ => does_pure _) <| does_ite
    (does_bind (does_setPc hp) fun _ => does_pure _) (does_resetReturn hp)

end ops

/-! ## Every operation -/

/-- A step of a checked operation. -/
theorem runOp_moves {k : Nat} {p : Perm} {op : Op Ret} {s t : State} (hk : k < s.insts.length) (h : Does k p op)
    (ht : runOp op s = .next t) : Moves k p s t := by
  obtain ⟨r, s', he, rfl⟩ := (runOp_next s op t).1 ht
  exact .tail (h s r s' hk he) (.ret s' r)

theorem stepOn_moves {k : Nat} {p : Perm} {i : InstId} {op : Nat → Op Ret} {s t : State}
    (ht : stepOn i op s = .next t) (h : Does i.toNat p (op i.toNat)) (hi : i.toNat = k := by rfl) : Moves k p s t := by
  subst hi
  by_cases hk : i.toNat < s.insts.length
  · exact runOp_moves hk (does_bind does_getInst fun _ => h) ht
  · unfold stepOn runOp at ht
    rw [op_bind, op_getInst_none s _ (List.getElem?_eq_none (Nat.le_of_not_lt hk))] at ht
    cases ht

theorem hostCall_moves {k : Nat} {p : Perm} {i : InstId} {op : Nat → Op Ret} {s t : State}
    (ht : hostCall i op s = .next t) (h : Does i.toNat p (op i.toNat)) (hi : i.toNat = k := by rfl) : Moves k p s t := by
  subst hi
  unfold hostCall at ht
  by_cases hk : i.toNat < s.insts.length
  · rw [if_pos hk] at ht; exact runOp_moves hk h ht
  · rw [if_neg hk] at ht; cases ht; exact .single (.ret s _)

theorem slaveCall_moves {k : Nat} {p : Perm} {i : InstId} {op : Nat → Op Ret} {s t : State}
    (ht : slaveCall i op s = .next t) (h : Does i.toNat p (op i.toNat)) (hi : i.toNat = k := by rfl) :
    Moves k p s t :=
  hostCall_moves ht (does_bind does_getCfg fun _ => does_ite (does_bind does_offered fun _ => h) does_retCode) hi

/-- What an operation may do beside the moves allowed to all. -/
def permOf (i : Instr) : Perm := { thread := i.movesThread, count := i.counts, latch := i.latches }

/-- The instance of an operation, 0 for the few that act on none. -/
def targetOf (i : Instr) : Nat := (i.target.getD 0#5).toNat

theorem rdReg_moves {k : Nat} {p : Perm} {i : InstId} {r : Reg} {s t : State} (h : rdReg i r s = .next t)
    (hi : i.toNat = k := by rfl) : Moves k p s t :=
  stepOn_moves h (does_bind does_regRead fun _ => does_retWord) hi

theorem wrReg_moves {k : Nat} {p : Perm} {i : InstId} {r : Reg} {v : Word} {s t : State}
    (h : wrReg i r v s = .next t) (hi : i.toNat = k := by rfl) : Moves k p s t :=
  stepOn_moves h (does_noRet does_regWrite) hi

theorem putCmd_moves {k : Nat} {p : Perm} {i : InstId} {w : Word} {s t : State} (h : putCmd i w s = .next t)
    (hi : i.toNat = k := by rfl) : Moves k p s t := stepOn_moves h (does_noRet does_regWrite) hi

theorem stageStep_moves {k : Nat} {p : Perm} {i : InstId} {f : Nat → Op Word} {s t : State}
    (h : stageStep i f s = .next t) (hf : Does i.toNat p (f i.toNat)) (hi : i.toNat = k := by rfl) :
    Moves k p s t :=
  stepOn_moves h (does_bind does_needLocks fun _ => does_bind hf fun _ => does_retWord) hi

theorem rowStep_moves {k : Nat} {p : Perm} {i : InstId} {w : Word} {s t : State} (h : rowStep i w s = .next t)
    (hi : i.toNat = k := by rfl) : Moves k p s t :=
  stepOn_moves h (does_bind does_needLocks fun _ => does_bind does_tableStages fun _ => does_retNat) hi

theorem faultStep_moves {k : Nat} {p : Perm} {i : InstId} {w : Word} {s t : State} (h : faultStep i w s = .next t)
    (hi : i.toNat = k := by rfl) : Moves k p s t :=
  stepOn_moves h (does_bind does_needLocks fun _ => does_bind does_faultStage fun _ => does_retNat) hi

/-- An operation that answers a next state got there by moves on its instance. -/
theorem exec_moves (i : Instr) (s t : State) (h : exec i s = .next t) : Moves (targetOf i) (permOf i) s t := by
  cases i
  case rdFunCtrl | rdAcTiming1 | rdAcTiming2 | rdIntrCtrl | rdIntrSts | rdCmd | rdDevAddr | rdBufCtrl | rdByteData
    | rdDmaBase | rdDmaLen => exact rdReg_moves h
  case wrFunCtrl | wrAcTiming1 | wrAcTiming2 | wrIntrCtrl | wrIntrSts | wrCmd | wrDevAddr | wrBufCtrl | wrByteData
    | wrDmaBase | wrDmaLen => exact wrReg_moves h
  case rdGroupSts => cases h; exact .single (.ret s _)
  case wrGroupSts => cases h; exact .single (.ret s _)
  case rdReserved =>
    simp only [exec, execRdReserved] at h
    exact stepOn_moves h does_retWord
  case wrReserved =>
    simp only [exec, execWrReserved] at h
    exact stepOn_moves h (does_pure _)
  case cNop | cSRx | cStartTx | cStartTxStop | cTx | cTxStop | cRx | cRxLast | cRxLastStop | cStop | cSTx
    | cRecover => exact putCmd_moves h
  case reservedCmd => cases h
  case stsSmbusAlert | stsSmbusArp | stsSmbusAlertResp =>
    simp only [exec, execStsSmbusAlert, execStsSmbusArp, execStsSmbusAlertResp] at h
    exact stageStep_moves h does_smbusStage
  case stsAbnormal | stsSclTimeout => exact faultStep_moves h
  case stsSlaveStop =>
    simp only [exec, execStsSlaveStop] at h
    exact stageStep_moves h (does_bind does_getInst fun _ =>
      does_ite does_slaveStopStage (does_pure _))
  case stsTxAck | stsTxAckStop | stsTxNak | stsTxNakStop | stsRxDone | stsRxDoneStop | stsMatch | stsMatchStop
    | stsStop | stsArbLoss | stsArbLossMatch | stsRecoverDone => exact rowStep_moves h
  case stsNotMine =>
    simp only [exec, execStsNotMine] at h
    exact stepOn_moves h (does_bind does_mine fun _ => does_retNat)
  case stsEmpty =>
    simp only [exec, execStsEmpty] at h
    exact stepOn_moves h does_retNat
  case stsSweep =>
    simp only [exec, execStsSweep] at h
    exact stepOn_moves h (does_bind does_needLocks fun _ => does_bind does_sweep fun _ => does_retNat)
  case lIdle =>
    simp only [exec, execLIdle] at h
    exact stepOn_moves h (does_bind (does_enterPath rfl) fun _ => does_pathIdle rfl)
  case lMasterHold =>
    simp only [exec, execLMasterHold] at h
    exact stepOn_moves h (does_bind (does_enterPath rfl) fun _ => does_pathMasterStop rfl rfl)
  case lSlaveHold =>
    simp only [exec, execLSlaveHold] at h
    exact stepOn_moves h (does_bind (does_enterPath rfl) fun _ => does_pathSlaveDead rfl rfl)
  case lOther =>
    simp only [exec, execLOther] at h
    exact stepOn_moves h (does_bind does_needM fun _ => does_bind does_getInst fun _ =>
      does_bind does_require fun _ => does_pathUnclassified rfl)
  case devInit =>
    simp only [exec, execDevInit] at h
    exact hostCall_moves h does_devInit
  case submit =>
    simp only [exec, execSubmit] at h
    exact hostCall_moves h (does_submit rfl)
  case slaveRead =>
    simp only [exec, execSlaveRead] at h
    exact slaveCall_moves h (does_bind does_needS fun _ => does_slaveRead)
  case slaveWrite =>
    simp only [exec, execSlaveWrite] at h
    exact slaveCall_moves h (does_bind does_needS fun _ => does_slaveWrite)
  case slaveEnable =>
    simp only [exec, execSlaveEnable] at h
    exact slaveCall_moves h does_slaveEnable
  case slaveDisable =>
    simp only [exec, execSlaveDisable] at h
    exact slaveCall_moves h (does_bind does_needLocks fun _ => does_slaveDisable)
  case alertAssert | alertDeassert =>
    simp only [exec, execAlertAssert, execAlertDeassert] at h
    exact slaveCall_moves h (does_bind does_regWrite fun _ => does_retCode)
  case recoverReq =>
    simp only [exec, execRecoverReq] at h
    exact hostCall_moves h (does_bind does_offered fun _ => does_bind does_needM fun _ =>
      does_bind does_getInst fun _ => does_ite does_retCode
        (does_bind (does_modThread rfl) fun _ => does_recoverEntry rfl))
  case readMrstCnt | readSrecCnt =>
    simp only [exec, execReadMrstCnt, execReadSrecCnt] at h
    exact hostCall_moves h (does_bind does_offered fun _ =>
      does_bind does_getInst fun _ => does_retWord)
  case readRecovStatus =>
    simp only [exec, execReadRecovStatus] at h
    exact hostCall_moves h (does_bind does_offered fun _ => does_bind does_getInst fun _ =>
      does_bind (does_modRecov fun _ => ⟨rfl, rfl⟩) fun _ => does_retWord)
  case busReset =>
    simp only [exec, execBusReset] at h
    exact hostCall_moves h (does_bind does_offered fun _ => does_bind does_needM fun _ =>
      does_bind does_getInst fun _ => does_ite does_retCode (does_bind does_regRead fun _ =>
        does_bind (does_modThread rfl) fun _ => does_pure _))
  case irq =>
    simp only [exec, execIrq] at h
    exact hostCall_moves h (does_bind does_needLocks fun _ => does_irq)
  case reservedHost => cases h; exact .single (.ret s _)
  case msg loc w0 b c d =>
    unfold exec execMsg at h
    obtain ⟨r, s', he, rfl⟩ := (runOp_next _ _ t).1 h
    refine .tail (?_ : Moves _ _ s s') (.ret s' r)
    unfold noRet hostWrite at he
    simp only [op_bind] at he
    split at he
    · rename_i u s1 h1
      split at h1
      · rename_i u2 s2 h2
        split at h2
        · cases h2
          split at h1
          · cases h1; cases he
            exact .trans (.single (.mem s _ _)) (.single (.mem _ _ _))
          · cases h1
        · cases h2
      · cases h1
    · cases he
  case armByte =>
    simp only [exec, execArmByte] at h
    exact stepOn_moves h (does_noRet (does_bind does_needM fun _ => does_bind does_progByte fun _ => does_setChunk))
  case extByte | extBuf | extDmaDec | extDmaInc =>
    simp only [exec, execExtByte, execExtBuf, execExtDmaDec, execExtDmaInc] at h
    exact stepOn_moves h (does_bind does_needM fun _ => does_bind does_getInst fun _ =>
      does_bind does_extract fun _ => does_pure _)
  case armBuf =>
    simp only [exec, execArmBuf] at h
    exact stepOn_moves h (does_noRet (does_bind does_needM fun _ => does_bind does_progBuf fun _ =>
      does_setChunk))
  case armDmaDec | armDmaInc =>
    simp only [exec, execArmDmaDec, execArmDmaInc] at h
    exact stepOn_moves h (does_noRet (does_bind does_needM fun _ => does_bind does_progDma fun _ => does_setChunk))
  case calcTiming => cases h; exact .single (.ret s _)
  case timingWord =>
    simp only [exec, execTimingWord] at h
    exact stepOn_moves h (does_bind does_timingWord fun _ => does_retWord)
  case timingInit =>
    simp only [exec, execTimingInit] at h
    refine stepOn_moves h (does_bind does_getInst fun _ => ?_)
    split
    · exact does_resetTimingStep rfl
    · exact does_noRet does_timingInit
  case regInit =>
    simp only [exec, execRegInit] at h
    exact stepOn_moves h (does_noRet does_regInit)
  case armNext =>
    simp only [exec, execArmNext] at h
    exact stepOn_moves h (does_noRet (does_bind does_needM fun _ => does_armNext))
  case poolAcq =>
    simp only [exec, execPoolAcq] at h
    exact stepOn_moves h (does_bind does_poolAcq fun _ => does_retWord)
  case poolRel =>
    simp only [exec, execPoolRel] at h
    exact stepOn_moves h (does_noRet does_poolRel)
  case selectMode =>
    simp only [exec, execSelectMode] at h
    exact stepOn_moves h (does_bind does_selectMode fun _ => does_retWord)
  case sArmRx =>
    simp only [exec, execSArmRx] at h
    exact stepOn_moves h (does_noRet (does_bind does_needSlave fun _ => does_sArmRx))
  case sArmTx =>
    simp only [exec, execSArmTx] at h
    exact stepOn_moves h (does_noRet (does_bind does_needSlave fun _ => does_bind does_needS fun _ =>
      does_sArmTx))
  case doXfer =>
    simp only [exec, execDoXfer] at h
    refine stepOn_moves h (does_bind does_getInst fun _ => ?_)
    split
    · exact does_bind does_needM fun _ => does_ite (does_attemptDone rfl)
        (does_bind (does_modMaster fun _ => ⟨rfl, rfl⟩) fun _ => does_bind (does_setPc rfl) fun _ => does_pure _)
    · exact does_bind does_needM fun _ => does_bind does_selectMode fun _ =>
        does_bind (does_modMaster fun _ => ⟨rfl, rfl⟩) fun _ => does_bind (does_setPc rfl) fun _ => does_pure _
    · exact does_bind does_needM fun _ => does_bind (does_xferExit rfl) fun _ => does_attemptDone rfl
    · exact does_refuse _
  case waitIdle =>
    simp only [exec, execWaitIdle] at h
    refine stepOn_moves h (does_noRet (does_bind does_getInst fun _ => does_bind does_getCfg fun _ => ?_))
    split
    · exact does_bind does_busBusy fun _ => does_setPc rfl
    · exact does_bind does_busBusy fun _ => does_bind does_require fun _ => does_setPc rfl
    · exact does_setPc rfl
    · exact does_bind does_busBusy fun _ => does_setPc rfl
    · exact does_refuse _
  case startMsg =>
    simp only [exec, execStartMsg] at h
    exact stepOn_moves h (does_noRet (does_bind does_getInst fun _ => does_bind does_require fun _ =>
      does_bind does_needM fun _ => does_bind (does_startMsg rfl) fun _ => does_modThread rfl))
  case wait =>
    simp only [exec, execWait] at h
    refine stepOn_moves h (does_noRet (does_bind does_needM fun _ => does_bind does_getInst fun _ =>
      does_bind does_require fun _ => ?_))
    split <;> first | exact does_setPc rfl | exact does_refuse _
  case wakeExpired =>
    simp only [exec, execWakeExpired] at h
    refine stepOn_moves h (does_noRet (does_bind does_getInst fun _ => ?_))
    split
    · exact does_bind does_needLocks fun _ => does_bind (does_wakeExpired rfl) fun _ => does_setPc rfl
    · exact does_refuse _
  case wakeSignalled =>
    simp only [exec, execWakeSignalled] at h
    refine stepOn_moves h (does_noRet (does_bind does_getInst fun _ => ?_))
    split
    · exact does_bind does_needLocks fun _ => does_bind (does_wakeSignalled rfl) fun _ => does_setPc rfl
    · exact does_refuse _
  case mDone =>
    simp only [exec, execMDone] at h
    exact stepOn_moves h (does_noRet (does_bind does_needM fun _ => does_mDone))
  case mNack =>
    simp only [exec, execMNack] at h
    exact stepOn_moves h (does_noRet (does_bind does_needM fun _ => does_mNack))
  case mArb =>
    simp only [exec, execMArb] at h
    exact stepOn_moves h (does_noRet (does_bind does_needM fun _ => does_mArb))
  case mStopDone =>
    simp only [exec, execMStopDone] at h
    exact stepOn_moves h (does_noRet (does_bind does_needM fun _ => does_mStopDone))
  case mFault =>
    simp only [exec, execMFault] at h
    exact stepOn_moves h (does_noRet (does_bind does_needM fun _ => does_mFault))
  case mPreempt =>
    simp only [exec, execMPreempt] at h
    exact stepOn_moves h (does_noRet (does_bind does_needM fun _ => does_mPreempt))
  case sMatch =>
    simp only [exec, execSMatch] at h
    exact stepOn_moves h (does_noRet (does_bind does_needSlave fun _ => does_bind does_needLocks fun _ =>
      does_sMatch))
  case startOfWrite =>
    simp only [exec, execStartOfWrite] at h
    exact stepOn_moves h (does_noRet (does_bind does_needSlave fun _ => does_bind does_needS fun _ =>
      does_startOfWrite))
  case startOfRead =>
    simp only [exec, execStartOfRead] at h
    exact stepOn_moves h (does_noRet (does_bind does_needSlave fun _ => does_bind does_needS fun _ =>
      does_startOfRead))
  case sData =>
    simp only [exec, execSData] at h
    exact stepOn_moves h (does_noRet (does_bind does_needSlave fun _ => does_bind does_needLocks fun _ =>
      does_sData))
  case sTxAck =>
    simp only [exec, execSTxAck] at h
    exact stepOn_moves h (does_noRet (does_bind does_needSlave fun _ => does_bind does_needLocks fun _ =>
      does_sTxAck))
  case sFinal =>
    simp only [exec, execSFinal] at h
    exact stepOn_moves h (does_noRet (does_bind does_needSlave fun _ => does_bind does_needLocks fun _ =>
      does_sFinal))
  case sStop =>
    simp only [exec, execSStop] at h
    exact stepOn_moves h (does_bind does_needSlave fun _ => does_bind does_needLocks fun _ =>
      does_bind does_sStop fun _ => does_retWord)
  case sAbort =>
    simp only [exec, execSAbort] at h
    refine stepOn_moves h (does_bind does_needSlave fun _ => does_bind does_needLocks fun _ =>
      does_bind does_getInst fun _ => does_bind does_sAbort fun _ => ?_)
    split
    · exact does_resetReturn rfl
    · exact does_pure _
  case recover =>
    simp only [exec, execRecover] at h
    refine stepOn_moves h (does_bind does_needM fun _ => does_bind does_getInst fun _ => ?_)
    split
    · exact does_bind (does_modThread rfl) fun _ => does_recoverEntry rfl
    · exact does_recoverEntry rfl
    · exact does_stopWake rfl
    · exact does_deadStep rfl
    · exact does_deadWake rfl
    · exact does_deadRestore rfl
    · exact does_refuse _
  case ctrlReset =>
    simp only [exec, execCtrlReset] at h
    refine stepOn_moves h (does_bind does_getInst fun _ => ?_)
    split
    · exact does_resetCtrlStep rfl
    · exact does_noRet does_ctrlReset
  case kAck =>
    simp only [exec, execKAck] at h
    exact stepOn_moves h (does_noRet (does_coreAck rfl))
  case kNack =>
    simp only [exec, execKNack] at h
    exact stepOn_moves h (does_noRet (does_coreNack rfl))
  case kRx =>
    simp only [exec, execKRx] at h
    exact stepOn_moves h (does_noRet (does_coreRx rfl))
  case kStop =>
    simp only [exec, execKStop] at h
    exact stepOn_moves h (does_noRet (does_coreStop rfl))
  case kArb =>
    simp only [exec, execKArb] at h
    exact stepOn_moves h (does_noRet (does_coreArb rfl))
  case kAbn =>
    simp only [exec, execKAbn] at h
    exact stepOn_moves h (does_noRet (does_coreAbn rfl))
  case kSclto =>
    simp only [exec, execKSclto] at h
    exact stepOn_moves h (does_noRet (does_coreSclto rfl))
  case kMatch =>
    simp only [exec, execKMatch] at h
    exact stepOn_moves h (does_noRet (does_coreMatch rfl))
  case kRecovered =>
    simp only [exec, execKRecovered] at h
    exact stepOn_moves h (does_noRet (does_coreRecovered rfl))
  case kLine =>
    simp only [exec, execKLine] at h
    exact stepOn_moves h (does_noRet does_modCore)
  case kSmbus =>
    simp only [exec, execKSmbus] at h
    exact stepOn_moves h (does_noRet (does_latch rfl))
  case tExpire =>
    simp only [exec, execTExpire] at h
    exact stepOn_moves h (does_noRet (does_expire rfl))

/-- A step that answers a next state had nothing to run, or ran the next frame's operation by moves. -/
theorem step_moves (s t : State) (h : step s = .next t) :
    (s.inbox = [] ∧ t = s) ∨ ∃ f r i, s.inbox = f :: r ∧ decode s.cfg f = .ok i
      ∧ Moves (targetOf i) (permOf i) { s with inbox := r } t := by
  unfold step at h
  split at h
  · rename_i hi; cases h; exact .inl ⟨hi, rfl⟩
  · rename_i f r hi
    split at h
    · rename_i i hd; exact .inr ⟨f, r, i, hi, hd, exec_moves i _ t h⟩
    · cases h

end Sys2Proof.Machine
end

