-- ==== Sys2Proof/Laws/Keeps.lean ====
section
/-! SUPPORT. What each move keeps: the parameters, the schedule and every other instance; the canonical form; the pool
loan; the slave ring; the thread's wait; the recovery counters; the locks; the status bits. -/

namespace Sys2Proof.Machine

open Sys2Proof

section moves

variable {k : Nat} {p : Perm} {s t : State}

/-- A property every move keeps is kept by a chain. -/
theorem Moves.keeps {P : State → Prop} (hm : ∀ s t, Move k p s t → P s → P t) (h : Moves k p s t) (hs : P s) :
    P t := by
  induction h with
  | refl => exact hs
  | tail _ hm' ih => exact hm _ _ hm' ih

/-! ## Everything else -/

theorem Move.others (h : Move k p s t) : t.cfg = s.cfg ∧ t.inbox = s.inbox ∧ t.insts.length = s.insts.length
    ∧ ∀ j, j ≠ k → t.insts[j]? = s.insts[j]? := by
  cases h
  all_goals
    refine ⟨rfl, rfl, by simp, fun j hj => ?_⟩
    first
    | rfl
    | exact updInst_other _ _ _ _ (Ne.symm hj)

/-- An operation leaves the parameters, the schedule and every other instance alone. -/
theorem Moves.others (h : Moves k p s t) : t.cfg = s.cfg ∧ t.inbox = s.inbox ∧ t.insts.length = s.insts.length
    ∧ ∀ j, j ≠ k → t.insts[j]? = s.insts[j]? := by
  refine h.keeps (P := fun u => u.cfg = s.cfg ∧ u.inbox = s.inbox ∧ u.insts.length = s.insts.length
    ∧ ∀ j, j ≠ k → u.insts[j]? = s.insts[j]?) (fun u v hm hu => ?_) ⟨rfl, rfl, rfl, fun _ _ => rfl⟩
  obtain ⟨a, b, c, d⟩ := hm.others
  exact ⟨a.trans hu.1, b.trans hu.2.1, c.trans hu.2.2.1, fun j hj => (d j hj).trans (hu.2.2.2 j hj)⟩

/-- The instance after a change, whichever it is. -/
theorem updInst_cases {s : State} {k j : Nat} {f : Inst → Inst} {y : Inst}
    (h : (s.updInst k f).insts[j]? = some y) : ∃ x, s.insts[j]? = some x ∧ y = if k = j then f x else x := by
  rw [updInst_get] at h
  by_cases e : k = j
  · rw [if_pos e, Option.map_eq_some_iff] at h
    obtain ⟨x, hx, rfl⟩ := h
    exact ⟨x, hx, by rw [if_pos e]⟩
  · rw [if_neg e] at h; exact ⟨y, h, by rw [if_neg e]⟩

/-! ## The canonical form and the hardwired bits -/

/-- A change of an instance that keeps its locks and its hardwired status bits. -/
theorem form_updInst (hs : s.FormOk) (f : Inst → Inst)
    (hi : ∀ x, x.regs.intrSts &&& 0xFFFF8000#32 = 0#32 → (f x).regs.intrSts &&& 0xFFFF8000#32 = 0#32)
    (hl : ∀ x, (f x).lockM = x.lockM ∧ (f x).lockS = x.lockS) : (s.updInst k f).FormOk := by
  obtain ⟨h1, h2, h3, h4⟩ := hs
  refine ⟨h1, h2, h3, fun j y hy => ?_⟩
  obtain ⟨x, hx, rfl⟩ := updInst_cases hy
  obtain ⟨a, b⟩ := h4 j x hx
  by_cases e : k = j
  · rw [if_pos e, (hl x).1, (hl x).2]; exact ⟨hi x a, b⟩
  · rw [if_neg e]; exact ⟨a, b⟩

theorem Move.form (h : Move k p s t) (hs : s.FormOk) : t.FormOk := by
  cases h
  case ret | draw => exact hs
  case regs f h =>
    refine form_updInst hs _ (fun x hx => ?_) fun x => ⟨rfl, rfl⟩
    rcases h x.regs with e | e
    · show (f x.regs).intrSts &&& _ = _; rw [e]; exact hx
    · exact e.1
  case core | master | await | slave | recov | count | outs | thread =>
    exact form_updInst hs _ (fun x hx => hx) fun x => ⟨rfl, rfl⟩
  case pool a bs => exact ⟨writeN_wf _ _ _ hs.1, hs.2.1, hs.2.2.1, hs.2.2.2⟩
  case dma a bs => exact ⟨hs.1, writeN_wf _ _ _ hs.2.1, hs.2.2.1, hs.2.2.2⟩
  case mem a bs => exact ⟨hs.1, hs.2.1, writeN_wf _ _ _ hs.2.2.1, hs.2.2.2⟩
  case acquire d x hx h | release d x hx h =>
    exact form_updInst (show State.FormOk { s with poolOwner := _ } from hs) _ (fun y hy => by cases d <;> exact hy)
      fun y => by cases d <;> exact ⟨rfl, rfl⟩

/-! ## The pool loan -/

/-- A change of an instance that keeps its loan bits. -/
theorem owner_updInst (hs : s.OwnerOk) (f : Inst → Inst) (hl : ∀ x d, (f x).loan d = x.loan d) :
    (s.updInst k f).OwnerOk := by
  refine ⟨fun j y hy d => ?_, fun j d h => by simpa using hs.2 j d h⟩
  obtain ⟨x, hx, rfl⟩ := updInst_cases hy
  rw [show (if k = j then f x else x).loan d = x.loan d by split <;> simp [hl]]
  exact hs.1 j x hx d

theorem loan_master_set (x : Inst) (m : Master) (hm : m.mLoan = x.master.mLoan) (d : Side) :
    Inst.loan { x with master := m } d = x.loan d := by cases d <;> simp [Inst.loan, hm]

theorem loan_slave_set (x : Inst) (v : Slave) (hv : v.sLoan = x.slave.sLoan) (d : Side) :
    Inst.loan { x with slave := v } d = x.loan d := by cases d <;> simp [Inst.loan, hv]

theorem Move.owner (h : Move k p s t) (hs : s.OwnerOk) : t.OwnerOk := by
  cases h
  case ret | draw | pool | dma | mem => exact hs
  case regs | core | recov | count | outs | thread => exact owner_updInst hs _ fun x d => by cases d <;> rfl
  case master f h => exact owner_updInst hs _ fun x d => loan_master_set x _ (h x.master).1 d
  case await f _ h => exact owner_updInst hs _ fun x d => loan_master_set x _ (h x.master) d
  case slave f _ h => exact owner_updInst hs _ fun x d => loan_slave_set x _ (h x.slave) d
  case acquire d x hx h =>
    have hnone : ∀ (j : Nat) (y : Inst), s.insts[j]? = some y → ∀ e, y.loan e = false := fun j y hy e => by
      have := hs.1 j y hy e
      rw [h] at this
      simpa using this
    refine ⟨fun j y hy e => ?_, fun j e he => ?_⟩
    · obtain ⟨z, hz, rfl⟩ := updInst_cases hy
      have hz' : s.insts[j]? = some z := hz
      have hf := hnone j z hz'
      show _ ↔ some (k, d) = some (j, e)
      by_cases hk : k = j
      · rw [if_pos hk]
        have hm := hf .master
        have hv := hf .slave
        cases d <;> cases e <;> simp_all [Inst.loan]
      · rw [if_neg hk, hf e]; simp [hk]
    · have : some (k, d) = some (j, e) := he
      cases this
      simpa using (List.getElem?_eq_some_iff.1 hx).1
  case release d x hx h =>
    refine ⟨fun j y hy e => ?_, fun j e he => ?_⟩
    · obtain ⟨z, hz, rfl⟩ := updInst_cases hy
      have hz' : s.insts[j]? = some z := hz
      have ho := (hs.1 k x hx d).1 h
      have hf := hs.1 j z hz' e
      rw [ho] at hf
      show _ ↔ none = some (j, e)
      simp only [reduceCtorEq, iff_false, Bool.not_eq_true]
      by_cases hk : k = j
      · rw [if_pos hk]
        subst hk
        have hm := hs.1 k z hz' .master
        have hv := hs.1 k z hz' .slave
        rw [ho] at hm hv
        cases d <;> cases e <;> simp_all [Inst.loan]
      · rw [if_neg hk]
        simpa [hk] using hf
    · have : (none : Option (Nat × Side)) = some (j, e) := he
      cases this

/-! ## The slave ring -/

theorem slaves_updInst (hs : s.SlavesOk) (f : Inst → Inst)
    (hv : ∀ x, s.insts[k]? = some x → x.slave.Ok s.cfg.ringCap s.cfg.slotCap →
      (f x).slave.Ok s.cfg.ringCap s.cfg.slotCap) : (s.updInst k f).SlavesOk := fun j y hy => by
  obtain ⟨x, hx, rfl⟩ := updInst_cases hy
  by_cases e : k = j
  · rw [if_pos e]; subst e; exact hv x hx (hs k x hx)
  · rw [if_neg e]; exact hs j x hx

theorem Move.slaves (h : Move k p s t) (hs : s.SlavesOk) : t.SlavesOk := by
  cases h
  case ret | draw | pool | dma | mem => exact hs
  case slave f h _ => exact slaves_updInst hs _ fun x hx hv => h x _ _ hx rfl rfl hv
  case acquire d x hx h | release d x hx h =>
    refine slaves_updInst (show State.SlavesOk { s with poolOwner := _ } from hs) _ fun y _ hy => ?_
    cases d
    · exact hy
    · exact hy.congr rfl rfl rfl rfl rfl id rfl rfl
  all_goals exact slaves_updInst hs _ fun x _ hv => hv

/-! ## The thread's wait -/

/-- Without the permission, no move touches the thread or its wait. -/
theorem Move.waits (h : Move k p s t) (hp : p.thread = false) (j : Nat) (y : Inst) (hy : t.insts[j]? = some y) :
    ∃ x, s.insts[j]? = some x ∧ y.master.waiting = x.master.waiting ∧ y.thread = x.thread := by
  cases h
  case ret | draw | pool | dma | mem => exact ⟨y, hy, rfl, rfl⟩
  case await hp' _ => rw [hp] at hp'; cases hp'
  case thread hp' => rw [hp] at hp'; cases hp'
  case master f h =>
    obtain ⟨x, hx, rfl⟩ := updInst_cases hy
    refine ⟨x, hx, ?_⟩
    split
    · exact ⟨(h x.master).2, rfl⟩
    · exact ⟨rfl, rfl⟩
  case acquire d x hx h | release d x hx h =>
    obtain ⟨x, hx, rfl⟩ := updInst_cases hy
    refine ⟨x, hx, ?_⟩
    cases d <;> split <;> exact ⟨rfl, rfl⟩
  all_goals
    obtain ⟨x, hx, rfl⟩ := updInst_cases hy
    refine ⟨x, hx, ?_⟩
    split <;> exact ⟨rfl, rfl⟩

theorem Moves.waits (h : Moves k p s t) (hp : p.thread = false) (hs : s.WaitsOk) : t.WaitsOk :=
  h.keeps (P := State.WaitsOk) (fun _ _ hm hu j y hy => by
    obtain ⟨x, hx, hw, ht⟩ := hm.waits hp j y hy
    rw [hw, ht]; exact hu j x hx) hs

/-! ## The recovery counters -/

/-- No move lowers a counter, and without the permission none changes. -/
theorem Move.counters (h : Move k p s t) (j : Nat) (y : Inst) (hy : t.insts[j]? = some y) :
    ∃ x, s.insts[j]? = some x ∧ x.recov.masterResetCnt ≤ y.recov.masterResetCnt
      ∧ x.recov.slaveRecoverCnt ≤ y.recov.slaveRecoverCnt
      ∧ (p.count = false → y.recov.masterResetCnt = x.recov.masterResetCnt
        ∧ y.recov.slaveRecoverCnt = x.recov.slaveRecoverCnt) := by
  have hle : ∀ w : Word, w ≤ w := BitVec.le_refl
  cases h
  case ret | draw | pool | dma | mem => exact ⟨y, hy, hle _, hle _, fun _ => ⟨rfl, rfl⟩⟩
  case recov f h =>
    obtain ⟨x, hx, rfl⟩ := updInst_cases hy
    refine ⟨x, hx, ?_⟩
    split
    · have := h x.recov
      refine ⟨?_, ?_, fun _ => this⟩
      · show _ ≤ (f x.recov).masterResetCnt; rw [this.1]; exact hle _
      · show _ ≤ (f x.recov).slaveRecoverCnt; rw [this.2]; exact hle _
    · exact ⟨hle _, hle _, fun _ => ⟨rfl, rfl⟩⟩
  case count f hp h =>
    obtain ⟨x, hx, rfl⟩ := updInst_cases hy
    refine ⟨x, hx, ?_⟩
    split
    · exact ⟨(h x.recov).1, (h x.recov).2, fun e => by rw [hp] at e; cases e⟩
    · exact ⟨hle _, hle _, fun _ => ⟨rfl, rfl⟩⟩
  case acquire d x hx h | release d x hx h =>
    obtain ⟨x, hx, rfl⟩ := updInst_cases hy
    refine ⟨x, hx, ?_⟩
    cases d <;> split <;> exact ⟨hle _, hle _, fun _ => ⟨rfl, rfl⟩⟩
  all_goals
    obtain ⟨x, hx, rfl⟩ := updInst_cases hy
    refine ⟨x, hx, ?_⟩
    split <;> exact ⟨hle _, hle _, fun _ => ⟨rfl, rfl⟩⟩

/-! ## The locks and the status bits -/

/-- No move takes or frees a lock, and without the permission none sets a status bit. -/
theorem Move.sts (h : Move k p s t) (j : Nat) (y : Inst) (hy : t.insts[j]? = some y) :
    ∃ x, s.insts[j]? = some x ∧ y.lockM = x.lockM ∧ y.lockS = x.lockS
      ∧ (p.latch = false → y.regs.intrSts &&& ~~~x.regs.intrSts = 0#32) := by
  have hz : ∀ w : Word, w &&& ~~~w = 0#32 := BitVec.and_not_self
  cases h
  case ret | draw | pool | dma | mem => exact ⟨y, hy, rfl, rfl, fun _ => hz _⟩
  case regs f h =>
    obtain ⟨x, hx, rfl⟩ := updInst_cases hy
    refine ⟨x, hx, ?_⟩
    split
    · refine ⟨rfl, rfl, fun hp => ?_⟩
      show (f x.regs).intrSts &&& _ = _
      rcases h x.regs with e | ⟨-, e | e⟩
      · rw [e]; exact hz _
      · rw [hp] at e; cases e
      · exact e
    · exact ⟨rfl, rfl, fun _ => hz _⟩
  case acquire d x hx h | release d x hx h =>
    obtain ⟨x, hx, rfl⟩ := updInst_cases hy
    refine ⟨x, hx, ?_⟩
    cases d <;> split <;> exact ⟨rfl, rfl, fun _ => hz _⟩
  all_goals
    obtain ⟨x, hx, rfl⟩ := updInst_cases hy
    refine ⟨x, hx, ?_⟩
    split <;> exact ⟨rfl, rfl, fun _ => hz _⟩

/-- A bit of none of two words set beyond the last is not set beyond the first. -/
theorem subset_trans (a b c : Word) (h1 : c &&& ~~~b = 0#32) (h2 : b &&& ~~~a = 0#32) : c &&& ~~~a = 0#32 := by
  apply BitVec.eq_of_getLsbD_eq
  intro j hj
  have e1 := congrArg (fun v => v.getLsbD j) h1
  have e2 := congrArg (fun v => v.getLsbD j) h2
  simp only [BitVec.getLsbD_and, BitVec.getLsbD_not, hj, decide_true, Bool.true_and, BitVec.getLsbD_zero] at e1 e2 ⊢
  revert e1 e2
  cases c.getLsbD j <;> cases b.getLsbD j <;> cases a.getLsbD j <;> simp

/-- An operation takes and frees no lock, and one that does not latch sets no status bit. -/
theorem Moves.sts (h : Moves k p s t) (j : Nat) (y : Inst) (hy : t.insts[j]? = some y) :
    ∃ x, s.insts[j]? = some x ∧ y.lockM = x.lockM ∧ y.lockS = x.lockS
      ∧ (p.latch = false → y.regs.intrSts &&& ~~~x.regs.intrSts = 0#32) := by
  induction h generalizing y with
  | refl => exact ⟨y, hy, rfl, rfl, fun _ => BitVec.and_not_self _⟩
  | tail _ hm ih =>
    obtain ⟨z, hz, a, b, c⟩ := hm.sts j y hy
    obtain ⟨x, hx, a', b', c'⟩ := ih z hz
    exact ⟨x, hx, a.trans a', b.trans b', fun hp => subset_trans _ _ _ (c hp) (c' hp)⟩

end moves

end Sys2Proof.Machine
end

