-- ==== Sys2Proof/Laws/Bus.lean ====
section
/-! SUPPORT. What the shared operations of recovery, of the core's outcomes and of an invocation of the decoder do to an
instance. -/

namespace Sys2Proof.Machine

open Sys2Proof

section recovery

variable (s : State) (i : InstId) (x y : Inst) (o : Option (Nat × Side)) (n : Nat) (r : Ret)

/-- RECOVER's return (R305, R432). -/
theorem recoverReturn_put (v : Code) (q : Ret) (hk : i.toNat < s.insts.length) : ∃ r z,
    recoverReturn i.toNat v (s.put i.toNat y s.poolOwner s.draws q) = .ok (r, s.put i.toNat z s.poolOwner s.draws q)
    ∧ s.recovered i y v = s.put i.toNat z s.poolOwner s.draws r := by
  unfold recoverReturn State.recovered
  by_cases hc : y.thread.call = .submit
  · refine ⟨.none, { y with thread := { y.thread with pc := .idleRecovered v } }, ?_, by rw [if_pos hc]⟩
    simp only [op_bind, getInst_put _ _ _ _ _ _ hk, hc, if_true, setPc, op_modThread, updInst_put _ _ _ _ _ _ _ hk,
      op_pure]
  · refine ⟨.word (s.cfg.code v), { y with thread := Thread.idle }, ?_, by rw [if_neg hc]⟩
    simp only [op_bind, getInst_put _ _ _ _ _ _ hk, hc, if_false, op_modThread, updInst_put _ _ _ _ _ _ _ hk,
      op_retCode, put_cfg]

/-- A step that ends in RECOVER's return. -/
theorem recovered_run (v : Code) (op : Nat → Op Ret) (h : s.Has i x)
    (he : op i.toNat (s.put i.toNat x s.poolOwner s.draws s.ret) =
      recoverReturn i.toNat v (s.put i.toNat y s.poolOwner s.draws s.ret)) :
    stepOn i op s = .next (s.recovered i y v) := by
  obtain ⟨r, z, h1, h2⟩ := recoverReturn_put s i y v s.ret (has_lt s x i h)
  rw [h2]
  exact step_run s x _ _ _ _ h (he.trans h1)

/-- A FUN_CTRL write, for some levels of the lines and some count of free values (R172). -/
theorem funWrite_put (v : Word) (hk : i.toNat < s.insts.length) : ∃ b c d j,
    regWrite i.toNat .funCtrl v (s.put i.toNat x o n r) = .ok ((), s.put i.toNat
      { x with regs := { x.regs with funCtrl := v }, core := x.core.afterFun x.regs.funCtrl v b c d
               outs := x.noted .funCtrl v } o j r) := by
  obtain ⟨b, c, d, h⟩ := wrFun_after x.core x.regs.funCtrl v n
  exact ⟨b, c, d, funDraws x.regs.funCtrl v n, by rw [regWrite_funCtrl_put _ _ _ _ _ _ _ hk, h]⟩

/-- One write of REG_INIT (R247). -/
theorem regInitWrite_put (a : Nat) (hk : i.toNat < s.insts.length) : ∃ b c d j,
    regInitWrite i.toNat a (s.put i.toNat x o n r) =
      .ok ((), s.put i.toNat (x.initStep s.cfg (s.cfg.inst i.toNat) a b c d) o j r) := by
  have hg : ∀ (f : Inst → Config → Word → Op Unit),
      (do let x ← getInst i.toNat; let c ← getCfg; let w ← timingWord i.toNat; f x c w : Op Unit)
        (s.put i.toNat x o n r) =
      f x s.cfg (timingWordOf s.cfg (s.cfg.inst i.toNat)) (s.put i.toNat x o n r) := by
    intro f
    simp only [timingWord, op_bind, getInst_put _ _ _ _ _ _ hk, op_getCfg, op_getInstCfg, op_pure, put_cfg]
  rcases a with _ | _ | _ | _ | _ | a
  · obtain ⟨b, c, d, j, h⟩ := funWrite_put s i x o n r 0#32 hk
    exact ⟨b, c, d, j, (hg fun _ _ _ => regWrite i.toNat .funCtrl 0#32).trans h⟩
  · obtain ⟨b, c, d, j, h⟩ := funWrite_put s i x o n r (enableWord x.slave.slaveEnabled) hk
    have e : enableWord x.slave.slaveEnabled = (if x.slave.slaveEnabled then 3#32 else 1#32) := by
      unfold enableWord; cases x.slave.slaveEnabled <;> rfl
    refine ⟨b, c, d, j, (hg fun x _ _ => regWrite i.toNat .funCtrl (enableWord x.slave.slaveEnabled)).trans
      (h.trans ?_)⟩
    rw [e]; rfl
  · exact ⟨false, false, false, n, (hg fun _ _ w => regWrite i.toNat .acTiming1 w).trans (by
      rw [op_regWrite_acTiming1, updInst_put _ _ _ _ _ _ _ hk]; rfl)⟩
  · exact ⟨false, false, false, n, (hg fun _ c _ => regWrite i.toNat .acTiming2 c.ac2Value).trans (by
      rw [op_regWrite_acTiming2, updInst_put _ _ _ _ _ _ _ hk]; rfl)⟩
  · exact ⟨false, false, false, n, (hg fun _ _ _ => regWrite i.toNat .intrSts 0xFFFFFFFF#32).trans (by
      rw [op_regWrite_intrSts, updInst_put _ _ _ _ _ _ _ hk, w1c_all]; rfl)⟩
  · exact ⟨false, false, false, n, (hg fun _ c _ => regWrite i.toNat .intrCtrl c.intrMask).trans (by
      rw [op_regWrite_intrCtrl, updInst_put _ _ _ _ _ _ _ hk]; rfl)⟩

/-- The registers BUS_RESET leaves, and what it does not touch (R429). -/
theorem busReset_regs (g : Config) (ic : InstConfig) (a b c : Bool) :
    (x.busReset g ic a b c).regs.funCtrl = x.regs.funCtrl
    ∧ (x.busReset g ic a b c).regs.acTiming1 = timingWordOf g ic
    ∧ (x.busReset g ic a b c).regs.acTiming2 = g.ac2Value
    ∧ (x.busReset g ic a b c).master.waiting = x.master.waiting
    ∧ (x.busReset g ic a b c).thread = x.thread := by
  unfold Inst.busReset; split <;> exact ⟨rfl, rfl, rfl, rfl, rfl⟩

end recovery

/-! ## The outcomes of the core -/

section outcomes

variable (s : State) (i : InstId) (x : Inst) (o : Option (Nat × Side)) (n : Nat) (r : Ret) (f : InFlight)

/-- Every byte acknowledged. -/
theorem traceBytes_true (l : List Byte) : traceBytes l true = l.map fun b => .byte b true := by
  induction l with
  | nil => rfl
  | cons b l ih =>
    cases l with
    | nil => rfl
    | cons c r => rw [traceBytes, ih]; rfl

/-- The last byte apart. -/
theorem traceBytes_last (l : List Byte) (a : Bool) : traceBytes l a =
    (l.dropLast.map fun b => .byte b true) ++ (l.drop (l.length - 1)).map fun b => .byte b a := by
  induction l with
  | nil => rfl
  | cons b l ih =>
    cases l with
    | nil => rfl
    | cons c r => rw [traceBytes, ih]; simp

theorem report_eq (g : Config) (ic : InstConfig) (k : Nat) (mis : Option Word) :
    x.regs.report (coreCodec g ic (cmdIsMaster f.cmd)) f k mis = x.reported g ic f k mis := by
  unfold Regs.report Inst.reported
  cases f.path <;> rfl

/-- A count is reported (R218). -/
theorem reportCount_put (k : Nat) (mis : Option Word) (hk : i.toNat < s.insts.length) :
    reportCount i.toNat f k mis (s.put i.toNat x o n r) =
      .ok ((), s.put i.toNat { x with regs := x.reported s.cfg (s.cfg.inst i.toNat) f k mis } o n r) := by
  simp only [reportCount, op_bind, op_getCfg, op_getInstCfg, put_cfg, op_modRegs, updInst_put _ _ _ _ _ _ _ hk,
    report_eq]

/-- The end of a data phase (R216, R218). -/
theorem endData_put (k : Nat) (mis : Option Word) (t : List TraceItem) (bit : Word) (stop : Bool)
    (hk : i.toNat < s.insts.length) :
    endData i.toNat f k mis t bit stop (s.put i.toNat x o n r) = .ok ((), s.put i.toNat
      { x with regs := (x.reported s.cfg (s.cfg.inst i.toNat) f k mis).latched
                 (bit ||| if stop && cmdHasStop f.cmd then 0x0010#32 else 0#32)
               core := x.core.ends f stop t } o n r) := by
  simp only [endData, op_bind, reportCount_put s i x o n r f k mis hk, addTrace, op_modCore, op_latch,
    updInst_put _ _ _ _ _ _ _ hk]
  refine congrArg (fun t => Except.ok ((), s.put i.toNat t o n r)) ?_
  cases stop <;> cases hc : cmdHasStop f.cmd <;>
    simp [Core.dataDone, Core.ends, hc, Regs.latched, Core.stopped, STS_ANY, NORMAL_STOP]

/-- The remote master's STOP with no window open (R222). -/
theorem remoteStop_put (hk : i.toNat < s.insts.length) (hs : x.core.xfer.isSlave = true)
    (hw : ∀ f, x.core.inflight = some f → f.cmd ≠ .sRx) :
    remoteStop i.toNat (s.put i.toNat x o n r) = .ok ((), s.put i.toNat x.remoteStopped o n r) := by
  have hc : closeWindow i.toNat x.core.inflight (s.put i.toNat x o n r) = .ok ((), s.put i.toNat x o n r) := by
    cases h : x.core.inflight with
    | none => rfl
    | some f =>
      have : (f.cmd == .sRx) = false := by simpa using hw f h
      simp only [closeWindow, this, op_whenB_false]
  simp only [remoteStop, op_bind, getInst_put _ _ _ _ _ _ hk, hs, op_require_true, hc, op_modCore, op_latch,
    updInst_put _ _ _ _ _ _ _ hk]
  rfl

/-- The remote master's STOP closes an open window, no byte in it (R221, R222). -/
theorem remoteStop_window_put (hk : i.toNat < s.insts.length) (hs : x.core.xfer.isSlave = true)
    (hf : x.core.inflight = some f) (hc : f.cmd = .sRx) :
    remoteStop i.toNat (s.put i.toNat x o n r) = .ok ((), s.put i.toNat
      ({ x with regs := x.reported s.cfg (s.cfg.inst i.toNat) f 0 none
                core := { x.core with inflight := none } } : Inst).remoteStopped o n r) := by
  have hb : (f.cmd == .sRx) = true := by simp [hc]
  simp only [remoteStop, op_bind, getInst_put _ _ _ _ _ _ hk, hs, op_require_true, hf, closeWindow, hb, op_whenB_true,
    reportCount_put s i x o n r f 0 none hk, op_modCore, op_latch, updInst_put _ _ _ _ _ _ _ hk]
  rfl

/-- RemoteStop is not enabled while the core is no slave (R222). -/
theorem remoteStop_none (hk : i.toNat < s.insts.length) (hs : x.core.xfer.isSlave = false) :
    remoteStop i.toNat (s.put i.toNat x o n r) = .error (.refuse .notEnabled) := by
  simp only [remoteStop, op_bind, getInst_put _ _ _ _ _ _ hk, hs]
  rfl

/-- Received bytes reach their sink (R215, R500). -/
theorem sinkData_put (bs : List Byte) (hk : i.toNat < s.insts.length)
    (hd : f.path = .dma → f.base.toNat + bs.length ≤ 4294967296) :
    sinkData i.toNat f bs (s.put i.toNat x o n r) =
      .ok ((), (s.sunk f bs).put i.toNat (x.sunk f.path bs) o n r) := by
  unfold sinkData State.sunk
  cases hp : f.path with
  | byte =>
    cases bs with
    | nil => rfl
    | cons b l => simp only [op_modRegs, updInst_put _ _ _ _ _ _ _ hk, Inst.sunk]
  | buf => rfl
  | dma => exact dmaWrite_put s i.toNat x o n r _ bs (hd hp)

theorem sunk_insts (bs : List Byte) : (s.sunk f bs).insts = s.insts ∧ (s.sunk f bs).cfg = s.cfg := by
  unfold State.sunk; cases f.path <;> exact ⟨rfl, rfl⟩

/-- The spaces after a fault are those before it, but for a prefix of the bytes at the sink of a receive. -/
theorem faultData_put (bs : List Byte) (hk : i.toNat < s.insts.length)
    (hd : f.path = .dma → f.base.toNat + f.n ≤ 4294967296) : ∃ t v j,
    faultData i.toNat f bs (s.put i.toNat x o n r) =
      .ok ((), t.put i.toNat { x with regs := { x.regs with byteRx := v } } o j r)
    ∧ s.CutSpaces f t := by
  unfold faultData
  by_cases hc : (cmdIsRx f.cmd && f.phase == .data) = true
  · rw [op_if_pos _ hc]
    simp only [op_bind, draw_put]
    have hlen : (bs.take (Config.freeNat n % (f.n + 1))).length ≤ f.n := by
      have := Nat.mod_lt (Config.freeNat n) (show 0 < f.n + 1 by omega)
      rw [List.length_take]; omega
    generalize bs.take (Config.freeNat n % (f.n + 1)) = d at hlen ⊢
    rw [sinkData_put s i x _ _ _ _ _ hk (fun e => by have := hd e; omega)]
    have hv : ∃ v, x.sunk f.path d = { x with regs := { x.regs with byteRx := v } } := by
      unfold Inst.sunk; split
      · exact ⟨_, rfl⟩
      · exact ⟨x.regs.byteRx, rfl⟩
    obtain ⟨v, hv⟩ := hv
    simp only [Bool.and_eq_true] at hc
    exact ⟨s.sunk f d, v, n + 1, by rw [hv], .inr ⟨hc.1, d, hlen, rfl⟩⟩
  · rw [op_if_neg _ hc]
    exact ⟨s, x.regs.byteRx, n, rfl, .inl rfl⟩

/-- A command in flight is cut short (R219; log entry 11). -/
theorem cutShort_put (hk : i.toNat < s.insts.length) (hd : f.path = .dma → f.base.toNat + f.n ≤ 4294967296) :
    ∃ t v l j, cutShort i.toNat (some f) (s.put i.toNat x o n r) =
      .ok ((), t.put i.toNat (x.cut s.cfg (s.cfg.inst i.toNat) f v (Config.cutCount i.toNat x.core.cuts) l) o j r)
      ∧ s.CutSpaces f t := by
  obtain ⟨t, v, j, h, hs⟩ : ∃ t v j, faultData i.toNat f (faultBytes f n) (s.put i.toNat x o (n + 1) r) =
      .ok ((), t.put i.toNat { x with regs := { x.regs with byteRx := v } } o j r) ∧ s.CutSpaces f t :=
    faultData_put s i x o (n + 1) r f _ hk hd
  have e : t.insts = s.insts ∧ t.cfg = s.cfg := by
    rcases hs with rfl | ⟨-, bs, -, rfl⟩
    · exact ⟨rfl, rfl⟩
    · exact sunk_insts s f bs
  have hk2 : i.toNat < t.insts.length := by rw [e.1]; exact hk
  refine ⟨t, v, faultTrace f (faultBytes f n) (Config.freeBit (j + 1)) (Config.freeNat j)
    (Config.freeNat (j + 1)), j + 2, ?_, hs⟩
  simp only [cutShort, op_bind, getInst_put _ _ _ _ _ _ hk, draw_put, h, reportCount_put t i _ o _ r f _ _ hk2, addTrace, op_modCore,
    updInst_put _ _ _ _ _ _ _ hk2, e.2]
  rfl

/-- A fault of a command in flight (R219). -/
theorem coreFault_put (bit also : Word) (hk : i.toNat < s.insts.length) (hf : x.core.inflight = some f)
    (hd : f.path = .dma → f.base.toNat + f.n ≤ 4294967296) : ∃ t v l j,
    coreFault i.toNat bit also (s.put i.toNat x o n r) = .ok ((), t.put i.toNat
      (let y := x.cut s.cfg (s.cfg.inst i.toNat) f v (Config.cutCount i.toNat x.core.cuts) l
       { y with regs := y.regs.latched (bit ||| also) }) o j r)
    ∧ s.CutSpaces f t := by
  obtain ⟨t, v, l, j, h, hs⟩ := cutShort_put s i x o n r f hk hd
  have hk2 : i.toNat < t.insts.length := by
    rcases hs with rfl | ⟨-, bs, -, rfl⟩
    · exact hk
    · rw [(sunk_insts s f bs).1]; exact hk
  refine ⟨t, v, l, j, ?_, hs⟩
  simp only [coreFault, op_bind, getInst_put _ _ _ _ _ _ hk, hf, h, op_latch, updInst_put _ _ _ _ _ _ _ hk2]
  rfl

/-- XFER_STATE after a fault is some code (R219). -/
theorem drawXfer_put (hk : i.toNat < s.insts.length) : ∃ code j, drawXfer i.toNat (s.put i.toNat x o n r) =
    .ok ((), s.put i.toNat { x with core := { x.core with xfer := code } } o j r) := by
  refine ⟨if Config.freeBit n then .idle
      else if Config.freeBit (n + 1) then .slave (Config.freeSlaveCode n) else .master (Config.freeMasterCode n),
    n + 2, ?_⟩
  simp only [drawXfer, op_bind, draw_put, op_modCore, updInst_put _ _ _ _ _ _ _ hk]

end outcomes

/-! ## One invocation of the decoder -/

section invocation

variable (s : State) (i : InstId) (x : Inst)

/-- The invocation, its first two stages done (R380). -/
theorem irq_late (h : s.Has i x) (hl : x.Unlocked) (hm : x.regs.intrSts &&& x.regs.intrCtrl ≠ 0#32) :
    execIrq i s = runOp (do
      let r := x.regs.intrSts &&& 0xFFFFF1FF#32
      if r = 0#32 then retNat 1
      else if anyOf r (ABNORMAL ||| SCL_TIMEOUT) then do
        faultStage i.toNat r
        retNat 1
      else do
        lateStages i.toNat r
        retNat 1) (s.put i.toNat (x.smbused x.regs.intrSts) s.poolOwner s.draws s.ret) := by
  have hk := has_lt s x i h
  have hirq : x.irq = true := by simpa [Inst.irq, anyOf] using hm
  unfold execIrq
  rw [hostCall_put s x i _ h]
  unfold runOp
  simp only [op_bind, needLocks_put _ _ _ _ _ _ hk hl, irq, mine_put _ _ _ _ _ _ hk, hirq, Bool.not_true,
    Bool.false_eq_true, if_false, regRead_put _ _ _ _ _ _ .intrSts hk (.inl (by decide)), Inst.view,
    smbusStage_put _ _ _ _ _ _ _ hk]

/-- An operation that latches nothing leaves a clear status register clear. -/
theorem sts_zero {p : Perm} {k : Nat} {s t : State} {x y : Inst} (hm : Moves k p s t) (hp : p.latch = false)
    (hx : s.insts[k]? = some x) (hy : t.insts[k]? = some y) (h0 : x.regs.intrSts = 0#32) : y.regs.intrSts = 0#32 := by
  obtain ⟨z, hz, -, -, h⟩ := hm.sts k y hy
  rw [hx] at hz; cases hz
  have := h hp
  have e : ∀ w : Word, w &&& ~~~0#32 = w := fun w => by rw [BitVec.not_zero, BitVec.and_allOnes]
  rwa [h0, e] at this

/-- The table clears what it was given (R400). -/
theorem tableStages_clears (o : Option (Nat × Side)) (n : Nat) (r : Ret) (w : Word) (u : Unit) (t : State) (y : Inst)
    (hk : i.toNat < s.insts.length) (hx : x.regs.intrSts &&& ~~~w = 0#32)
    (ht : tableStages i.toNat w (s.put i.toNat x o n r) = .ok (u, t)) (hy : t.Has i y) : y.regs.intrSts = 0#32 := by
  rw [tableStages_put _ _ _ _ _ _ _ hk] at ht
  cases hr : rowOf x.master.slaveOp s.cfg.slavePresent w with
  | some row =>
    rw [hr] at ht
    have hm := (does_runRow : Does i.toNat { thread := false, count := false, latch := false }
      (runRow i.toNat x.master.slaveOp row)) _ _ _ (by simpa using hk) ht
    refine sts_zero hm rfl (put_get _ _ _ _ _ _ hk) hy ?_
    show x.regs.intrSts &&& ~~~w &&& 0x7FFF#32 = 0#32
    rw [hx]; simp
  | none =>
    rw [hr] at ht
    obtain ⟨a, b, c, j, hh⟩ := sweep_put s i x o n r w hk
    simp only [hh, Except.ok.injEq, Prod.mk.injEq, true_and] at ht
    subst ht
    unfold State.Has at hy
    rw [put_get _ _ _ _ _ _ hk] at hy
    rw [← Option.some.inj hy]
    unfold Inst.busReset; split <;> rfl

end invocation

end Sys2Proof.Machine
end

