-- ==== Sys2Proof/Laws/PerInstr.lean ====
section
/-! SUPPORT. Statements about every operation as syntax: the frame of an operation starts with the byte of the interface
its class arrives on, so a decoder tells the class from the interface and never from the operation's own bits (R130). -/

namespace Sys2Proof.Laws.PortByte

open Sys2Proof

/-- The interface an operation arrives on (R130, R146). -/
def port : Instr → Byte
  | .rdFunCtrl _ | .wrFunCtrl _ _ | .rdAcTiming1 _ | .wrAcTiming1 _ _ | .rdAcTiming2 _ | .wrAcTiming2 _ _
  | .rdIntrCtrl _ | .wrIntrCtrl _ _ | .rdIntrSts _ | .wrIntrSts _ _ | .rdCmd _ | .wrCmd _ _ | .rdDevAddr _
  | .wrDevAddr _ _ | .rdBufCtrl _ | .wrBufCtrl _ _ | .rdByteData _ | .wrByteData _ _ | .rdDmaBase _
  | .wrDmaBase _ _ | .rdDmaLen _ | .wrDmaLen _ _ | .rdGroupSts | .rdReserved _ _ | .wrGroupSts _
  | .wrReserved _ _ _ => 0#8
  | .cNop _ _ _ _ | .cSRx _ _ _ _ | .cStartTx _ _ _ _ | .cStartTxStop _ _ _ _ | .cTx _ _ _ _ | .cTxStop _ _ _ _
  | .cRx _ _ _ _ | .cRxLast _ _ _ _ | .cRxLastStop _ _ _ _ | .cStop _ _ _ _ | .cSTx _ _ _ _ | .cRecover _ _ _ _
  | .reservedCmd _ _ => 1#8
  | .stsSmbusAlert _ _ | .stsSmbusArp _ _ | .stsSmbusAlertResp _ _ | .stsAbnormal _ _ | .stsSclTimeout _ _
  | .stsSlaveStop _ _ | .stsTxAck _ | .stsTxAckStop _ | .stsTxNak _ | .stsTxNakStop _ | .stsRxDone _
  | .stsRxDoneStop _ | .stsMatch _ | .stsMatchStop _ | .stsStop _ | .stsArbLoss _ | .stsArbLossMatch _
  | .stsRecoverDone _ | .stsNotMine _ | .stsEmpty _ | .stsSweep _ _ => 2#8
  | .lIdle _ _ | .lMasterHold _ _ | .lSlaveHold _ _ => 3#8
  | .devInit _ | .submit _ _ _ _ | .slaveRead _ _ _ | .slaveWrite _ _ _ | .slaveEnable _ _ | .slaveDisable _
  | .alertAssert _ | .alertDeassert _ | .recoverReq _ | .readMrstCnt _ | .readSrecCnt _ | .readRecovStatus _
  | .busReset _ | .irq _ | .reservedHost _ _ _ => 4#8
  | .msg _ _ _ _ _ => 5#8
  | .armByte _ _ _ | .extByte _ | .armBuf _ _ _ | .extBuf _ | .armDmaDec _ _ _ | .extDmaDec _
  | .armDmaInc _ _ _ | .extDmaInc _ => 6#8
  | .lOther _ | .calcTiming _ _ | .timingWord _ | .timingInit _ | .regInit _ | .armNext _ | .poolAcq _ _
  | .poolRel _ _ | .selectMode _ _ | .sArmRx _ | .sArmTx _ | .doXfer _ | .waitIdle _ | .startMsg _ _ | .wait _
  | .wakeExpired _ | .wakeSignalled _ | .mDone _ _ _ | .mNack _ _ | .mArb _ | .mStopDone _ | .mFault _
  | .mPreempt _ | .sMatch _ | .startOfWrite _ _ | .startOfRead _ _ | .sData _ _ | .sTxAck _ | .sFinal _
  | .sStop _ _ | .sAbort _ | .recover _ | .ctrlReset _ => 7#8
  | .kAck _ _ _ | .kNack _ _ _ _ | .kRx _ _ _ _ | .kStop _ | .kArb _ | .kAbn _ | .kSclto _ | .kMatch _ _ _
  | .kRecovered _ _ | .kLine _ _ _ _ | .kSmbus _ _ | .tExpire _ => 8#8

/-- The frame starts with the operation's interface. -/
def Statement (i : Instr) : Prop := ∀ c : Config, (encode c i).head? = some (port i)

theorem rdFunCtrl (i : InstId) : Statement (.rdFunCtrl i) := fun _ => rfl
theorem wrFunCtrl (i : InstId) (v : Word) : Statement (.wrFunCtrl i v) := fun _ => rfl
theorem rdAcTiming1 (i : InstId) : Statement (.rdAcTiming1 i) := fun _ => rfl
theorem wrAcTiming1 (i : InstId) (v : Word) : Statement (.wrAcTiming1 i v) := fun _ => rfl
theorem rdAcTiming2 (i : InstId) : Statement (.rdAcTiming2 i) := fun _ => rfl
theorem wrAcTiming2 (i : InstId) (v : Word) : Statement (.wrAcTiming2 i v) := fun _ => rfl
theorem rdIntrCtrl (i : InstId) : Statement (.rdIntrCtrl i) := fun _ => rfl
theorem wrIntrCtrl (i : InstId) (v : Word) : Statement (.wrIntrCtrl i v) := fun _ => rfl
theorem rdIntrSts (i : InstId) : Statement (.rdIntrSts i) := fun _ => rfl
theorem wrIntrSts (i : InstId) (v : Word) : Statement (.wrIntrSts i v) := fun _ => rfl
theorem rdCmd (i : InstId) : Statement (.rdCmd i) := fun _ => rfl
theorem wrCmd (i : InstId) (v : Word) : Statement (.wrCmd i v) := fun _ => rfl
theorem rdDevAddr (i : InstId) : Statement (.rdDevAddr i) := fun _ => rfl
theorem wrDevAddr (i : InstId) (v : Word) : Statement (.wrDevAddr i v) := fun _ => rfl
theorem rdBufCtrl (i : InstId) : Statement (.rdBufCtrl i) := fun _ => rfl
theorem wrBufCtrl (i : InstId) (v : Word) : Statement (.wrBufCtrl i v) := fun _ => rfl
theorem rdByteData (i : InstId) : Statement (.rdByteData i) := fun _ => rfl
theorem wrByteData (i : InstId) (v : Word) : Statement (.wrByteData i v) := fun _ => rfl
theorem rdDmaBase (i : InstId) : Statement (.rdDmaBase i) := fun _ => rfl
theorem wrDmaBase (i : InstId) (v : Word) : Statement (.wrDmaBase i v) := fun _ => rfl
theorem rdDmaLen (i : InstId) : Statement (.rdDmaLen i) := fun _ => rfl
theorem wrDmaLen (i : InstId) (v : Word) : Statement (.wrDmaLen i v) := fun _ => rfl
theorem rdGroupSts : Statement .rdGroupSts := fun _ => rfl
theorem rdReserved (i : InstId) (off : BitVec 6) : Statement (.rdReserved i off) := fun _ => rfl
theorem wrGroupSts (v : Word) : Statement (.wrGroupSts v) := fun _ => rfl
theorem wrReserved (i : InstId) (off : BitVec 6) (v : Word) : Statement (.wrReserved i off v) := fun _ => rfl
theorem cNop (i : InstId) (en : BitVec 4) (al : Bool) (hi : BitVec 16) : Statement (.cNop i en al hi) := fun _ => rfl
theorem cSRx (i : InstId) (en : BitVec 4) (al : Bool) (hi : BitVec 16) : Statement (.cSRx i en al hi) := fun _ => rfl
theorem cStartTx (i : InstId) (en : BitVec 4) (al : Bool) (hi : BitVec 16) : Statement (.cStartTx i en al hi) := fun _ => rfl
theorem cStartTxStop (i : InstId) (en : BitVec 4) (al : Bool) (hi : BitVec 16) :
    Statement (.cStartTxStop i en al hi) := fun _ => rfl
theorem cTx (i : InstId) (en : BitVec 4) (al : Bool) (hi : BitVec 16) : Statement (.cTx i en al hi) := fun _ => rfl
theorem cTxStop (i : InstId) (en : BitVec 4) (al : Bool) (hi : BitVec 16) : Statement (.cTxStop i en al hi) := fun _ => rfl
theorem cRx (i : InstId) (en : BitVec 4) (al : Bool) (hi : BitVec 16) : Statement (.cRx i en al hi) := fun _ => rfl
theorem cRxLast (i : InstId) (en : BitVec 4) (al : Bool) (hi : BitVec 16) : Statement (.cRxLast i en al hi) := fun _ => rfl
theorem cRxLastStop (i : InstId) (en : BitVec 4) (al : Bool) (hi : BitVec 16) :
    Statement (.cRxLastStop i en al hi) := fun _ => rfl
theorem cStop (i : InstId) (en : BitVec 4) (al : Bool) (hi : BitVec 16) : Statement (.cStop i en al hi) := fun _ => rfl
theorem cSTx (i : InstId) (en : BitVec 4) (al : Bool) (hi : BitVec 16) : Statement (.cSTx i en al hi) := fun _ => rfl
theorem cRecover (i : InstId) (en : BitVec 4) (al : Bool) (hi : BitVec 16) : Statement (.cRecover i en al hi) := fun _ => rfl
theorem reservedCmd (i : InstId) (w : Word) : Statement (.reservedCmd i w) := fun _ => rfl
theorem stsSmbusAlert (i : InstId) (sts : Word) : Statement (.stsSmbusAlert i sts) := fun _ => rfl
theorem stsSmbusArp (i : InstId) (sts : Word) : Statement (.stsSmbusArp i sts) := fun _ => rfl
theorem stsSmbusAlertResp (i : InstId) (sts : Word) : Statement (.stsSmbusAlertResp i sts) := fun _ => rfl
theorem stsAbnormal (i : InstId) (sts : Word) : Statement (.stsAbnormal i sts) := fun _ => rfl
theorem stsSclTimeout (i : InstId) (sts : Word) : Statement (.stsSclTimeout i sts) := fun _ => rfl
theorem stsSlaveStop (i : InstId) (sts : Word) : Statement (.stsSlaveStop i sts) := fun _ => rfl
theorem stsTxAck (i : InstId) : Statement (.stsTxAck i) := fun _ => rfl
theorem stsTxAckStop (i : InstId) : Statement (.stsTxAckStop i) := fun _ => rfl
theorem stsTxNak (i : InstId) : Statement (.stsTxNak i) := fun _ => rfl
theorem stsTxNakStop (i : InstId) : Statement (.stsTxNakStop i) := fun _ => rfl
theorem stsRxDone (i : InstId) : Statement (.stsRxDone i) := fun _ => rfl
theorem stsRxDoneStop (i : InstId) : Statement (.stsRxDoneStop i) := fun _ => rfl
theorem stsMatch (i : InstId) : Statement (.stsMatch i) := fun _ => rfl
theorem stsMatchStop (i : InstId) : Statement (.stsMatchStop i) := fun _ => rfl
theorem stsStop (i : InstId) : Statement (.stsStop i) := fun _ => rfl
theorem stsArbLoss (i : InstId) : Statement (.stsArbLoss i) := fun _ => rfl
theorem stsArbLossMatch (i : InstId) : Statement (.stsArbLossMatch i) := fun _ => rfl
theorem stsRecoverDone (i : InstId) : Statement (.stsRecoverDone i) := fun _ => rfl
theorem stsNotMine (i : InstId) : Statement (.stsNotMine i) := fun _ => rfl
theorem stsEmpty (i : InstId) : Statement (.stsEmpty i) := fun _ => rfl
theorem stsSweep (i : InstId) (sts : Word) : Statement (.stsSweep i sts) := fun _ => rfl
theorem lIdle (i : InstId) (c : Word) : Statement (.lIdle i c) := fun _ => rfl
theorem lMasterHold (i : InstId) (c : Word) : Statement (.lMasterHold i c) := fun _ => rfl
theorem lSlaveHold (i : InstId) (c : Word) : Statement (.lSlaveHold i c) := fun _ => rfl
theorem lOther (i : InstId) : Statement (.lOther i) := fun _ => rfl
theorem devInit (i : InstId) : Statement (.devInit i) := fun _ => rfl
theorem submit (i : InstId) (n : BitVec 16) (desc : Word) (bound : Word) : Statement (.submit i n desc bound) := fun _ => rfl
theorem slaveRead (i : InstId) (dst : Word) (cap : Word) : Statement (.slaveRead i dst cap) := fun _ => rfl
theorem slaveWrite (i : InstId) (n : BitVec 16) (src : Word) : Statement (.slaveWrite i n src) := fun _ => rfl
theorem slaveEnable (i : InstId) (a : BitVec 16) : Statement (.slaveEnable i a) := fun _ => rfl
theorem slaveDisable (i : InstId) : Statement (.slaveDisable i) := fun _ => rfl
theorem alertAssert (i : InstId) : Statement (.alertAssert i) := fun _ => rfl
theorem alertDeassert (i : InstId) : Statement (.alertDeassert i) := fun _ => rfl
theorem recoverReq (i : InstId) : Statement (.recoverReq i) := fun _ => rfl
theorem readMrstCnt (i : InstId) : Statement (.readMrstCnt i) := fun _ => rfl
theorem readSrecCnt (i : InstId) : Statement (.readSrecCnt i) := fun _ => rfl
theorem readRecovStatus (i : InstId) : Statement (.readRecovStatus i) := fun _ => rfl
theorem busReset (i : InstId) : Statement (.busReset i) := fun _ => rfl
theorem irq (i : InstId) : Statement (.irq i) := fun _ => rfl
theorem reservedHost (w0 w1 w2 : Word) : Statement (.reservedHost w0 w1 w2) := fun _ => rfl
theorem msg (loc : Word) (w0 bufRef cap : Word) (data : List Byte) : Statement (.msg loc w0 bufRef cap data) := fun _ => rfl
theorem armByte (i : InstId) (a : Word) (d : Option Byte) : Statement (.armByte i a d) := fun _ => rfl
theorem extByte (i : InstId) : Statement (.extByte i) := fun _ => rfl
theorem armBuf (i : InstId) (a : Word) (d : ArmData) : Statement (.armBuf i a d) := fun _ => rfl
theorem extBuf (i : InstId) : Statement (.extBuf i) := fun _ => rfl
theorem armDmaDec (i : InstId) (a : Word) (d : ArmData) : Statement (.armDmaDec i a d) := fun _ => rfl
theorem extDmaDec (i : InstId) : Statement (.extDmaDec i) := fun _ => rfl
theorem armDmaInc (i : InstId) (a : Word) (d : ArmData) : Statement (.armDmaInc i a d) := fun _ => rfl
theorem extDmaInc (i : InstId) : Statement (.extDmaInc i) := fun _ => rfl
theorem calcTiming (clkIn busFreq : Word) : Statement (.calcTiming clkIn busFreq) := fun _ => rfl
theorem timingWord (i : InstId) : Statement (.timingWord i) := fun _ => rfl
theorem timingInit (i : InstId) : Statement (.timingInit i) := fun _ => rfl
theorem regInit (i : InstId) : Statement (.regInit i) := fun _ => rfl
theorem armNext (i : InstId) : Statement (.armNext i) := fun _ => rfl
theorem poolAcq (i : InstId) (side : Side) : Statement (.poolAcq i side) := fun _ => rfl
theorem poolRel (i : InstId) (side : Side) : Statement (.poolRel i side) := fun _ => rfl
theorem selectMode (i : InstId) (side : Side) : Statement (.selectMode i side) := fun _ => rfl
theorem sArmRx (i : InstId) : Statement (.sArmRx i) := fun _ => rfl
theorem sArmTx (i : InstId) : Statement (.sArmTx i) := fun _ => rfl
theorem doXfer (i : InstId) : Statement (.doXfer i) := fun _ => rfl
theorem waitIdle (i : InstId) : Statement (.waitIdle i) := fun _ => rfl
theorem startMsg (i : InstId) (k : Word) : Statement (.startMsg i k) := fun _ => rfl
theorem wait (i : InstId) : Statement (.wait i) := fun _ => rfl
theorem wakeExpired (i : InstId) : Statement (.wakeExpired i) := fun _ => rfl
theorem wakeSignalled (i : InstId) : Statement (.wakeSignalled i) := fun _ => rfl
theorem mDone (i : InstId) (kind : Kind) (stop : Bool) : Statement (.mDone i kind stop) := fun _ => rfl
theorem mNack (i : InstId) (stop : Bool) : Statement (.mNack i stop) := fun _ => rfl
theorem mArb (i : InstId) : Statement (.mArb i) := fun _ => rfl
theorem mStopDone (i : InstId) : Statement (.mStopDone i) := fun _ => rfl
theorem mFault (i : InstId) : Statement (.mFault i) := fun _ => rfl
theorem mPreempt (i : InstId) : Statement (.mPreempt i) := fun _ => rfl
theorem sMatch (i : InstId) : Statement (.sMatch i) := fun _ => rfl
theorem startOfWrite (i : InstId) (a : Byte) : Statement (.startOfWrite i a) := fun _ => rfl
theorem startOfRead (i : InstId) (a : Byte) : Statement (.startOfRead i a) := fun _ => rfl
theorem sData (i : InstId) (stop : Bool) : Statement (.sData i stop) := fun _ => rfl
theorem sTxAck (i : InstId) : Statement (.sTxAck i) := fun _ => rfl
theorem sFinal (i : InstId) : Statement (.sFinal i) := fun _ => rfl
theorem sStop (i : InstId) (sts : Word) : Statement (.sStop i sts) := fun _ => rfl
theorem sAbort (i : InstId) : Statement (.sAbort i) := fun _ => rfl
theorem recover (i : InstId) : Statement (.recover i) := fun _ => rfl
theorem ctrlReset (i : InstId) : Statement (.ctrlReset i) := fun _ => rfl
theorem kAck (i : InstId) (stop : Bool) (mis : Option Word) : Statement (.kAck i stop mis) := fun _ => rfl
theorem kNack (i : InstId) (j : Word) (stop : Bool) (mis : Option Word) : Statement (.kNack i j stop mis) := fun _ => rfl
theorem kRx (i : InstId) (bs : RxData) (stop : Bool) (mis : Option Word) :
    Statement (.kRx i bs stop mis) := fun _ => rfl
theorem kStop (i : InstId) : Statement (.kStop i) := fun _ => rfl
theorem kArb (f : FaultAt) : Statement (.kArb f) := fun _ => rfl
theorem kAbn (f : FaultAt) : Statement (.kAbn f) := fun _ => rfl
theorem kSclto (f : FaultAt) : Statement (.kSclto f) := fun _ => rfl
theorem kMatch (i : InstId) (a : Byte) (arb : Bool) : Statement (.kMatch i a arb) := fun _ => rfl
theorem kRecovered (i : InstId) (sda : Bool) : Statement (.kRecovered i sda) := fun _ => rfl
theorem kLine (i : InstId) (sda scl busy : Bool) : Statement (.kLine i sda scl busy) := fun _ => rfl
theorem kSmbus (i : InstId) (m : SmbusBit) : Statement (.kSmbus i m) := fun _ => rfl
theorem tExpire (i : InstId) : Statement (.tExpire i) := fun _ => rfl

end Sys2Proof.Laws.PortByte
end

