-- ==== Sys2Proof/Tests/Slice0.lean ====
section
/-! SUPPORT. Tests: ill-formed terms that WellFormed refuses, words written out from the spec's encodings and decoded,
one step of each family with the value the spec gives, and for each statement with hypotheses a state and operands that
meet them. -/

open Sys2Proof Sys2Proof.Machine

namespace Sys2Proof.Tests

/-! ## WellFormed: one ill-formed term for each check -/

theorem test_wf_reserved_offsets :
    (Instr.rdReserved 0 0x28#6).wf = false ∧ (Instr.wrReserved 0 0x2E#6 0#32).wf = false := by decide

theorem test_wf_command_enables :
    (Instr.cNop 0 1#4 false 0).wf = false ∧ (Instr.cSRx 0 0#4 false 0).wf = false
    ∧ (Instr.cStartTx 0 2#4 false 0).wf = false ∧ (Instr.cStartTxStop 0 8#4 false 0).wf = false
    ∧ (Instr.cTx 0 5#4 false 0).wf = false ∧ (Instr.cTxStop 0 15#4 false 0).wf = false
    ∧ (Instr.cRx 0 1#4 false 0).wf = false ∧ (Instr.cRxLast 0 4#4 false 0).wf = false
    ∧ (Instr.cRxLastStop 0 10#4 false 0).wf = false ∧ (Instr.cStop 0 1#4 false 0).wf = false
    ∧ (Instr.cSTx 0 2#4 false 0).wf = false ∧ (Instr.cRecover 0 1#4 false 0).wf = false
    ∧ (Instr.reservedCmd 0 0x3#32).wf = false := by decide

theorem test_wf_status_patterns :
    (Instr.stsSmbusAlert 0 0x8200#32).wf = false ∧ (Instr.stsSmbusAlert 0 0x400#32).wf = false
    ∧ (Instr.stsSmbusArp 0 0x600#32).wf = false ∧ (Instr.stsSmbusAlertResp 0 0xE00#32).wf = false
    ∧ (Instr.stsAbnormal 0 0x40#32).wf = false ∧ (Instr.stsSclTimeout 0 0x60#32).wf = false
    ∧ (Instr.stsSlaveStop 0 0x1#32).wf = false ∧ (Instr.stsSweep 0 0x8000#32).wf = false := by decide

theorem test_wf_line_patterns_and_requests :
    (Instr.lIdle 0 0x40000#32).wf = false ∧ (Instr.lMasterHold 0 0x60000#32).wf = false
    ∧ (Instr.lSlaveHold 0 0x40000#32).wf = false ∧ (Instr.kArb ⟨0, 0x80#32⟩).wf = false ∧ (Instr.kAbn ⟨0, 0x200#32⟩).wf = false
    ∧ (Instr.kSclto ⟨0, 0x8000#32⟩).wf = false ∧ (Instr.reservedHost 1#32 0#32 0#32).wf = false := by decide

/-! ## Decoding: words written out from the spec -/

/-- The operation of a frame given byte by byte. -/
def dec (l : List Nat) : Option Instr := (decode Config.default (l.map (BitVec.ofNat 8))).toOption

/-- R131: `[direction, address]`, the windows of 0x40 bytes, the offsets of R40 (instance 3 for the last rows). -/
theorem test_decode_register_reads :
    dec [0, 0, 0x00, 0, 0, 0] = some (.rdFunCtrl 0) ∧ dec [0, 0, 0x04, 0, 0, 0] = some (.rdAcTiming1 0)
    ∧ dec [0, 0, 0x08, 0, 0, 0] = some (.rdAcTiming2 0) ∧ dec [0, 0, 0x0C, 0, 0, 0] = some (.rdIntrCtrl 0)
    ∧ dec [0, 0, 0x10, 0, 0, 0] = some (.rdIntrSts 0) ∧ dec [0, 0, 0x14, 0, 0, 0] = some (.rdCmd 0)
    ∧ dec [0, 0, 0x18, 0, 0, 0] = some (.rdDevAddr 0) ∧ dec [0, 0, 0xDC, 0, 0, 0] = some (.rdBufCtrl 3)
    ∧ dec [0, 0, 0xE0, 0, 0, 0] = some (.rdByteData 3) ∧ dec [0, 0, 0xE4, 0, 0, 0] = some (.rdDmaBase 3)
    ∧ dec [0, 0, 0xE8, 0, 0, 0] = some (.rdDmaLen 3) ∧ dec [0, 0, 0xEC, 0, 0, 0] = some (.rdReserved 3 0x2C#6)
    ∧ dec [0, 0, 0, 8, 0, 0] = some .rdGroupSts := by decide

/-- R131: the data word follows, little-endian. -/
theorem test_decode_register_writes :
    dec [0, 1, 0x00, 0, 0, 0, 1, 0, 0, 0] = some (.wrFunCtrl 0 1#32)
    ∧ dec [0, 1, 0x04, 0, 0, 0, 3, 0x60, 7, 0] = some (.wrAcTiming1 0 0x00076003#32)
    ∧ dec [0, 1, 0x08, 0, 0, 0, 0, 0, 0, 0x80] = some (.wrAcTiming2 0 0x80000000#32)
    ∧ dec [0, 1, 0x0C, 0, 0, 0, 0xFF, 0x2E, 0, 0] = some (.wrIntrCtrl 0 0x2EFF#32)
    ∧ dec [0, 1, 0x10, 0, 0, 0, 4, 0, 0, 0] = some (.wrIntrSts 0 4#32)
    ∧ dec [0, 1, 0x14, 0, 0, 0, 3, 0, 0, 0] = some (.wrCmd 0 3#32)
    ∧ dec [0, 1, 0xD8, 0, 0, 0, 0x10, 0, 0, 0] = some (.wrDevAddr 3 0x10#32)
    ∧ dec [0, 1, 0xDC, 0, 0, 0, 4, 0, 0xF0, 0x3F] = some (.wrBufCtrl 3 0x3FF00004#32)
    ∧ dec [0, 1, 0xE0, 0, 0, 0, 0xA0, 0, 0, 0] = some (.wrByteData 3 0xA0#32)
    ∧ dec [0, 1, 0xE4, 0, 0, 0, 0, 0, 0x10, 0] = some (.wrDmaBase 3 0x100000#32)
    ∧ dec [0, 1, 0xE8, 0, 0, 0, 16, 0, 0, 0] = some (.wrDmaLen 3 16#32)
    ∧ dec [0, 1, 0xFC, 0, 0, 0, 1, 0, 0, 0] = some (.wrReserved 3 0x3C#6 1#32)
    ∧ dec [0, 1, 0, 8, 0, 0, 1, 0, 0, 0] = some (.wrGroupSts 1#32) := by decide

/-- R103 and R131: a misaligned address, an address in no window, a third direction spell nothing. -/
theorem test_decode_refuses_bad_accesses :
    dec [0, 0, 1, 0, 0, 0] = none ∧ dec [0, 0, 4, 8, 0, 0] = none ∧ dec [0, 2, 0, 0, 0, 0] = none ∧ dec [] = none
    ∧ dec [9] = none := by decide

/-- R133: the action parts, with EN none, TX_BUF_EN 0x40, RX_BUF_EN 0x80, TX_DMA_EN 0x100, RX_DMA_EN 0x200, and
S_ALERT_EN 0x400 and a bit of the ignored half (R132). -/
theorem test_decode_command_words :
    dec [1, 0, 0, 4, 0, 0] = some (.cNop 0 0#4 true 0) ∧ dec [1, 0, 0x80, 0, 0, 0] = some (.cSRx 0 2#4 false 0)
    ∧ dec [1, 0, 3, 1, 0, 0] = some (.cStartTx 0 4#4 false 0)
    ∧ dec [1, 0, 0x63, 0, 0, 0] = some (.cStartTxStop 0 1#4 false 0) ∧ dec [1, 0, 2, 0, 0, 0] = some (.cTx 0 0#4 false 0)
    ∧ dec [1, 0, 0x22, 0, 0, 0x80] = some (.cTxStop 0 0#4 false 0x8000#16)
    ∧ dec [1, 31, 8, 0, 0, 0] = some (.cRx 31 0#4 false 0) ∧ dec [1, 0, 0x98, 0, 0, 0] = some (.cRxLast 0 2#4 false 0)
    ∧ dec [1, 0, 0x38, 2, 0, 0] = some (.cRxLastStop 0 8#4 false 0) ∧ dec [1, 0, 0x20, 0, 0, 0] = some (.cStop 0 0#4 false 0)
    ∧ dec [1, 0, 4, 1, 0, 0] = some (.cSTx 0 4#4 false 0) ∧ dec [1, 0, 0, 8, 0, 0] = some (.cRecover 0 0#4 false 0)
    ∧ dec [1, 0, 1, 0, 0, 0] = some (.reservedCmd 0 1#32) ∧ dec [1, 32, 3, 0, 0, 0] = none := by decide

/-- R134 and R386: the twelve words of the exact table, and stage 0's and 1's word 0 (R381, R382). -/
theorem test_decode_status_table :
    dec [2, 0, 5, 0x01, 0, 0, 0] = some (.stsTxAck 0) ∧ dec [2, 0, 5, 0x11, 0, 0, 0] = some (.stsTxAckStop 0)
    ∧ dec [2, 0, 5, 0x02, 0, 0, 0] = some (.stsTxNak 0) ∧ dec [2, 0, 5, 0x12, 0, 0, 0] = some (.stsTxNakStop 0)
    ∧ dec [2, 0, 5, 0x04, 0, 0, 0] = some (.stsRxDone 0) ∧ dec [2, 0, 5, 0x14, 0, 0, 0] = some (.stsRxDoneStop 0)
    ∧ dec [2, 0, 5, 0x84, 0, 0, 0] = some (.stsMatch 0) ∧ dec [2, 0, 5, 0x94, 0, 0, 0] = some (.stsMatchStop 0)
    ∧ dec [2, 0, 5, 0x10, 0, 0, 0] = some (.stsStop 0) ∧ dec [2, 0, 5, 0x08, 0, 0, 0] = some (.stsArbLoss 0)
    ∧ dec [2, 0, 5, 0x8C, 0, 0, 0] = some (.stsArbLossMatch 0) ∧ dec [2, 0, 5, 0, 0x20, 0, 0] = some (.stsRecoverDone 0)
    ∧ dec [2, 0, 0, 0, 0, 0, 0] = some (.stsNotMine 0) ∧ dec [2, 0, 1, 0, 0, 0, 0] = some (.stsEmpty 0)
    ∧ dec [2, 0, 5, 0x05, 0, 0, 0] = none := by decide

/-- R383 to R385 and R399: SMBUS_ALERT bit 9, ARP bit 10, ALERT_RESP bit 11, ABNORMAL bit 5, SCL_TIMEOUT bit 6,
NORMAL_STOP bit 4; a bit above 14 never reads 1 (R142). -/
theorem test_decode_status_stages :
    dec [2, 0, 2, 0, 0x02, 0, 0] = some (.stsSmbusAlert 0 0x200#32)
    ∧ dec [2, 0, 2, 0, 0x0C, 0, 0] = some (.stsSmbusArp 0 0xC00#32)
    ∧ dec [2, 0, 2, 1, 0x08, 0, 0] = some (.stsSmbusAlertResp 0 0x801#32)
    ∧ dec [2, 0, 3, 0x60, 0, 0, 0] = some (.stsAbnormal 0 0x60#32)
    ∧ dec [2, 0, 3, 0x41, 0, 0, 0] = some (.stsSclTimeout 0 0x41#32)
    ∧ dec [2, 0, 4, 0x14, 0, 0, 0] = some (.stsSlaveStop 0 0x14#32)
    ∧ dec [2, 0, 6, 0x05, 0, 0, 0] = some (.stsSweep 0 5#32) ∧ dec [2, 0, 6, 0, 0x80, 0, 0] = none := by decide

/-- R135: SDA in bit 18 and SCL in bit 17 of the CMD word. -/
theorem test_decode_line_patterns :
    dec [3, 0, 0, 0, 0x06, 0] = some (.lIdle 0 0x60000#32) ∧ dec [3, 0, 0, 0, 0x05, 0] = some (.lMasterHold 0 0x50000#32)
    ∧ dec [3, 0, 0, 0, 0x02, 0] = some (.lSlaveHold 0 0x20000#32) ∧ dec [7, 63, 0] = some (.lOther 0) := by decide

/-- R137 and R138: OPC in bits 7:0, INST in 12:8, A in 31:16 of word 0; an operand not used must be 0 (R144). -/
theorem test_decode_host_requests :
    dec [4, 0x01, 2, 0, 0, 0, 0, 0, 0, 0, 0, 0, 0] = some (.devInit 2)
    ∧ dec [4, 0x02, 0, 2, 0, 0, 0x20, 0, 0, 1, 0, 0, 0] = some (.submit 0 2#16 0x2000#32 1#32)
    ∧ dec [4, 0x03, 0, 0, 0, 0, 0x40, 0, 0, 16, 0, 0, 0] = some (.slaveRead 0 0x4000#32 16#32)
    ∧ dec [4, 0x04, 0, 2, 0, 0, 0x30, 0, 0, 0, 0, 0, 0] = some (.slaveWrite 0 2#16 0x3000#32)
    ∧ dec [4, 0x05, 0, 0x10, 0, 0, 0, 0, 0, 0, 0, 0, 0] = some (.slaveEnable 0 0x10#16)
    ∧ dec [4, 0x06, 0, 0, 0, 0, 0, 0, 0, 0, 0, 0, 0] = some (.slaveDisable 0)
    ∧ dec [4, 0x07, 0, 0, 0, 0, 0, 0, 0, 0, 0, 0, 0] = some (.alertAssert 0)
    ∧ dec [4, 0x08, 0, 0, 0, 0, 0, 0, 0, 0, 0, 0, 0] = some (.alertDeassert 0)
    ∧ dec [4, 0x09, 0, 0, 0, 0, 0, 0, 0, 0, 0, 0, 0] = some (.recoverReq 0)
    ∧ dec [4, 0x0A, 0, 0, 0, 0, 0, 0, 0, 0, 0, 0, 0] = some (.readMrstCnt 0)
    ∧ dec [4, 0x0B, 0, 0, 0, 0, 0, 0, 0, 0, 0, 0, 0] = some (.readSrecCnt 0)
    ∧ dec [4, 0x0C, 0, 0, 0, 0, 0, 0, 0, 0, 0, 0, 0] = some (.readRecovStatus 0)
    ∧ dec [4, 0x0D, 0, 0, 0, 0, 0, 0, 0, 0, 0, 0, 0] = some (.busReset 0)
    ∧ dec [4, 0x10, 31, 0, 0, 0, 0, 0, 0, 0, 0, 0, 0] = some (.irq 31)
    ∧ dec [4, 0x01, 0x20, 0, 0, 0, 0, 0, 0, 0, 0, 0, 0] = some (.reservedHost 0x2001#32 0#32 0#32)
    ∧ dec [4, 0x06, 0, 1, 0, 0, 0, 0, 0, 0, 0, 0, 0] = some (.reservedHost 0x10006#32 0#32 0#32) := by decide

/-- R136 (a descriptor: word 0, BUF, CAP) and R151 (the mode tag, ARM or EXT, the instance). -/
theorem test_decode_messages_and_modes :
    dec [5, 0, 0x20, 0, 0, 0x50, 0, 1, 0, 0, 0x10, 0, 0, 3, 0, 0, 0, 0x11] =
      some (.msg 0x2000#32 0x10050#32 0x1000#32 3#32 [0x11#8])
    ∧ dec [6, 0, 0, 0, 3, 0, 0, 0, 1, 0xA0] = some (.armByte 0 3#32 (some 0xA0#8)) ∧ dec [6, 0, 1, 0] = some (.extByte 0)
    ∧ dec [6, 1, 0, 0, 0x38, 0, 0, 0, 1, 2, 0, 0, 0] = some (.armBuf 0 0x38#32 (.rx 2#32))
    ∧ dec [6, 1, 1, 0] = some (.extBuf 0)
    ∧ dec [6, 2, 0, 0, 2, 0, 0, 0, 0, 7, 8] = some (.armDmaDec 0 2#32 (.tx [7#8, 8#8])) ∧ dec [6, 2, 1, 0] = some (.extDmaDec 0)
    ∧ dec [6, 3, 0, 5, 8, 0, 0, 0, 1, 16, 0, 0, 0] = some (.armDmaInc 5 8#32 (.rx 16#32))
    ∧ dec [6, 3, 1, 0] = some (.extDmaInc 0) := by decide

/-- Internal operations, by their row of spec/opcode_table.json (log entry 2). -/
theorem test_decode_internal_operations :
    dec [7, 88, 0, 0x6C, 0xDC, 2, 0x80, 0x1A, 6, 0] = some (.calcTiming 48000000#32 400000#32)
    ∧ dec [7, 89, 0] = some (.timingWord 0) ∧ dec [7, 90, 0] = some (.timingInit 0) ∧ dec [7, 91, 0] = some (.regInit 0)
    ∧ dec [7, 92, 0] = some (.armNext 0) ∧ dec [7, 93, 0, 0] = some (.poolAcq 0 .master)
    ∧ dec [7, 94, 0, 1] = some (.poolRel 0 .slave) ∧ dec [7, 95, 0, 1] = some (.selectMode 0 .slave)
    ∧ dec [7, 96, 0] = some (.sArmRx 0) ∧ dec [7, 97, 0] = some (.sArmTx 0) ∧ dec [7, 98, 0] = some (.doXfer 0)
    ∧ dec [7, 99, 0] = some (.waitIdle 0) ∧ dec [7, 100, 0, 1, 0, 0, 0] = some (.startMsg 0 1#32)
    ∧ dec [7, 101, 0] = some (.wait 0) ∧ dec [7, 102, 0] = some (.wakeExpired 0) ∧ dec [7, 103, 0] = some (.wakeSignalled 0)
    ∧ dec [7, 104, 0, 1, 0] = some (.mDone 0 .rx false) ∧ dec [7, 105, 0, 1] = some (.mNack 0 true)
    ∧ dec [7, 106, 0] = some (.mArb 0) ∧ dec [7, 107, 0] = some (.mStopDone 0) ∧ dec [7, 108, 0] = some (.mFault 0)
    ∧ dec [7, 109, 0] = some (.mPreempt 0) ∧ dec [7, 110, 0] = some (.sMatch 0)
    ∧ dec [7, 111, 0, 0x20] = some (.startOfWrite 0 0x20#8) ∧ dec [7, 112, 0, 0x21] = some (.startOfRead 0 0x21#8)
    ∧ dec [7, 113, 0, 1] = some (.sData 0 true) ∧ dec [7, 114, 0] = some (.sTxAck 0) ∧ dec [7, 115, 0] = some (.sFinal 0)
    ∧ dec [7, 116, 0, 0x14, 0, 0, 0] = some (.sStop 0 0x14#32) ∧ dec [7, 117, 0] = some (.sAbort 0)
    ∧ dec [7, 118, 0] = some (.recover 0) ∧ dec [7, 119, 0] = some (.ctrlReset 0) ∧ dec [7, 87, 0] = none := by decide

/-- Steps of the environment, by their row of spec/opcode_table.json (log entry 2). -/
theorem test_decode_environment_steps :
    dec [8, 120, 0, 1, 0] = some (.kAck 0 true none)
    ∧ dec [8, 121, 0, 2, 0, 0, 0, 0, 1, 9, 0, 0, 0] = some (.kNack 0 2#32 false (some 9#32))
    ∧ dec [8, 122, 0, 0, 0, 0, 0xDE, 0xAD] = some (.kRx 0 (.window [0xDE#8, 0xAD#8]) false none)
    ∧ dec [8, 122, 0, 1, 1, 0, 7] = some (.kRx 0 (.direct 7#8) true none) ∧ dec [8, 122, 0, 1, 1, 0, 7, 8] = none
    ∧ dec [8, 123, 0] = some (.kStop 0) ∧ dec [8, 124, 0, 1, 0, 0, 0] = some (.kArb ⟨0, 1#32⟩)
    ∧ dec [8, 125, 0, 0, 0, 0, 0] = some (.kAbn ⟨0, 0#32⟩) ∧ dec [8, 125, 0, 0x80, 0, 0, 0] = none
    ∧ dec [8, 126, 0, 0x10, 0x20, 0, 0] = some (.kSclto ⟨0, 0x2010#32⟩) ∧ dec [8, 127, 0, 0x20, 1] = some (.kMatch 0 0x20#8 true)
    ∧ dec [8, 128, 0, 1] = some (.kRecovered 0 true) ∧ dec [8, 129, 0, 1, 0, 1] = some (.kLine 0 true false true)
    ∧ dec [8, 130, 0, 9] = some (.kSmbus 0 .alert) ∧ dec [8, 131, 0] = some (.tExpire 0)
    ∧ dec [8, 130, 0, 7] = none := by decide

/-! ## One step, with the values the spec gives -/

/-- One instance with the board of the spec's test vectors (spec/95): 48 MHz, 400 kHz, BYTE mode. -/
def one : State := State.resetWith { Config.default with nInst := 1, insts := [InstConfig.default 0] }

/-- `one` with its instance changed. -/
def at0 (f : Inst → Inst) : State := one.updInst 0 f

/-- `one`, initialised: MASTER_EN. -/
def up (f : Inst → Inst) : State := at0 fun x => f { x with regs := { x.regs with funCtrl := 1#32 } }

/-- The outcome is a next state, and it and its instance 0 pass p. -/
def goes (o : Host.Outcome State Fault Refusal) (p : State → Inst → Bool) : Bool :=
  match o with
  | .next t => match t.insts[0]? with
    | some x => p t x
    | none => false
  | .fault _ => false
  | .refused _ => false

/-- A command in flight in its data phase. -/
def flying (c : Cmd) (p : Path) (n : Nat) (d : List Byte) (x : Inst) : Inst :=
  { x with core := { x.core with inflight := some ⟨c, p, n, d, x.regs.dmaLen, .data, x.regs.dmaBase, true⟩ } }

/-- The thread at a line of SUBMIT. -/
def line (pc : Pc) (x : Inst) : Inst := { x with thread := { x.thread with pc := pc, call := .submit, n := 1 } }

/-- The slave role in a write transaction into slot 0. -/
def written (x : Inst) : Inst :=
  { x with
    master := { x.master with slaveOp := true }
    slave := { x.slave with sstate := .rx, sCur := some 0, sXlen := 1
                            ring := x.slave.ring.modify 0 fun q => { q with state := .ongoing, addr := 0x20#8 } } }

/-- The slave role in a read transaction. -/
def readOut (x : Inst) : Inst :=
  { x with master := { x.master with slaveOp := true }, slave := { x.slave with sstate := .tx, sXlen := 1 } }

/-- A master transfer of one message at 0x2000, waited for in its chunk. -/
def waited (x : Inst) : Inst :=
  { x with
    master := { x.master with msgs := some 0x2000#32, nmsgs := 1, last := true, len := 1, xlen := 1, waiting := .xfer
                              mstate := .chunk, started := true }
    thread := { x.thread with pc := .waitXfer 0, call := .submit, n := 1, desc := 0x2000#32 } }

/-- Host memory with the descriptor (w0, 0x1000, cap) at 0x2000 and a byte 0x11 in its buffer. -/
def withMsg (w0 cap : Word) (s : State) : State :=
  { s with mem := Memory.writeN [(0x1000, 0x11#8)] 0x2000 (Word.toBytes w0 ++ Word.toBytes 0x1000#32 ++ Word.toBytes cap) }

/-- R177, R490: with nothing in flight CMD reads the idle lines, SDA in bit 18 and SCL in bit 17. -/
theorem test_rd_cmd_idle_lines : goes (exec (.rdCmd 0) one) (fun t _ => t.ret == .word 0x60000#32) = true := by decide

/-- R176: writing 0x4 to 0x15 leaves 0x11. -/
theorem test_wr_intr_sts_clears :
    goes (exec (.wrIntrSts 0 4#32) (at0 fun x => { x with regs := { x.regs with intrSts := 0x15#32 } }))
      (fun _ x => x.regs.intrSts == 0x11#32) = true := by decide

/-- R179: ACT_CNT, bits 29:20, ignores writes. -/
theorem test_wr_buf_ctrl_keeps_act_cnt :
    goes (exec (.wrBufCtrl 0 0x3FF00004#32) (at0 fun x => { x with regs := { x.regs with bufCtrl := 0x200000#32 } }))
      (fun _ x => x.regs.bufCtrl == 0x200004#32) = true := by decide

/-- R180: TX is stored in bits 7:0, RX stays in 15:8. -/
theorem test_wr_byte_data_keeps_rx :
    goes (exec (.wrByteData 0 0xFFFFFFA0#32) (at0 fun x => { x with regs := { x.regs with byteRx := 0x20#8 } }))
      (fun _ x => x.regs.byteTx == 0xA0#8 && x.regs.byteRx == 0x20#8) = true := by decide

/-- R171, R175, R182, R143: full-word stores; a reserved offset ignores. -/
theorem test_register_writes_store :
    goes (exec (.wrIntrCtrl 0 0xFFFFFFFF#32) one) (fun _ x => x.regs.intrCtrl == 0xFFFFFFFF#32) = true
    ∧ goes (exec (.wrDmaLen 0 0x80000000#32) one) (fun _ x => x.regs.dmaLen == 0x80000000#32) = true
    ∧ goes (exec (.wrReserved 0 0x2C#6 5#32) one) (fun t x => x == Inst.reset 4 && t.ret == .none) = true := by decide

/-- R184: instances 0 and 3 with an enabled bit latched show 0x9. -/
theorem test_rd_group_sts :
    goes (exec .rdGroupSts (([0, 3].foldl (fun (s : State) k => s.updInst k fun x =>
      { x with regs := { x.regs with intrSts := 1#32, intrCtrl := 1#32 } })) State.reset))
      (fun t _ => t.ret == .word 9#32) = true := by decide

/-- R172, R229: clearing MASTER_EN drops the master command in flight. -/
theorem test_wr_fun_ctrl_drops_master :
    goes (exec (.wrFunCtrl 0 0#32) (up (flying .tx .byte 1 [7#8]))) (fun _ x => x.core.inflight == none) = true
    ∧ goes (exec (.wrFunCtrl 0 1#32) (up (flying .tx .byte 1 [7#8]))) (fun _ x => x.core.inflight.isSome) = true := by decide

/-- R133, R202: C.START_TX in BYTE mode takes the byte in TX and makes the bus busy; with MASTER_EN 0 it is ignored. -/
theorem test_c_start_tx :
    goes (exec (.cStartTx 0 0#4 false 0) (up fun x => { x with regs := { x.regs with byteTx := 0xA0#8 } }))
      (fun _ x => x.core.busy && x.core.inflight == some ⟨.startTx, .byte, 1, [0xA0#8], 0#32, .data, 0#32, false⟩) = true
    ∧ goes (exec (.cStartTx 0 0#4 false 0) one) (fun _ x => x.core.inflight == none) = true := by decide

/-- R202: C.RX with RX_BUF_EN takes its count from RX_SIZE, C.S_TX with TX_DMA_EN from DMA_LEN. -/
theorem test_command_counts :
    goes (exec (.cRx 0 2#4 false 0) (up fun x => { x with regs := { x.regs with bufCtrl := 0x800#32 } }))
      (fun _ x => x.core.inflight == some ⟨.rx, .buf, 2, [], 0#32, .data, 0#32, false⟩) = true
    ∧ goes (exec (.cSTx 0 4#4 false 0) { at0 (fun x => { x with regs := { x.regs with
        funCtrl := 2#32, dmaLen := 1#32, dmaBase := 0x100000#32 } }) with dma := [(0x100000, 0x5A#8)] })
      (fun _ x => x.core.inflight == some ⟨.sTx, .dma, 1, [0x5A#8], 1#32, .data, 0x100000#32, false⟩) = true := by decide

/-- R141 and R495: a reserved word and a command over one in flight are refused. -/
theorem test_commands_refused :
    exec (.reservedCmd 0 1#32) (up id) = .refused .reservedCommand
    ∧ exec (.cStop 0 0#4 false 0) (up (flying .tx .byte 1 [7#8])) = .refused .commandInFlight := ⟨rfl, rfl⟩

/-- R214, R355: C.NOP with bit 10 sets S_ALERT_EN, also while a command is in flight. -/
theorem test_c_nop_level :
    goes (exec (.cNop 0 0#4 true 0) (up (flying .tx .byte 1 [7#8])))
      (fun _ x => x.regs.alertEn && x.core.inflight.isSome) = true := by decide

/-- spec/95: 48 MHz at 400 kHz gives 0x00076003. -/
theorem test_calc_timing :
    goes (exec (.calcTiming 48000000#32 400000#32) one) (fun t _ => t.ret == .word 0x00076003#32) = true := by decide

/-- R245, R247: DEV_INIT leaves MASTER_EN, the timing word, the interrupt mask. -/
theorem test_dev_init :
    goes (exec (.devInit 0) one) (fun t x => x.regs.acTiming1 == 0x00076003#32 && x.regs.funCtrl == 1#32
      && x.regs.intrCtrl == 0x2EFF#32 && t.ret == .word 0#32) = true := by decide

/-- R271 to R274: the counts read back. -/
theorem test_extractions :
    goes (exec (.extByte 0) one) (fun t _ => t.ret == .word 1#32) = true
    ∧ goes (exec (.extBuf 0) (at0 fun x => { x with regs := { x.regs with bufCtrl := 0x00200800#32 } }))
      (fun t _ => t.ret == .word 2#32) = true
    ∧ goes (exec (.extDmaInc 0) (at0 fun x => { x with
        regs := { x.regs with dmaLen := 0xFFFFFFFF#32 }, master := { x.master with xlen := 16 } }))
      (fun t _ => t.ret == .word 16#32) = true
    ∧ goes (exec (.extDmaDec 0) (at0 fun x => { x with
        regs := { x.regs with dmaLen := 17#32 }, master := { x.master with xlen := 16 } }))
      (fun t _ => t.ret == .bad) = true := by decide

/-- R265 to R267: RX of 2 bytes writes RX_SIZE and CMD; DMA_LEN is n decrementing and n - 1 incrementing. -/
theorem test_arm_operations :
    goes (exec (.armBuf 0 0x38#32 (.rx 2#32)) { up (fun x => { x with master := { x.master with mLoan := true } }) with
        poolOwner := some (0, .master) })
      (fun _ x => x.outs.regTrace == [(.bufCtrl, 0x800#32), (.cmd, 0xB8#32)]) = true
    ∧ goes (exec (.armDmaDec 0 0x38#32 (.rx 16#32)) (up id)) (fun _ x => x.regs.dmaLen == 16#32) = true
    ∧ goes (exec (.armByte 0 3#32 (some 0xA0#8)) (up id))
      (fun _ x => x.outs.regTrace == [(.byteData, 0xA0#32), (.cmd, 3#32)] && x.master.xlen == 1) = true := by decide

/-- R267: the incrementing variant programs n - 1. -/
theorem test_arm_dma_inc :
    goes (exec (.armDmaInc 0 0x38#32 (.rx 16#32)) { up id with
        cfg := { one.cfg with insts := [{ InstConfig.default 0 with masterMode := .dmaInc }] } })
      (fun _ x => x.regs.dmaLen == 15#32 && x.regs.dmaBase == 0x100000#32) = true := by decide

/-- R277, R278: a second acquire fails; a release frees the page. -/
theorem test_pool_loan :
    goes (exec (.poolAcq 0 .slave) one) (fun t x => t.poolOwner == some (0, .slave) && x.slave.sLoan) = true
    ∧ goes (exec (.poolAcq 0 .slave) { one with poolOwner := some (3, .master) }) (fun t _ => t.ret == .word 0#32) = true
    ∧ goes (exec (.poolRel 0 .slave) { at0 (fun x => { x with slave := { x.slave with sLoan := true } }) with
        poolOwner := some (0, .slave) }) (fun t x => t.poolOwner == none && !x.slave.sLoan) = true := by decide

/-- R301: a set of no messages is E_INVAL; one with RECV_LEN and no room for 255 more bytes too. -/
theorem test_submit_invalid :
    goes (exec (.submit 0 0 0x2000#32 0#32) (up id)) (fun t _ => t.ret == .word 0xFFFFFFEA#32) = true
    ∧ goes (exec (.submit 0 1 0x2000#32 0#32) (withMsg 0x10950#32 0xFF#32 (up id)))
      (fun t _ => t.ret == .word 0xFFFFFFEA#32) = true := by decide

/-- R301: RD and RECV_LEN with room for 256 bytes is accepted. -/
theorem test_submit_accepted :
    goes (exec (.submit 0 1 0x2000#32 0#32) (withMsg 0x10950#32 0x100#32 (up id)))
      (fun _ x => x.thread.pc == .xferEntry && x.thread.n == 1) = true := by decide

/-- R260, R262: the first chunk of a write of one byte in BYTE mode is the address, 0x50 shifted left once. -/
theorem test_arm_next_address :
    goes (exec (.armNext 0) (withMsg 0x10050#32 1#32 (up fun x => { waited x with
        master := { (waited x).master with started := false } })))
      (fun _ x => x.outs.regTrace == [(.byteData, 0xA0#32), (.cmd, 3#32)] && x.master.addrInChunk) = true := by decide

/-- R316: the acknowledged address chunk arms the payload, with STOP on the last byte. -/
theorem test_m_done_arms_payload :
    goes (exec (.mDone 0 .tx false) (withMsg 0x10050#32 1#32 (up fun x => { waited x with
        master := { (waited x).master with addrInChunk := true } })))
      (fun _ x => x.outs.regTrace == [(.byteData, 0x11#32), (.cmd, 0x22#32)] && x.master.stopIssued) = true := by decide

/-- R317: a NACK sends C.STOP and records ERR_NACK. -/
theorem test_m_nack_sends_stop :
    goes (exec (.mNack 0 false) (withMsg 0x10050#32 1#32 (up waited)))
      (fun _ x => x.outs.regTrace == [(.cmd, 0x20#32)] && x.master.err == 2#32 && x.master.mstate == .stopping) = true := by
  decide

/-- R310: NACK maps to E_NACK (-121), a wait that expires to E_TIMEOUT (-110) with a bus reset (R309). -/
theorem test_wakes :
    goes (exec (.wakeSignalled 0) (withMsg 0x10050#32 1#32 (up fun x => { waited x with
        master := { (waited x).master with err := 2#32, done := true }
        thread := { (waited x).thread with pc := .wakeSignalled 0 } })))
      (fun _ x => x.thread.pc == .xferExit (.code .nack) && x.master.waiting == .none) = true
    ∧ goes (exec (.wakeExpired 0) (up fun x => { waited x with
        thread := { (waited x).thread with pc := .wakeExpired 0 } }))
      (fun _ x => x.thread.pc == .xferExit (.code .timeout) && x.regs.funCtrl == 1#32 && x.regs.acTiming1 == 0x00076003#32) = true := by
  decide

/-- R304 and R302: an attempt while a slave transaction runs is E_BUSY (-16), returned when no retry is left. -/
theorem test_do_xfer_busy :
    goes (exec (.doXfer 0) (up fun x => line .xferEntry (readOut x))) (fun t x =>
      t.ret == .word 0xFFFFFFF0#32 && x.thread.pc == .idle) = true := by decide

/-- R300, R497: a call that fails leaves a read buffer unspecified past the chunks that completed: all of a message it
never started, from `cnt` on of the one it started last, from LEN on of one before; a retry loses nothing yet. -/
theorem test_failed_call_loses_its_read_buffers :
    let x (n b : Nat) (c : Word) : Inst := { readOut (Inst.reset 4) with
      master := { (readOut (Inst.reset 4)).master with cnt := c }
      thread := { (waited (Inst.reset 4)).thread with pc := .xferEntry, reached := n, bound := b } }
    let s (w cap : Word) (n b : Nat) : State := withMsg w cap ((up id).put 0 (x n b 1#32) none 0 .none)
    let keeps (n b : Nat) := goes (exec (.doXfer 0) (s 0x10150#32 1#32 n b)) fun t _ => Memory.get t.mem 0x1000 == some 0x11#8
    readTails (s 0x20150#32 4#32 0 0) (x 0 0 1#32) = [(0x1000, 4)]
    ∧ readTails (s 0x20150#32 4#32 1 0) (x 1 0 1#32) = [(0x1001, 3)]
    ∧ readTails (s 0x20150#32 4#32 2 0) (x 2 0 1#32) = [(0x1002, 2)]
    ∧ (∃ t, exec (.doXfer 0) (s 0x10150#32 1#32 0 0) = .next t ∧ Memory.get t.mem 0x1000 = some (Config.freeByte 0 0))
    ∧ keeps 0 1 = true ∧ keeps 1 0 = true :=
  ⟨rfl, rfl, rfl, ⟨_, rfl, rfl⟩, by decide, by decide⟩

/-- R305: a free bus goes on; R476: a wait that is not over expires. -/
theorem test_waits :
    goes (exec (.waitIdle 0) (up (line .waitIdle))) (fun _ x => x.thread.pc == .selectMode) = true
    ∧ goes (exec (.wait 0) (up fun x => { waited x with master := { (waited x).master with done := true } }))
      (fun _ x => x.thread.pc == .wakeSignalled 0) = true
    ∧ goes (exec (.tExpire 0) (up waited)) (fun _ x => x.thread.pc == .wakeExpired 0) = true := by decide

/-- R318 to R320: the endings signal the waiter. -/
theorem test_master_endings :
    goes (exec (.mArb 0) (up waited)) (fun _ x => x.master.err == 8#32 && x.master.done) = true
    ∧ goes (exec (.mFault 0) (up waited)) (fun _ x => x.master.mstate == .completeErr && x.master.done) = true
    ∧ goes (exec (.mStopDone 0) (up id)) (fun _ x => x.outs.log == [.strayStop]) = true
    ∧ goes (exec (.mPreempt 0) (up waited)) (fun _ x => x.master.err == 0x40000#32
        && x.outs.regTrace == [(.funCtrl, 0#32), (.funCtrl, 1#32)]) = true := by decide

/-- R341, R343, R344: bit 0 of the address byte selects a write into the ring or a read of the buffer; with no reply the
filler 0xFF goes out (R281). -/
theorem test_s_match :
    goes (exec (.sMatch 0) (at0 fun x => { x with regs := { x.regs with funCtrl := 3#32, byteRx := 0x20#8 } }))
      (fun _ x => x.slave.sstate == .rx && x.slave.sCur == some 0 && x.master.slaveOp) = true
    ∧ goes (exec (.sMatch 0) (at0 fun x => { x with regs := { x.regs with funCtrl := 3#32, byteRx := 0x21#8 } }))
      (fun _ x => x.slave.sstate == .tx && x.outs.regTrace == [(.byteData, 0xFF#32), (.cmd, 4#32)]) = true := by decide

/-- R345: the byte received is appended to the open slot; R346: a full slot is ERR_OVERRUN. -/
theorem test_s_data :
    goes (exec (.sData 0 false) (at0 fun x => { written x with regs := { x.regs with funCtrl := 3#32, byteRx := 7#8 } }))
      (fun _ x => x.slave.ring[0]? == some { state := .ongoing, addr := 0x20#8, len := 1, buf := [(0, 7#8)] }) = true
    ∧ goes (exec (.sData 0 false) { at0 written with cfg := { one.cfg with slotCap := 0 } })
      (fun _ x => x.master.err == 0x80000#32 && x.slave.sstate == .idle) = true := by decide

/-- R347, R348: an acknowledged reply advances; S_FINAL counts a written message and wakes a reader. -/
theorem test_s_tx_ack_and_s_final :
    goes (exec (.sTxAck 0) (at0 fun x => { readOut x with slave := { (readOut x).slave with
        txLen := 2, txbuf := [(0, 0xAA#8), (1, 0xBB#8)] } }))
      (fun _ x => x.slave.txOff == 1 && x.regs.byteTx == 0xBB#8) = true
    ∧ goes (exec (.sFinal 0) (at0 written)) (fun _ x => x.slave.ready == 1 && x.slave.wr == 1 && x.outs.readerWake == 1
        && !x.master.slaveOp) = true := by decide

/-- R349: a STOP with RX_DONE takes the byte first and reports 0x14; R357: an abort empties the open slot. -/
theorem test_s_stop_and_s_abort :
    goes (exec (.sStop 0 0x14#32) (at0 written)) (fun t x => t.ret == .word 0x14#32 && x.slave.ready == 1
        && (x.slave.ring.map fun q => q.len) == [1, 0, 0, 0]) = true
    ∧ goes (exec (.sAbort 0) (at0 written)) (fun _ x => x.slave.sstate == .idle && x.slave.ready == 0) = true := by decide

/-- R350: the oldest message, its address and length 0x00200003; with none E_NODATA (-61). -/
theorem test_slave_read :
    goes (exec (.slaveRead 0 0x4000#32 16#32) (up fun x => { x with slave := { x.slave with
        ready := 1, wr := 1
        ring := x.slave.ring.set 0 ⟨.full, 0x20#8, 3, [(0, 1#8), (1, 2#8), (2, 3#8)]⟩ } }))
      (fun t x => t.ret == .word 0x00200003#32 && t.mem == [(0x4000, 1#8), (0x4001, 2#8), (0x4002, 3#8)]
        && x.slave.rd == 1) = true
    ∧ goes (exec (.slaveRead 0 0x4000#32 16#32) (up id)) (fun t _ => t.ret == .word 0xFFFFFFC3#32) = true := by decide

/-- R351 to R355: the slave's host controls. -/
theorem test_slave_host_controls :
    goes (exec (.slaveWrite 0 1 0x1000#32) (withMsg 0#32 0#32 (up id)))
      (fun t x => t.ret == .word 1#32 && x.slave.txbuf == [(0, 0x11#8)] && x.slave.txLen == 1) = true
    ∧ goes (exec (.slaveEnable 0 0x10) (up id)) (fun _ x => x.regs.devAddr == 0x10#32 && x.regs.funCtrl == 3#32) = true
    ∧ goes (exec (.slaveEnable 0 0x80) (up id)) (fun t _ => t.ret == .word 0xFFFFFFEA#32) = true
    ∧ goes (exec (.slaveDisable 0) (at0 fun x => { written x with regs := { x.regs with funCtrl := 3#32 } }))
      (fun _ x => x.regs.funCtrl == 1#32 && x.slave.sstate == .idle) = true
    ∧ goes (exec (.alertAssert 0) (up id)) (fun _ x => x.outs.regTrace == [(.cmd, 0x400#32)]) = true := by decide

/-- R383: an enabled alert is disabled, forwarded and cleared, and IRQ answers 1. -/
theorem test_irq_alert :
    goes (exec (.irq 0) (up fun x => { x with regs := { x.regs with intrSts := 0x200#32, intrCtrl := 0x2EFF#32 } }))
      (fun t x => x.regs.intrCtrl == 0x2CFF#32 && x.outs.alertFwd == 1 && x.regs.intrSts == 0#32
        && t.ret == .word 1#32) = true := by decide

/-- R381: a status bit that is not enabled is not this instance's interrupt. -/
theorem test_irq_not_mine :
    goes (exec (.irq 0) (up fun x => { x with regs := { x.regs with intrSts := 0x200#32 } }))
      (fun t x => t.ret == .word 0#32 && x.regs.intrSts == 0x200#32) = true := by decide

/-- R399: RX_DONE with TX_ACK is in no row: each bit is cleared by a write of its own, ERR_UNCLASS is raised. -/
theorem test_irq_sweep :
    goes (exec (.irq 0) (up fun x => { x with regs := { x.regs with intrSts := 0x5#32, intrCtrl := 0x2EFF#32 } }))
      (fun _ x => x.outs.regTrace.take 2 == [(.intrSts, 1#32), (.intrSts, 4#32)] && x.master.err == 0x20000#32
        && x.outs.log == [.unexpectedCombination 5#32] && x.regs.intrSts == 0#32) = true := by decide

/-- R384: ABNORMAL with a transfer waited for clears the word whole and ends the message in error. -/
theorem test_sts_abnormal :
    goes (exec (.stsAbnormal 0 0x21#32) (up fun x => { waited x with regs := { x.regs with intrSts := 0x21#32 } }))
      (fun _ x => x.master.err == 0x20#32 && x.master.mstate == .completeErr && x.regs.intrSts == 0#32
        && x.outs.regTrace.head? == some (.intrSts, 0x21#32)) = true := by decide

/-- R395, R398: a STOP nobody waits for and a recovery nobody asked for are logged. -/
theorem test_sts_rows_log :
    goes (exec (.stsStop 0) (up id)) (fun _ x => x.outs.log == [.strayStop]) = true
    ∧ goes (exec (.stsRecoverDone 0) (up id)) (fun _ x => x.outs.log == [.recoveryWithNoInitiator]) = true
    ∧ goes (exec (.stsRxDone 0) (up id)) (fun _ x => x.outs.log == [.completionWithNoChunk]) = true
    ∧ goes (exec (.stsTxNak 0) (up id)) (fun _ x => x.outs.log == [.nackWithNoChunk]) = true := by decide

/-- R385: in the slave role NORMAL_STOP finishes the transaction and is consumed. -/
theorem test_sts_slave_stop :
    goes (exec (.stsSlaveStop 0 0x10#32) (at0 fun x => { written x with regs := { x.regs with intrSts := 0x10#32 } }))
      (fun t x => t.ret == .word 0#32 && x.regs.intrSts == 0#32 && x.slave.ready == 1) = true := by decide

/-- R421 to R425: idle lines are R_NOTHING (1); SDA low counts a slave recovery, SCL low a master reset. -/
theorem test_recovery_paths :
    goes (exec (.lIdle 0 0x60000#32) (up id)) (fun t x => t.ret == .word 1#32 && x.recov.recovStatus == 1#32) = true
    ∧ goes (exec (.lMasterHold 0 0x40000#32) (up id))
      (fun _ x => x.recov.masterResetCnt == 1#32 && x.outs.regTrace == [(.cmd, 0x20#32)]) = true
    ∧ goes (exec (.lSlaveHold 0 0#32) (up id)) (fun _ x => x.recov.slaveRecoverCnt == 1#32 && x.recov.savedFun == 1#32) = true
    ∧ goes (exec (.lOther 0) (up id)) (fun t x => t.ret == .word 0xFFFFFF7D#32 && x.recov.recovStatus == 0x808#32) = true := by
  decide

/-- R426: a counter at its top stays there. -/
theorem test_recovery_counter_saturates :
    goes (exec (.lSlaveHold 0 0#32) (up fun x => { x with recov := { x.recov with slaveRecoverCnt := 0xFFFFFFFF#32 } }))
      (fun _ x => x.recov.slaveRecoverCnt == 0xFFFFFFFF#32) = true := by decide

/-- R434: the status is returned and cleared; R429: a bus reset while a wait is outstanding is E_BUSY. -/
theorem test_recovery_host_operations :
    goes (exec (.readRecovStatus 0) (up fun x => { x with recov := { x.recov with recovStatus := 0x104#32 } }))
      (fun t x => t.ret == .word 0x104#32 && x.recov.recovStatus == 0#32) = true
    ∧ goes (exec (.busReset 0) (up waited)) (fun t x => t.ret == .word 0xFFFFFFF0#32 && x.outs.regTrace == []) = true
    ∧ goes (exec (.recoverReq 0) (up id)) (fun _ x => x.thread.pc == .classify 0x60000#32) = true
    ∧ goes (exec (.ctrlReset 0) (up id)) (fun _ x => x.outs.regTrace == [(.funCtrl, 0#32), (.funCtrl, 1#32)]) = true := by
  decide

/-- R216: an acknowledged address puts START and the byte on the trace, latches TX_ACK and holds the bus. -/
theorem test_k_ack :
    goes (exec (.kAck 0 false none) (up (flying .startTx .byte 1 [0xA0#8])))
      (fun _ x => x.regs.intrSts == 1#32 && x.core.trace == [.start, .byte 0xA0#8 true] && x.core.busy) = true := by decide

/-- R216, R218: the second of four bytes refused latches TX_NAK and reports ACT_CNT 2. -/
theorem test_k_nack :
    goes (exec (.kNack 0 2#32 false none) (up (flying .txStop .buf 4 [1#8, 2#8, 3#8, 4#8])))
      (fun _ x => x.regs.intrSts == 2#32 && x.regs.bufCtrl == 0x200000#32
        && x.core.trace == [.byte 1#8 true, .byte 2#8 false]) = true := by decide

/-- R217: C.RX_LAST_STOP of two bytes from the pool, its STOP in the same step. -/
theorem test_k_rx :
    goes (exec (.kRx 0 (.window [0xDE#8, 0xAD#8]) true none) (up (flying .rxLastStop .buf 2 [])))
      (fun t x => x.regs.intrSts == 0x14#32 && t.pool == [(0, 0xDE#8), (1, 0xAD#8)]
        && x.core.trace == [.byte 0xDE#8 true, .byte 0xAD#8 false, .stop] && !x.core.busy) = true := by decide

/-- R219, R210, R213: ARB_LOSS, C.STOP's STOP and C.RECOVER's end. -/
theorem test_bus_endings :
    goes (exec (.kArb ⟨0, 0#32⟩) (up (flying .tx .byte 1 [7#8]))) (fun _ x => x.regs.intrSts == 8#32 && x.core.xfer == .idle) = true
    ∧ goes (exec (.kStop 0) (up (flying .stop .byte 0 [])))
      (fun _ x => x.regs.intrSts == 0x10#32 && x.core.trace == [.stop]) = true
    ∧ goes (exec (.kRecovered 0 false) (up (flying .recover .byte 0 [])))
      (fun _ x => x.regs.intrSts == 0x2000#32 && !x.core.sda && x.core.scl && x.core.trace == [.recover]) = true
    ∧ goes (exec (.kAbn ⟨0, 0#32⟩) (up id)) (fun _ x => x.regs.intrSts == 0x20#32) = true
    ∧ goes (exec (.kSclto ⟨0, 0#32⟩) (up id)) (fun _ x => x.regs.intrSts == 0x40#32) = true := by decide

/-- R220: the address byte 0x20 matches DEV_ADDR 0x10; 0x22 does not. -/
theorem test_k_match :
    goes (exec (.kMatch 0 0x20#8 false) (at0 fun x => { x with regs := { x.regs with funCtrl := 2#32, devAddr := 0x10#32 } }))
      (fun _ x => x.regs.intrSts == 0x84#32 && x.regs.byteRx == 0x20#8 && x.core.busy && x.core.xfer.isSlave) = true
    ∧ exec (.kMatch 0 0x22#8 false)
        (at0 fun x => { x with regs := { x.regs with funCtrl := 2#32, devAddr := 0x10#32 } }) = .refused .notEnabled :=
  ⟨by decide, rfl⟩

/-- R224, R228: lines and SMBus events. -/
theorem test_lines_and_events :
    goes (exec (.kLine 0 true false true) one) (fun _ x => x.core.sda && !x.core.scl && x.core.busy) = true
    ∧ goes (exec (.kSmbus 0 .arp) one) (fun _ x => x.regs.intrSts == 0x400#32) = true := by decide

/-! ## Parameters (R8, R40, R148, R283) -/

/-- A machine with its registers at 0x1000, DMA_INC counting the remaining length too, and E_INVAL numbered -7. -/
def other : Config :=
  { one.cfg with
    insts := [{ InstConfig.default 0 with base := 0x1000#32 }], groupBase := 0x2000#32, codecInc := .remaining
    codes := { Codes.default with inval := -7 } }

/-- R40, R105: the same offset at the machine's own base. -/
theorem test_decode_follows_inst_base :
    other.wf = true ∧ (decode other (frameRd 0x1010#32)).toOption = some (.rdIntrSts 0)
    ∧ (decode other (frameRd 0x10#32)).toOption = none ∧ (decode other (frameRd 0x2000#32)).toOption = some .rdGroupSts := by
  decide

/-- R283: the codec substituted; R148: the number substituted. -/
theorem test_codec_and_code_parameters :
    goes (exec (.armDmaInc 0 0x38#32 (.rx 16#32)) { up id with cfg := other }) (fun _ x => x.regs.dmaLen == 16#32) = true
    ∧ goes (exec (.submit 0 0 0x2000#32 0#32) { up id with cfg := other }) (fun t _ => t.ret == .word 0xFFFFFFF9#32) = true
    ∧ goes (exec (.extDmaInc 0) { at0 (fun x => { x with
        regs := { x.regs with dmaLen := 5#32 }, master := { x.master with xlen := 3 } }) with
          cfg := { other with codecInc := .table ⟨[], [], [], [((3, 5#32), 2)]⟩ } }) (fun t _ => t.ret == .word 2#32) = true := by
  decide

/-! ## What must not run, and what runs step by step -/

/-- R106, R265: a side without the loan does not reach the page; the slave's loan is not the master's. -/
theorem test_page_needs_the_loan_of_its_side :
    exec (.armBuf 0 0x38#32 (.rx 2#32)) (up (·.setLoan .slave true)) = .refused .poolNotOwned
    ∧ exec (.sArmRx 0) (at0 fun x => { x with slave := { x.slave with sMode := .buf } }) = .refused .poolNotOwned := ⟨rfl, rfl⟩

/-- R109, R463: the chunk's record is not written while another agent holds lock M. -/
theorem test_lock_m_guards_the_chunk :
    exec (.armByte 0 0x38#32 none) (up fun x => { x with lockM := some .H }) = .refused .lockHeld
    ∧ exec (.armNext 0) (up fun x => { waited x with lockM := some .H }) = .refused .lockHeld
    ∧ exec (.tExpire 0) (up fun x => { waited x with lockM := some .I }) = .refused .lockHeld := ⟨rfl, rfl, rfl⟩

/-- R112, R429: the host's BUS_RESET first reads FUN_CTRL, and each write is a step. -/
theorem test_bus_reset_steps :
    goes (exec (.busReset 0) (up id)) (fun _ x => x.thread.pc == .resetCtrl 1#32 0 && x.outs.regTrace == []) = true
    ∧ goes (exec (.ctrlReset 0) (up fun x => { x with thread := { Thread.idle with pc := .resetCtrl 1#32 0, call := .reset } }))
      (fun _ x => x.outs.regTrace == [(.funCtrl, 0#32)] && x.thread.pc == .resetCtrl 1#32 1) = true
    ∧ goes (exec (.sAbort 0) (up fun x => { x with thread := { Thread.idle with pc := .resetAbort, call := .reset } }))
      (fun t x => x.thread.pc == .idle && t.ret == .word 0#32) = true := by decide

/-- R221: a byte from the remote master while C.S_TX is in flight and no receive enable is set; R219: ARB_LOSS latched
with TX_ACK. -/
theorem test_remote_byte_and_fault_with_other_bits :
    goes (exec (.kRx 0 (.direct 7#8) false none) (at0 fun x => flying .sTx .byte 1 [1#8]
        { x with regs := { x.regs with funCtrl := 2#32 }, core := { x.core with xfer := .slave 0 } }))
      (fun _ x => x.regs.byteRx == 7#8 && x.regs.intrSts == 4#32 && x.core.inflight.isSome) = true
    ∧ goes (exec (.kArb ⟨0, 1#32⟩) (up (flying .tx .byte 1 [7#8]))) (fun _ x => x.regs.intrSts == 9#32) = true := by decide

/-- R500: a receive goes where DMA_BASE pointed at its issue. -/
theorem test_dma_base_is_sampled_at_issue :
    goes (exec (.kRx 0 (.window [7#8]) false none) (up fun x =>
        let y := flying .rx .dma 1 [] { x with regs := { x.regs with dmaBase := 0x100000#32 } }
        { y with regs := { y.regs with dmaBase := 0x200000#32 } }))
      (fun t _ => t.dma == [(0x100000, 7#8)]) = true := by decide

/-- R458 b: after the wait expired an interrupt finds no waiter. -/
theorem test_late_completion_finds_no_waiter :
    goes (exec (.mDone 0 .tx false) (up fun x => { waited x with
        master := { (waited x).master with waiting := .none }, thread := { (waited x).thread with pc := .wakeExpired 0 } }))
      (fun _ x => x.outs.log == [.completionWithNoChunk] && !x.master.done) = true := by decide

/-- R104: DMA_LEN read while a command moves its bytes changes nothing of the machine. -/
theorem test_dma_len_read_in_flight :
    goes (exec (.rdDmaLen 0) (up (flying .rx .dma 4 [])))
      (fun t x => x == flying .rx .dma 4 [] { Inst.reset 4 with regs := { Regs.reset with funCtrl := 1#32 } } && t.dma == [] && t.pool == [] && t.mem == []) = true := by decide

/-- R182, R216, R218: the final value of DMA_LEN of a transmit of four bytes is, by the outcome next in the schedule, 2
for a refusal of the second byte and the value reported for a miscount; it is open for a fault. -/
theorem test_dma_len_final_is_the_schedules :
    ∀ f, (flying .tx .dma 4 [] (Inst.reset 4)).core.inflight = some f →
      let final (r : Instr) := State.dmaFinal { one with inbox := [encode one.cfg (.kLine 0 true true true),
        encode one.cfg r] } 0 (Inst.reset 4) f
      final (.kNack 0 2#32 false none) = 2#32 ∧ final (.kAck 0 false (some 9#32)) = 9#32
      ∧ final (.kArb ⟨0, 0#32⟩) = Config.cutCount 0 0 := by
  intro f h; cases h; exact ⟨rfl, rfl, rfl⟩

/-- R106, R109: what reads a field under lock M needs it. -/
theorem test_lock_m_guards_reads :
    exec (.devInit 0) (up fun x => { x with lockM := some .H }) = .refused .lockHeld
    ∧ exec (.extByte 0) (up fun x => { x with lockM := some .I }) = .refused .lockHeld
    ∧ exec (.extDmaDec 0) (up fun x => { x with lockM := some .I }) = .refused .lockHeld := ⟨rfl, rfl, rfl⟩

/-- R222: no remote STOP with a refused reply once the core is a slave no more. -/
theorem test_remote_stop_needs_a_slave :
    exec (.kNack 0 1#32 true none) (at0 (flying .sTx .byte 1 [7#8])) = .refused .notEnabled
    ∧ goes (exec (.kNack 0 1#32 true none) (at0 fun x => flying .sTx .byte 1 [7#8]
        { x with core := { x.core with xfer := .slave 0 } }))
      (fun _ x => x.regs.intrSts == 0x12#32 && x.core.xfer == .idle) = true := ⟨rfl, by decide⟩

/-- R221, R222: a byte for no window that comes with the remote STOP closes the window a C.NOP left open, with count 0. -/
theorem test_direct_byte_with_stop_closes_the_window :
    goes (exec (.kRx 0 (.direct 0x5A#8) true none) (at0 fun x => flying .sRx .byte 1 []
        { x with core := { x.core with xfer := .slave 0 } }))
      (fun _ x => x.core.inflight == none && x.core.xfer == .idle && x.regs.byteRx == 0x5A#8
        && x.regs.intrSts == 0x14#32) = true := by decide

/-- R429, R182: the first CTRL_RESET of BUS_RESET drops the command, so its DMA_LEN is open; the second, which restores
FUN_CTRL, does not, so the outcome that follows gives the final value. -/
theorem test_dma_len_final_looks_past_the_restoring_write :
    ∀ f, (flying .tx .dma 4 [] (Inst.reset 4)).core.inflight = some f →
      let final (a : Nat) := State.dmaFinal { one with inbox := [encode one.cfg (.ctrlReset 0),
        encode one.cfg (.kNack 0 2#32 false none)] } 0
        { Inst.reset 4 with regs := { Regs.reset with funCtrl := 1#32 }
                            thread := { Thread.idle with pc := .resetCtrl 1#32 a } } f
      final 0 = Config.cutCount 0 0 ∧ final 1 = 2#32 := by
  intro f h; cases h; exact ⟨rfl, rfl⟩

/-- R220: a match drops the master command in flight, with ARB_LOSS. -/
theorem test_match_drops_the_master_command :
    goes (exec (.kMatch 0 0x20#8 true) (at0 fun x => flying .tx .byte 1 [7#8]
        { x with regs := { x.regs with funCtrl := 3#32, devAddr := 0x10#32 } }))
      (fun _ x => x.regs.intrSts == 0x8C#32 && x.core.inflight == none && x.regs.byteRx == 0x20#8) = true := by decide

/-! ## Witnesses: states and operands that meet the hypotheses of the statements -/

/-- An instance after reset. -/
def x0 : Inst := Inst.reset 4

/-- `one` with its instance x. -/
def st (x : Inst) : State := one.put 0 x none 0 .none

/-- `st x` on a board of mode m with its DMA window at w. -/
def stM (m : Mode) (w : Nat) (x : Inst) : State :=
  { st x with cfg := { one.cfg with insts := [{ InstConfig.default 0 with
      masterMode := m, slaveMode := m, dmaAddr := some w, otherInc := m == .dmaInc }] } }

/-- An initialised instance with the enables f. -/
def xf (f : Word) : Inst := { x0 with regs := { x0.regs with funCtrl := f } }

/-- The operation runs. -/
def Runs (r : Instr) (s : State) : Prop := ∃ (t : State) (y : Inst), exec r s = .next t ∧ t.Has 0 y

theorem st_insts (y x : Inst) (k : Nat) (h : (st y).insts[k]? = some x) : k = 0 ∧ x = y := by
  cases k with
  | zero => exact ⟨rfl, (Option.some.inj h).symm⟩
  | succ k => simp [st, State.put, one, State.resetWith] at h

/-- GroupStatusShowsTheInterruptLines, PlainRegisterWritesStore, IntrStsIsWriteOneToClear, PoolLoanAndModeSelection and
every other statement that asks only for an instance: the first, the last of 14, and the last of 32 exist. -/
theorem witness_has :
    State.reset.Has 0#5 (Inst.reset 4) ∧ State.reset.Has 13#5 (Inst.reset 4)
    ∧ (State.resetWith { Config.default with nInst := 32 }).Has 31#5 (Inst.reset 4) := ⟨rfl, rfl, rfl⟩

/-- The default machine and one whose windows lie elsewhere, out of order; operands at the ends of their ranges. -/
theorem witness_DecodeOfEncodeIsTheOperation :
    Config.default.wf = true
    ∧ ({ one.cfg with insts := [{ InstConfig.default 0 with base := 0xFFFFFFC0#32 }], groupBase := 0xFFFFFFBC#32 } : Config).wf = true
    ∧ (∀ r ∈ [Instr.wrReserved 13 0x3C#6 0xFFFFFFFF#32, .cSRx 31 8#4 true 0xFFFF#16, .stsSweep 0 0x7FFF#32,
        .kArb ⟨31, 0x207F#32⟩, .kRx 0 (.direct 7#8) true (some 1#32), .reservedHost 0x2001#32 0#32 0#32],
      r.wf = true ∧ r.mapped Config.default = true) := by decide

theorem witness_DecodedOperationsAreWellFormed :
    Config.default.wf = true ∧ ∃ i : Instr, decode Config.default [1#8, 31#8, 0x80#8, 0#8, 0xFF#8, 0xFF#8] = .ok i :=
  ⟨by decide, _, rfl⟩

theorem witness_StepRunsTheDecodedOperation :
    (∃ s f r i, s.inbox = f :: r ∧ decode s.cfg f = .ok i ∧ s = { one with inbox := [frameRd 0x14#32, frameRd 1#32] })
    ∧ (∃ s f r e, s.inbox = f :: r ∧ decode s.cfg f = .error e ∧ s = { one with inbox := [frameRd 1#32] })
    ∧ one.inbox = [] := ⟨⟨_, _, _, _, rfl, rfl, rfl⟩, ⟨_, _, _, _, rfl, rfl, rfl⟩, rfl⟩

theorem witness_ResetLeavesEverythingIdle : State.reset.insts[13]? = some (Inst.reset 4) := rfl

/-- A status word written while a bit is latched, the next frame of the schedule. -/
def due : State := { st { x0 with regs := { x0.regs with intrSts := 0x15#32 } } with inbox := [frameWr 0x10#32 4#32] }

theorem witness_EveryStepKeepsFormAndHardwiredBits : due.FormOk ∧ ∃ t, step due = .next t :=
  ⟨⟨rfl, rfl, rfl, fun k x h => by
    rw [(st_insts _ _ k h).2]
    exact ⟨rfl, fun a h => nomatch h.1⟩⟩, _, rfl⟩

theorem witness_EveryStepKeepsThePoolLoan : due.OwnerOk ∧ ∃ t, step due = .next t :=
  ⟨⟨fun k x h d => by
    rw [(st_insts _ _ k h).2]
    cases d <;> exact ⟨nofun, nofun⟩, nofun⟩, _, rfl⟩

theorem witness_EveryStepKeepsTheSlaveRings : due.SlavesOk ∧ ∃ t, step due = .next t :=
  ⟨fun k x h => by
    rw [(st_insts _ _ k h).2]
    exact Slave.reset_ok 4 256 (by decide), _, rfl⟩

theorem witness_EveryStepKeepsWaitsAndThreads : due.WaitsOk ∧ ∃ t, step due = .next t :=
  ⟨fun k x h => by
    rw [(st_insts _ _ k h).2]
    rfl, _, rfl⟩

/-- A match latched and not yet decoded, and the step that decodes it. -/
def called : Inst :=
  { x0 with
    regs := { x0.regs with funCtrl := 3#32, intrSts := 0x84#32, byteRx := 0x20#8 }
    core := { x0.core with xfer := .slave 0, busy := true } }

theorem witness_OperationsKeepTheRoleAgreement :
    (st called).RolesOk ∧ (∀ (i : InstId) (x : Inst), (Instr.sMatch 0).target = some i → (st called).Has i x →
      x.roleGuard (.sMatch 0) = true) ∧ Runs (.sMatch 0) (st called) :=
  ⟨fun k x h => by
    rw [(st_insts _ _ k h).2]
    exact ⟨⟨nofun, fun _ _ => .inl rfl⟩, fun _ => rfl⟩,
   fun i x h g => by
    cases h
    rw [(st_insts _ _ 0 g).2]
    rfl, _, _, rfl, rfl⟩

/-- A message of length 1 about to start, and the chunk that its address was. -/
theorem witness_OperationsKeepProgressInOrder :
    let x : Inst := { waited (xf 1#32) with master := { (waited x0).master with addrInChunk := true } }
    let y : Inst := line (.startMsg 0) (waited (xf 1#32))
    (st x).ProgressOk ∧ x.progressGuard (st x) (.mDone 0 .tx false)
    ∧ Runs (.mDone 0 .tx false) (withMsg 0x10050#32 1#32 (st x)) ∧ (∀ i j, Instr.mDone 0 .tx false ≠ .startMsg i j)
    ∧ y.progressGuard (withMsg 0x10050#32 1#32 (st y)) (.startMsg 0 0#32)
    ∧ Runs (.startMsg 0 0#32) (withMsg 0x10050#32 1#32 (st y))
    ∧ ¬ (xf 1#32).Waited ∧ x.master.cnt.toNat < x.master.len.toNat
    ∧ ({ x with master := { x.master with len := 65790, lenExt := true } } : Inst).ProgressOk :=
  ⟨fun k z h => by
    rw [(st_insts _ _ k h).2]
    exact ⟨by decide, fun _ => by decide, by decide⟩,
   trivial, ⟨_, _, rfl, rfl⟩, nofun,
   fun d m h g => by
    cases h
    revert g
    exact fun g => by
      have e : m = msgOfWords 0x10050#32 0x1000#32 1#32 := (Option.some.inj (g.symm.trans (by decide)))
      subst e
      decide,
   ⟨_, _, rfl, rfl⟩, (fun h => nomatch h.1), by decide,
   by decide, fun _ => by decide, by decide⟩

theorem witness_OnlyRecoveryPathsCountAndNeverDown :
    Runs (.lSlaveHold 0 0#32) (st (xf 1#32)) ∧ Runs (.rdCmd 0) (st (xf 1#32))
    ∧ (∀ j c, Instr.rdCmd 0 ≠ .lMasterHold j c) ∧ (∀ j c, Instr.rdCmd 0 ≠ .lSlaveHold j c) :=
  ⟨⟨_, _, rfl, rfl⟩, ⟨_, _, rfl, rfl⟩, nofun, nofun⟩

theorem witness_OnlyTheCoreSetsStatusBits :
    (Instr.wrIntrSts 0 4#32).latches = false ∧ (st x0).Has 0 x0 ∧ Runs (.wrIntrSts 0 4#32) (st x0) :=
  ⟨rfl, rfl, _, _, rfl, rfl⟩

theorem witness_OperationsChangeOnlyTheirInstance :
    (∃ t, exec (.wrIntrSts 13 4#32) State.reset = .next t) ∧ (∀ j, (Instr.wrIntrSts 13 4#32).target = some j → 0 ≠ j.toNat)
    ∧ (∃ t, exec (.calcTiming 3#32 1#32) State.reset = .next t)
    ∧ (∀ j, (Instr.calcTiming 3#32 1#32).target = some j → 0 ≠ j.toNat) :=
  ⟨⟨_, rfl⟩, fun j h => by cases h; decide, ⟨_, rfl⟩, nofun⟩

theorem witness_RegisterReadsAnswerTheirView :
    (st x0).Has 0 x0 ∧ x0.dmaInFlight = none
    ∧ ∃ f, (st (flying .rx .dma 4 [] x0)).Has 0 (flying .rx .dma 4 [] x0)
      ∧ (flying .rx .dma 4 [] x0).core.inflight = some f ∧ f.path = .dma ∧ f.phase = .data
      ∧ (cmdIsTx f.cmd ∨ cmdIsRx f.cmd)
      ∧ ∀ (n : Nat) (w : Word), ∃ r t y, decode one.cfg (encode one.cfg r) = .ok r ∧ r.latches = true ∧ r.target = some 0
        ∧ exec r { st (flying .rx .dma 4 [] x0) with ret := .word w, draws := n } = .next t ∧ t.Has 0 y
        ∧ y.dmaInFlight = none :=
  ⟨rfl, rfl, _, rfl, rfl, rfl, rfl, .inr rfl, fun _ _ => ⟨.kRx 0 (.window [1#8, 2#8, 3#8, 4#8]) false none, _, _, rfl, rfl,
    rfl, rfl, rfl, rfl⟩⟩

theorem witness_FunCtrlWriteResetsTheSideItDisables :
    (st (xf 3#32)).Has 0 (xf 3#32) ∧ ((xf 3#32).regs.funCtrl.getLsbD 0 = true → (3#32).getLsbD 0 = true)
    ∧ ((xf 3#32).regs.funCtrl.getLsbD 1 = true → (3#32).getLsbD 1 = true) := ⟨rfl, fun _ => rfl, fun _ => rfl⟩

/-- A side that is off, a reserved word, a command in flight, and counts 0 and 257 where 256 is the most. -/
theorem witness_CommandWordsThatIssueNothing :
    (st x0).Has 0 x0 ∧ 8#4 ∈ Cmd.enables .rx ∧ x0.core.inflight = none
    ∧ (if cmdIsMaster .rx then x0.regs.funCtrl.getLsbD 0 else x0.regs.funCtrl.getLsbD 1) = false
    ∧ cmdOf 1#32 = none ∧ (flying .rx .dma 4 [] x0).core.inflight ≠ none
    ∧ (if cmdIsMaster .rx then (xf 1#32).regs.funCtrl.getLsbD 0 else (xf 1#32).regs.funCtrl.getLsbD 1) = true
    ∧ 2#4 ∈ Cmd.enables .rx ∧ cmdCount (xf 1#32) (st x0).cfg ((st x0).cfg.inst 0) .rx (pathOf 2#4) = 0
    ∧ maxPath (st x0).cfg (pathOf 2#4) < cmdCount { xf 1#32 with
        regs := { (xf 1#32).regs with bufCtrl := 257#32 <<< 10 } } (st x0).cfg ((st x0).cfg.inst 0) .rx (pathOf 2#4) :=
  ⟨rfl, by decide, rfl, rfl, by decide, by decide, rfl, by decide, by decide, by decide⟩

/-- A command of each path at the least and the greatest count: one byte, 256 bytes of the pool, 4096 of DMA, and none. -/
theorem witness_CommandWordGoesInFlight :
    (∀ q ∈ [(Cmd.startTx, 0#4, 1, [0#8]), (.stop, 0#4, 0, []), (.recover, 0#4, 0, []), (.rx, 2#4, 256, []),
        (.sRx, 8#4, 4096, [])],
      let x : Inst := { xf 3#32 with regs := { (xf 3#32).regs with bufCtrl := 256#32 <<< 10, dmaLen := 4096#32 } }
      q.1 ≠ .nop ∧ q.2.1 ∈ q.1.enables ∧ x.core.inflight = none
      ∧ (if cmdIsMaster q.1 then x.regs.funCtrl.getLsbD 0 else x.regs.funCtrl.getLsbD 1) = true
      ∧ q.2.2.1 = (if q.1 = .stop ∨ q.1 = .recover then 0 else match pathOf q.2.1 with
        | .byte => 1
        | .buf => if cmdIsTx q.1 then (x.regs.bufCtrl.extractLsb' 0 10).toNat else (x.regs.bufCtrl.extractLsb' 10 10).toNat
        | .dma => dmaCount (coreCodec (st x).cfg ((st x).cfg.inst 0) (cmdIsMaster q.1)) x.regs.dmaLen)
      ∧ (q.1 ≠ .stop → q.1 ≠ .recover → 1 ≤ q.2.2.1 ∧ q.2.2.1 ≤ maxPath (st x).cfg (pathOf q.2.1))
      ∧ (st x).sampled x q.1 (pathOf q.2.1) q.2.2.1 = some q.2.2.2) := by decide

/-- The least and the greatest ratio of a valid pair, and a pair in between; an override. -/
theorem witness_TimingWordIsOverrideOrPackedPeriods :
    (st x0).Has 0 x0
    ∧ (validPair 2#32 1#32 = true ∧ validPair 524287#32 1#32 = true ∧ validPair 48000000#32 400000#32 = true
      ∧ ∀ clk freq : Word, ∃ r d, (r, d) = halvedRatio clk freq)
    ∧ (st x0).cfg.ac1Base &&& 0x000FF00F#32 = 0#32 ∧ overrideWord (st x0).cfg ((st x0).cfg.inst 0) = none
    ∧ 48000000#32 = ((st x0).cfg.inst 0).clkIn ∧ 400000#32 = ((st x0).cfg.inst 0).busFreq
    ∧ overrideWord { (st x0).cfg with timingOverride := [(0, 400000, 7#32)] } ((st x0).cfg.inst 0) = some 7#32 :=
  ⟨rfl, ⟨by decide, by decide, by decide, fun _ _ => ⟨_, _, rfl⟩⟩, by decide, by decide, by decide, by decide, by decide⟩

theorem witness_InitialisationWritesInOrder :
    (st x0).Has 0 x0 ∧ overrideWord (st x0).cfg ((st x0).cfg.inst 0) = none
    ∧ validPair ((st x0).cfg.inst 0).clkIn ((st x0).cfg.inst 0).busFreq = true
    ∧ (overrideWord (st x0).cfg { InstConfig.default 0 with clkIn := 799999#32 } = none
      ∧ validPair 799999#32 400000#32 = false)
    ∧ (x0.master.waiting = .none ∧ x0.master.mstate = .idle ∧ x0.recov.rstate = .idle ∧ x0.thread.pc = .idle)
    ∧ (waited x0).master.waiting ≠ .none ∧ x0.lockM = none ∧ ({ x0 with lockM := some .I } : Inst).lockM ≠ none
    ∧ ∀ a, x0.thread.pc ≠ .resetTiming a := by
  refine ⟨rfl, by decide, by decide, by decide, by decide, by decide, rfl, nofun, nofun⟩

/-- The least and the greatest window, read back after none of it and after all of it. -/
theorem witness_DmaLengthCodecsAgree :
    (1 ≤ 1 ∧ 1 ≤ 2147483647 ∧ 0 ≤ 1 ∧ 0 ≤ 0) ∧ (1 ≤ 2147483647 ∧ 2147483647 ≤ 2147483647) := by decide

theorem witness_ChunkPlanFollowsTheTable :
    let m : Msg := msgOfWords 0x10050#32 0x1000#32 1#32
    let p : Master := (waited x0).master
    p.cnt.toNat ≤ p.len.toNat ∧ ({ p with cnt := 1 } : Master).cnt.toNat ≤ ({ p with cnt := 1 } : Master).len.toNat
    ∧ (m.rd && !p.started && !m.noStart) = false
    ∧ (let r : Msg := msgOfWords 0x10150#32 0x1000#32 1#32
      r.rd = true ∧ (!({ p with started := false } : Master).started && !r.noStart) = true) := by decide

/-- A chunk of one byte, of the whole page, of a window that ends at the top of the space in both codecs, and one that
the core counts by the other codec. -/
theorem witness_ArmOperationsProgramTheChunk :
    (st (xf 1#32)).Has 0 (xf 1#32) ∧ (xf 1#32).lockM = none ∧ (xf 1#32).core.inflight = none
    ∧ cmdIsTx .startTx = true ∧ cmdIsRx .rx = true ∧ Cmd.rx ≠ .sRx
    ∧ (1 ≤ 256 ∧ 256 ≤ (st x0).cfg.poolPage ∧ 256 < 1024)
    ∧ ((xf 1#32).setLoan .master true).loan .master = true ∧ x0.loan .slave = false
    ∧ (List.replicate 256 (0#8)).length = 256
    ∧ (∀ q ∈ [(Mode.dmaDec, 4096, 4096), (.dmaInc, 1, 1)],
      let s := stM q.1 0xFFFFF000 (xf 1#32)
      (s.cfg.inst 0).dmaAddr = some 0xFFFFF000 ∧ 0xFFFFF000 < 4294967296 ∧ 1 ≤ q.2.1 ∧ q.2.1 ≤ s.cfg.dmaWin
      ∧ q.2.1 < 4294967296 ∧ 0xFFFFF000 + q.2.1 ≤ 4294967296 ∧ 1 ≤ q.2.2 ∧ q.2.2 ≤ s.cfg.dmaWin
      ∧ q.2.2 = dmaCount (coreCodec s.cfg (s.cfg.inst 0) true) (dmaEncode (s.cfg.codec (q.1 == .dmaInc)) q.2.1))
    ∧ (let s := stM .dmaInc 0x100000 (xf 1#32)
      17 = dmaCount (coreCodec s.cfg (s.cfg.inst 0) true) (dmaEncode (s.cfg.codec false) 16)
      ∧ Memory.bytes (Memory.writeN [(0x100002, 9#8)] 0x100000 [7#8, 8#8]) 0x100000 3 = some [7#8, 8#8, 9#8]) :=
  ⟨rfl, rfl, rfl, rfl, rfl, by decide, by decide, rfl, rfl, List.length_replicate, by decide, by decide⟩

theorem witness_ExtractionsReadTheirRegister :
    (st x0).Has 0 x0 ∧ x0.lockM = none ∧ x0.dmaInFlight = none ∧ (flying .rx .dma 4 [] x0).lockM = none
    ∧ ∃ f, (flying .rx .dma 4 [] x0).dmaInFlight = some f :=
  ⟨rfl, rfl, rfl, rfl, _, rfl⟩

/-- A transfer of one message ready for its first chunk: the message, in memory, and the plan of that chunk. -/
def xm : Inst := { xf 1#32 with master := { (waited x0).master with started := false, mode := .byte } }
/-- The message of the tests: a write of one byte to 0x50. -/
def msg0 : Msg := msgOfWords 0x10050#32 0x1000#32 1#32
/-- Its host memory. -/
def sm (x : Inst) : State := withMsg 0x10050#32 1#32 (st x)

theorem witness_ArmNextProgramsThePlannedChunk :
    (sm xm).Has 0 xm ∧ xm.master.msgs = some 0x2000#32 ∧ (sm xm).message 0x2000#32 xm.master.cur.toNat = some msg0
    ∧ (sm xm).CanArm 0 xm msg0 (planChunk (sm xm).cfg msg0 xm.master) 0 [] :=
  ⟨rfl, rfl, by decide, rfl, rfl, rfl, fun _ => by decide⟩

theorem witness_SlaveWindowsAndTransactionsOpen :
    (st (xf 3#32)).Has 0 (xf 3#32) ∧ (st x0).cfg.slavePresent = true ∧ x0.lockS = none ∧ x0.core.inflight = none
    ∧ (st (xf 3#32)).CanRx 0 x0.slave 0 ∧ (st (xf 3#32)).CanTx 0 x0.slave 0 [0xFF#8]
    ∧ x0.slave.ring.length = (st x0).cfg.ringCap ∧ (st (xf 3#32)).CanTx 0 x0.reading.slave 0 [0xFF#8]
    ∧ (stM .dmaDec 0x100000 (xf 3#32)).CanRx 0 { x0.slave with sMode := .dmaDec } 0x100000
    ∧ (st (xf 3#32)).CanRx 0 { x0.slave with sMode := .buf, sLoan := true } 0 :=
  ⟨rfl, rfl, rfl, rfl, fun h => absurd rfl h, ⟨rfl, rfl⟩, rfl, ⟨rfl, rfl⟩,
    fun _ => ⟨by decide, by decide, by decide, by decide, by decide, rfl, rfl⟩,
    fun _ => ⟨rfl, by decide, by decide, by decide⟩⟩

/-- A transfer of BYTE mode waited for, its chunk in flight: the master command that a match pre-empts. -/
def driven : Inst := flying .tx .byte 1 [7#8] (waited (xf 3#32))

/-- Nothing in flight, and a master command that the pre-emption drops. -/
theorem witness_AddressMatchOpensATransaction :
    (st (xf 3#32)).Has 0 (xf 3#32) ∧ (st x0).cfg.slavePresent = true ∧ (xf 3#32).Unlocked
    ∧ (xf 3#32).slave.ring.length = (st x0).cfg.ringCap ∧ ((xf 3#32).slave.sstate = .rx → (xf 3#32).slave.sCur ≠ none)
    ∧ ((written x0).slave.sstate = .rx ∧ (written x0).slave.sCur ≠ none)
    ∧ (∀ x ∈ [xf 3#32, driven], ((x.preempted true true false).matched .byte).core.inflight = none)
    ∧ (st (xf 3#32)).CanServe 0 (((xf 3#32).preempted true true false).matched .byte) 0x20#8 0 []
    ∧ (st (xf 3#32)).CanServe 0 (((xf 3#32).preempted true true false).matched .byte) 0x21#8 0 [0xFF#8]
    ∧ (st driven).Has 0 driven ∧ driven.core.inflight ≠ none ∧ driven.Unlocked
    ∧ (st driven).CanServe 0 ((driven.preempted true true false).matched .byte) 0x20#8 0 [] :=
  ⟨rfl, rfl, ⟨rfl, rfl⟩, rfl, nofun, by decide, by decide, fun h => absurd rfl h, ⟨rfl, rfl⟩, rfl, nofun, ⟨rfl, rfl⟩,
    fun h => absurd rfl h⟩

/-- Write transactions: BAD, a count above the window, the last byte that fits and one that does not; a read one. -/
theorem witness_SlaveDataAndRepliesAdvance :
    (st (written x0)).Has 0 (written x0) ∧ (st x0).cfg.slavePresent = true ∧ (written x0).Unlocked
    ∧ (written x0).dmaInFlight = none ∧ x0.slave.sstate ≠ .rx ∧ x0.slave.sstate ≠ .tx
    ∧ (written x0).slave.sstate = .rx ∧ (written x0).slave.sCur = some 0 ∧ (readOut x0).slave.sstate = .tx
    ∧ ({ x0 with regs := { x0.regs with dmaLen := 2#32 } } : Inst).extracted (st x0).cfg .dmaDec 1 = none
    ∧ ({ x0 with regs := { x0.regs with bufCtrl := 2#32 <<< 20 } } : Inst).extracted (st x0).cfg .buf 1 = some 2
    ∧ (written x0).extracted (st x0).cfg .byte 1 = some 1 ∧ (st x0).received 0 (written x0) .slave .byte 1 = some [0#8]
    ∧ ¬ (st x0).cfg.slotCap < slotLen (written x0).slave 0 + 1
    ∧ slotLen { (written x0).slave with ring := [⟨.ongoing, 0x20#8, 255, []⟩] } 0 + 1 ≤ (st x0).cfg.slotCap
    ∧ (st x0).cfg.slotCap < slotLen { (written x0).slave with ring := [⟨.ongoing, 0x20#8, 256, []⟩] } 0 + 1
    ∧ (st x0).CanRx 0 (written x0).slave 0 ∧ (readOut x0).extracted (st x0).cfg .buf 1 = some 0
    ∧ (readOut x0).extracted (st x0).cfg .byte 1 = some 1
    ∧ (st x0).CanTx 0 { (readOut x0).slave with txOff := BitVec.ofNat 32 (min (0 + 1) 0) } 0 [0xFF#8] :=
  ⟨rfl, rfl, ⟨rfl, rfl⟩, rfl, by decide, by decide, rfl, rfl, rfl, by decide, by decide, rfl, rfl, by decide, by decide,
    by decide, fun h => absurd rfl h, by decide, rfl, ⟨rfl, rfl⟩⟩

/-- The last byte that fits, one that does not, and a count above the window. -/
theorem witness_SlaveTransactionsFinish :
    (st (written x0)).Has 0 (written x0) ∧ (st x0).cfg.slavePresent = true ∧ (written x0).Unlocked
    ∧ (written x0).slave.ring.length = (st x0).cfg.ringCap ∧ (written x0).slave.sCur = some 0
    ∧ ((0x14#32).getLsbD 2 && !(0x14#32).getLsbD 7 && (written x0).slave.sstate == .rx) = true
    ∧ ((0x10#32).getLsbD 2 && !(0x10#32).getLsbD 7 && (written x0).slave.sstate == .rx) = false
    ∧ (written x0).dmaInFlight = none ∧ (written x0).extracted (st x0).cfg .byte 1 = some 1
    ∧ (st x0).received 0 (written x0) .slave .byte 1 = some [0#8] ∧ slotLen (written x0).slave 0 + 1 ≤ (st x0).cfg.slotCap
    ∧ ({ st x0 with cfg := { one.cfg with slotCap := 0 } } : State).SlaveFails 0 (written x0) 0 [0#8] 0x00080000#32
    ∧ (st x0).SlaveFails 0 { written x0 with
        regs := { x0.regs with bufCtrl := 2#32 <<< 20 }, slave := { (written x0).slave with sXmode := .buf } } 0 []
        0x00010000#32 :=
  ⟨rfl, rfl, ⟨rfl, rfl⟩, rfl, rfl, rfl, rfl, rfl, rfl, rfl, by decide, .inr ⟨rfl, 1, rfl, by decide, rfl, by decide⟩,
    .inl ⟨rfl, .inr ⟨2, by decide, by decide⟩⟩⟩

/-- One unread message of three bytes. -/
def full (x : Inst) : Inst :=
  { x with slave := { x.slave with ready := 1, wr := 1, ring := x.slave.ring.set 0 ⟨.full, 0x20#8, 3, [(0, 1#8), (1, 2#8), (2, 3#8)]⟩ } }

theorem witness_SlaveReadAndWriteMoveMessages :
    (st (full (xf 1#32))).Has 0 (full (xf 1#32)) ∧ (st x0).cfg.slavePresent = true ∧ (xf 1#32).lockS = none
    ∧ (xf 1#32).regs.funCtrl.getLsbD 0 = true ∧ (full (xf 1#32)).slave.ring.length = (st x0).cfg.ringCap
    ∧ (xf 1#32).slave.ready = 0 ∧ (full (xf 1#32)).slave.ready ≠ 0
    ∧ (∃ q, (full (xf 1#32)).slave.ring[(full (xf 1#32)).slave.rd]? = some q ∧ (2#32).toNat < q.len ∧ q.len ≤ (3#32).toNat
      ∧ q.buf.bytes 0 q.len = some [1#8, 2#8, 3#8] ∧ (0xFFFFFFFD#32).toNat + q.len ≤ 4294967296)
    ∧ (st x0).cfg.slotCap < (257#16).toNat ∧ (256#16).toNat ≤ (st x0).cfg.slotCap
    ∧ (readOut (xf 1#32)).slave.sstate = .tx ∧ (xf 1#32).slave.sstate ≠ .tx
    ∧ Memory.bytes [(0xFFFFFFFF, 0x11#8)] (0xFFFFFFFF#32).toNat (1#16).toNat = some [0x11#8] :=
  ⟨rfl, rfl, rfl, rfl, rfl, rfl, by decide, ⟨_, rfl, by decide, by decide, by decide, by decide⟩, by decide, by decide, rfl,
    by decide, by decide⟩

theorem witness_SlaveHostControls :
    (st (xf 3#32)).Has 0 (xf 3#32) ∧ (st x0).cfg.slavePresent = true ∧ (xf 3#32).regs.funCtrl.getLsbD 0 = true
    ∧ (0x7F#16).toNat ≤ 0x7F ∧ 0x7F < (0x80#16).toNat ∧ (xf 3#32).Unlocked :=
  ⟨rfl, rfl, rfl, by decide, by decide, rfl, rfl⟩

theorem witness_RequestsThatAreNotOfferedReturnInvalid :
    ({ one.cfg with slavePresent := false } : Config).slavePresent = false ∧ one.insts.length ≤ (1#5).toNat
    ∧ State.reset.insts.length ≤ (14#5).toNat := by decide

theorem witness_SubmitChecksTheMessageSet :
    (sm (xf 1#32)).Has 0 (xf 1#32) ∧ (waited x0).thread.pc ≠ .idle ∧ (xf 1#32).thread.pc = .idle
    ∧ x0.regs.funCtrl.getLsbD 0 = false ∧ (xf 1#32).regs.funCtrl.getLsbD 0 = true ∧ 1 ≤ (1#16).toNat
    ∧ [msg0].length = (1#16).toNat ∧ (sm (xf 1#32)).message 0x2000#32 0 = some msg0
    ∧ (msg0.reserved = false ∧ 1 ≤ msg0.len ∧ msg0.len ≤ msg0.cap ∧ msg0.recvLen = false ∧ msg0.noStart = false)
    ∧ (let m := msgOfWords 0x10950#32 0x1000#32 0x100#32
      m.recvLen = true ∧ m.rd = true ∧ m.len + 255 ≤ m.cap)
    ∧ (let m := msgOfWords 0x10950#32 0x1000#32 0xFF#32
      ¬ (m.len + 255 ≤ m.cap))
    ∧ (∀ (k : Nat) (m : Msg), [msg0][k]? = some m → (sm (xf 1#32)).message 0x2000#32 k = some m) := by
  refine ⟨rfl, by decide, rfl, rfl, rfl, by decide, by decide, by decide, by decide, by decide, by decide, fun k m h => ?_⟩
  cases k with
  | zero => cases h; decide
  | succ k => cases h

theorem witness_MessageDescriptorIsLaidInMemory :
    (0xFFFFFFF4#32).toNat + 12 ≤ 4294967296 ∧ (0xFFFFFFF3#32).toNat + [7#8].length ≤ 4294967296
    ∧ (0xFFFFFFF3#32).toNat + [7#8].length ≤ (0xFFFFFFF4#32).toNat
    ∧ (0#32).toNat + 12 ≤ (12#32).toNat := by decide

theorem witness_TransferLinesRunInOrder :
    (st (line .xferEntry (xf 1#32))).Has 0 (line .xferEntry (xf 1#32)) ∧ (xf 1#32).lockM = none
    ∧ (line .xferEntry (xf 1#32)).thread.pc = .xferEntry ∧ (xf 1#32).master.slaveOp = false
    ∧ (readOut (xf 1#32)).master.slaveOp = true ∧ (line .selectMode (xf 1#32)).thread.pc = .selectMode
    ∧ (line (.xferExit (.code .busy)) (xf 1#32)).thread.pc = .xferExit (.code .busy)
    ∧ (line (.xferExit (.count 2)) (xf 1#32)).thread.pc = .xferExit (.count 2)
    ∧ (line (.xferExit (.code .ok)) (xf 1#32)).thread.pc = .xferExit (.code .ok)
    ∧ (line (.xferExit (.code .timeout)) (xf 1#32)).thread.pc = .xferExit (.code .timeout)
    ∧ ({ Thread.idle with bound := 1 } : Thread).attempt < 1 ∧ ¬ (line .xferEntry (xf 1#32)).thread.attempt < x0.thread.bound :=
  ⟨rfl, rfl, rfl, rfl, rfl, rfl, rfl, rfl, rfl, rfl, by decide, by decide⟩

/-- Each line that waits, and one that does not; a transfer whose wait expires with two of four bytes received: the rest
of the read buffer, the page it was lent, its window and BYTE_DATA.RX may be anything. -/
theorem witness_WaitsEndBySignalBusOrTimer :
    (∀ pc : Pc, (st (line pc x0)).Has 0 (line pc x0) ∧ (line pc x0).thread.pc = pc)
    ∧ x0.lockM = none ∧ x0.core.busy = false ∧ ({ x0.core with busy := true } : Core).busy = true
    ∧ x0.master.done = false ∧ ({ x0.master with done := true } : Master).done = true
    ∧ ((∃ k, (Pc.waitXfer 0, Pc.wakeSignalled 0) = (.waitXfer k, .wakeSignalled k))
      ∧ (∃ t, (Pc.deadWait 10, Pc.deadWake 10 false) = (.deadWait t, .deadWake t false))
      ∧ (∃ t, (Pc.deadWait 1, Pc.deadWake 1 true) = (.deadWait t, .deadWake t true)))
    ∧ (Pc.selectMode ≠ .waitIdle ∧ Pc.selectMode ≠ .idleBusy ∧ Pc.selectMode ≠ .idleExpired
      ∧ (∀ r, Pc.selectMode ≠ .idleRecovered r) ∧ Pc.selectMode ≠ .retryDelay)
    ∧ (∃ (t : State) (y : Inst), exec (.tExpire 0) (st (waited x0)) = .next t ∧ t.Has 0 y
      ∧ y.master.waiting = .none ∧ y.thread.pc = .wakeExpired 0) :=
  ⟨fun _ => ⟨rfl, rfl⟩, rfl, rfl, rfl, rfl, rfl, ⟨⟨0, rfl⟩, ⟨10, rfl⟩, ⟨1, rfl⟩⟩, ⟨nofun, nofun, nofun, nofun, nofun⟩,
    _, _, rfl, rfl, rfl, rfl⟩

theorem witness_StartMessageArmsTheFirstChunk :
    let x := line (.startMsg 0) xm
    let y : Inst := { x with master := { x.master with
      cur := 0, cnt := 0, last := 0 + 1 == x.master.nmsgs.toNat, len := BitVec.ofNat 32 msg0.len, lenExt := false, xlen := 0
      xmode := .byte, addrInChunk := false, started := false, stopIssued := false, stopSeen := false
      mstate := .start, done := false, waiting := .xfer } }
    (sm x).Has 0 x ∧ x.lockM = none ∧ x.thread.pc = .startMsg (0#32).toNat ∧ x.master.slaveOp = false
    ∧ (readOut x).master.slaveOp = true ∧ x.master.msgs = some 0x2000#32
    ∧ (sm x).message 0x2000#32 (0#32).toNat = some msg0
    ∧ (sm x).CanArm 0 y msg0 (planChunk (sm x).cfg msg0 y.master) 0 [] :=
  ⟨rfl, rfl, rfl, rfl, rfl, rfl, by decide, rfl, rfl, rfl, fun _ => by decide⟩

/-- Each error event that a result is mapped from, alone; the block read whose length is stored. -/
theorem witness_WakeMapsErrorsToResults :
    let x := { line (.wakeSignalled 0) (xf 1#32) with master := { (waited x0).master with err := 0#32 } }
    let block := msgOfWords 0x10950#32 0x1000#32 0x100#32
    (sm x).Has 0 x ∧ x.Unlocked ∧ x.thread.pc = .wakeSignalled 0
    ∧ (0x20#32 &&& 0x000A0060#32 ≠ 0#32 ∧ 0x40#32 &&& 0x000A0060#32 ≠ 0#32 ∧ 0x20000#32 &&& 0x000A0060#32 ≠ 0#32
      ∧ 0x80000#32 &&& 0x000A0060#32 ≠ 0#32)
    ∧ (0x10000#32 &&& 0x000A0060#32 = 0#32 ∧ 0x10000#32 &&& 0x00010000#32 ≠ 0#32)
    ∧ (0x8#32 &&& 0x000B0060#32 = 0#32 ∧ 0x8#32 &&& 0x00040008#32 ≠ 0#32 ∧ 0x40000#32 &&& 0x000B0060#32 = 0#32
      ∧ 0x40000#32 &&& 0x00040008#32 ≠ 0#32)
    ∧ (2#32 &&& 0x000F0068#32 = 0#32 ∧ 2#32 &&& 2#32 ≠ 0#32)
    ∧ x.master.err = 0#32 ∧ x.master.msgs = some 0x2000#32 ∧ (sm x).message 0x2000#32 x.master.cur.toNat = some msg0
    ∧ msg0.recvLen = false ∧ (withMsg 0x10950#32 0x100#32 (st x)).message 0x2000#32 x.master.cur.toNat = some block
    ∧ block.recvLen = true ∧ x.master.len.toNat < 65536 ∧ (line (.wakeExpired 0) x).thread.pc = .wakeExpired 0 :=
  ⟨rfl, ⟨rfl, rfl⟩, rfl, by decide, by decide, by decide, by decide, rfl, rfl, by decide, by decide, by decide, by decide,
    by decide, rfl⟩

/-- A chunk of one byte acknowledged: more to move, all moved with the STOP issued and seen, not seen, and not issued; a
count that is not xlen; the length byte of a block read. -/
theorem witness_MasterCompletionIsAccountedFor :
    let x := waited (xf 1#32)
    (sm x).Has 0 x ∧ x.lockM = none ∧ x.Waited ∧ ¬ (xf 1#32).Waited ∧ x.master.msgs = some 0x2000#32
    ∧ (sm x).message 0x2000#32 x.master.cur.toNat = some msg0 ∧ x.dmaInFlight = none
    ∧ Kind.rx ≠ expectedKind msg0.rd x.master.addrInChunk ∧ x.extracted (st x).cfg .buf 1 ≠ some 1
    ∧ (sm x).CanAccount 0 x .tx msg0 [] 0#8
    ∧ (let y := x.accounted msg0 false 0#8
      y.master.len.toNat ≤ y.master.cnt.toNat ∧ y.master.last = true ∧ y.master.stopIssued = false ∧ x.core.inflight = none)
    ∧ (let z : Inst := { x with master := { x.master with addrInChunk := true, stopIssued := true } }
      (sm z).CanAccount 0 z .tx msg0 [] 0#8 ∧ (z.accounted msg0 false 0#8).master.cnt.toNat < (z.accounted msg0 false 0#8).master.len.toNat
      ∧ (({ z with master := { z.master with len := 0 } } : Inst).accounted msg0 true 0#8).master.Ended)
    ∧ (let m := msgOfWords 0x10950#32 0x1000#32 0x100#32
      let s := withMsg 0x10950#32 0x100#32 (st x)
      s.CanAccount 0 x .rx m [0#8] 0#8 ∧ x.lengthens m = true) := by
  refine ⟨rfl, rfl, ⟨rfl, rfl⟩, (fun h => nomatch h.1), rfl, by decide, rfl, by decide, by decide, ?_, by decide,
    ⟨?_, by decide, by decide, .inr ⟨rfl, rfl⟩⟩, ?_, by decide⟩
  · exact ⟨⟨rfl, rfl⟩, ⟨_, rfl, by decide⟩, rfl, by decide, by decide, nofun, nofun⟩
  · exact ⟨⟨rfl, rfl⟩, ⟨_, rfl, by decide⟩, rfl, by decide, by decide, nofun, nofun⟩
  · exact ⟨⟨rfl, rfl⟩, ⟨_, rfl, by decide⟩, rfl, by decide, by decide, fun _ => ⟨rfl, by decide⟩, fun _ => by decide⟩

theorem witness_MasterEndingsSignalTheWaiter :
    let x := waited (xf 1#32)
    (sm x).Has 0 x ∧ x.lockM = none ∧ x.Waited ∧ ¬ (xf 1#32).Waited ∧ x.master.msgs = some 0x2000#32
    ∧ (sm x).message 0x2000#32 x.master.cur.toNat = some msg0 ∧ msg0.ignoreNak = false
    ∧ (msgOfWords 0x10450#32 0x1000#32 1#32).ignoreNak = true ∧ x.master.stopIssued = false ∧ x.core.inflight = none
    ∧ ({ x.master with waiting := .recovStop } : Master).waiting = .recovStop
    ∧ ({ x.master with mstate := .stopping } : Master).waiting = .xfer
    ∧ (xf 1#32).master.waiting ≠ .recovStop ∧ ¬ ((xf 1#32).master.waiting = .xfer ∧ (xf 1#32).master.mstate = .stopping)
    ∧ (xf 1#32).master.waiting ≠ .xfer := by
  refine ⟨rfl, rfl, ⟨rfl, rfl⟩, (fun h => nomatch h.1), rfl, ?_⟩
  decide

theorem witness_StagesAndSweepTakeTheirBits :
    (st (xf 1#32)).Has 0 (xf 1#32) ∧ (xf 1#32).Unlocked ∧ (xf 1#32).master.slaveOp = false
    ∧ (written x0).master.slaveOp = true ∧ (written x0).slave.ring.length = (st x0).cfg.ringCap
    ∧ (written x0).slave.sCur = some 0
    ∧ ((0x14#32).getLsbD 2 && !(0x14#32).getLsbD 7 && (written x0).slave.sstate == .rx) = true
    ∧ (written x0).extracted (st x0).cfg (written x0).slave.sXmode (written x0).slave.sXlen.toNat = some 1
    ∧ 1 ≤ (written x0).slave.sXlen.toNat ∧ (st x0).received 0 (written x0) .slave .byte 1 = some [0#8]
    ∧ slotLen (written x0).slave 0 + 1 ≤ (st x0).cfg.slotCap
    ∧ ({ st x0 with cfg := { one.cfg with slotCap := 0 } } : State).SlaveFails 0 (written x0) 0 [0#8] 0x00080000#32 :=
  ⟨rfl, ⟨rfl, rfl⟩, rfl, rfl, rfl, rfl, rfl, rfl, by decide, rfl, by decide, .inr ⟨rfl, 1, rfl, by decide, rfl, by decide⟩⟩

theorem witness_ExactRowsClearThenRunTheirHandler :
    (st (xf 1#32)).Has 0 (xf 1#32) ∧ (xf 1#32).Unlocked ∧ (xf 1#32).master.slaveOp = false
    ∧ (written x0).master.slaveOp = true ∧ (st x0).cfg.slavePresent = true
    ∧ ({ one.cfg with slavePresent := false } : Config).slavePresent = false :=
  ⟨rfl, ⟨rfl, rfl⟩, rfl, rfl, rfl, rfl⟩

theorem witness_ExactRowsCompleteTheMessage :
    let x : Inst := { waited (xf 1#32) with master := { (waited x0).master with stopIssued := true } }
    (sm x).Has 0 x ∧ x.Unlocked ∧ x.master.slaveOp = false
    ∧ (sm x).CanAccount 0 (x.cleared 0x0011#32) .tx msg0 [] 0#8
    ∧ ((x.cleared 0x0011#32).accounted msg0 true 0#8).master.Ended
    ∧ (let m := msgOfWords 0x10150#32 0x1000#32 1#32
      (withMsg 0x10150#32 1#32 (st x)).CanAccount 0 (x.cleared 0x0014#32) .rx m [0#8] 0#8)
    ∧ x.Waited ∧ x.master.msgs = some 0x2000#32 ∧ (sm x).message 0x2000#32 x.master.cur.toNat = some msg0
    ∧ msg0.ignoreNak = false ∧ x.master.stopIssued = true ∧ x.master.stopSeen = false
    ∧ ({ x.master with waiting := .recovCmd } : Master).waiting = .recovCmd ∧ x.master.waiting ≠ .recovCmd := by
  refine ⟨rfl, ⟨rfl, rfl⟩, rfl, ?_, ⟨by decide, .inr ⟨rfl, rfl⟩⟩, ?_, ⟨rfl, rfl⟩, rfl, by decide, by decide, rfl, rfl, rfl,
    by decide⟩
  · exact ⟨⟨rfl, rfl⟩, ⟨_, rfl, by decide⟩, rfl, by decide, by decide, nofun, nofun⟩
  · exact ⟨⟨rfl, rfl⟩, ⟨_, rfl, by decide⟩, rfl, by decide, by decide, fun _ => ⟨rfl, by decide⟩, nofun⟩

/-- Nothing in flight, and a master command that the pre-emption drops, with its transfer waited for. -/
theorem witness_MatchRowsOpenATransaction :
    (st (xf 3#32)).Has 0 (xf 3#32) ∧ (xf 3#32).Unlocked ∧ (st x0).cfg.slavePresent = true
    ∧ (xf 3#32).slave.ring.length = (st x0).cfg.ringCap
    ∧ (xf 3#32).slave.sstate = .idle ∧ (xf 3#32).master.slaveOp = false
    ∧ (st driven).Has 0 driven ∧ driven.Unlocked ∧ driven.slave.sstate = .idle ∧ driven.core.inflight ≠ none
    ∧ (∀ y ∈ [(xf 3#32).cleared 0x0084#32, driven.cleared 0x0084#32, driven.cleared 0x0094#32,
        ((xf 3#32).cleared 0x008C#32).ended 0x00000008#32],
      ((y.preempted true true false).matched .byte).core.inflight = none)
    ∧ (st (xf 3#32)).CanServe 0 ((((xf 3#32).cleared 0x0084#32).preempted true true false).matched .byte)
        (xf 3#32).regs.byteRx 0 []
    ∧ (st driven).CanServe 0 (((driven.cleared 0x0084#32).preempted true true false).matched .byte)
        driven.regs.byteRx 0 [] :=
  ⟨rfl, ⟨rfl, rfl⟩, rfl, rfl, rfl, rfl, rfl, ⟨rfl, rfl⟩, rfl, nofun, by decide, fun h => absurd rfl h,
    fun h => absurd rfl h⟩

/-- The line off; only the SMBus bits; a fault; a table word; NORMAL_STOP in the slave role. -/
theorem witness_InterruptRunsTheStagesInOrder :
    let x (w : Word) : Inst := { x0 with regs := { x0.regs with intrSts := w, intrCtrl := 0x2EFF#32 } }
    (∀ w, (st (x w)).Has 0 (x w) ∧ (x w).Unlocked)
    ∧ ((x 0x5000#32).regs.intrSts &&& (x 0x5000#32).regs.intrCtrl = 0#32)
    ∧ (0x200#32 &&& 0x2EFF#32 ≠ 0#32 ∧ 0x200#32 &&& 0xFFFFF1FF#32 = 0#32)
    ∧ (0x220#32 &&& 0xFFFFF1FF#32 &&& 0x0060#32 ≠ 0#32)
    ∧ (0x11#32 &&& 0xFFFFF1FF#32 ≠ 0#32 ∧ 0x11#32 &&& 0x0060#32 = 0#32
      ∧ ((0x11#32).getLsbD 4 && (xf 1#32).master.slaveOp) = false)
    ∧ ((0x14#32).getLsbD 4 = true ∧ (written x0).master.slaveOp = true) :=
  ⟨fun _ => ⟨rfl, rfl, rfl⟩, by decide, by decide, by decide, by decide, by decide, rfl⟩

theorem witness_EveryStatusBitReadIsCleared :
    let x : Inst := { x0 with regs := { x0.regs with intrSts := 0x7FFF#32, intrCtrl := 0x2EFF#32 } }
    (st x).Has 0 x ∧ x.regs.intrSts &&& 0xFFFF8000#32 = 0#32 ∧ x.regs.intrSts &&& x.regs.intrCtrl ≠ 0#32
    ∧ Runs (.irq 0) (st x) :=
  ⟨rfl, by decide, by decide, _, _, rfl, rfl⟩

theorem witness_RecoverClassifiesThenEntersAPath :
    (st (xf 1#32)).Has 0 (xf 1#32) ∧ (xf 1#32).lockM = none ∧ (xf 1#32).thread.pc = .idle
    ∧ (xf 1#32).regs.funCtrl.getLsbD 0 = true ∧ ¬ ((xf 1#32).master.waiting ≠ .none ∨ (xf 1#32).master.slaveOp = true)
    ∧ (waited x0).master.waiting ≠ .none ∧ (waited x0).thread.pc ≠ .idle
    ∧ (line .recoverEntry (xf 1#32)).thread.pc = .recoverEntry
    ∧ (line (.classify 0x60000#32) (xf 1#32)).thread.pc = .classify 0x60000#32 ∧ (xf 1#32).core.inflight = none :=
  ⟨rfl, rfl, rfl, rfl, by decide, by decide, by decide, rfl, rfl, rfl⟩

theorem witness_RecoveryPathsRunTheirSteps :
    (∀ pc : Pc, (st (line pc (xf 1#32))).Has 0 (line pc (xf 1#32)) ∧ (line pc (xf 1#32)).lockM = none
      ∧ (line pc (xf 1#32)).thread.pc = pc)
    ∧ (xf 1#32).core.inflight = none ∧ (xf 1#32).core.sda = true
    ∧ ({ (xf 1#32).core with sda := false } : Core).sda = false ∧ 5 < 6 ∧ 6 ≤ 6 ∧ 9 < 10 ∧ 10 ≤ 10 :=
  ⟨fun _ => ⟨rfl, rfl, rfl⟩, rfl, rfl, rfl, by decide, by decide, by decide, by decide⟩

theorem witness_CountersReadAndStatusReadsToClear :
    (st (xf 1#32)).Has 0 (xf 1#32) ∧ (xf 1#32).regs.funCtrl.getLsbD 0 = true := ⟨rfl, rfl⟩

/-- An idle instance, one that waits, the lines of a BUS_RESET under way, and the run of its rows. -/
theorem witness_ResetsRestoreFunctionControl :
    (st (xf 3#32)).Has 0 (xf 3#32) ∧ (xf 3#32).regs.funCtrl.getLsbD 0 = true ∧ (xf 3#32).Unlocked
    ∧ (st x0).cfg.slavePresent = true
    ∧ (xf 3#32).master.waiting = .none ∧ (xf 3#32).thread.pc = .idle ∧ (waited x0).master.waiting ≠ .none
    ∧ (∀ pc : Pc, (line pc (xf 3#32)).thread.pc = pc) ∧ (∀ f a, (xf 3#32).thread.pc ≠ .resetCtrl f a)
    ∧ (2 < 3 ∧ 3 ≤ 3)
    ∧ (let ops : List Instr := [.busReset 0, .ctrlReset 0, .ctrlReset 0, .timingInit 0, .timingInit 0, .timingInit 0,
        .timingInit 0, .sAbort 0]
      ∃ t y u z, runs ops (st (xf 3#32)) = some t ∧ t.Has 0 y ∧ runs ops t = some u ∧ u.Has 0 z) :=
  ⟨rfl, rfl, ⟨rfl, rfl⟩, rfl, rfl, rfl, by decide, fun _ => rfl, nofun, by decide, _, _, _, _, rfl, rfl, rfl, rfl⟩

/-- Four bytes: the first and the last refused, a count of none and of one too many; a reply refused with the STOP, the
core a slave still and no more; a master's bytes whose command carries no STOP. -/
theorem witness_TransmitOutcomesReportAndLatch :
    let x := flying .txStop .buf 4 [1#8, 2#8, 3#8, 4#8] (xf 1#32)
    let y : Inst := { xf 2#32 with core := { (xf 2#32).core with xfer := .slave 0 } }
    (∃ f, (st x).Has 0 x ∧ x.core.inflight = some f ∧ f.phase = .data ∧ cmdIsTx f.cmd = true ∧ cmdHasStop f.cmd = true
      ∧ 1 ≤ (1#32).toNat ∧ (4#32).toNat ≤ f.n ∧ f.data.length = f.n)
    ∧ (∃ g, (flying .sTx .byte 1 [7#8] y).core.inflight = some g ∧ g.phase = .data ∧ cmdIsTx g.cmd = true ∧ g.cmd = .sTx
      ∧ (1#32).toNat ≤ g.n ∧ g.data.length = g.n ∧ cmdHasStop g.cmd = false)
    ∧ (∃ h, (flying .tx .byte 1 [7#8] (xf 1#32)).core.inflight = some h ∧ h.phase = .data ∧ cmdIsTx h.cmd = true
      ∧ cmdHasStop h.cmd = false ∧ h.cmd ≠ .sTx ∧ (0#32).toNat = 0 ∧ h.n < (2#32).toNat)
    ∧ y.core.xfer.isSlave = true ∧ x0.core.xfer.isSlave = false :=
  ⟨⟨_, rfl, rfl, rfl, rfl, rfl, by decide, by decide, rfl⟩, ⟨_, rfl, rfl, rfl, rfl, by decide, rfl, rfl⟩,
    ⟨_, rfl, rfl, rfl, rfl, by decide, rfl, by decide⟩, rfl, rfl⟩

/-- A receive that ends at the top of the space, an open window while a slave and no more, a byte for no window with
nothing, with C.S_TX and with an open window in flight, and one that is not enabled. -/
theorem witness_ReceivedBytesReachTheirSink :
    let x := flying .rxLastStop .dma 2 [] { xf 1#32 with regs := { (xf 1#32).regs with dmaBase := 0xFFFFFFFE#32 } }
    let y : Inst := { xf 2#32 with core := { (xf 2#32).core with xfer := .slave 0 } }
    (∃ f, (st x).Has 0 x ∧ x.core.inflight = some f ∧ f.phase = .data ∧ cmdIsRx f.cmd = true
      ∧ f.base.toNat + [1#8, 2#8].length ≤ 4294967296 ∧ f.cmd ≠ .sRx ∧ [1#8, 2#8].length = f.n ∧ 1 ≤ f.n
      ∧ cmdHasStop f.cmd = true)
    ∧ (∃ g, (flying .sRx .buf 2 [] y).core.inflight = some g ∧ g.phase = .data ∧ cmdIsRx g.cmd = true ∧ g.cmd = .sRx
      ∧ ([] : List Byte).length ≤ g.n ∧ [1#8, 2#8].length ≤ g.n)
    ∧ (flying .sRx .buf 2 [] y).core.xfer.isSlave = true ∧ (flying .sRx .buf 2 [] x0).core.xfer.isSlave = false
    ∧ (st y).Has 0 y ∧ y.core.inflight = none
    ∧ (∃ h, (flying .sTx .byte 1 [7#8] y).core.inflight = some h ∧ h.cmd ≠ .sRx)
    ∧ (let z := flying .sRx .buf 2 [] y
      z.core.xfer.isSlave = true ∧ z.core.matchRd = false ∧ z.regs.en &&& 0xA#4 = 0#4 ∧ z.regs.intrSts.getLsbD 2 = false)
    ∧ (y.core.xfer.isSlave = true ∧ y.core.matchRd = false ∧ y.regs.en &&& 0xA#4 = 0#4 ∧ y.regs.intrSts.getLsbD 2 = false)
    ∧ ¬ (x0.core.xfer.isSlave = true) :=
  ⟨⟨_, rfl, rfl, rfl, rfl, by decide, by decide, rfl, by decide, rfl⟩,
    ⟨_, rfl, rfl, rfl, rfl, by decide, by decide⟩, rfl, rfl, rfl, rfl, ⟨_, rfl, by decide⟩, ⟨rfl, rfl, rfl, rfl⟩,
    ⟨rfl, rfl, rfl, rfl⟩, by decide⟩

/-- C.STOP with the bus held and not held; a slave with nothing, C.S_RX and C.S_TX in flight; an address at the top of
DEV_ADDR, with a master command to drop that ends at the top of the space, with none and with the bus held between two,
and another's address. -/
theorem witness_StopsMatchesAndEventsLatchTheirBits :
    let x : Inst := { xf 3#32 with regs := { (xf 3#32).regs with devAddr := 0x7F#32 } }
    let y : Inst := { x with core := { x.core with xfer := .slave 6 } }
    (∃ f, (st (flying .stop .byte 0 [] x)).Has 0 (flying .stop .byte 0 [] x)
      ∧ (flying .stop .byte 0 [] x).core.inflight = some f ∧ f.cmd = .stop ∧ f.held = true)
    ∧ (∃ t z f, exec (.cStop 0 0#4 false 0) (st x) = .next t ∧ t.Has 0 z ∧ z.core.inflight = some f ∧ f.held = false)
    ∧ (y.core.xfer.isSlave = true ∧ y.core.inflight = none)
    ∧ (∃ f, (flying .sRx .byte 1 [] y).core.inflight = some f ∧ f.phase = .data ∧ f.cmd = .sRx)
    ∧ (∃ f, (flying .sTx .byte 1 [7#8] y).core.inflight = some f ∧ f.phase = .data ∧ f.cmd ≠ .stop ∧ f.cmd ≠ .sRx)
    ∧ (x.core.inflight = none ∧ x.core.xfer.isSlave = false)
    ∧ (∃ f, (flying .recover .byte 0 [] x).core.inflight = some f ∧ f.phase = .data ∧ f.cmd = .recover)
    ∧ (x.regs.funCtrl.getLsbD 1 = true ∧ (0xFF#8).extractLsb' 1 7 = x.regs.devAddr.extractLsb' 0 7)
    ∧ (∃ f, (flying .rx .dma 1 [] { x with regs := { x.regs with dmaBase := 0xFFFFFFFF#32 } }).core.inflight = some f
      ∧ cmdIsMaster f.cmd = true ∧ f.base.toNat + f.n ≤ 4294967296)
    ∧ (¬ (∃ f, x.core.inflight = some f ∧ cmdIsMaster f.cmd = true)
      ∧ ({ x.core with xfer := .master 1 } : Core).xfer.isMaster = true)
    ∧ ¬ ((0xFD#8).extractLsb' 1 7 = x.regs.devAddr.extractLsb' 0 7) :=
  ⟨⟨_, rfl, rfl, rfl, rfl⟩, ⟨_, _, _, rfl, rfl, rfl, rfl⟩, ⟨rfl, rfl⟩, ⟨_, rfl, rfl, rfl⟩,
    ⟨_, rfl, rfl, by decide, by decide⟩, ⟨rfl, rfl⟩, ⟨_, rfl, rfl, rfl⟩, ⟨rfl, by decide⟩,
    ⟨_, rfl, rfl, by decide⟩, ⟨(fun ⟨_, h, _⟩ => nomatch h), rfl⟩, by decide⟩

theorem witness_BusFaultsDropTheCommand :
    let x := flying .rx .dma 2 [] { xf 1#32 with regs := { (xf 1#32).regs with dmaBase := 0xFFFFFFFE#32 } }
    (∃ f, (st x).Has 0 x ∧ x.core.inflight = some f ∧ f.base.toNat + f.n ≤ 4294967296)
    ∧ (xf 1#32).core.inflight = none ∧ Instr.kAbn ⟨0, 0#32⟩ ≠ .kArb ⟨0, 0#32⟩ ∧ Instr.kSclto ⟨0, 0#32⟩ ≠ .kArb ⟨0, 0#32⟩ :=
  ⟨⟨_, rfl, rfl, by decide⟩, rfl, by decide, by decide⟩

end Sys2Proof.Tests
end

section
/-! PROOFS. Reasoning about an operation by what it asks of instance k before and grants of it after: one rule for each
way operations are put together, so that a proof follows an operation's own shape. -/

namespace Sys2Proof.Machine

open Sys2Proof

/-- From an instance k of which P holds, the operation, if it completes, leads to one of which Q holds. -/
def Leads (k : Nat) {α : Type} (P : Inst → Prop) (op : Op α) (Q : α → Inst → Prop) : Prop :=
  ∀ s a t x, s.insts[k]? = some x → P x → op s = .ok (a, t) → ∃ y, t.insts[k]? = some y ∧ Q a y

/-- A sequence that completes has completed its first operation and then its second. -/
theorem bind_ok {α β : Type} {op : Op α} {f : α → Op β} {s t : State} {b : β} (h : (op >>= f) s = .ok (b, t)) :
    ∃ a u, op s = .ok (a, u) ∧ f a u = .ok (b, t) := by
  rw [op_bind] at h
  split at h
  · rename_i a u ha; exact ⟨a, u, ha, h⟩
  · cases h

section rules

variable {k : Nat} {α β : Type} {P P' : Inst → Prop}

theorem leads_weaken {op : Op α} {Q : α → Inst → Prop} (hP : ∀ x, P' x → P x) (h : Leads k P op Q) : Leads k P' op Q :=
  fun s a t x hx hp ht => h s a t x hx (hP x hp) ht

theorem leads_pure {a : α} {Q : α → Inst → Prop} (h : ∀ x, P x → Q a x) : Leads k P (pure a) Q :=
  fun _ _ _ x hx hp ht => by cases ht; exact ⟨x, hx, h x hp⟩

theorem leads_refuse {r : Refusal} {Q : α → Inst → Prop} : Leads k P (opRefuse r) Q := fun _ _ _ _ _ _ ht => nomatch ht

theorem leads_bind {op : Op α} {f : α → Op β} {R : α → Inst → Prop} {Q : β → Inst → Prop} (h : Leads k P op R)
    (hf : ∀ a, Leads k (R a) (f a) Q) : Leads k P (op >>= f) Q := fun s b t x hx hp ht => by
  obtain ⟨a, u, ha, hb⟩ := bind_ok ht
  obtain ⟨y, hy, hr⟩ := h s a u x hx hp ha
  exact hf a u b t y hy hr hb

theorem leads_ite {c : Prop} [Decidable c] {a b : Op α} {Q : α → Inst → Prop} (ha : c → Leads k P a Q)
    (hb : ¬ c → Leads k P b Q) : Leads k P (if c then a else b) Q := by
  split
  · exact ha ‹c›
  · exact hb ‹¬ c›

/-- The instance is read: what was known of it is known of the value read. -/
theorem leads_getInst {f : Inst → Op β} {Q : β → Inst → Prop} (h : ∀ x, P x → Leads k (· = x) (f x) Q) :
    Leads k P (getInst k >>= f) Q := fun s b t x hx hp ht => by
  rw [op_bind, op_getInst s k x hx] at ht
  exact h x hp s b t x hx rfl ht

/-- What holds of the value read holds of the instance. -/
theorem leads_at {op : Op α} {Q : α → Inst → Prop} {x : Inst} (hx : P x) (h : Leads k P op Q) : Leads k (· = x) op Q :=
  leads_weaken (fun _ e => e ▸ hx) h

/-- The instance is read, and only what was known of it before matters after. -/
theorem leads_reading {f : Inst → Op β} {Q : β → Inst → Prop} (h : ∀ x, P x → Leads k P (f x) Q) :
    Leads k P (getInst k >>= f) Q :=
  leads_getInst fun x hx => leads_at hx (h x hx)

theorem leads_getCfg {f : Config → Op β} {Q : β → Inst → Prop} (h : ∀ c, Leads k P (f c) Q) :
    Leads k P (getCfg >>= f) Q := fun s b t x hx hp ht => h s.cfg s b t x hx hp ht

theorem leads_require {c : Bool} {r : Refusal} {f : Unit → Op β} {Q : β → Inst → Prop}
    (h : c = true → Leads k P (f ()) Q) : Leads k P (require c r >>= f) Q := by
  cases c
  · exact fun _ _ _ _ _ _ ht => nomatch ht
  · exact leads_bind (leads_pure fun _ hp => hp) fun _ => h rfl

theorem leads_modInst {f : Inst → Inst} {Q : Unit → Inst → Prop} (h : ∀ x, P x → Q () (f x)) :
    Leads k P (modInst k f) Q := fun s _ _ x hx hp ht => by
  cases ht; exact ⟨f x, by simp [hx], h x hp⟩

theorem leads_noRet {op : Op Unit} {Q : Inst → Prop} (h : Leads k P op fun _ => Q) :
    Leads k P (noRet op) fun _ => Q := leads_bind h fun _ => leads_pure fun _ hx => hx

end rules

/-! ## Steps -/

section steps

variable {k : Nat} {P Q : Inst → Prop} {i : InstId} {op : Nat → Op Ret} {s t : State}

theorem runOp_leads {op : Op Ret} (ht : runOp op s = .next t) (hk : k < s.insts.length)
    (hP : ∀ x, s.insts[k]? = some x → P x) (h : Leads k P op fun _ => Q) : ∀ y, t.insts[k]? = some y → Q y := by
  obtain ⟨r, s', he, rfl⟩ := (runOp_next s op t).1 ht
  have hx := List.getElem?_eq_getElem hk
  obtain ⟨y, hy, hq⟩ := h s r s' _ hx (hP _ hx) he
  intro z hz
  obtain rfl : y = z := Option.some.inj (hy.symm.trans hz)
  exact hq

/-- What an operation's step leaves of its instance. -/
theorem stepOn_leads (ht : stepOn i op s = .next t) (hP : ∀ x, s.insts[i.toNat]? = some x → P x)
    (h : Leads i.toNat P (op i.toNat) fun _ => Q) (hi : i.toNat = k := by rfl) :
    ∀ y, t.insts[k]? = some y → Q y := by
  subst hi
  by_cases hk : i.toNat < s.insts.length
  · exact runOp_leads ht hk hP (leads_reading fun _ _ => h)
  · unfold stepOn runOp at ht
    rw [op_bind, op_getInst_none s _ (List.getElem?_eq_none (Nat.le_of_not_lt hk))] at ht
    cases ht

/-- What a host request leaves of its instance. -/
theorem hostCall_leads (ht : hostCall i op s = .next t) (hP : ∀ x, s.insts[i.toNat]? = some x → P x)
    (h : Leads i.toNat P (op i.toNat) fun _ => Q) (hi : i.toNat = k := by rfl) :
    ∀ y, t.insts[k]? = some y → Q y := by
  subst hi
  unfold hostCall at ht
  by_cases hk : i.toNat < s.insts.length
  · rw [if_pos hk] at ht; exact runOp_leads ht hk hP h
  · rw [if_neg hk] at ht
    cases ht
    exact fun y hy => absurd (List.getElem?_eq_some_iff.1 hy).1 hk

end steps

end Sys2Proof.Machine
end

section
/-! PROOFS. Reset, and the invariants that follow from what the moves of every operation keep. -/

namespace Sys2Proof.Machine

open Sys2Proof

/-! ## Reset -/

theorem reset_formOk : State.reset.FormOk :=
  ⟨rfl, rfl, rfl, fun k x hx => by rw [reset_insts k x hx]; exact ⟨rfl, fun a h => nomatch h.1⟩⟩

theorem reset_ownerOk : State.reset.OwnerOk :=
  ⟨fun k x hx d => by rw [reset_insts k x hx]; cases d <;> exact ⟨nofun, nofun⟩, fun k d h => nomatch h⟩

theorem reset_slavesOk : State.reset.SlavesOk := fun k x hx => by
  rw [reset_insts k x hx]; exact Slave.reset_ok 4 256 (by decide)

theorem reset_waitsOk : State.reset.WaitsOk := fun k x hx => by rw [reset_insts k x hx]; rfl

theorem reset_rolesOk : State.reset.RolesOk := fun k x hx => by
  rw [reset_insts k x hx]; exact ⟨⟨fun _ => rfl, fun _ h => nomatch h⟩, fun h => nomatch h⟩

theorem reset_progressOk : State.reset.ProgressOk := fun k x hx => by
  rw [reset_insts k x hx]
  have hidle : ¬ (Inst.reset 4).Waited := fun h => nomatch h.1
  exact ⟨Nat.le_refl _, fun h => absurd h hidle, Nat.zero_le _⟩

/-- Settles O6: every instance is `Inst.reset`, whose fields are the values listed. -/
theorem resetLeavesEverythingIdle : Obligations.ResetLeavesEverythingIdle := by
  refine ⟨rfl, rfl, rfl, rfl, fun k x hx => ?_⟩
  obtain rfl := reset_insts k x hx
  have hring : ∀ q ∈ (Inst.reset 4).slave.ring, q.state = .empty ∧ q.addr = 0 ∧ q.len = 0 ∧ q.buf = [] :=
    fun q hq => by rw [List.eq_of_mem_replicate hq]; exact ⟨rfl, rfl, rfl, rfl⟩
  exact ⟨rfl, rfl, rfl, rfl, rfl, rfl, rfl, rfl, rfl, rfl, rfl, rfl, rfl, rfl, hring, rfl, rfl, rfl, rfl, rfl, rfl, rfl,
    rfl, rfl, rfl, rfl, rfl, rfl, rfl⟩

/-- Settles O7: each invariant of an instance is one of `Inst.reset`; the parameters are evaluated. -/
theorem invariantsHoldAtReset : Obligations.InvariantsHoldAtReset :=
  ⟨reset_formOk, reset_ownerOk, reset_slavesOk, reset_waitsOk, reset_rolesOk, reset_progressOk, by decide⟩

/-! ## What every move keeps, every step keeps -/

/-- A property that no move and no reading of the schedule breaks is kept by every step. -/
theorem step_keeps {P : State → Prop} (hi : ∀ s l, P s → P { s with inbox := l })
    (hm : ∀ k p s t, Move k p s t → P s → P t) {s t : State} (hs : P s) (h : step s = .next t) : P t := by
  rcases step_moves s t h with ⟨-, rfl⟩ | ⟨f, l, i, -, -, hmoves⟩
  · exact hs
  · exact hmoves.keeps (hm _ _) (hi s l hs)

/-- Settles O8: every move keeps the canonical form, the hardwired bits and the locks. -/
theorem everyStepKeepsFormAndHardwiredBits : Obligations.EveryStepKeepsFormAndHardwiredBits := fun _ _ =>
  step_keeps (fun _ _ h => h) fun _ _ _ _ => Move.form

/-- Settles O9: only the two moves of the loan change an owner or a loan bit, and they change both. -/
theorem everyStepKeepsThePoolLoan : Obligations.EveryStepKeepsThePoolLoan := fun _ _ =>
  step_keeps (fun _ _ h => h) fun _ _ _ _ => Move.owner

/-- Settles O10: a move of the slave engine keeps its ring well formed. -/
theorem everyStepKeepsTheSlaveRings : Obligations.EveryStepKeepsTheSlaveRings := fun _ _ =>
  step_keeps (fun _ _ h => h) fun _ _ _ _ => Move.slaves

/-! ## Counters, status bits, other instances -/

/-- No chain of moves lowers a recovery counter, and without the permission none changes one. -/
theorem Moves.counters {k : Nat} {p : Perm} {s t : State} (h : Moves k p s t) (j : Nat) (y : Inst)
    (hy : t.insts[j]? = some y) : ∃ x, s.insts[j]? = some x
      ∧ x.recov.masterResetCnt ≤ y.recov.masterResetCnt ∧ x.recov.slaveRecoverCnt ≤ y.recov.slaveRecoverCnt
      ∧ (p.count = false → y.recov.masterResetCnt = x.recov.masterResetCnt
        ∧ y.recov.slaveRecoverCnt = x.recov.slaveRecoverCnt) := by
  induction h generalizing y with
  | refl => exact ⟨y, hy, BitVec.le_refl _, BitVec.le_refl _, fun _ => ⟨rfl, rfl⟩⟩
  | tail _ hm ih =>
    obtain ⟨z, hz, hzm, hzs, hze⟩ := hm.counters j y hy
    obtain ⟨x, hx, hxm, hxs, hxe⟩ := ih z hz
    exact ⟨x, hx, BitVec.le_trans hxm hzm, BitVec.le_trans hxs hzs, fun hp =>
      ⟨(hze hp).1.trans (hxe hp).1, (hze hp).2.trans (hxe hp).2⟩⟩

/-- The operations that may count a recovery are the entries of two paths (R426). -/
theorem counts_eq_false {i : Instr} (hm : ∀ j c, i ≠ .lMasterHold j c) (hs : ∀ j c, i ≠ .lSlaveHold j c) :
    i.counts = false := by
  unfold Instr.counts
  split
  · exact absurd rfl (hm _ _)
  · exact absurd rfl (hs _ _)
  · rfl

/-- Settles O14: the moves of an operation, and its permission to count. -/
theorem onlyRecoveryPathsCountAndNeverDown : Obligations.OnlyRecoveryPathsCountAndNeverDown := fun i s t h k y hy => by
  obtain ⟨x, hx, hle, hle', heq⟩ := (exec_moves i s t h).counters k y hy
  exact ⟨x, hx, hle, hle', fun hm hs => heq (counts_eq_false hm hs)⟩

/-- Settles O15: an operation without the permission to latch sets no status bit by any of its moves. -/
theorem onlyTheCoreSetsStatusBits : Obligations.OnlyTheCoreSetsStatusBits := fun r s t i x y hr hx h hy => by
  obtain ⟨x', hx', -, -, hsts⟩ := (exec_moves r s t h).sts i.toNat y hy
  obtain rfl : x' = x := Option.some.inj (hx'.symm.trans hx)
  exact hsts hr

theorem hostWrite_insts {s t : State} {u : Unit} {a : Nat} {bs : List Byte} (h : hostWrite a bs s = .ok (u, t)) :
    t.insts = s.insts := by
  unfold hostWrite at h
  split at h <;> cases h
  rfl

/-- The operations that act on no instance leave all of them alone. -/
theorem exec_insts_of_target_none {i : Instr} {s t : State} (hi : i.target = none) (h : exec i s = .next t) :
    t.insts = s.insts := by
  cases i
  case rdGroupSts | wrGroupSts | calcTiming | reservedHost => cases h; rfl
  case msg loc w0 bufRef cap data =>
    obtain ⟨r, s', he, rfl⟩ := (runOp_next _ _ t).1 h
    obtain ⟨_, s2, he, hret⟩ := bind_ok he
    obtain ⟨_, s1, hdesc, hdata⟩ := bind_ok he
    cases hret
    exact (hostWrite_insts hdata).trans (hostWrite_insts hdesc)
  all_goals cases hi

/-- An operation leaves every instance but its target alone. -/
theorem exec_insts_of_ne_target {i : Instr} {s t : State} (h : exec i s = .next t) {k : Nat}
    (hk : ∀ j : InstId, i.target = some j → k ≠ j.toNat) : t.insts[k]? = s.insts[k]? := by
  cases hi : i.target with
  | none => rw [exec_insts_of_target_none hi h]
  | some j =>
    obtain ⟨-, -, -, hother⟩ := (exec_moves i s t h).others
    exact hother k (by rw [targetOf, hi]; exact hk j hi)

/-- Settles O16: the moves of an operation are on its target, and without a target it moves no instance. -/
theorem operationsChangeOnlyTheirInstance : Obligations.OperationsChangeOnlyTheirInstance := fun i s t h => by
  obtain ⟨hcfg, hinbox, hlen, -⟩ := (exec_moves i s t h).others
  exact ⟨hcfg, hinbox, hlen, fun _ => exec_insts_of_ne_target h⟩

end Sys2Proof.Machine
end

section
/-! PROOFS. The role agreement, refuted. -/

namespace Sys2Proof.Machine

open Sys2Proof

/-- An idle instance with its slave side on and a receive window of one byte of the pool page set in BUF_CTRL. -/
def slaveReady : Inst := { Inst.reset 4 with regs := { Regs.reset with funCtrl := SLAVE_EN, bufCtrl := 0x400#32 } }

/-- C.NOP's action part with RX_BUF_EN in its enables is the word of C.S_RX (R133): the core becomes a slave. -/
theorem exec_cNop_rxBuf : ∃ (t : State) (y : Inst) (c : Fin 7),
    exec (.cNop 0#5 2#4 false 0#16) { State.reset with insts := [slaveReady] } = .next t
    ∧ t.insts[0]? = some y ∧ y.core.xfer = .slave c ∧ y.master = Master.reset ∧ y.regs.intrSts = 0#32
    ∧ y.core.matchRd = false :=
  ⟨_, _, _, rfl, rfl, rfl, rfl, rfl, rfl⟩

/-- The idle instance is in agreement. -/
theorem slaveReady_rolesOk : State.RolesOk { State.reset with insts := [slaveReady] } := fun k x hx => by
  obtain rfl : x = slaveReady := List.mem_singleton.1 (List.mem_of_getElem? hx)
  exact ⟨⟨fun _ => rfl, fun _ h => nomatch h⟩, fun h => nomatch h⟩

/-- Refutes O12: `roleGuard` asks nothing of C.NOP, but the statement is about every term of the syntax, and
C.NOP with RX_BUF_EN among its enables, which `Instr.wf` shuts out (R133), puts C.S_RX in flight: an instance that is
in no slave role and has no match latched becomes a slave. -/
theorem not_operationsKeepTheRoleAgreement : ¬ Obligations.OperationsKeepTheRoleAgreement := by
  intro h
  obtain ⟨t, y, c, hexec, hy, hxfer, hmaster, hsts, hrd⟩ := exec_cNop_rxBuf
  obtain ⟨⟨-, hrole⟩, -⟩ := h _ _ t slaveReady_rolesOk (fun _ _ _ _ => rfl) hexec 0 y hy
  have hnot : y.role ≠ .slaveActive := by rw [Inst.role, hmaster]; decide
  have hslave : y.core.xfer.isSlave = true := by rw [hxfer]; rfl
  rcases hrole hnot hslave with hmatch | hread
  · rw [hsts] at hmatch; cases hmatch
  · rw [hrd] at hread; cases hread

end Sys2Proof.Machine
end

section
/-! PROOFS. The wait of an instance and the line of its thread (R62, R81 f). An operation without the permission to move
the thread touches neither (`Move.waits`); the others are followed line by line. -/

namespace Sys2Proof.Machine

open Sys2Proof

/-- A wait of this kind is outstanding. -/
def Waits (w : Waiting) (x : Inst) : Prop := x.master.waiting = w

/-- The instance's wait is the one its thread is blocked in: `State.WaitsOk` of one instance. -/
def WaitOk (x : Inst) : Prop := x.master.waiting = x.thread.pc.waits

/-- Every permission but the one to move the thread. -/
def allButThread : Perm := { thread := false, count := true, latch := true }

section lines

variable {k : Nat} {α : Type} {w : Waiting} {P : Inst → Prop}

/-! ## Operations that do not move the thread -/

theorem Moves.thread_eq {p : Perm} {s t : State} (h : Moves k p s t) (hp : p.thread = false) (j : Nat) (y : Inst)
    (hy : t.insts[j]? = some y) :
    ∃ x, s.insts[j]? = some x ∧ y.master.waiting = x.master.waiting ∧ y.thread = x.thread := by
  induction h generalizing y with
  | refl => exact ⟨y, hy, rfl, rfl⟩
  | tail _ hm ih =>
    obtain ⟨z, hz, hzw, hzt⟩ := hm.waits hp j y hy
    obtain ⟨x, hx, hxw, hxt⟩ := ih z hz
    exact ⟨x, hx, hzw.trans hxw, hzt.trans hxt⟩

theorem leads_of_does {op : Op α} (h : Does k allButThread op)
    (hP : ∀ x y : Inst, y.master.waiting = x.master.waiting → y.thread = x.thread → P x → P y) :
    Leads k P op fun _ => P := fun s a t x hx hp ht => by
  have hk := (List.getElem?_eq_some_iff.1 hx).1
  have hm := h s a t hk ht
  have hy := List.getElem?_eq_getElem (hm.length ▸ hk : k < t.insts.length)
  obtain ⟨x', hx', hw, hth⟩ := hm.thread_eq rfl k _ hy
  obtain rfl : x' = x := Option.some.inj (hx'.symm.trans hx)
  exact ⟨_, hy, hP _ _ hw hth hp⟩

theorem waits_of_does {op : Op α} (h : Does k allButThread op) : Leads k (Waits w) op fun _ => Waits w :=
  leads_of_does h fun _ _ hw _ hx => hw.trans hx

theorem waitOk_of_does {op : Op α} (h : Does k allButThread op) : Leads k WaitOk op fun _ => WaitOk :=
  leads_of_does h fun _ _ hw ht hx => by unfold WaitOk; rw [hw, ht]; exact hx

/-! ## The wait and the line are set -/

theorem armWait_waits : Leads k P (armWait k w) fun _ => Waits w := leads_modInst fun _ _ => rfl

theorem modMaster_waits {f : Master → Master} (h : ∀ m, (f m).waiting = m.waiting := by intro m; rfl) :
    Leads k (Waits w) (modMaster k f) fun _ => Waits w := leads_modInst fun x hx => (h x.master).trans hx

theorem disarmWait_waits : Leads k P (disarmWait k) fun _ => Waits .none := leads_modInst fun _ _ => rfl

theorem modThread_waits {f : Thread → Thread} : Leads k (Waits w) (modThread k f) fun _ => Waits w :=
  leads_modInst fun _ h => h

/-- The thread comes to a line that waits for what is outstanding. -/
theorem modThread_waitOk {f : Thread → Thread} (h : ∀ t, (f t).pc.waits = w) :
    Leads k (Waits w) (modThread k f) fun _ => WaitOk := leads_modInst fun x hx => hx.trans (h x.thread).symm

theorem setPc_waitOk {pc : Pc} (h : pc.waits = w) : Leads k (Waits w) (setPc k pc) fun _ => WaitOk :=
  modThread_waitOk fun _ => h

/-- The thread comes to a line, which is the operation's last effect. -/
theorem setPc_last {pc : Pc} {r : Ret} (h : pc.waits = w) :
    Leads k (Waits w) (setPc k pc >>= fun _ => pure r) fun _ => WaitOk :=
  leads_bind (setPc_waitOk h) fun _ => waitOk_of_does (does_pure r)

/-! ## The operator's BUS_RESET -/

theorem resetReturn_waitOk : Leads k (Waits .none) (resetReturn k) fun _ => WaitOk :=
  leads_bind (modThread_waitOk fun _ => rfl) fun _ => waitOk_of_does does_retCode

theorem resetCtrlStep_waitOk {f : Word} {a : Nat} : Leads k (Waits .none) (resetCtrlStep k f a) fun _ => WaitOk :=
  leads_ite (fun _ => leads_bind (waits_of_does does_regWrite) fun _ => setPc_last rfl)
    fun _ => leads_bind (waits_of_does does_regWrite) fun _ => setPc_last rfl

theorem resetTimingStep_waitOk {a : Nat} : Leads k (Waits .none) (resetTimingStep k a) fun _ => WaitOk :=
  leads_bind (waits_of_does does_getCfg) fun _ => leads_bind (waits_of_does does_regInitWrite) fun _ =>
    leads_ite (fun _ => setPc_last rfl) fun _ => leads_ite (fun _ => setPc_last rfl) fun _ => resetReturn_waitOk

/-! ## Recovery -/

theorem recoverReturn_waitOk {r : Code} : Leads k (Waits .none) (recoverReturn k r) fun _ => WaitOk :=
  leads_reading fun _ _ => leads_ite (fun _ => setPc_last rfl) fun _ =>
    leads_bind (modThread_waitOk fun _ => rfl) fun _ => waitOk_of_does does_retCode

theorem recoverEntry_waitOk : Leads k (Waits .none) (recoverEntry k) fun _ => WaitOk :=
  leads_reading fun _ _ => leads_ite (fun _ => recoverReturn_waitOk) fun _ =>
    leads_bind (waits_of_does does_regRead) fun _ => setPc_last rfl

theorem pathIdle_waitOk : Leads k (Waits .none) (pathIdle k) fun _ => WaitOk :=
  leads_bind (waits_of_does does_addStatus) fun _ => recoverReturn_waitOk

theorem armRecovery_waits : Leads k P (armRecovery k w) fun _ => Waits w :=
  leads_bind (leads_modInst (Q := fun _ _ => True) fun _ _ => trivial) fun _ => armWait_waits

/-- The master-STOP path waits for its STOP from the step that sends it on (R423). -/
theorem pathMasterStop_waitOk : Leads k (Waits .none) (pathMasterStop k) fun _ => WaitOk :=
  leads_bind (waits_of_does (does_count rfl fun _ => ⟨le_satInc _, BitVec.le_refl _⟩)) fun _ =>
    leads_bind (waits_of_does does_addStatus) fun _ => leads_bind armRecovery_waits fun _ =>
      leads_bind (waits_of_does does_setRState) fun _ => leads_bind (waits_of_does does_engineCmd) fun _ =>
        setPc_last rfl

theorem stopWake_waitOk {e : Bool} : Leads k P (stopWake k e) fun _ => WaitOk :=
  leads_reading fun _ _ => leads_bind disarmWait_waits fun _ => leads_bind (waits_of_does does_setRState) fun _ =>
    leads_ite (fun _ => leads_bind (waits_of_does does_addStatus) fun _ => recoverReturn_waitOk) fun _ =>
      leads_ite (fun _ => leads_bind (waits_of_does does_addStatus) fun _ => recoverReturn_waitOk) fun _ =>
        recoverReturn_waitOk

theorem pathSlaveDead_waitOk : Leads k (Waits .none) (pathSlaveDead k) fun _ => WaitOk :=
  leads_bind (waits_of_does (does_count rfl fun _ => ⟨BitVec.le_refl _, le_satInc _⟩)) fun _ =>
    leads_bind (waits_of_does does_addStatus) fun _ => leads_bind (waits_of_does does_regRead) fun _ =>
      leads_bind (waits_of_does (does_modRecov fun _ => ⟨rfl, rfl⟩)) fun _ =>
        leads_bind (waits_of_does does_setRState) fun _ => setPc_last rfl

/-- A round of the slave-dead loop waits only for its command, which is armed before it is sent (R424). -/
theorem deadStep_waitOk {t a : Nat} : Leads k (Waits .none) (deadStep k t a) fun _ => WaitOk :=
  leads_ite (fun _ => leads_bind (waits_of_does does_regInitWrite) fun _ => setPc_last rfl) fun _ =>
    leads_bind armRecovery_waits fun _ => leads_bind (waits_of_does does_engineCmd) fun _ => setPc_last rfl

theorem deadWake_waitOk {t : Nat} : Leads k P (deadWake k t) fun _ => WaitOk :=
  leads_bind disarmWait_waits fun _ => leads_bind (waits_of_does does_regRead) fun _ =>
    leads_ite (fun _ => leads_bind (waits_of_does does_setRState) fun _ => recoverReturn_waitOk) fun _ =>
      leads_ite (fun _ => leads_bind (waits_of_does does_setRState) fun _ => setPc_last rfl) fun _ => setPc_last rfl

theorem deadRestore_waitOk {a : Nat} : Leads k (Waits .none) (deadRestore k a) fun _ => WaitOk :=
  leads_reading fun _ _ => leads_ite (fun _ => leads_bind (waits_of_does does_regWrite) fun _ => setPc_last rfl)
    fun _ => leads_bind (waits_of_does does_regWrite) fun _ => leads_bind (waits_of_does does_addStatus) fun _ =>
      leads_bind (waits_of_does does_setRState) fun _ => recoverReturn_waitOk

theorem pathUnclassified_waitOk : Leads k (Waits .none) (pathUnclassified k) fun _ => WaitOk :=
  leads_bind (waits_of_does does_logRec) fun _ => leads_bind (waits_of_does does_addStatus) fun _ =>
    recoverReturn_waitOk

/-- A thread at a line that waits for nothing has no wait outstanding. -/
theorem WaitOk.waits {x : Inst} (h : WaitOk x) {pc : Pc} (hpc : x.thread.pc = pc) (hw : pc.waits = w) : Waits w x := by
  unfold WaitOk at h; rw [hpc, hw] at h; exact h

/-- A path is entered by a thread that waits for nothing (R421). -/
theorem enterPath_waits {c : Word} : Leads k WaitOk (enterPath k c) fun _ => Waits .none :=
  leads_bind (waitOk_of_does does_needM) fun _ => leads_getInst fun x hx => leads_require fun hpc => by
    have hw : Waits .none x := by
      rcases Bool.or_eq_true _ _ ▸ hpc with hpc | hpc
      · exact hx.waits (eq_of_beq hpc) rfl
      · exact hx.waits (eq_of_beq hpc) rfl
    exact leads_at hw (leads_ite (fun _ => modThread_waits) fun _ => leads_pure fun _ h => h)

/-! ## SUBMIT -/

theorem submit_waitOk {n : Nat} {d b : Word} : Leads k WaitOk (submit k n d b) fun _ => WaitOk :=
  leads_getInst fun x hx => leads_ite (fun _ => leads_refuse) fun hpc => by
    have hw : Waits .none x := hx.waits (by simpa using hpc) rfl
    refine leads_ite (fun _ => leads_at hx (waitOk_of_does does_retCode)) fun _ =>
      leads_at (P := fun y => Waits .none y ∧ WaitOk y) ⟨hw, hx⟩ ?_
    refine leads_bind (R := fun _ y => Waits .none y ∧ WaitOk y) (leads_of_does does_validSet fun x y h h' hx => ?_)
      fun _ => leads_ite
        (fun _ => leads_weaken (fun _ h => h.1) (leads_bind (modThread_waitOk fun _ => rfl) fun _ =>
          waitOk_of_does (does_pure _)))
        fun _ => leads_weaken (fun _ h => h.2) (waitOk_of_does does_retCode)
    exact ⟨h.trans hx.1, by unfold WaitOk; rw [h, h']; exact hx.2⟩

theorem attemptDone_waitOk {r : Result} : Leads k (Waits .none) (attemptDone k r) fun _ => WaitOk :=
  leads_reading fun _ _ => leads_bind (waits_of_does does_getCfg) fun _ =>
    leads_ite (fun _ => leads_bind (modThread_waitOk fun _ => rfl) fun _ => waitOk_of_does (does_pure _)) fun _ =>
      leads_bind (waits_of_does (does_whenB does_loseTails)) fun _ => leads_bind (modThread_waitOk fun _ => rfl) fun _ =>
        waitOk_of_does does_retWord

/-- START_MSG leaves a transfer waited for, unless it is turned away (R304, R307). -/
theorem startMsg_waits {n : Nat} :
    Leads k (Waits .none) (startMsg k n) fun r => Waits (if codeFailed r then .none else .xfer) :=
  leads_reading fun _ _ => leads_ite (fun _ => leads_pure fun _ h => h) fun _ => by
    split
    · exact leads_refuse
    · exact leads_bind (waits_of_does does_readMsg) fun _ =>
        leads_bind modMaster_waits fun _ => leads_bind armWait_waits fun _ =>
          leads_bind (waits_of_does does_armNext) fun _ =>
            leads_bind modMaster_waits fun _ => leads_pure fun _ h => h

theorem wakeSignalled_waits : Leads k P (wakeSignalled k) fun _ => Waits .none :=
  leads_bind disarmWait_waits fun _ => leads_reading fun _ _ => by
    split
    · exact leads_bind (waits_of_does (does_whenB does_busReset)) fun _ =>
        leads_bind (waits_of_does does_loseTail) fun _ => leads_pure fun _ h => h
    · split
      · exact leads_refuse
      · exact leads_bind (waits_of_does does_readMsg) fun _ =>
          leads_bind (waits_of_does (does_whenB does_writeBackLen)) fun _ => leads_pure fun _ h => h

theorem wakeExpired_waits : Leads k P (wakeExpired k) fun _ => Waits .none :=
  leads_bind (leads_modInst (Q := fun _ => Waits .none) fun _ _ => rfl) fun _ =>
    leads_bind (waits_of_does does_busReset) fun _ => leads_bind (waits_of_does does_loseBuffers) fun _ =>
      leads_pure fun _ h => h

theorem xferExit_waits : Leads k P (xferExit k) fun _ => Waits .none :=
  leads_bind (leads_modInst (Q := fun _ _ => True) fun _ _ => trivial) fun _ => leads_bind disarmWait_waits fun _ =>
    waits_of_does does_poolRel

/-! ## The timer -/

/-- An expired wait has no waiter (R458 b). -/
theorem expireWait_waitOk {pc : Pc} (h : pc.waits = .none) : Leads k WaitOk (expireWait k pc) fun _ => WaitOk :=
  leads_bind (waitOk_of_does does_needM) fun _ => leads_reading fun _ _ => leads_require fun _ =>
    leads_bind (leads_modInst (Q := fun _ => Waits .none) fun _ _ => rfl) fun _ => setPc_waitOk h

theorem expire_waitOk : Leads k WaitOk (expire k) fun _ => WaitOk := leads_getInst fun x hx => by
  split
  · exact leads_at hx (leads_bind (expireWait_waitOk rfl) fun _ => waitOk_of_does does_loseBuffers)
  · exact leads_at hx (expireWait_waitOk rfl)
  · exact leads_at hx (expireWait_waitOk rfl)
  next hpc => exact leads_require fun _ => leads_at (hx.waits hpc rfl) (setPc_waitOk rfl)
  next hpc => exact leads_at (hx.waits hpc rfl) (setPc_waitOk rfl)
  · exact leads_refuse

end lines

/-! ## Every operation -/

/-- An operation that moves the thread leaves it at a line that waits for what is outstanding. -/
theorem exec_waitOk {r : Instr} {s t : State} (hr : r.movesThread = true) (hs : s.WaitsOk) (h : exec r s = .next t) :
    ∀ y, t.insts[targetOf r]? = some y → WaitOk y := by
  have hok : ∀ k x, s.insts[k]? = some x → WaitOk x := hs
  cases r
  case submit i n d b =>
    simp only [exec, execSubmit] at h
    exact hostCall_leads h (hok _) submit_waitOk
  case recoverReq i =>
    simp only [exec, execRecoverReq] at h
    refine hostCall_leads h (hok _) (leads_bind (waitOk_of_does does_offered) fun _ =>
      leads_bind (waitOk_of_does does_needM) fun _ => leads_getInst fun x hx => leads_ite
        (fun _ => leads_at hx (waitOk_of_does does_retCode)) fun hpc =>
          leads_at (hx.waits (by simpa using hpc) rfl) (leads_bind modThread_waits fun _ => recoverEntry_waitOk))
  case busReset i =>
    simp only [exec, execBusReset] at h
    refine hostCall_leads h (hok _) (leads_bind (waitOk_of_does does_offered) fun _ =>
      leads_bind (waitOk_of_does does_needM) fun _ => leads_getInst fun x hx => leads_ite
        (fun _ => leads_at hx (waitOk_of_does does_retCode)) fun hbusy => ?_)
    have hpc : x.thread.pc = .idle := by simp at hbusy; exact hbusy.2
    exact leads_at (hx.waits hpc rfl) (leads_bind (waits_of_does does_regRead) fun _ =>
      leads_bind (modThread_waitOk fun _ => rfl) fun _ => waitOk_of_does (does_pure _))
  case lIdle i c =>
    simp only [exec, execLIdle] at h
    exact stepOn_leads h (hok _) (leads_bind enterPath_waits fun _ => pathIdle_waitOk)
  case lMasterHold i c =>
    simp only [exec, execLMasterHold] at h
    exact stepOn_leads h (hok _) (leads_bind enterPath_waits fun _ => pathMasterStop_waitOk)
  case lSlaveHold i c =>
    simp only [exec, execLSlaveHold] at h
    exact stepOn_leads h (hok _) (leads_bind enterPath_waits fun _ => pathSlaveDead_waitOk)
  case lOther i =>
    simp only [exec, execLOther] at h
    exact stepOn_leads h (hok _) (leads_bind (waitOk_of_does does_needM) fun _ => leads_getInst fun x hx =>
      leads_require fun hpc => leads_at (hx.waits (eq_of_beq hpc) rfl) pathUnclassified_waitOk)
  case doXfer i =>
    simp only [exec, execDoXfer] at h
    refine stepOn_leads h (hok _) (leads_getInst fun x hx => ?_)
    split
    next hpc => exact leads_at (hx.waits hpc rfl) (leads_bind (waits_of_does does_needM) fun _ =>
        leads_ite (fun _ => attemptDone_waitOk) fun _ => leads_bind modMaster_waits fun _ => setPc_last rfl)
    next hpc => exact leads_at (hx.waits hpc rfl) (leads_bind (waits_of_does does_needM) fun _ =>
        leads_bind (waits_of_does does_selectMode) fun _ => leads_bind modMaster_waits fun _ => setPc_last rfl)
    · exact leads_bind (leads_at hx (waitOk_of_does does_needM)) fun _ =>
        leads_bind xferExit_waits fun _ => attemptDone_waitOk
    · exact leads_refuse
  case waitIdle i =>
    simp only [exec, execWaitIdle] at h
    refine stepOn_leads h (hok _) (leads_noRet (leads_getInst fun x hx => leads_getCfg fun c => ?_))
    split
    next hpc => exact leads_at (hx.waits hpc rfl) (leads_bind (waits_of_does does_busBusy) fun b =>
        setPc_waitOk (by split_ifs <;> rfl))
    next hpc => exact leads_at (hx.waits hpc rfl) (leads_bind (waits_of_does does_busBusy) fun b =>
        leads_require fun _ => setPc_waitOk rfl)
    next hpc => exact leads_at (hx.waits hpc rfl) (setPc_waitOk (by split_ifs <;> rfl))
    next hpc => exact leads_at (hx.waits hpc rfl) (leads_bind (waits_of_does does_busBusy) fun b =>
        setPc_waitOk (by split_ifs <;> rfl))
    · exact leads_refuse
  case startMsg i n =>
    simp only [exec, execStartMsg] at h
    refine stepOn_leads h (hok _) (leads_noRet (leads_getInst fun x hx => leads_require fun hpc =>
      leads_at (hx.waits (eq_of_beq hpc) rfl) (leads_bind (waits_of_does does_needM) fun _ =>
        leads_bind startMsg_waits fun r => modThread_waitOk fun t => by split_ifs <;> rfl)))
  case wait i =>
    simp only [exec, execWait] at h
    refine stepOn_leads h (hok _) (leads_noRet (leads_bind (waitOk_of_does does_needM) fun _ =>
      leads_getInst fun x hx => leads_require fun _ => ?_))
    split
    next hpc => exact leads_at (hx.waits hpc rfl) (setPc_waitOk rfl)
    next hpc => exact leads_at (hx.waits hpc rfl) (setPc_waitOk rfl)
    next hpc => exact leads_at (hx.waits hpc rfl) (setPc_waitOk rfl)
    · exact leads_refuse
  case wakeExpired i =>
    simp only [exec, execWakeExpired] at h
    refine stepOn_leads h (hok _) (leads_noRet (leads_getInst fun x hx => ?_))
    split
    · exact leads_bind (leads_at hx (waitOk_of_does does_needLocks)) fun _ =>
        leads_bind wakeExpired_waits fun _ => setPc_waitOk rfl
    · exact leads_refuse
  case wakeSignalled i =>
    simp only [exec, execWakeSignalled] at h
    refine stepOn_leads h (hok _) (leads_noRet (leads_getInst fun x hx => ?_))
    split
    · exact leads_bind (leads_at hx (waitOk_of_does does_needLocks)) fun _ =>
        leads_bind wakeSignalled_waits fun _ => setPc_waitOk (by split_ifs <;> rfl)
    · exact leads_refuse
  case recover i =>
    simp only [exec, execRecover] at h
    refine stepOn_leads h (hok _) (leads_bind (waitOk_of_does does_needM) fun _ => leads_getInst fun x hx => ?_)
    split
    next hpc => exact leads_at (hx.waits hpc rfl) (leads_bind modThread_waits fun _ => recoverEntry_waitOk)
    next hpc => exact leads_at (hx.waits hpc rfl) recoverEntry_waitOk
    · exact stopWake_waitOk
    next hpc => exact leads_at (hx.waits hpc rfl) deadStep_waitOk
    · exact deadWake_waitOk
    next hpc => exact leads_at (hx.waits hpc rfl) deadRestore_waitOk
    · exact leads_refuse
  case ctrlReset i =>
    simp only [exec, execCtrlReset] at h
    refine stepOn_leads h (hok _) (leads_getInst fun x hx => ?_)
    split
    next hpc => exact leads_at (hx.waits hpc rfl) resetCtrlStep_waitOk
    · exact leads_at hx (waitOk_of_does (does_noRet does_ctrlReset))
  case timingInit i =>
    simp only [exec, execTimingInit] at h
    refine stepOn_leads h (hok _) (leads_getInst fun x hx => ?_)
    split
    next hpc => exact leads_at (hx.waits hpc rfl) resetTimingStep_waitOk
    · exact leads_at hx (waitOk_of_does (does_noRet does_timingInit))
  case sAbort i =>
    simp only [exec, execSAbort] at h
    refine stepOn_leads h (hok _) (leads_bind (waitOk_of_does does_needSlave) fun _ =>
      leads_bind (waitOk_of_does does_needLocks) fun _ => leads_getInst fun x hx => ?_)
    split
    next hpc => exact leads_at (hx.waits hpc rfl) (leads_bind (waits_of_does does_sAbort) fun _ => resetReturn_waitOk)
    · exact leads_at hx (waitOk_of_does (does_bind does_sAbort fun _ => does_pure _))
  case tExpire i =>
    simp only [exec, execTExpire] at h
    exact stepOn_leads h (hok _) (leads_noRet expire_waitOk)
  all_goals cases hr

/-- An operation keeps every wait in agreement with its thread. -/
theorem exec_waitsOk {r : Instr} {s t : State} (hs : s.WaitsOk) (h : exec r s = .next t) : t.WaitsOk := by
  cases hr : r.movesThread with
  | false => exact (exec_moves r s t h).waits hr hs
  | true =>
    intro k y hy
    by_cases hk : k = targetOf r
    · subst hk; exact exec_waitOk hr hs h y hy
    · obtain ⟨-, -, -, hother⟩ := (exec_moves r s t h).others
      exact hs k y (hother k hk ▸ hy)

/-- A step that answers a next state had nothing to run, or ran an operation. -/
theorem step_exec {s t : State} (h : step s = .next t) :
    t = s ∨ ∃ (l : List (List Byte)) (r : Instr), exec r { s with inbox := l } = .next t := by
  unfold step at h
  split at h
  · cases h; exact .inl rfl
  · split at h
    · exact .inr ⟨_, _, h⟩
    · cases h

/-- Settles O11: the operations that move no thread leave the wait alone, the others are followed line by line. -/
theorem everyStepKeepsWaitsAndThreads : Obligations.EveryStepKeepsWaitsAndThreads := fun s t hs h => by
  rcases step_exec h with rfl | ⟨l, r, h⟩
  · exact hs
  · exact exec_waitsOk (s := { s with inbox := l }) hs h

end Sys2Proof.Machine
end

section
/-! PROOFS. The master's progress (R81 b). Most operations are calm: they leave the counts alone and set no chunk afoot.
What a calm operation keeps is then a fact about the master alone. -/

namespace Sys2Proof.Machine

open Sys2Proof

/-! ## Progress -/

/-- The chunk in flight is waited for: `Inst.Waited` of the master. -/
def Master.Flying (m : Master) : Prop := m.waiting = .xfer ∧ m.mstate = .chunk

/-- How far the chunk advances the message: `Inst.advance` of the master. -/
def Master.moves (m : Master) : Nat := m.xlen.toNat - if m.addrInChunk then 1 else 0

/-- The count, at least c, is within the length, and the length is a message's, extended at most once. -/
structure Master.Counted (c : Word) (m : Master) : Prop where
  from_le : c ≤ m.cnt
  cnt_le : m.cnt.toNat ≤ m.len.toNat
  len_le : m.len.toNat ≤ if m.lenExt then 65790 else 65535

/-- Counted, and the chunk that is recorded stays within the length. -/
structure Master.Loaded (c : Word) (m : Master) : Prop where
  counted : m.Counted c
  moves_le : m.cnt.toNat + m.moves ≤ m.len.toNat

/-- Counted, and so is the chunk in flight, if one is waited for. -/
structure Master.InOrder (c : Word) (m : Master) : Prop where
  counted : m.Counted c
  moves_le : m.Flying → m.cnt.toNat + m.moves ≤ m.len.toNat

/-- The counts are as they were, and a chunk is waited for only if it was before. -/
structure Master.Calm (m m' : Master) : Prop where
  cnt_eq : m'.cnt = m.cnt
  len_eq : m'.len = m.len
  lenExt_eq : m'.lenExt = m.lenExt
  flying : m'.Flying → m.Flying ∧ m'.xlen = m.xlen ∧ m'.addrInChunk = m.addrInChunk

section master

variable {c : Word} {m m' n : Master}

theorem progressOk_iff {x : Inst} : x.ProgressOk ↔ x.master.InOrder 0 :=
  ⟨fun ⟨hcnt, hmoves, hlen⟩ => ⟨⟨Nat.zero_le _, hcnt, hlen⟩, hmoves⟩,
    fun ⟨⟨_, hcnt, hlen⟩, hmoves⟩ => ⟨hcnt, hmoves, hlen⟩⟩

theorem Master.InOrder.from_cnt (h : m.InOrder c) : m.InOrder m.cnt :=
  ⟨⟨BitVec.le_refl _, h.counted.cnt_le, h.counted.len_le⟩, h.moves_le⟩

theorem Master.InOrder.from_zero (h : m.InOrder c) : m.InOrder 0 :=
  ⟨⟨Nat.zero_le _, h.counted.cnt_le, h.counted.len_le⟩, h.moves_le⟩

theorem Master.Loaded.inOrder (h : m.Loaded c) : m.InOrder c := ⟨h.counted, fun _ => h.moves_le⟩

theorem Master.InOrder.loaded (h : m.InOrder c) (hf : m.Flying) : m.Loaded c := ⟨h.counted, h.moves_le hf⟩

/-- With no chunk waited for, only the counts matter. -/
theorem Master.Counted.inOrder (h : m.Counted c) (hf : ¬ m.Flying) : m.InOrder c := ⟨h, fun h => absurd h hf⟩

theorem flying_of_chunkWaited (h : chunkWaited m = true) : m.Flying := by
  simpa [chunkWaited, Master.Flying] using h

theorem Master.Calm.refl : m.Calm m := ⟨rfl, rfl, rfl, fun h => ⟨h, rfl, rfl⟩⟩

theorem Master.Calm.trans (h : m.Calm m') (h' : m'.Calm n) : m.Calm n :=
  ⟨h'.cnt_eq.trans h.cnt_eq, h'.len_eq.trans h.len_eq, h'.lenExt_eq.trans h.lenExt_eq, fun hf =>
    have ⟨hf', hx', ha'⟩ := h'.flying hf
    have ⟨hf, hx, ha⟩ := h.flying hf'
    ⟨hf, hx'.trans hx, ha'.trans ha⟩⟩

theorem Master.Calm.counted (h : m.Calm m') (hm : m.Counted c) : m'.Counted c :=
  ⟨h.cnt_eq ▸ hm.from_le, h.cnt_eq ▸ h.len_eq ▸ hm.cnt_le, h.lenExt_eq ▸ h.len_eq ▸ hm.len_le⟩

theorem Master.Calm.inOrder (h : m.Calm m') (hm : m.InOrder c) : m'.InOrder c :=
  ⟨h.counted hm.counted, fun hf => by
    obtain ⟨hf, hx, ha⟩ := h.flying hf
    rw [h.cnt_eq, h.len_eq, Master.moves, hx, ha]
    exact hm.moves_le hf⟩

end master

/-! ## Calm operations -/

/-- An operation that leaves instance k where it is and its master calm. -/
def Calms (k : Nat) {α : Type} (op : Op α) : Prop :=
  ∀ s a t x, s.insts[k]? = some x → op s = .ok (a, t) → ∃ y, t.insts[k]? = some y ∧ x.master.Calm y.master

section rules

variable {k : Nat} {α β : Type}

theorem Calms.bind {op : Op α} {f : α → Op β} (h : Calms k op) (hf : ∀ a, Calms k (f a)) : Calms k (op >>= f) :=
  fun s b t x hx ht => by
    obtain ⟨a, u, ha, hb⟩ := bind_ok ht
    obtain ⟨y, hy, hxy⟩ := h s a u x hx ha
    obtain ⟨z, hz, hyz⟩ := hf a u b t y hy hb
    exact ⟨z, hz, hxy.trans hyz⟩

/-- An operation that leaves the instances alone is calm. -/
theorem calms_same {op : Op α} (h : ∀ s a t, op s = .ok (a, t) → t.insts = s.insts) : Calms k op :=
  fun s a t x hx ht => ⟨x, (h s a t ht).symm ▸ hx, .refl⟩

theorem calms_modInst {f : Inst → Inst} (h : ∀ x : Inst, x.master.Calm (f x).master) : Calms k (modInst k f) :=
  fun _ _ _ x hx ht => by cases ht; exact ⟨f x, by simp [hx], h x⟩

theorem calms_of_reads {op : Op α} (h : Reads k op) : Calms k op := fun s a t x hx ht => by
  obtain ⟨g, n, rfl⟩ := h s a t ht
  exact ⟨{ x with core := g x.core }, by simp [hx], .refl⟩

theorem calms_pure {a : α} : Calms k (pure a : Op α) := calms_same fun _ _ _ h => by cases h; rfl

theorem calms_fault {f : Fault} : Calms k (opFault f : Op α) := fun _ _ _ _ _ h => by cases h

theorem calms_refuse {r : Refusal} : Calms k (opRefuse r : Op α) := fun _ _ _ _ _ h => by cases h

theorem calms_ite {c : Prop} [Decidable c] {a b : Op α} (ha : Calms k a) (hb : Calms k b) :
    Calms k (if c then a else b) := by split <;> assumption

theorem calms_whenB {c : Bool} {op : Op Unit} (h : Calms k op) : Calms k (whenB c op) := calms_ite h calms_pure

theorem calms_require {c : Bool} {r : Refusal} : Calms k (require c r) := calms_ite calms_pure calms_refuse

theorem calms_noRet {op : Op Unit} (h : Calms k op) : Calms k (noRet op) := h.bind fun _ => calms_pure

theorem calms_modState {f : State → State} (h : ∀ s, (f s).insts = s.insts) : Calms k (modState f) :=
  calms_same fun s _ _ e => by cases e; exact h s

theorem calms_getState : Calms k getState := calms_of_reads reads_getState

theorem calms_getCfg : Calms k getCfg := calms_of_reads reads_getCfg

theorem calms_getInstCfg {i : Nat} : Calms k (getInstCfg i) := calms_of_reads reads_getInstCfg

theorem calms_getInst {i : Nat} : Calms k (getInst i) := calms_of_reads reads_getInst

theorem calms_draw : Calms k draw := calms_of_reads reads_draw

theorem calms_retWord {w : Word} : Calms k (retWord w) := calms_pure

theorem calms_retNat {n : Nat} : Calms k (retNat n) := calms_pure

theorem calms_retCode {r : Code} : Calms k (retCode r) := calms_same fun _ _ _ h => by cases h; rfl

theorem calms_modRegs {f : Regs → Regs} : Calms k (modRegs k f) := calms_modInst fun _ => .refl

theorem calms_modCore {f : Core → Core} : Calms k (modCore k f) := calms_modInst fun _ => .refl

theorem calms_modSlave {f : Slave → Slave} : Calms k (modSlave k f) := calms_modInst fun _ => .refl

theorem calms_modRecov {f : Recov → Recov} : Calms k (modRecov k f) := calms_modInst fun _ => .refl

theorem calms_modOuts {f : Outs → Outs} : Calms k (modOuts k f) := calms_modInst fun _ => .refl

theorem calms_modThread {f : Thread → Thread} : Calms k (modThread k f) := calms_modInst fun _ => .refl

theorem calms_modMaster {f : Master → Master} (h : ∀ m : Master, m.Calm (f m)) : Calms k (modMaster k f) :=
  calms_modInst fun x => h x.master

/-- A change of the master that touches neither the counts nor the chunk, nor the wait. -/
theorem calms_aside {f : Master → Master} (h : ∀ m, (f m).cnt = m.cnt ∧ (f m).len = m.len ∧ (f m).lenExt = m.lenExt
    ∧ (f m).waiting = m.waiting ∧ (f m).mstate = m.mstate ∧ (f m).xlen = m.xlen ∧ (f m).addrInChunk = m.addrInChunk
    := by exact fun _ => ⟨rfl, rfl, rfl, rfl, rfl, rfl, rfl⟩) : Calms k (modMaster k f) :=
  calms_modMaster fun m => by
    obtain ⟨hc, hl, he, hw, hs, hx, ha⟩ := h m
    exact ⟨hc, hl, he, fun hf => ⟨⟨hw ▸ hf.1, hs ▸ hf.2⟩, hx, ha⟩⟩

/-- A change of the master that keeps the counts and waits for no chunk. -/
theorem calms_still {f : Master → Master} (hf : ∀ m, ¬ (f m).Flying)
    (h : ∀ m, (f m).cnt = m.cnt ∧ (f m).len = m.len ∧ (f m).lenExt = m.lenExt := by exact fun _ => ⟨rfl, rfl, rfl⟩) :
    Calms k (modMaster k f) :=
  calms_modMaster fun m => ⟨(h m).1, (h m).2.1, (h m).2.2, fun h => absurd h (hf m)⟩

theorem leads_of_calms {J : Master → Prop} {op : Op α} (h : Calms k op) (hJ : ∀ m m', m.Calm m' → J m → J m') :
    Leads k (fun x => J x.master) op fun _ x => J x.master := fun s a t x hx hj ht => by
  obtain ⟨y, hy, hxy⟩ := h s a t x hx ht
  exact ⟨y, hy, hJ _ _ hxy hj⟩

end rules

section ops

variable {k : Nat} {α β : Type}

theorem reads_readMsg {i : Nat} {d : Word} {n : Nat} : Reads i (readMsg d n) :=
  reads_bind (reads_bind reads_getState fun _ => reads_memRead) fun _ => by
    split
    · exact reads_pure _
    · exact fun _ _ _ h => nomatch h

theorem reads_curMsg {i j : Nat} : Reads i (curMsg j) := reads_bind reads_getInst fun _ => by
  split
  · exact reads_readMsg
  · exact reads_refuse _

theorem calms_needM {i : Nat} : Calms k (needM i) := calms_getInst.bind fun _ => calms_require

theorem calms_needS {i : Nat} : Calms k (needS i) := calms_getInst.bind fun _ => calms_require

theorem calms_needSlave : Calms k needSlave := calms_getCfg.bind fun _ => calms_require

theorem calms_needLocks {i : Nat} : Calms k (needLocks i) := calms_needM.bind fun _ => calms_needS

theorem calms_needLoan {i : Nat} {d : Side} : Calms k (needLoan i d) := calms_getInst.bind fun _ => calms_require

/-! ### Byte spaces -/

theorem calms_memRead {m : Memory} {a n : Nat} : Calms k (memRead m a n) := calms_of_reads reads_memRead

theorem calms_poolRead {n : Nat} : Calms k (poolRead n) := calms_getState.bind fun _ => calms_memRead

theorem calms_dmaRead {a n : Nat} : Calms k (dmaRead a n) := calms_getState.bind fun _ => calms_memRead

theorem calms_hostRead {a n : Nat} : Calms k (hostRead a n) := calms_getState.bind fun _ => calms_memRead

theorem calms_poolWrite {bs : List Byte} : Calms k (poolWrite bs) := calms_modState fun _ => rfl

theorem calms_dmaWrite {a : Nat} {bs : List Byte} : Calms k (dmaWrite a bs) :=
  calms_ite (calms_modState fun _ => rfl) calms_fault

theorem calms_hostWrite {a : Nat} {bs : List Byte} : Calms k (hostWrite a bs) :=
  calms_ite (calms_modState fun _ => rfl) calms_fault

theorem calms_readMsg {d : Word} {n : Nat} : Calms k (readMsg d n) := calms_of_reads reads_readMsg

theorem calms_readMsgs {d : Word} {j n : Nat} : Calms k (readMsgs d j n) := by
  induction n generalizing j with
  | zero => exact calms_pure
  | succ n ih => exact calms_readMsg.bind fun _ => ih.bind fun _ => calms_pure

theorem calms_curMsg {i : Nat} : Calms k (curMsg i) := calms_of_reads reads_curMsg

/-! ### Streams, errors, signals -/

theorem calms_logRec {r : LogRec} : Calms k (logRec k r) := calms_modOuts

theorem calms_raiseErr {e : Word} : Calms k (raiseErr k e) := calms_aside

theorem calms_complete : Calms k (complete k) := calms_aside

theorem calms_disarmWait : Calms k (disarmWait k) := calms_still fun _ h => nomatch h.1

theorem calms_latch {w : Word} : Calms k (latch k w) := calms_modRegs

/-! ### Registers -/

theorem calms_regRead {r : Reg} : Calms k (regRead k r) := calms_of_reads reads_regRead

theorem calms_readGroup : Calms k readGroup := calms_getState.bind fun _ => calms_pure

theorem calms_noteWrite {r : Reg} {v : Word} : Calms k (noteWrite k r v) := calms_modOuts

theorem calms_coreResetMaster : Calms k (coreResetMaster k) :=
  calms_draw.bind fun _ => calms_draw.bind fun _ => calms_draw.bind fun _ => calms_modCore

theorem calms_coreResetSlave : Calms k (coreResetSlave k) :=
  calms_draw.bind fun _ => calms_draw.bind fun _ => calms_draw.bind fun _ => calms_modCore

theorem calms_writeFunCtrl {v : Word} : Calms k (writeFunCtrl k v) :=
  calms_getInst.bind fun _ => calms_modRegs.bind fun _ =>
    (calms_whenB calms_coreResetMaster).bind fun _ => calms_whenB calms_coreResetSlave

theorem calms_sampleData {x : Inst} {c : Cmd} {q : Path} {n : Nat} : Calms k (sampleData x c q n) :=
  calms_ite (by cases q; exacts [calms_pure, calms_poolRead, calms_dmaRead]) calms_pure

theorem calms_issueCmd {c : Cmd} {en : BitVec 4} : Calms k (issueCmd k c en) :=
  calms_getInst.bind fun _ => calms_getCfg.bind fun _ => calms_getInstCfg.bind fun _ =>
    calms_ite calms_refuse <| calms_ite calms_pure <| calms_ite calms_pure <| calms_ite calms_refuse <|
      calms_sampleData.bind fun _ => calms_draw.bind fun _ => calms_modCore

theorem calms_writeCmd {v : Word} : Calms k (writeCmd k v) := by
  unfold writeCmd
  split
  · exact calms_refuse
  · exact calms_modRegs.bind fun _ => calms_whenB calms_issueCmd

theorem calms_regWrite {r : Reg} {v : Word} : Calms k (regWrite k r v) := calms_noteWrite.bind fun _ => by
  cases r
  case funCtrl => exact calms_writeFunCtrl
  case cmd => exact calms_writeCmd
  all_goals exact calms_modRegs

theorem calms_engineCmd {w : Word} : Calms k (engineCmd k w) := calms_regRead.bind fun _ => calms_regWrite

/-! ### The pool loan -/

theorem calms_setLoan {d : Side} {b : Bool} : Calms k (setLoan k d b) := by
  unfold setLoan
  split
  · exact calms_aside
  · exact calms_modSlave

theorem calms_poolAcq {d : Side} : Calms k (poolAcq k d) := calms_getState.bind fun _ =>
  calms_ite (.bind (calms_modState fun _ => rfl) fun _ => calms_setLoan.bind fun _ => calms_pure) calms_pure

theorem calms_poolRel {d : Side} : Calms k (poolRel k d) := calms_getInst.bind fun _ =>
  calms_ite (.bind (calms_modState fun _ => rfl) fun _ => calms_setLoan) calms_pure

theorem calms_selectMode {d : Side} : Calms k (selectMode k d) := calms_getInstCfg.bind fun _ => by
  split
  · exact calms_pure
  · exact calms_poolAcq.bind fun _ => calms_pure
  · exact calms_pure
  · exact calms_pure

/-! ### Timing and initialisation -/

theorem calms_timingWord {i : Nat} : Calms k (timingWord i) :=
  calms_getCfg.bind fun _ => calms_getInstCfg.bind fun _ => calms_pure

theorem calms_timingInit : Calms k (timingInit k) :=
  calms_getCfg.bind fun _ => calms_timingWord.bind fun _ => calms_regWrite.bind fun _ =>
    calms_regWrite.bind fun _ => calms_regWrite.bind fun _ => calms_regWrite

theorem calms_regInit : Calms k (regInit k) :=
  calms_regWrite.bind fun _ => calms_getInst.bind fun _ => calms_regWrite.bind fun _ => calms_timingInit

theorem calms_regInitWrite {a : Nat} : Calms k (regInitWrite k a) :=
  calms_getInst.bind fun _ => calms_getCfg.bind fun _ => calms_timingWord.bind fun _ => by
    split <;> exact calms_regWrite

/-! ### Buffers a failure leaves unspecified -/

theorem calms_losePart {a n : Nat} : Calms k (losePart a n) := calms_draw.bind fun _ => calms_modState fun _ => rfl

theorem calms_loseParts : ∀ l : List (Nat × Nat), Calms k (loseParts l)
  | [] => calms_pure
  | _ :: r => calms_losePart.bind fun _ => calms_loseParts r

theorem calms_loseTail : Calms k (loseTail k) := calms_getState.bind fun _ => calms_getInst.bind fun _ => by
  split
  · exact calms_pure
  · exact calms_losePart

theorem calms_loseTails : Calms k (loseTails k) :=
  calms_getState.bind fun _ => calms_getInst.bind fun _ => calms_loseParts _

theorem calms_loseBuffers : Calms k (loseBuffers k) :=
  calms_getInst.bind fun _ => calms_getCfg.bind fun _ => calms_getInstCfg.bind fun _ =>
    calms_draw.bind fun _ => (calms_whenB calms_poolWrite).bind fun _ => calms_draw.bind fun _ =>
      .bind (calms_modState fun _ => rfl) fun _ => calms_draw.bind fun _ => calms_modRegs.bind fun _ => calms_loseTail

/-! ### Transfer modes -/

theorem calms_progByte {a : Word} {d : Option Byte} : Calms k (progByte k a d) := by
  cases d
  · exact calms_engineCmd
  · exact calms_regWrite.bind fun _ => calms_engineCmd

theorem calms_progBuf {e : Side} {a : Word} {d : ArmData} : Calms k (progBuf k e a d) :=
  calms_needLoan.bind fun _ => calms_getCfg.bind fun _ => by
    cases d
    · exact calms_ite calms_refuse <| calms_poolWrite.bind fun _ => calms_regWrite.bind fun _ =>
        calms_engineCmd
    · exact calms_ite calms_refuse <| calms_regWrite.bind fun _ => calms_engineCmd

theorem calms_dmaAddrOf : Calms k (dmaAddrOf k) := calms_of_reads reads_dmaAddrOf

theorem calms_progDma {inc : Bool} {a : Word} {d : ArmData} : Calms k (progDma k inc a d) :=
  calms_getCfg.bind fun _ => calms_dmaAddrOf.bind fun _ => by
    cases d
    · exact calms_ite calms_refuse <| calms_dmaWrite.bind fun _ => calms_regWrite.bind fun _ =>
        calms_regWrite.bind fun _ => calms_engineCmd
    · exact calms_ite calms_refuse <| calms_regWrite.bind fun _ => calms_regWrite.bind fun _ =>
        calms_engineCmd

theorem calms_progTx {e : Side} {m : Mode} {a : Word} {bs : List Byte} : Calms k (progTx k e m a bs) := by
  cases m
  · exact calms_progByte
  · exact (calms_progBuf : Calms k (progBuf k e a (.tx bs)))
  · exact (calms_progDma : Calms k (progDma k false a (.tx bs)))
  · exact (calms_progDma : Calms k (progDma k true a (.tx bs)))

theorem calms_progRx {e : Side} {m : Mode} {a : Word} {n : Nat} : Calms k (progRx k e m a n) := by
  cases m
  · exact (calms_progByte : Calms k (progByte k a none))
  · exact (calms_progBuf : Calms k (progBuf k e a (.rx (BitVec.ofNat 32 n))))
  · exact (calms_progDma : Calms k (progDma k false a (.rx (BitVec.ofNat 32 n))))
  · exact (calms_progDma : Calms k (progDma k true a (.rx (BitVec.ofNat 32 n))))

theorem calms_setSlaveChunk {n : Nat} {m : Mode} : Calms k (setSlaveChunk k n m) :=
  calms_modSlave

theorem calms_extract {m : Mode} {n : Nat} : Calms k (extract k m n) := calms_of_reads reads_extract

theorem calms_received {e : Side} {m : Mode} {n : Nat} : Calms k (received k e m n) := calms_of_reads reads_received

theorem calms_sArmRx : Calms k (sArmRx k) := calms_getCfg.bind fun _ => calms_getInst.bind fun _ => by
  split
  · exact calms_setSlaveChunk
  · exact calms_progBuf.bind fun _ => calms_setSlaveChunk
  all_goals exact calms_progDma.bind fun _ => calms_setSlaveChunk

theorem calms_sArmTx : Calms k (sArmTx k) := calms_getCfg.bind fun _ => calms_getInst.bind fun _ =>
  calms_ite (calms_progTx.bind fun _ => calms_setSlaveChunk)
    (calms_memRead.bind fun _ => calms_progTx.bind fun _ => calms_setSlaveChunk)

/-! ### Resets -/

theorem calms_ctrlReset : Calms k (ctrlReset k) :=
  calms_regRead.bind fun _ => calms_regWrite.bind fun _ => calms_regWrite

theorem calms_sAbort : Calms k (sAbort k) :=
  calms_modSlave.bind fun _ => calms_poolRel.bind fun _ => calms_aside

theorem calms_busReset : Calms k (busReset k) :=
  calms_ctrlReset.bind fun _ => calms_timingInit.bind fun _ => calms_getCfg.bind fun _ =>
    calms_whenB calms_sAbort

/-! ### The master engine -/

theorem calms_finishMsg {m : MState} (h : m ≠ .chunk) : Calms k (finishMsg k m) :=
  .bind (calms_still fun _ hf => h hf.2) fun _ => calms_complete

theorem calms_noteStop {b : Bool} : Calms k (noteStop k b) := calms_aside

theorem calms_issueStop : Calms k (issueStop k) :=
  calms_engineCmd.bind fun _ => calms_still fun _ h => nomatch h.2

/-- A transfer waited for ends in error, and no other chunk is waited for (R318, R320). -/
theorem calms_fail : Calms k (modMaster k fun p =>
    { p with mstate := if p.waiting = .xfer then .completeErr else p.mstate }) :=
  calms_still fun m ⟨hw, hs⟩ => by
    dsimp only at hw hs
    rw [if_pos hw] at hs
    cases hs

theorem calms_mArb : Calms k (mArb k) :=
  calms_raiseErr.bind fun _ => calms_fail.bind fun _ => calms_complete

theorem calms_mStopDone : Calms k (mStopDone k) := calms_getInst.bind fun _ =>
  calms_ite calms_complete <| calms_ite
    (calms_noteStop.bind fun _ => calms_finishMsg (by split_ifs <;> exact nofun)) calms_logRec

theorem calms_mFault : Calms k (mFault k) := calms_fail.bind fun _ => calms_complete

theorem calms_mPreempt : Calms k (mPreempt k) := calms_getInst.bind fun _ =>
  calms_ite (calms_raiseErr.bind fun _ => calms_regRead.bind fun _ => calms_regWrite.bind fun _ =>
    calms_regWrite.bind fun _ => calms_finishMsg nofun) calms_pure

/-! ### The blocking side -/

theorem calms_setPc {pc : Pc} : Calms k (setPc k pc) := calms_modThread

theorem calms_validSet {d : Word} {n : Nat} : Calms k (validSet d n) :=
  calms_ite calms_pure (calms_readMsgs.bind fun _ => calms_pure)

theorem calms_submit {n : Nat} {d b : Word} : Calms k (submit k n d b) :=
  calms_getInst.bind fun _ => calms_ite calms_refuse <| calms_ite calms_retCode <|
    calms_validSet.bind fun _ => calms_ite (calms_modThread.bind fun _ => calms_pure) calms_retCode

theorem calms_attemptDone {r : Result} : Calms k (attemptDone k r) :=
  calms_getInst.bind fun _ => calms_getCfg.bind fun _ => calms_ite (calms_modThread.bind fun _ => calms_pure)
    ((calms_whenB calms_loseTails).bind fun _ => calms_modThread.bind fun _ => calms_retWord)

theorem calms_writeBackLen {d : Word} {n l : Nat} : Calms k (writeBackLen d n l) := by
  unfold writeBackLen
  split
  · exact calms_pure.bind fun _ => calms_hostWrite
  · exact calms_draw.bind fun _ => calms_pure.bind fun _ => calms_hostWrite

theorem calms_wakeSignalled : Calms k (wakeSignalled k) :=
  calms_disarmWait.bind fun _ => calms_getInst.bind fun _ => by
    split
    · exact (calms_whenB calms_busReset).bind fun _ => calms_loseTail.bind fun _ => calms_pure
    · split
      · exact calms_refuse
      · exact calms_readMsg.bind fun _ => (calms_whenB calms_writeBackLen).bind fun _ => calms_pure

theorem calms_wakeExpired : Calms k (wakeExpired k) :=
  .bind (calms_still fun _ h => nomatch h.1) fun _ => calms_busReset.bind fun _ => calms_loseBuffers.bind fun _ =>
    calms_pure

theorem calms_xferExit : Calms k (xferExit k) :=
  .bind (calms_still fun _ h => nomatch h.2) fun _ => calms_disarmWait.bind fun _ => calms_poolRel

theorem calms_busBusy : Calms k (busBusy k) := calms_regRead.bind fun _ => calms_pure

/-! ### The slave engine -/

theorem calms_selectSlot : Calms k (selectSlot k) := calms_getInst.bind fun _ =>
  calms_whenB (calms_modSlave.bind fun _ => calms_logRec)

theorem calms_startOfWrite {a : Byte} : Calms k (startOfWrite k a) :=
  calms_selectSlot.bind fun _ => calms_modSlave.bind fun _ => calms_sArmRx

theorem calms_startOfRead {a : Byte} : Calms k (startOfRead k a) :=
  calms_modSlave.bind fun _ => calms_sArmTx

theorem calms_sFinal : Calms k (sFinal k) := calms_getInst.bind fun _ =>
  (calms_whenB (calms_modSlave.bind fun _ => calms_modOuts)).bind fun _ => calms_modSlave.bind fun _ =>
    calms_poolRel.bind fun _ => calms_engineCmd.bind fun _ => calms_aside

theorem calms_sMatch : Calms k (sMatch k) :=
  calms_mPreempt.bind fun _ => calms_getInst.bind fun _ => (calms_whenB calms_sFinal).bind fun _ =>
    .bind calms_aside fun _ => calms_regRead.bind fun _ => calms_selectMode.bind fun _ =>
      calms_modSlave.bind fun _ => calms_ite calms_startOfRead calms_startOfWrite

theorem calms_slaveFail {e : Word} : Calms k (slaveFail k e) := calms_raiseErr.bind fun _ => calms_busReset

theorem calms_sData {b : Bool} : Calms k (sData k b) := calms_getInst.bind fun _ => calms_getCfg.bind fun _ => by
  split
  · refine calms_extract.bind fun n => ?_
    cases n
    · exact calms_slaveFail
    · exact calms_ite calms_slaveFail <| calms_received.bind fun _ => calms_ite calms_slaveFail <|
        calms_modSlave.bind fun _ => calms_whenB calms_sArmRx
  · exact calms_logRec

theorem calms_sTxAck : Calms k (sTxAck k) := calms_getInst.bind fun _ =>
  calms_ite calms_logRec <| calms_extract.bind fun n => by
    cases n
    · exact calms_slaveFail
    · exact calms_ite calms_slaveFail <| calms_modSlave.bind fun _ => calms_sArmTx

theorem calms_sStop {w : Word} : Calms k (sStop k w) := calms_getInst.bind fun _ =>
  (calms_whenB calms_sData).bind fun _ => calms_getInst.bind fun _ => calms_sFinal.bind fun _ => calms_pure

/-! ### The interrupt -/

theorem calms_mine {i : Nat} : Calms k (mine i) := calms_readGroup.bind fun _ => calms_pure

theorem calms_clearSts {w : Word} : Calms k (clearSts k w) := calms_regWrite

theorem calms_smbusStage {w : Word} : Calms k (smbusStage k w) := calms_ite
  (calms_regRead.bind fun _ => (calms_whenB (calms_regWrite.bind fun _ => calms_modOuts)).bind fun _ =>
    calms_clearSts.bind fun _ => calms_pure) calms_pure

theorem calms_faultStage {w : Word} : Calms k (faultStage k w) :=
  (calms_whenB calms_raiseErr).bind fun _ => (calms_whenB calms_raiseErr).bind fun _ =>
    calms_clearSts.bind fun _ => calms_busReset.bind fun _ => calms_mFault

theorem calms_slaveStopStage {w : Word} : Calms k (slaveStopStage k w) :=
  calms_sStop.bind fun _ => calms_clearSts.bind fun _ => calms_pure

theorem calms_recoverDone : Calms k (recoverDone k) := calms_getInst.bind fun _ => calms_ite calms_complete calms_logRec

theorem calms_sweepClear {w : Word} {l : List Nat} : Calms k (sweepClear k w l) := by
  induction l with
  | nil => exact calms_pure
  | cons b l ih => exact (calms_whenB calms_clearSts).bind fun _ => ih

theorem calms_sweep {w : Word} : Calms k (sweep k w) :=
  calms_logRec.bind fun _ => calms_sweepClear.bind fun _ => calms_raiseErr.bind fun _ =>
    calms_busReset.bind fun _ => calms_mFault

/-! ### Recovery -/

theorem calms_recoverReturn {r : Code} : Calms k (recoverReturn k r) :=
  calms_getInst.bind fun _ => calms_ite (calms_setPc.bind fun _ => calms_pure)
    (calms_modThread.bind fun _ => calms_retCode)

theorem calms_addStatus {w : Word} : Calms k (addStatus k w) := calms_modRecov

theorem calms_setRState {r : RState} : Calms k (setRState k r) := calms_modRecov

theorem calms_armRecovery {w : Waiting} (hw : w ≠ .xfer) : Calms k (armRecovery k w) :=
  .bind calms_aside fun _ => calms_still fun _ h => hw h.1

theorem calms_recoverEntry : Calms k (recoverEntry k) := calms_getInst.bind fun _ =>
  calms_ite calms_recoverReturn (calms_regRead.bind fun _ => calms_setPc.bind fun _ => calms_pure)

theorem calms_pathIdle : Calms k (pathIdle k) :=
  calms_addStatus.bind fun _ => calms_recoverReturn

theorem calms_pathMasterStop : Calms k (pathMasterStop k) :=
  calms_modRecov.bind fun _ => calms_addStatus.bind fun _ =>
    .bind (calms_armRecovery nofun) fun _ => calms_setRState.bind fun _ => calms_engineCmd.bind fun _ =>
      calms_setPc.bind fun _ => calms_pure

theorem calms_stopWake {e : Bool} : Calms k (stopWake k e) :=
  calms_getInst.bind fun _ => calms_disarmWait.bind fun _ => calms_setRState.bind fun _ =>
    calms_ite (calms_addStatus.bind fun _ => calms_recoverReturn) <|
      calms_ite (calms_addStatus.bind fun _ => calms_recoverReturn) calms_recoverReturn

theorem calms_pathSlaveDead : Calms k (pathSlaveDead k) :=
  calms_modRecov.bind fun _ => calms_addStatus.bind fun _ =>
    calms_regRead.bind fun _ => calms_modRecov.bind fun _ =>
      calms_setRState.bind fun _ => calms_setPc.bind fun _ => calms_pure

theorem calms_deadStep {t a : Nat} : Calms k (deadStep k t a) := calms_ite
  (calms_regInitWrite.bind fun _ => calms_setPc.bind fun _ => calms_pure)
  (.bind (calms_armRecovery nofun) fun _ => calms_engineCmd.bind fun _ => calms_setPc.bind fun _ => calms_pure)

theorem calms_deadWake {t : Nat} : Calms k (deadWake k t) :=
  calms_disarmWait.bind fun _ => calms_regRead.bind fun _ =>
    calms_ite (calms_setRState.bind fun _ => calms_recoverReturn) <|
      calms_ite (calms_setRState.bind fun _ => calms_setPc.bind fun _ => calms_pure)
        (calms_setPc.bind fun _ => calms_pure)

theorem calms_deadRestore {a : Nat} : Calms k (deadRestore k a) :=
  calms_getInst.bind fun _ => calms_ite
    (calms_regWrite.bind fun _ => calms_setPc.bind fun _ => calms_pure)
    (calms_regWrite.bind fun _ => calms_addStatus.bind fun _ => calms_setRState.bind fun _ =>
      calms_recoverReturn)

theorem calms_pathUnclassified : Calms k (pathUnclassified k) :=
  calms_logRec.bind fun _ => calms_addStatus.bind fun _ => calms_recoverReturn

theorem calms_enterPath {c : Word} : Calms k (enterPath k c) :=
  calms_needM.bind fun _ => calms_getInst.bind fun _ => calms_require.bind fun _ =>
    calms_whenB calms_modThread

/-! ### Host operations -/

theorem calms_offered {i : Nat} : Calms k (offered i) := calms_getInst.bind fun _ => calms_require

theorem calms_devInit : Calms k (devInit k) :=
  calms_getCfg.bind fun _ => calms_getInstCfg.bind fun _ => calms_ite calms_retCode <|
    calms_needM.bind fun _ => calms_getInst.bind fun _ =>
      calms_ite calms_retCode <| calms_regInit.bind fun _ => calms_retCode

theorem calms_slaveRead {d c : Word} : Calms k (slaveRead k d c) := calms_getInst.bind fun _ =>
  calms_ite calms_retCode <| calms_ite calms_retCode <| by
    split
    · exact calms_retCode
    · exact calms_memRead.bind fun _ => calms_hostWrite.bind fun _ => calms_modSlave.bind fun _ => calms_retWord

theorem calms_slaveWrite {n : Nat} {w : Word} : Calms k (slaveWrite k n w) := calms_getInst.bind fun _ =>
  calms_getCfg.bind fun _ => calms_ite calms_retCode <| calms_ite calms_retCode <|
    calms_hostRead.bind fun _ => calms_modSlave.bind fun _ => calms_retNat

theorem calms_slaveEnable {a : BitVec 16} : Calms k (slaveEnable k a) := calms_ite calms_retCode <|
  calms_regWrite.bind fun _ => calms_regRead.bind fun _ => calms_regWrite.bind fun _ =>
    calms_modSlave.bind fun _ => calms_retCode

theorem calms_slaveDisable : Calms k (slaveDisable k) :=
  calms_regRead.bind fun _ => calms_regWrite.bind fun _ =>
    calms_modSlave.bind fun _ =>
      calms_sAbort.bind fun _ => calms_retCode

/-! ### The environment -/

theorem calms_reportCount {f : InFlight} {n : Nat} {m : Option Word} : Calms k (reportCount k f n m) :=
  calms_getCfg.bind fun _ => calms_getInstCfg.bind fun _ => calms_modRegs

theorem calms_sinkData {f : InFlight} {bs : List Byte} : Calms k (sinkData k f bs) := by
  unfold sinkData
  split
  · split
    · exact calms_modRegs
    · exact calms_pure
  · exact calms_poolWrite
  · exact calms_dmaWrite

theorem calms_addTrace {t : List TraceItem} : Calms k (addTrace k t) := calms_modCore

theorem calms_closeWindow {f : Option InFlight} : Calms k (closeWindow k f) := by
  cases f
  · exact calms_pure
  · exact calms_whenB (calms_reportCount.bind fun _ => calms_modCore)

theorem calms_remoteStop : Calms k (remoteStop k) := calms_getInst.bind fun _ =>
  calms_require.bind fun _ => calms_closeWindow.bind fun _ => calms_modCore.bind fun _ => calms_latch

theorem calms_endData {f : InFlight} {n : Nat} {m : Option Word} {t : List TraceItem} {b : Word} {s : Bool} :
    Calms k (endData k f n m t b s) :=
  calms_reportCount.bind fun _ => calms_addTrace.bind fun _ => calms_modCore.bind fun _ => calms_latch

theorem calms_coreAck {b : Bool} {m : Option Word} : Calms k (coreAck k b m) := calms_getInst.bind fun _ => by
  split
  · exact calms_ite calms_endData calms_refuse
  · exact calms_refuse

theorem calms_coreNack {j : Nat} {b : Bool} {m : Option Word} : Calms k (coreNack k j b m) :=
  calms_getInst.bind fun _ => by
    split
    · exact calms_ite (calms_endData.bind fun _ => calms_whenB calms_remoteStop) calms_refuse
    · exact calms_refuse

theorem calms_coreReceive {f : InFlight} {bs : List Byte} {b : Bool} {m : Option Word} :
    Calms k (coreReceive k f bs b m) := calms_ite (calms_sinkData.bind fun _ => calms_endData) calms_refuse

theorem calms_slaveWindow {f : InFlight} {bs : List Byte} {b : Bool} {m : Option Word} :
    Calms k (slaveWindow k f bs b m) := calms_ite
  (calms_sinkData.bind fun _ => calms_reportCount.bind fun _ => calms_modCore.bind fun _ =>
    (calms_whenB calms_latch).bind fun _ => calms_whenB calms_remoteStop) calms_refuse

theorem calms_remoteByte {a : Byte} {b : Bool} : Calms k (remoteByte k a b) :=
  calms_getInst.bind fun _ => calms_ite (calms_modRegs.bind fun _ =>
    calms_latch.bind fun _ => calms_whenB calms_remoteStop) calms_refuse

theorem calms_coreRx {d : RxData} {b : Bool} {m : Option Word} :
    Calms k (coreRx k d b m) := calms_getInst.bind fun _ => by
  split
  · exact calms_remoteByte
  · exact calms_ite calms_slaveWindow <| calms_ite calms_coreReceive calms_refuse
  · exact calms_refuse

theorem calms_drawLines : Calms k (drawLines k) := calms_draw.bind fun _ => calms_draw.bind fun _ => calms_modCore

theorem calms_coreStop : Calms k (coreStop k) := calms_getInst.bind fun _ => by
  split
  · exact calms_ite (calms_addTrace.bind fun _ => calms_modCore.bind fun _ => calms_latch.bind fun _ =>
      calms_whenB calms_drawLines) calms_remoteStop
  · exact calms_remoteStop

theorem calms_faultData {f : InFlight} {bs : List Byte} : Calms k (faultData k f bs) := calms_ite
  (calms_draw.bind fun _ => calms_sinkData) calms_pure

theorem calms_cutShort {f : Option InFlight} : Calms k (cutShort k f) := by
  cases f
  · exact calms_pure
  · exact calms_getInst.bind fun _ => calms_draw.bind fun _ => calms_faultData.bind fun _ => calms_draw.bind fun _ =>
      calms_reportCount.bind fun _ => calms_draw.bind fun _ => calms_addTrace.bind fun _ => calms_modCore

theorem calms_coreFault {w a : Word} : Calms k (coreFault k w a) :=
  calms_getInst.bind fun _ => calms_cutShort.bind fun _ => calms_latch

theorem calms_drawXfer : Calms k (drawXfer k) :=
  calms_draw.bind fun _ => calms_draw.bind fun _ => calms_modCore

theorem calms_coreArb {a : Word} : Calms k (coreArb k a) := calms_getInst.bind fun _ =>
  calms_require.bind fun _ => calms_coreFault.bind fun _ => calms_modCore

theorem calms_coreAbn {a : Word} : Calms k (coreAbn k a) :=
  calms_coreFault.bind fun _ => calms_drawXfer

theorem calms_coreSclto {a : Word} : Calms k (coreSclto k a) :=
  calms_coreFault.bind fun _ => calms_drawXfer.bind fun _ => calms_draw.bind fun _ => calms_modCore

theorem calms_coreMatch {a : Byte} {b : Bool} : Calms k (coreMatch k a b) :=
  calms_getInst.bind fun _ => calms_require.bind fun _ => calms_cutShort.bind fun _ =>
    calms_draw.bind fun _ => calms_modRegs.bind fun _ =>
      calms_modCore.bind fun _ => calms_latch

theorem calms_coreRecovered {b : Bool} : Calms k (coreRecovered k b) := calms_getInst.bind fun _ => by
  split
  · exact calms_ite (calms_addTrace.bind fun _ => calms_modCore.bind fun _ => calms_latch) calms_refuse
  · exact calms_refuse

theorem calms_expireWait {pc : Pc} : Calms k (expireWait k pc) := calms_needM.bind fun _ =>
  calms_getInst.bind fun _ => calms_require.bind fun _ => .bind (calms_still fun _ h => nomatch h.1) fun _ =>
    calms_setPc

theorem calms_expire : Calms k (expire k) := calms_getInst.bind fun _ => by
  split
  · exact calms_expireWait.bind fun _ => calms_loseBuffers
  · exact calms_expireWait
  · exact calms_expireWait
  · exact calms_require.bind fun _ => calms_setPc
  · exact calms_setPc
  · exact calms_refuse

/-! ### The operator's BUS_RESET -/

theorem calms_resetReturn : Calms k (resetReturn k) :=
  calms_modThread.bind fun _ => calms_retCode

theorem calms_resetCtrlStep {f : Word} {a : Nat} : Calms k (resetCtrlStep k f a) := calms_ite
  (calms_regWrite.bind fun _ => calms_setPc.bind fun _ => calms_pure)
  (calms_regWrite.bind fun _ => calms_setPc.bind fun _ => calms_pure)

theorem calms_resetTimingStep {a : Nat} : Calms k (resetTimingStep k a) :=
  calms_getCfg.bind fun _ => calms_regInitWrite.bind fun _ => calms_ite
    (calms_setPc.bind fun _ => calms_pure) <| calms_ite
    (calms_setPc.bind fun _ => calms_pure) calms_resetReturn

end ops

/-! ## The operations that move the counts -/

section counts

variable {k : Nat} {α : Type} {c : Word}

theorem leads_mono {P : Inst → Prop} {op : Op α} {Q Q' : α → Inst → Prop} (h : Leads k P op Q)
    (hQ : ∀ a x, Q a x → Q' a x) : Leads k P op Q' := fun s a t x hx hp ht => by
  obtain ⟨y, hy, hq⟩ := h s a t x hx hp ht
  exact ⟨y, hy, hQ a y hq⟩

theorem inOrder_of_calms {op : Op α} (h : Calms k op) :
    Leads k (fun x => x.master.InOrder c) op fun _ x => x.master.InOrder c :=
  leads_of_calms h fun _ _ hc => hc.inOrder

theorem counted_of_calms {op : Op α} (h : Calms k op) :
    Leads k (fun x => x.master.Counted c) op fun _ x => x.master.Counted c :=
  leads_of_calms h fun _ _ hc => hc.counted

theorem calm_of_calms {m : Master} {op : Op α} (h : Calms k op) :
    Leads k (fun y => m.Calm y.master) op fun _ y => m.Calm y.master :=
  leads_of_calms h fun _ _ hc hm => hm.trans hc

/-- An instance just read is calm against itself. -/
theorem calm_at {x : Inst} {op : Op α} {Q : α → Inst → Prop} (h : Leads k (fun y => x.master.Calm y.master) op Q) :
    Leads k (· = x) op Q := leads_at (P := fun y => x.master.Calm y.master) .refl h

/-- Reading leaves the master as it is. -/
theorem master_of_reads {J : Master → Prop} {op : Op α} (h : Reads k op) :
    Leads k (fun x => J x.master) op fun _ x => J x.master := fun s a t x hx hj ht => by
  obtain ⟨g, n, rfl⟩ := h s a t ht
  exact ⟨{ x with core := g x.core }, by simp [hx], hj⟩

/-! ### The next chunk -/

/-- A chunk planned before the end of the message stays within its length (R260 to R263). -/
theorem planChunk_payload_le {g : Config} {m : Msg} {p : Master} (h : p.cnt.toNat < p.len.toNat) :
    p.cnt.toNat + (planChunk g m p).payload ≤ p.len.toNat := by
  unfold planChunk
  dsimp only
  by_cases ha : (m.rd && (!p.started && !m.noStart)) = true
  · rw [if_pos ha]; exact Nat.le_of_lt h
  · rw [if_neg ha]
    dsimp only
    by_cases hl : (m.rd && m.recvLen && !p.lenExt) = true
    · rw [if_pos hl]; omega
    · rw [if_neg hl]; omega

/-- What is recorded of a planned chunk moves no more than its payload: the address byte is not counted. -/
theorem moves_planned_le (q : Plan) : (BitVec.ofNat 32 (planLen q)).toNat - (if q.addr then 1 else 0) ≤ q.payload := by
  have hmod : (BitVec.ofNat 32 (planLen q)).toNat ≤ planLen q := by
    rw [BitVec.toNat_ofNat]; exact Nat.mod_le _ _
  unfold planLen at hmod ⊢
  omega

/-- Counted, with bytes left to move. -/
structure Master.Short (c : Word) (m : Master) : Prop where
  counted : m.Counted c
  cnt_lt : m.cnt.toNat < m.len.toNat

/-- The chunk recorded by ARM_NEXT stays within the length the plan was made for. -/
theorem recordChunk_loaded {g : Config} {m : Msg} {x : Inst} {mode : Mode} (hx : x.master.Short c) :
    Leads k (fun y => x.master.Calm y.master) (modMaster k fun p => { p with
        xlen := BitVec.ofNat 32 (planLen (planChunk g m x.master)), xmode := mode
        addrInChunk := (planChunk g m x.master).addr, started := true
        stopIssued := p.stopIssued || (planChunk g m x.master).stop })
      fun _ y => y.master.Loaded c :=
  leads_modInst fun y hy => by
    obtain ⟨hfrom, hcnt, hlen⟩ := hy.counted hx.counted
    refine ⟨⟨hfrom, hcnt, hlen⟩, ?_⟩
    have hpay := planChunk_payload_le (g := g) (m := m) hx.cnt_lt
    have hmoves := moves_planned_le (planChunk g m x.master)
    rw [← hy.cnt_eq, ← hy.len_eq] at hpay
    exact Nat.le_trans (Nat.add_le_add_left hmoves _) hpay

/-- ARM_NEXT before the end of the message records a chunk within its length. -/
theorem armNext_loaded : Leads k (fun x => x.master.Short c) (armNext k) fun _ x => x.master.Loaded c :=
  leads_bind (master_of_reads (J := Master.Short c) reads_curMsg) fun m => leads_getCfg fun g =>
    leads_getInst fun x hx => by
    have hrecord := fun mode => recordChunk_loaded (k := k) (g := g) (m := m) (mode := mode) hx
    dsimp only
    refine calm_at (leads_ite (fun _ => ?_) fun _ => ?_)
    · exact leads_bind (calm_of_calms calms_progRx) fun _ => hrecord _
    · exact leads_bind (calm_of_calms calms_hostRead) fun _ =>
        leads_bind (calm_of_calms calms_progTx) fun _ => hrecord _

/-! ### A completed chunk -/

/-- A message that ends, or waits for its STOP, has no chunk in flight. -/
theorem modMaster_inOrder {f : Master → Master} (hf : ∀ m, ¬ (f m).Flying)
    (h : ∀ m : Master, m.Counted c → (f m).Counted c) :
    Leads k (fun x => x.master.Counted c) (modMaster k f) fun _ x => x.master.InOrder c :=
  leads_modInst fun x hx => (h x.master hx).inOrder (hf x.master)

theorem finishMsg_inOrder {m : MState} (hm : m ≠ .chunk) :
    Leads k (fun x => x.master.Counted c) (finishMsg k m) fun _ x => x.master.InOrder c :=
  leads_bind (modMaster_inOrder (fun _ h => hm h.2) fun _ h => ⟨h.from_le, h.cnt_le, h.len_le⟩) fun _ =>
    inOrder_of_calms calms_complete

theorem issueStop_inOrder : Leads k (fun x => x.master.Counted c) (issueStop k) fun _ x => x.master.InOrder c :=
  leads_bind (counted_of_calms calms_engineCmd) fun _ =>
    modMaster_inOrder (fun _ h => nomatch h.2) fun _ h => ⟨h.from_le, h.cnt_le, h.len_le⟩

/-- A chunk within the length is counted within it (R275). -/
theorem Master.Counted.advance {m m' : Master} (h : m.Counted c) {n : Nat} (hn : m.cnt.toNat + n ≤ m.len.toNat)
    (hcnt : m'.cnt = m.cnt + BitVec.ofNat 32 n) (hlen : m'.len = m.len) (hext : m'.lenExt = m.lenExt) :
    m'.Counted c := by
  have hbound := m.len.isLt
  have hcnt' : m'.cnt.toNat = m.cnt.toNat + n := by rw [hcnt, BitVec.toNat_add, BitVec.toNat_ofNat]; omega
  refine ⟨?_, by rw [hcnt', hlen]; exact hn, hlen ▸ hext ▸ h.len_le⟩
  have hfrom := BitVec.le_def.1 h.from_le
  rw [BitVec.le_def, hcnt']
  omega

/-- The first byte of a block read extends the length, which was a message's, once (R276). -/
theorem Master.Counted.extend {m : Master} (h : m.Counted c) (hext : m.lenExt = false) (b : Byte) :
    ({ m with len := m.len + b.setWidth 32, lenExt := true } : Master).Counted c := by
  have hlen : m.len.toNat ≤ 65535 := by simpa [hext] using h.len_le
  have hb := b.isLt
  have hsum : (m.len + b.setWidth 32).toNat = m.len.toNat + b.toNat := by
    rw [BitVec.toNat_add, BitVec.toNat_setWidth]; omega
  refine ⟨h.from_le, ?_, ?_⟩
  · show m.cnt.toNat ≤ (m.len + b.setWidth 32).toNat
    have hcnt := h.cnt_le
    omega
  · show (m.len + b.setWidth 32).toNat ≤ 65790
    omega

theorem reads_hostRead {i a n : Nat} : Reads i (hostRead a n) := reads_bind reads_getState fun _ => reads_memRead

/-- Loaded with a chunk of n bytes. -/
structure Master.LoadedWith (c : Word) (n : Nat) (m : Master) : Prop where
  loaded : m.Loaded c
  xlen_eq : m.xlen.toNat = n

/-- Accounting for a chunk within the length (R275, R276). -/
theorem account_counted {m : Msg} {n : Nat} : Leads k (fun x => x.master.LoadedWith c n) (account k m n)
    fun _ x => x.master.Counted c :=
  leads_getInst fun x ⟨⟨hx, hmoves⟩, hn⟩ => by
    have hadv : x.master.cnt.toNat + (n - if x.master.addrInChunk then 1 else 0) ≤ x.master.len.toNat := hn ▸ hmoves
    refine calm_at <| leads_bind
      (calm_of_calms (calms_whenB (calms_received.bind fun _ => calms_hostWrite))) fun _ =>
      leads_bind (R := fun _ y => y.master.Counted c ∧ y.master.lenExt = x.master.lenExt) (leads_modInst fun y hy => ?_)
        fun _ => leads_ite (fun hext => ?_) fun _ => leads_pure fun y hy => hy.1
    · exact ⟨hx.advance hadv (by rw [← hy.cnt_eq]) hy.len_eq hy.lenExt_eq, hy.lenExt_eq⟩
    · refine leads_bind (master_of_reads (J := fun p => p.Counted c ∧ p.lenExt = x.master.lenExt) reads_hostRead)
        fun b => leads_modInst fun y hy => hy.1.extend ?_ _
      rw [hy.2]
      simp only [Bool.and_eq_true, Bool.not_eq_true'] at hext
      exact hext.1.2

/-- What follows a completed chunk (R316). -/
theorem afterChunk_inOrder : Leads k (fun x => x.master.Counted c) (afterChunk k) fun _ x => x.master.InOrder c :=
  leads_getInst fun _ hx => leads_ite
    (fun hlt => leads_at ⟨hx, hlt⟩ (leads_mono armNext_loaded fun _ _ h => h.inOrder)) fun _ => leads_at hx <|
      leads_ite (fun _ => issueStop_inOrder) fun _ => leads_ite
        (fun _ => modMaster_inOrder (fun _ h => nomatch h.2) fun _ h => ⟨h.from_le, h.cnt_le, h.len_le⟩)
        fun _ => finishMsg_inOrder nofun

/-- M_DONE counts the chunk that was waited for, which is within the length. -/
theorem mDone_inOrder {kind : Kind} {b : Bool} :
    Leads k (fun x => x.master.InOrder c) (mDone k kind b) fun _ x => x.master.InOrder c :=
  leads_getInst fun x hx => leads_ite (fun _ => leads_at hx (inOrder_of_calms calms_logRec)) fun hw => by
    have hload : x.master.Loaded c := hx.loaded (flying_of_chunkWaited (by simpa using hw))
    refine leads_at (P := fun y => y.master.LoadedWith c x.master.xlen.toNat) ⟨hload, rfl⟩ ?_
    refine leads_bind (R := fun _ y => y.master.LoadedWith c x.master.xlen.toNat) (leads_modInst fun y hy => ?_)
      fun _ => leads_bind (master_of_reads (J := Master.LoadedWith c _) reads_curMsg) fun m =>
      leads_bind (master_of_reads (J := Master.LoadedWith c _) reads_extract) fun n => leads_ite (fun _ => ?_)
        fun _ => leads_bind account_counted fun _ => afterChunk_inOrder
    · obtain ⟨⟨⟨hfrom, hcnt, hlen⟩, hmoves⟩, hxlen⟩ := hy
      exact ⟨⟨⟨hfrom, hcnt, hlen⟩, hmoves⟩, hxlen⟩
    · exact leads_weaken (fun _ h => h.loaded.counted) (leads_bind (counted_of_calms calms_raiseErr) fun _ =>
        finishMsg_inOrder nofun)

theorem mNack_inOrder {b : Bool} :
    Leads k (fun x => x.master.InOrder c) (mNack k b) fun _ x => x.master.InOrder c :=
  leads_reading fun _ _ => leads_ite (fun _ => inOrder_of_calms calms_logRec) fun _ =>
    leads_bind (inOrder_of_calms calms_curMsg) fun m => leads_ite (fun _ => mDone_inOrder) fun _ =>
      inOrder_of_calms <| calms_noteStop.bind fun _ => calms_raiseErr.bind fun _ =>
        calms_ite (calms_finishMsg nofun) <| calms_ite (calms_still fun _ h => nomatch h.2) calms_issueStop

/-! ### The decoder -/

theorem runRow_inOrder {b : Bool} {r : Row} :
    Leads k (fun x => x.master.InOrder c) (runRow k b r) fun _ x => x.master.InOrder c := by
  cases r
  case txAck => exact leads_ite (fun _ => inOrder_of_calms calms_sTxAck) fun _ => mDone_inOrder
  case txNak => exact leads_ite (fun _ => inOrder_of_calms calms_sFinal) fun _ => mNack_inOrder
  case rxDone => exact leads_ite (fun _ => inOrder_of_calms calms_sData) fun _ => mDone_inOrder
  case txAckStop | rxDoneStop => exact mDone_inOrder
  case txNakStop => exact mNack_inOrder
  case matched => exact inOrder_of_calms calms_sMatch
  case matchedStop => exact inOrder_of_calms (calms_sMatch.bind fun _ => calms_sFinal)
  case stop => exact inOrder_of_calms calms_mStopDone
  case arbLoss => exact inOrder_of_calms calms_mArb
  case arbLossMatch => exact inOrder_of_calms (calms_mArb.bind fun _ => calms_sMatch)
  case recoverDone => exact inOrder_of_calms calms_recoverDone

theorem tableStages_inOrder {w : Word} :
    Leads k (fun x => x.master.InOrder c) (tableStages k w) fun _ x => x.master.InOrder c :=
  leads_reading fun _ _ => leads_getCfg fun _ => by
    split
    · exact leads_bind (inOrder_of_calms calms_clearSts) fun _ => runRow_inOrder
    · exact inOrder_of_calms calms_sweep

theorem lateStages_inOrder {w : Word} :
    Leads k (fun x => x.master.InOrder c) (lateStages k w) fun _ x => x.master.InOrder c :=
  leads_reading fun _ _ => leads_ite
    (fun _ => leads_bind (inOrder_of_calms calms_slaveStopStage) fun _ =>
      leads_ite (fun _ => tableStages_inOrder) fun _ => leads_pure fun _ h => h)
    fun _ => tableStages_inOrder

theorem irq_inOrder : Leads k (fun x => x.master.InOrder c) (irq k) fun _ x => x.master.InOrder c :=
  leads_bind (inOrder_of_calms calms_mine) fun _ => leads_ite (fun _ => inOrder_of_calms calms_retNat) fun _ =>
    leads_bind (inOrder_of_calms calms_regRead) fun _ => leads_bind (inOrder_of_calms calms_smbusStage) fun _ =>
      leads_ite (fun _ => inOrder_of_calms calms_retNat) fun _ => leads_ite
        (fun _ => inOrder_of_calms (calms_faultStage.bind fun _ => calms_retNat))
        fun _ => leads_bind lateStages_inOrder fun _ => inOrder_of_calms calms_retNat

/-! ### A message begins -/

theorem msgOfWords_len_lt (w0 w1 w2 : Word) : (msgOfWords w0 w1 w2).len < 65536 := (w0.extractLsb' 16 16).isLt

theorem message_len_lt {s : State} {d : Word} {j : Nat} {m : Msg} (h : s.message d j = some m) : m.len < 65536 := by
  obtain ⟨b0, b1, b2, b3, b4, b5, b6, b7, b8, b9, ba, bb, -, rfl⟩ := message_some s d j m h
  exact msgOfWords_len_lt _ _ _

/-- START_MSG of a message with bytes to move leaves its first chunk in order, from a count of 0. -/
theorem startMsg_inOrder {n : Nat} {s t : State} {r : Code} {x : Inst} (hx : s.insts[k]? = some x)
    (hok : x.master.InOrder 0) (hg : ∀ d m, x.master.msgs = some d → s.message d n = some m → 1 ≤ m.len)
    (h : startMsg k n s = .ok (r, t)) : ∃ y, t.insts[k]? = some y ∧ y.master.InOrder 0 := by
  unfold startMsg at h
  rw [op_bind, op_getInst s k x hx] at h
  dsimp only at h
  by_cases hslave : x.master.slaveOp = true
  · rw [if_pos hslave] at h
    cases h; exact ⟨x, hx, hok⟩
  · rw [if_neg hslave] at h
    cases hd : x.master.msgs with
    | none => rw [hd] at h; cases h
    | some d =>
      rw [hd] at h
      obtain ⟨m, u, hm, h⟩ := bind_ok h
      have hmsg := message_of_readMsg s u d n m hm
      have hlen := message_len_lt hmsg
      have hpos := hg d m hd hmsg
      obtain ⟨z, hz, -⟩ := calms_readMsg s m u x hx hm
      suffices hl : Leads k (fun _ => True) _ fun _ y => y.master.InOrder 0 from hl _ _ _ _ hz trivial h
      refine leads_bind (R := fun _ y => y.master.Short 0) (leads_modInst fun y _ => ?_) fun _ =>
        leads_bind (R := fun _ y => y.master.Short 0) (leads_modInst fun y hy => ?_) fun _ =>
        leads_bind armNext_loaded fun _ => leads_bind (R := fun _ y => y.master.InOrder 0)
          (leads_modInst fun y hy => ?_) fun _ => leads_pure fun _ h => h
      · have hl : (BitVec.ofNat 32 m.len).toNat = m.len := by rw [BitVec.toNat_ofNat]; omega
        refine ⟨⟨BitVec.le_refl _, Nat.zero_le _, ?_⟩, ?_⟩
        · show (BitVec.ofNat 32 m.len).toNat ≤ 65535
          omega
        · show 0 < (BitVec.ofNat 32 m.len).toNat
          omega
      · exact ⟨⟨hy.counted.from_le, hy.counted.cnt_le, hy.counted.len_le⟩, hy.cnt_lt⟩
      · exact ⟨⟨hy.counted.from_le, hy.counted.cnt_le, hy.counted.len_le⟩, fun _ => hy.moves_le⟩

end counts

/-! ## Every operation -/

section steps

variable {k : Nat} {α : Type} {c : Word} {i : InstId} {op : Nat → Op Ret} {s t : State}

theorem stepOn_calm (h : stepOn i op s = .next t) (hok : ∀ x, s.insts[i.toNat]? = some x → x.master.InOrder c)
    (hcalm : Calms i.toNat (op i.toNat)) (hi : i.toNat = k := by rfl) :
    ∀ y, t.insts[k]? = some y → y.master.InOrder c := stepOn_leads h hok (inOrder_of_calms hcalm) hi

theorem hostCall_calm (h : hostCall i op s = .next t) (hok : ∀ x, s.insts[i.toNat]? = some x → x.master.InOrder c)
    (hcalm : Calms i.toNat (op i.toNat)) (hi : i.toNat = k := by rfl) :
    ∀ y, t.insts[k]? = some y → y.master.InOrder c := hostCall_leads h hok (inOrder_of_calms hcalm) hi

theorem slaveCall_calm (h : slaveCall i op s = .next t) (hok : ∀ x, s.insts[i.toNat]? = some x → x.master.InOrder c)
    (hcalm : Calms i.toNat (op i.toNat)) (hi : i.toNat = k := by rfl) :
    ∀ y, t.insts[k]? = some y → y.master.InOrder c :=
  hostCall_calm h hok (calms_getCfg.bind fun _ => calms_ite (calms_offered.bind fun _ => hcalm) calms_retCode) hi

theorem rdReg_calm {r : Reg} (h : rdReg i r s = .next t) (hok : ∀ x, s.insts[i.toNat]? = some x → x.master.InOrder c)
    (hi : i.toNat = k := by rfl) : ∀ y, t.insts[k]? = some y → y.master.InOrder c :=
  stepOn_calm h hok (calms_regRead.bind fun _ => calms_retWord) hi

theorem wrReg_calm {r : Reg} {v : Word} (h : wrReg i r v s = .next t)
    (hok : ∀ x, s.insts[i.toNat]? = some x → x.master.InOrder c) (hi : i.toNat = k := by rfl) :
    ∀ y, t.insts[k]? = some y → y.master.InOrder c := stepOn_calm h hok (calms_noRet calms_regWrite) hi

theorem putCmd_calm {w : Word} (h : putCmd i w s = .next t)
    (hok : ∀ x, s.insts[i.toNat]? = some x → x.master.InOrder c) (hi : i.toNat = k := by rfl) :
    ∀ y, t.insts[k]? = some y → y.master.InOrder c := stepOn_calm h hok (calms_noRet calms_regWrite) hi

theorem stageStep_calm {f : Nat → Op Word} (h : stageStep i f s = .next t)
    (hok : ∀ x, s.insts[i.toNat]? = some x → x.master.InOrder c) (hf : Calms i.toNat (f i.toNat))
    (hi : i.toNat = k := by rfl) : ∀ y, t.insts[k]? = some y → y.master.InOrder c :=
  stepOn_calm h hok (calms_needLocks.bind fun _ => hf.bind fun _ => calms_retWord) hi

theorem faultStep_calm {w : Word} (h : faultStep i w s = .next t)
    (hok : ∀ x, s.insts[i.toNat]? = some x → x.master.InOrder c) (hi : i.toNat = k := by rfl) :
    ∀ y, t.insts[k]? = some y → y.master.InOrder c :=
  stepOn_calm h hok (calms_needLocks.bind fun _ => calms_faultStage.bind fun _ => calms_retNat) hi

theorem rowStep_inOrder {w : Word} (h : rowStep i w s = .next t)
    (hok : ∀ x, s.insts[i.toNat]? = some x → x.master.InOrder c) (hi : i.toNat = k := by rfl) :
    ∀ y, t.insts[k]? = some y → y.master.InOrder c :=
  stepOn_leads h hok (leads_bind (inOrder_of_calms calms_needLocks) fun _ =>
    leads_bind tableStages_inOrder fun _ => inOrder_of_calms calms_retNat) hi

/-- A calm operation sets no chunk afoot. -/
theorem atRest_of_calms {op : Op α} (h : Calms k op) : Leads k (fun x => x.master.InOrder c ∧ ¬ x.master.Flying) op
    fun _ x => x.master.InOrder c ∧ ¬ x.master.Flying :=
  leads_of_calms (J := fun p => p.InOrder c ∧ ¬ p.Flying) h fun _ _ hc hp =>
    ⟨hc.inOrder hp.1, fun hf => hp.2 (hc.flying hf).1⟩

/-- An ARM records its chunk while none is waited for. -/
theorem armStep_inOrder {f : Nat → Op Unit} {n : Nat} {m : Mode}
    (h : stepOn i (fun i => noRet (needM i >>= fun _ => f i >>= fun _ => setChunk i n m)) s = .next t)
    (hok : ∀ x, s.insts[i.toNat]? = some x → x.master.InOrder c ∧ ¬ x.master.Flying) (hf : Calms i.toNat (f i.toNat))
    (hi : i.toNat = k := by rfl) : ∀ y, t.insts[k]? = some y → y.master.InOrder c :=
  stepOn_leads h hok (leads_noRet (leads_bind
    (atRest_of_calms calms_needM) fun _ => leads_bind (atRest_of_calms hf)
    fun _ => leads_modInst fun _ hy => Master.Counted.inOrder
      ⟨hy.1.counted.from_le, hy.1.counted.cnt_le, hy.1.counted.len_le⟩ hy.2)) hi

end steps

/-- An operation within its guard, other than START_MSG, keeps its instance's progress in order from any count on. -/
theorem exec_inOrder {r : Instr} {s t : State} {c : Word} (hi : r.target ≠ none)
    (hok : ∀ x, s.insts[targetOf r]? = some x → x.master.InOrder c)
    (hguard : ∀ x, s.insts[targetOf r]? = some x → x.progressGuard s r) (hr : ∀ i j, r ≠ .startMsg i j)
    (h : exec r s = .next t) : ∀ y, t.insts[targetOf r]? = some y → y.master.InOrder c := by
  cases r
  case rdFunCtrl | rdAcTiming1 | rdAcTiming2 | rdIntrCtrl | rdIntrSts | rdCmd | rdDevAddr | rdBufCtrl | rdByteData
    | rdDmaBase | rdDmaLen => exact rdReg_calm h hok
  case wrFunCtrl | wrAcTiming1 | wrAcTiming2 | wrIntrCtrl | wrIntrSts | wrCmd | wrDevAddr | wrBufCtrl | wrByteData
    | wrDmaBase | wrDmaLen => exact wrReg_calm h hok
  case rdReserved =>
    simp only [exec, execRdReserved] at h
    exact stepOn_calm h hok calms_retWord
  case wrReserved =>
    simp only [exec, execWrReserved] at h
    exact stepOn_calm h hok calms_pure
  case cNop | cSRx | cStartTx | cStartTxStop | cTx | cTxStop | cRx | cRxLast | cRxLastStop | cStop | cSTx
    | cRecover => exact putCmd_calm h hok
  case reservedCmd => cases h
  case stsSmbusAlert | stsSmbusArp | stsSmbusAlertResp =>
    simp only [exec, execStsSmbusAlert, execStsSmbusArp, execStsSmbusAlertResp] at h
    exact stageStep_calm h hok calms_smbusStage
  case stsAbnormal | stsSclTimeout => exact faultStep_calm h hok
  case stsSlaveStop =>
    simp only [exec, execStsSlaveStop] at h
    exact stageStep_calm h hok (calms_getInst.bind fun _ =>
      calms_ite calms_slaveStopStage calms_pure)
  case stsTxAck | stsTxAckStop | stsTxNak | stsTxNakStop | stsRxDone | stsRxDoneStop | stsMatch | stsMatchStop
    | stsStop | stsArbLoss | stsArbLossMatch | stsRecoverDone => exact rowStep_inOrder h hok
  case stsNotMine =>
    simp only [exec, execStsNotMine] at h
    exact stepOn_calm h hok (calms_mine.bind fun _ => calms_retNat)
  case stsEmpty =>
    simp only [exec, execStsEmpty] at h
    exact stepOn_calm h hok calms_retNat
  case stsSweep =>
    simp only [exec, execStsSweep] at h
    exact stepOn_calm h hok (calms_needLocks.bind fun _ => calms_sweep.bind fun _ => calms_retNat)
  case lIdle =>
    simp only [exec, execLIdle] at h
    exact stepOn_calm h hok (calms_enterPath.bind fun _ => calms_pathIdle)
  case lMasterHold =>
    simp only [exec, execLMasterHold] at h
    exact stepOn_calm h hok (calms_enterPath.bind fun _ => calms_pathMasterStop)
  case lSlaveHold =>
    simp only [exec, execLSlaveHold] at h
    exact stepOn_calm h hok (calms_enterPath.bind fun _ => calms_pathSlaveDead)
  case lOther =>
    simp only [exec, execLOther] at h
    exact stepOn_calm h hok (calms_needM.bind fun _ => calms_getInst.bind fun _ =>
      calms_require.bind fun _ => calms_pathUnclassified)
  case devInit =>
    simp only [exec, execDevInit] at h
    exact hostCall_calm h hok calms_devInit
  case submit =>
    simp only [exec, execSubmit] at h
    exact hostCall_calm h hok calms_submit
  case slaveRead =>
    simp only [exec, execSlaveRead] at h
    exact slaveCall_calm h hok (calms_needS.bind fun _ => calms_slaveRead)
  case slaveWrite =>
    simp only [exec, execSlaveWrite] at h
    exact slaveCall_calm h hok (calms_needS.bind fun _ => calms_slaveWrite)
  case slaveEnable =>
    simp only [exec, execSlaveEnable] at h
    exact slaveCall_calm h hok calms_slaveEnable
  case slaveDisable =>
    simp only [exec, execSlaveDisable] at h
    exact slaveCall_calm h hok (calms_needLocks.bind fun _ => calms_slaveDisable)
  case alertAssert | alertDeassert =>
    simp only [exec, execAlertAssert, execAlertDeassert] at h
    exact slaveCall_calm h hok (calms_regWrite.bind fun _ => calms_retCode)
  case recoverReq =>
    simp only [exec, execRecoverReq] at h
    exact hostCall_calm h hok (calms_offered.bind fun _ => calms_needM.bind fun _ =>
      calms_getInst.bind fun _ => calms_ite calms_retCode
        (calms_modThread.bind fun _ => calms_recoverEntry))
  case readMrstCnt | readSrecCnt =>
    simp only [exec, execReadMrstCnt, execReadSrecCnt] at h
    exact hostCall_calm h hok (calms_offered.bind fun _ =>
      calms_getInst.bind fun _ => calms_retWord)
  case readRecovStatus =>
    simp only [exec, execReadRecovStatus] at h
    exact hostCall_calm h hok (calms_offered.bind fun _ => calms_getInst.bind fun _ =>
      calms_modRecov.bind fun _ => calms_retWord)
  case busReset =>
    simp only [exec, execBusReset] at h
    exact hostCall_calm h hok (calms_offered.bind fun _ => calms_needM.bind fun _ =>
      calms_getInst.bind fun _ => calms_ite calms_retCode (calms_regRead.bind fun _ =>
        calms_modThread.bind fun _ => calms_pure))
  case irq =>
    simp only [exec, execIrq] at h
    exact hostCall_leads h hok (leads_bind (inOrder_of_calms calms_needLocks) fun _ => irq_inOrder)
  case armByte =>
    simp only [exec, execArmByte] at h
    exact armStep_inOrder h (fun x hx => ⟨hok x hx, hguard x hx⟩) calms_progByte
  case extByte | extBuf | extDmaDec | extDmaInc =>
    simp only [exec, execExtByte, execExtBuf, execExtDmaDec, execExtDmaInc] at h
    exact stepOn_calm h hok (calms_needM.bind fun _ => calms_getInst.bind fun _ =>
      calms_extract.bind fun _ => calms_pure)
  case armBuf =>
    simp only [exec, execArmBuf] at h
    exact armStep_inOrder h (fun x hx => ⟨hok x hx, hguard x hx⟩) calms_progBuf
  case armDmaDec | armDmaInc =>
    simp only [exec, execArmDmaDec, execArmDmaInc] at h
    exact armStep_inOrder h (fun x hx => ⟨hok x hx, hguard x hx⟩) calms_progDma
  case timingWord =>
    simp only [exec, execTimingWord] at h
    exact stepOn_calm h hok (calms_timingWord.bind fun _ => calms_retWord)
  case timingInit =>
    simp only [exec, execTimingInit] at h
    refine stepOn_calm h hok (calms_getInst.bind fun _ => ?_)
    split
    · exact calms_resetTimingStep
    · exact calms_noRet calms_timingInit
  case regInit =>
    simp only [exec, execRegInit] at h
    exact stepOn_calm h hok (calms_noRet calms_regInit)
  case armNext =>
    simp only [exec, execArmNext] at h
    exact stepOn_leads (P := fun x => x.master.Short c) h (fun x hx => ⟨(hok x hx).counted, hguard x hx⟩)
      (leads_noRet (leads_bind (leads_of_calms calms_needM fun _ _ hc hm =>
          ⟨hc.counted hm.counted, by rw [hc.cnt_eq, hc.len_eq]; exact hm.cnt_lt⟩) fun _ =>
        leads_mono armNext_loaded fun _ _ hl => hl.inOrder))
  case poolAcq =>
    simp only [exec, execPoolAcq] at h
    exact stepOn_calm h hok (calms_poolAcq.bind fun _ => calms_retWord)
  case poolRel =>
    simp only [exec, execPoolRel] at h
    exact stepOn_calm h hok (calms_noRet calms_poolRel)
  case selectMode =>
    simp only [exec, execSelectMode] at h
    exact stepOn_calm h hok (calms_selectMode.bind fun _ => calms_retWord)
  case sArmRx =>
    simp only [exec, execSArmRx] at h
    exact stepOn_calm h hok (calms_noRet (calms_needSlave.bind fun _ => calms_sArmRx))
  case sArmTx =>
    simp only [exec, execSArmTx] at h
    exact stepOn_calm h hok (calms_noRet (calms_needSlave.bind fun _ => calms_needS.bind fun _ =>
      calms_sArmTx))
  case doXfer =>
    simp only [exec, execDoXfer] at h
    refine stepOn_calm h hok (calms_getInst.bind fun _ => ?_)
    split
    · exact calms_needM.bind fun _ => calms_ite calms_attemptDone
        (.bind (calms_still fun _ h => nomatch h.2) fun _ => calms_setPc.bind fun _ => calms_pure)
    · exact calms_needM.bind fun _ => calms_selectMode.bind fun _ =>
        .bind calms_aside fun _ => calms_setPc.bind fun _ => calms_pure
    · exact calms_needM.bind fun _ => calms_xferExit.bind fun _ => calms_attemptDone
    · exact calms_refuse
  case waitIdle =>
    simp only [exec, execWaitIdle] at h
    refine stepOn_calm h hok (calms_noRet (calms_getInst.bind fun _ => calms_getCfg.bind fun _ => ?_))
    split
    · exact calms_busBusy.bind fun _ => calms_setPc
    · exact calms_busBusy.bind fun _ => calms_require.bind fun _ => calms_setPc
    · exact calms_setPc
    · exact calms_busBusy.bind fun _ => calms_setPc
    · exact calms_refuse
  case startMsg i j => exact absurd rfl (hr i j)
  case wait =>
    simp only [exec, execWait] at h
    refine stepOn_calm h hok (calms_noRet (calms_needM.bind fun _ => calms_getInst.bind fun _ =>
      calms_require.bind fun _ => ?_))
    split
    · exact calms_setPc
    · exact calms_setPc
    · exact calms_setPc
    · exact calms_refuse
  case wakeExpired =>
    simp only [exec, execWakeExpired] at h
    refine stepOn_calm h hok (calms_noRet (calms_getInst.bind fun _ => ?_))
    split
    · exact calms_needLocks.bind fun _ => calms_wakeExpired.bind fun _ => calms_setPc
    · exact calms_refuse
  case wakeSignalled =>
    simp only [exec, execWakeSignalled] at h
    refine stepOn_calm h hok (calms_noRet (calms_getInst.bind fun _ => ?_))
    split
    · exact calms_needLocks.bind fun _ => calms_wakeSignalled.bind fun _ => calms_setPc
    · exact calms_refuse
  case mDone =>
    simp only [exec, execMDone] at h
    exact stepOn_leads h hok (leads_noRet (leads_bind (inOrder_of_calms calms_needM) fun _ => mDone_inOrder))
  case mNack =>
    simp only [exec, execMNack] at h
    exact stepOn_leads h hok (leads_noRet (leads_bind (inOrder_of_calms calms_needM) fun _ => mNack_inOrder))
  case mArb =>
    simp only [exec, execMArb] at h
    exact stepOn_calm h hok (calms_noRet (calms_needM.bind fun _ => calms_mArb))
  case mStopDone =>
    simp only [exec, execMStopDone] at h
    exact stepOn_calm h hok (calms_noRet (calms_needM.bind fun _ => calms_mStopDone))
  case mFault =>
    simp only [exec, execMFault] at h
    exact stepOn_calm h hok (calms_noRet (calms_needM.bind fun _ => calms_mFault))
  case mPreempt =>
    simp only [exec, execMPreempt] at h
    exact stepOn_calm h hok (calms_noRet (calms_needM.bind fun _ => calms_mPreempt))
  case sMatch =>
    simp only [exec, execSMatch] at h
    exact stepOn_calm h hok (calms_noRet (calms_needSlave.bind fun _ => calms_needLocks.bind fun _ =>
      calms_sMatch))
  case startOfWrite =>
    simp only [exec, execStartOfWrite] at h
    exact stepOn_calm h hok (calms_noRet (calms_needSlave.bind fun _ => calms_needS.bind fun _ =>
      calms_startOfWrite))
  case startOfRead =>
    simp only [exec, execStartOfRead] at h
    exact stepOn_calm h hok (calms_noRet (calms_needSlave.bind fun _ => calms_needS.bind fun _ =>
      calms_startOfRead))
  case sData =>
    simp only [exec, execSData] at h
    exact stepOn_calm h hok (calms_noRet (calms_needSlave.bind fun _ => calms_needLocks.bind fun _ =>
      calms_sData))
  case sTxAck =>
    simp only [exec, execSTxAck] at h
    exact stepOn_calm h hok (calms_noRet (calms_needSlave.bind fun _ => calms_needLocks.bind fun _ =>
      calms_sTxAck))
  case sFinal =>
    simp only [exec, execSFinal] at h
    exact stepOn_calm h hok (calms_noRet (calms_needSlave.bind fun _ => calms_needLocks.bind fun _ =>
      calms_sFinal))
  case sStop =>
    simp only [exec, execSStop] at h
    exact stepOn_calm h hok (calms_needSlave.bind fun _ => calms_needLocks.bind fun _ =>
      calms_sStop.bind fun _ => calms_retWord)
  case sAbort =>
    simp only [exec, execSAbort] at h
    refine stepOn_calm h hok (calms_needSlave.bind fun _ => calms_needLocks.bind fun _ =>
      calms_getInst.bind fun _ => calms_sAbort.bind fun _ => ?_)
    split
    · exact calms_resetReturn
    · exact calms_pure
  case recover =>
    simp only [exec, execRecover] at h
    refine stepOn_calm h hok (calms_needM.bind fun _ => calms_getInst.bind fun _ => ?_)
    split
    · exact calms_modThread.bind fun _ => calms_recoverEntry
    · exact calms_recoverEntry
    · exact calms_stopWake
    · exact calms_deadStep
    · exact calms_deadWake
    · exact calms_deadRestore
    · exact calms_refuse
  case ctrlReset =>
    simp only [exec, execCtrlReset] at h
    refine stepOn_calm h hok (calms_getInst.bind fun _ => ?_)
    split
    · exact calms_resetCtrlStep
    · exact calms_noRet calms_ctrlReset
  case kAck =>
    simp only [exec, execKAck] at h
    exact stepOn_calm h hok (calms_noRet calms_coreAck)
  case kNack =>
    simp only [exec, execKNack] at h
    exact stepOn_calm h hok (calms_noRet calms_coreNack)
  case kRx =>
    simp only [exec, execKRx] at h
    exact stepOn_calm h hok (calms_noRet calms_coreRx)
  case kStop =>
    simp only [exec, execKStop] at h
    exact stepOn_calm h hok (calms_noRet calms_coreStop)
  case kArb =>
    simp only [exec, execKArb] at h
    exact stepOn_calm h hok (calms_noRet calms_coreArb)
  case kAbn =>
    simp only [exec, execKAbn] at h
    exact stepOn_calm h hok (calms_noRet calms_coreAbn)
  case kSclto =>
    simp only [exec, execKSclto] at h
    exact stepOn_calm h hok (calms_noRet calms_coreSclto)
  case kMatch =>
    simp only [exec, execKMatch] at h
    exact stepOn_calm h hok (calms_noRet calms_coreMatch)
  case kRecovered =>
    simp only [exec, execKRecovered] at h
    exact stepOn_calm h hok (calms_noRet calms_coreRecovered)
  case kLine =>
    simp only [exec, execKLine] at h
    exact stepOn_calm h hok (calms_noRet calms_modCore)
  case kSmbus =>
    simp only [exec, execKSmbus] at h
    exact stepOn_calm h hok (calms_noRet calms_latch)
  case tExpire =>
    simp only [exec, execTExpire] at h
    exact stepOn_calm h hok (calms_noRet calms_expire)
  all_goals exact absurd rfl hi

/-! ### START_MSG -/

section inversions

variable {s t : State}

theorem noRet_ok {op : Op Unit} {r : Ret} (h : noRet op s = .ok (r, t)) : op s = .ok ((), t) := by
  unfold noRet at h
  obtain ⟨_, u, ho, hr⟩ := bind_ok h
  cases hr
  exact ho

theorem require_ok {c : Bool} {r : Refusal} {u : Unit} (h : require c r s = .ok (u, t)) : t = s := by
  cases c <;> cases h
  rfl

theorem needM_ok {i : Nat} {u : Unit} (h : needM i s = .ok (u, t)) : t = s := by
  unfold needM at h
  obtain ⟨_, v, hget, hreq⟩ := bind_ok h
  exact (require_ok hreq).trans (getInst_ok hget).1

end inversions

/-- START_MSG within its guard leaves its instance's progress in order. -/
theorem exec_startMsg_inOrder {i : InstId} {j : Word} {s t : State}
    (hok : ∀ x, s.insts[i.toNat]? = some x → x.master.InOrder 0)
    (hguard : ∀ x, s.insts[i.toNat]? = some x → x.progressGuard s (.startMsg i j))
    (h : exec (.startMsg i j) s = .next t) : ∀ y, t.insts[i.toNat]? = some y → y.master.InOrder 0 := by
  simp only [exec, execStartMsg] at h
  obtain ⟨r, u, hop, rfl⟩ := (runOp_next _ _ t).1 h
  obtain ⟨x, _, hget, hcall⟩ := bind_ok hop
  obtain ⟨rfl, hx⟩ := getInst_ok hget
  obtain ⟨_, _, hread, hbody⟩ := bind_ok (noRet_ok hcall)
  obtain ⟨rfl, -⟩ := getInst_ok hread
  obtain ⟨_, _, hreq, hlocked⟩ := bind_ok hbody
  obtain rfl := require_ok hreq
  obtain ⟨_, _, hneed, hrest⟩ := bind_ok hlocked
  obtain rfl := needM_ok hneed
  obtain ⟨_, v, hstart, hthread⟩ := bind_ok hrest
  obtain ⟨y, hy, hyok⟩ := startMsg_inOrder hx (hok x hx) (hguard x hx) hstart
  obtain ⟨z, hz, hyz⟩ := calms_modThread v _ u y hy hthread
  intro w hw
  obtain rfl : z = w := Option.some.inj (hz.symm.trans hw)
  exact hyz.inOrder hyok

/-! ### Every instance -/

/-- The guard the obligation asks of the instance an operation acts on. -/
def GuardOk (r : Instr) (s : State) : Prop :=
  ∀ (i : InstId) (x : Inst), r.target = some i → s.Has i x → x.progressGuard s r

/-- An operation other than START_MSG keeps every instance's progress in order from its count on. -/
theorem exec_inOrder_from_cnt {r : Instr} {s t : State} (hs : s.ProgressOk) (hg : GuardOk r s)
    (hr : ∀ i j, r ≠ .startMsg i j) (h : exec r s = .next t) {k : Nat} {x y : Inst} (hx : s.insts[k]? = some x)
    (hy : t.insts[k]? = some y) : y.master.InOrder x.master.cnt := by
  have hok : x.master.InOrder x.master.cnt := (progressOk_iff.1 (hs k x hx)).from_cnt
  by_cases hk : ∃ i : InstId, r.target = some i ∧ i.toNat = k
  · obtain ⟨i, hi, rfl⟩ := hk
    have hguard : x.progressGuard s r := hg i x hi hx
    have htarget : targetOf r = i.toNat := by rw [targetOf, hi]; rfl
    rw [← htarget] at hx hy
    have honly : ∀ z, s.insts[targetOf r]? = some z → x = z := fun z hz => Option.some.inj (hx.symm.trans hz)
    exact exec_inOrder (by simp [hi]) (fun z hz => honly z hz ▸ hok) (fun z hz => honly z hz ▸ hguard) hr h y hy
  · rw [exec_insts_of_ne_target h fun j hj e => hk ⟨j, hj, e.symm⟩] at hy
    obtain rfl : x = y := Option.some.inj (hx.symm.trans hy)
    exact hok

/-- START_MSG keeps every instance's progress in order. -/
theorem exec_startMsg_progressOk {i : InstId} {j : Word} {s t : State} (hs : s.ProgressOk)
    (hg : GuardOk (.startMsg i j) s) (h : exec (.startMsg i j) s = .next t) : t.ProgressOk := fun k y hy => by
  by_cases hk : k = i.toNat
  · subst hk
    exact progressOk_iff.2 (exec_startMsg_inOrder (fun x hx => progressOk_iff.1 (hs _ x hx))
      (fun x hx => hg i x rfl hx) h y hy)
  · rw [exec_insts_of_ne_target h fun _ hj => Option.some.inj hj ▸ hk] at hy
    exact hs k y hy

/-- Settles O13: from the instance's count on for every operation but START_MSG, whose count begins at 0. -/
theorem operationsKeepProgressInOrder : Obligations.OperationsKeepProgressInOrder := fun r s t hs hg h => by
  refine ⟨?_, fun k x y hx hy hr => (exec_inOrder_from_cnt hs hg hr h hx hy).counted.from_le⟩
  by_cases hr : ∀ i j, r ≠ .startMsg i j
  · obtain ⟨-, -, hlen, -⟩ := (exec_moves r s t h).others
    intro k y hy
    have hk : k < s.insts.length := hlen ▸ (List.getElem?_eq_some_iff.1 hy).1
    exact progressOk_iff.2 (exec_inOrder_from_cnt hs hg hr h (List.getElem?_eq_getElem hk) hy).from_zero
  · push Not at hr
    obtain ⟨i, j, rfl⟩ := hr
    exact exec_startMsg_progressOk hs hg h

end Sys2Proof.Machine
end

section
/-! PROOFS. What one step does, a law per state of the schedule. -/

namespace Sys2Proof.Machine

open Sys2Proof

/-- With nothing scheduled the machine stays as it is. -/
theorem step_of_inbox_nil {s : State} (hs : s.inbox = []) : step s = .next s := by
  simp only [step, hs]

/-- A frame that spells an operation is taken off the schedule and the operation run on what is left. -/
theorem step_of_decode_ok {s : State} {f : List Byte} {r : List (List Byte)} {i : Instr} (hs : s.inbox = f :: r)
    (hd : decode s.cfg f = .ok i) : step s = exec i { s with inbox := r } := by
  simp only [step, hs, hd]

/-- A frame that spells no operation is refused with the decoder's error. -/
theorem step_of_decode_error {s : State} {f : List Byte} {r : List (List Byte)} {e : DecodeError}
    (hs : s.inbox = f :: r) (hd : decode s.cfg f = .error e) : step s = .refused (.undecodable e) := by
  simp only [step, hs, hd]

/-- Settles O5: its three clauses are the three laws of `step`. -/
theorem stepRunsTheDecodedOperation : Obligations.StepRunsTheDecodedOperation := fun _ _ _ =>
  ⟨fun _ => step_of_decode_ok, fun _ => step_of_decode_error, step_of_inbox_nil⟩

end Sys2Proof.Machine
end

section
/-! PROOFS. The decoder gives an operation back from its frame: a law per shape of frame, then the operations by
class. -/

namespace Sys2Proof

section frames

variable {c : Config}

/-- Well-formed parameters place their register windows as R40 says. -/
theorem placed_of_wf (h : c.wf = true) : c.placed = true := by
  simp only [Config.wf, Bool.and_eq_true] at h
  tauto

/-- The shared register is read at its address (R131). -/
theorem decode_rdGroupSts : decode c (frameRd c.groupBase) = .ok .rdGroupSts := by
  simp [decode, frameRd, decodeReg, placeOf_group]

/-- The shared register is written at its address (R131). -/
theorem decode_wrGroupSts (v : Word) : decode c (frameWr c.groupBase v) = .ok (.wrGroupSts v) := by
  simp [decode, frameWr, decodeReg, placeOf_group]

/-- A word that selects no command is a reserved command word (R141). -/
theorem decode_reservedCmd (i : InstId) (w : Word) (h : cmdOf w = none) :
    decode c (frameCmd i w) = .ok (.reservedCmd i w) := by
  simp [decode, frameCmd, decodeCmd, h]

/-- A request that spells a host operation is decoded to it (R137). -/
theorem decode_host_of_some {w0 w1 w2 : Word} {x : Instr} (h : hostOf w0 w1 w2 = some x) :
    decode c (frameHost w0 w1 w2) = .ok x := by
  rw [decode_frameHost, h, Option.getD_some]

/-- A request that spells none is a reserved request (R144). -/
theorem decode_host_of_none {w0 w1 w2 : Word} (h : hostOf w0 w1 w2 = none) :
    decode c (frameHost w0 w1 w2) = .ok (.reservedHost w0 w1 w2) := by
  rw [decode_frameHost, h, Option.getD_none]

@[simp] theorem withInst_bytes (mk : InstId → Instr) (i : InstId) : withInst mk [byteOfInst i] = .ok (mk i) := by
  simp [withInst]

@[simp] theorem withInstBool_bytes (mk : InstId → Bool → Instr) (i : InstId) (b : Bool) :
    withInstBool mk [byteOfInst i, byteOfBool b] = .ok (mk i b) := by
  simp [withInstBool]

@[simp] theorem withInstWord_bytes (mk : InstId → Word → Instr) (i : InstId) (w : Word) :
    withInstWord mk (byteOfInst i :: w.toBytes) = .ok (mk i w) := by
  simp [withInstWord]

@[simp] theorem withInstSide_bytes (mk : InstId → Side → Instr) (i : InstId) (d : Side) :
    withInstSide mk [byteOfInst i, byteOfSide d] = .ok (mk i d) := by
  simp [withInstSide]

@[simp] theorem withInstByte_bytes (mk : InstId → Byte → Instr) (i : InstId) (b : Byte) :
    withInstByte mk [byteOfInst i, b] = .ok (mk i b) := by
  simp [withInstByte]

/-- A fault is read back when only bits of a command's outcome come with it (R219). -/
theorem withFault_bytes (mk : FaultAt → Instr) (f : FaultAt) (h : f.also &&& ~~~alsoMask = 0#32) :
    withFault mk (byteOfInst f.inst :: f.also.toBytes) = .ok (mk f) := by
  simp [withFault, h]

@[simp] theorem rxDataOf_bytes (d : RxData) : rxDataOf d.isDirect d.bytes = .ok d := by cases d <;> rfl

/-- The two line levels of a CMD word are its bits 18 and 17 (R135). -/
theorem and_lineMask (w : Word) : w &&& 0x60000#32 = (if w.getLsbD 18 then 0x40000#32 else 0#32)
    ||| (if w.getLsbD 17 then 0x20000#32 else 0#32) := by
  rw [show (0x60000#32 : Word) = BitVec.twoPow 32 18 ||| BitVec.twoPow 32 17 by decide, BitVec.and_or_distrib_left,
    BitVec.and_twoPow, BitVec.and_twoPow]
  rfl

/-- SCL is low in exactly the words that show neither an idle bus nor the master's hold (R135, R421). -/
theorem sclLow_iff (w : Word) :
    w &&& 0x40000#32 = 0#32 ↔ w &&& 0x60000#32 ≠ 0x60000#32 ∧ w &&& 0x60000#32 ≠ 0x40000#32 := by
  rw [and_lineMask, show (0x40000#32 : Word) = BitVec.twoPow 32 18 by decide, BitVec.and_twoPow]
  cases w.getLsbD 18 <;> cases w.getLsbD 17 <;> decide

end frames

/-- Settles O1: the operations by class, each by the law of its frame's shape. -/
theorem decodeOfEncodeIsTheOperation : Obligations.DecodeOfEncodeIsTheOperation := by
  intro c x hc hw hm
  have hp := placed_of_wf hc
  cases x with
  | rdFunCtrl i | rdAcTiming1 i | rdAcTiming2 i | rdIntrCtrl i | rdIntrSts i | rdCmd i | rdDevAddr i | rdBufCtrl i
  | rdByteData i | rdDmaBase i | rdDmaLen i => exact decode_frameRd hp i _ (of_decide_eq_true hm)
  | wrFunCtrl i v | wrAcTiming1 i v | wrAcTiming2 i v | wrIntrCtrl i v | wrIntrSts i v | wrCmd i v | wrDevAddr i v
  | wrBufCtrl i v | wrByteData i v | wrDmaBase i v | wrDmaLen i v =>
    exact decode_frameWr hp i _ v (of_decide_eq_true hm)
  | rdGroupSts => exact decode_rdGroupSts
  | wrGroupSts v => exact decode_wrGroupSts v
  | rdReserved i off => exact decode_rdReserved hp i off (of_decide_eq_true hm) hw
  | wrReserved i off v => exact decode_wrReserved hp i off v (of_decide_eq_true hm) hw
  | cNop i en al hi | cSRx i en al hi | cStartTx i en al hi | cStartTxStop i en al hi | cTx i en al hi
  | cTxStop i en al hi | cRx i en al hi | cRxLast i en al hi | cRxLastStop i en al hi | cStop i en al hi
  | cSTx i en al hi | cRecover i en al hi => exact decode_frameCmd i _ en al hi (List.contains_iff_mem.1 hw)
  | reservedCmd i w => exact decode_reservedCmd i w (Option.isNone_iff_eq_none.1 hw)
  | stsTxAck i | stsTxAckStop i | stsTxNak i | stsTxNakStop i | stsRxDone i | stsRxDoneStop i | stsMatch i
  | stsMatchStop i | stsStop i | stsArbLoss i | stsArbLossMatch i | stsRecoverDone i | stsNotMine i | stsEmpty i =>
    exact decode_frameSts i _ _ _ rfl
  | stsSmbusAlert i w | stsSmbusArp i w | stsSmbusAlertResp i w | stsAbnormal i w | stsSclTimeout i w
  | stsSlaveStop i w | stsSweep i w =>
    exact decode_frameSts i _ w _ (by simp_all [stsInstr, Instr.wf])
  | lIdle i w | lMasterHold i w => exact (decode_frameLine i w).trans (by simp_all [lineInstr, Instr.wf])
  | lSlaveHold i w =>
    obtain ⟨hidle, hhold⟩ := (sclLow_iff w).1 (eq_of_beq hw)
    exact (decode_frameLine i w).trans (by rw [lineInstr, if_neg hidle, if_neg hhold])
  | devInit i | submit i n d b | slaveRead i d n | slaveWrite i n d | slaveEnable i a | slaveDisable i
  | alertAssert i | alertDeassert i | recoverReq i | readMrstCnt i | readSrecCnt i | readRecovStatus i | busReset i
  | irq i =>
    exact decode_host_of_some (by
      simp [hostOf, hostRes_hostWord, hostOpc_hostWord, hostA_hostWord, hostInst_hostWord])
  | reservedHost w0 w1 w2 => exact decode_host_of_none (Option.isNone_iff_eq_none.1 hw)
  | msg loc w0 b n d => simp [encode, decode, decodeMsg]
  | armByte i a d | armBuf i a d | armDmaDec i a d | armDmaInc i a d | extByte i | extBuf i | extDmaDec i
  | extDmaInc i => simp [encode, frameMode, decode, decodeMode]
  | calcTiming k f => simp [encode, decode, decodeInternal]
  | lOther i | timingWord i | timingInit i | regInit i | armNext i | sArmRx i | sArmTx i | doXfer i | waitIdle i
  | wait i | wakeExpired i | wakeSignalled i | mArb i | mStopDone i | mFault i | mPreempt i | sMatch i | sTxAck i
  | sFinal i | sAbort i | recover i | ctrlReset i | kStop i | tExpire i => exact withInst_bytes _ i
  | mNack i s | sData i s | kRecovered i s => exact withInstBool_bytes _ i s
  | startMsg i w | sStop i w => exact withInstWord_bytes _ i w
  | poolAcq i d | poolRel i d | selectMode i d => exact withInstSide_bytes _ i d
  | startOfWrite i a | startOfRead i a => exact withInstByte_bytes _ i a
  | mDone i k s => simp [encode, frameInt, decode, decodeInternal]
  | kArb f | kAbn f | kSclto f => exact withFault_bytes _ f (eq_of_beq hw)
  | kAck i s m | kNack i j s m | kRx i d s m | kMatch i a b | kLine i s l b | kSmbus i m =>
    simp [encode, frameEnv, decode, decodeEnv]

end Sys2Proof
end

section
/-! PROOFS. What the decoder accepts: each reader of a frame takes exactly what its writer lays down, so that a frame
that spells an operation is the operation's encoding. -/

namespace Sys2Proof

/-! ## Readers, inverted -/

section readers

variable {bs r : List Byte}

theorem toBytes_ofBytes (b0 b1 b2 b3 : Byte) : (Word.ofBytes b0 b1 b2 b3).toBytes = [b0, b1, b2, b3] := by
  have h0 : (Word.ofBytes b0 b1 b2 b3).extractLsb' 0 8 = b0 := BitVec.extractLsb'_append_eq_right
  have h1 : (Word.ofBytes b0 b1 b2 b3).extractLsb' 8 8 = b1 :=
    (BitVec.extractLsb'_append_eq_of_le (Nat.le_refl 8)).trans BitVec.extractLsb'_append_eq_right
  have h2 : (Word.ofBytes b0 b1 b2 b3).extractLsb' 16 8 = b2 :=
    (BitVec.extractLsb'_append_eq_of_le (by decide)).trans
      ((BitVec.extractLsb'_append_eq_of_le (Nat.le_refl 8)).trans BitVec.extractLsb'_append_eq_right)
  have h3 : (Word.ofBytes b0 b1 b2 b3).extractLsb' 24 8 = b3 :=
    (BitVec.extractLsb'_append_eq_of_le (by decide)).trans
      ((BitVec.extractLsb'_append_eq_of_le (by decide)).trans BitVec.extractLsb'_append_eq_left)
  rw [Word.toBytes, h0, h1, h2, h3]

theorem andParse_eq_ok {α : Type} {p : Except DecodeError (α × List Byte)}
    {f : α → List Byte → Except DecodeError Instr} {x : Instr} :
    andParse p f = .ok x ↔ ∃ a r, p = .ok (a, r) ∧ f a r = .ok x := by
  rcases p with e | ⟨a, r⟩ <;> simp [andParse]

theorem finish_eq_ok {i x : Instr} : finish i r = .ok x ↔ r = [] ∧ i = x := by
  cases r <;> simp [finish]

theorem parseByte_eq_ok {b : Byte} : parseByte bs = .ok (b, r) ↔ bs = b :: r := by
  cases bs <;> simp [parseByte]

theorem parseInst_eq_ok {i : InstId} : parseInst bs = .ok (i, r) ↔ bs = byteOfInst i :: r := by
  refine ⟨fun h => ?_, fun h => h ▸ parseInst_byteOfInst i r⟩
  rcases bs with _ | ⟨b, bs⟩
  · cases h
  · simp only [parseInst] at h
    split at h
    · rename_i hb
      cases h
      congr 1
      apply BitVec.eq_of_toNat_eq
      simp only [byteOfInst, BitVec.toNat_setWidth]
      omega
    · cases h

theorem parseWord_eq_ok {w : Word} : parseWord bs = .ok (w, r) ↔ bs = w.toBytes ++ r := by
  refine ⟨fun h => ?_, fun h => h ▸ parseWord_toBytes w r⟩
  unfold parseWord at h
  split at h
  · cases h
    rw [toBytes_ofBytes]
    rfl
  · cases h

theorem parseBool_eq_ok {b : Bool} : parseBool bs = .ok (b, r) ↔ bs = byteOfBool b :: r := by
  refine ⟨fun h => ?_, fun h => h ▸ parseBool_byteOfBool b r⟩
  rcases bs with _ | ⟨a, bs⟩
  · cases h
  · simp only [parseBool] at h
    split at h
    · cases h
      simp [byteOfBool, *]
    · split at h
      · cases h
        simp [byteOfBool, *]
      · cases h

theorem parseSide_eq_ok {d : Side} : parseSide bs = .ok (d, r) ↔ bs = byteOfSide d :: r := by
  refine ⟨fun h => ?_, fun h => h ▸ parseSide_byteOfSide d r⟩
  unfold parseSide at h
  split at h
  · cases h
  · rename_i b r' hb
    cases h
    rw [parseBool_eq_ok.1 hb]
    cases b <;> rfl

theorem parseKind_eq_ok {k : Kind} : parseKind bs = .ok (k, r) ↔ bs = byteOfKind k :: r := by
  refine ⟨fun h => ?_, fun h => h ▸ parseKind_byteOfKind k r⟩
  unfold parseKind at h
  split at h
  · cases h
  · rename_i b r' hb
    cases h
    rw [parseBool_eq_ok.1 hb]
    cases b <;> rfl

theorem parseSmbus_eq_ok {m : SmbusBit} : parseSmbus bs = .ok (m, r) ↔ bs = BitVec.ofNat 8 m.pos :: r := by
  refine ⟨fun h => ?_, fun h => h ▸ parseSmbus_pos m r⟩
  rcases bs with _ | ⟨b, bs⟩
  · cases h
  · simp only [parseSmbus] at h
    split at h <;> cases h
    all_goals
      obtain rfl := (BitVec.toNat_eq_nat.1 ‹b.toNat = _›).2
      rfl

theorem parseOptWord_eq_ok {w : Option Word} : parseOptWord bs = .ok (w, r) ↔ bs = bytesOfOptWord w ++ r := by
  refine ⟨fun h => ?_, fun h => h ▸ parseOptWord_bytes w r⟩
  unfold parseOptWord at h
  split at h
  · cases h
  · rename_i r' hb
    cases h
    exact parseBool_eq_ok.1 hb
  · rename_i r' hb
    split at h
    · cases h
    · rename_i v r'' hw
      cases h
      rw [parseBool_eq_ok.1 hb, parseWord_eq_ok.1 hw]
      rfl

theorem parseOptByte_eq_ok {b : Option Byte} (h : parseOptByte bs = .ok (b, r)) : bs = bytesOfOptByte b ++ r := by
  unfold parseOptByte at h
  split at h
  · cases h
  · rename_i r' hb
    cases h
    exact parseBool_eq_ok.1 hb
  · rename_i r' hb
    split at h
    · cases h
    · rename_i v r'' hw
      cases h
      rw [parseBool_eq_ok.1 hb, parseByte_eq_ok.1 hw]
      rfl

theorem parseArm_eq_ok {d : ArmData} : parseArm bs = .ok d ↔ bs = bytesOfArm d := by
  refine ⟨fun h => ?_, fun h => h ▸ parseArm_bytes d⟩
  rcases bs with _ | ⟨b, bs⟩
  · cases h
  · simp only [parseArm] at h
    split at h
    · cases h
      simp [bytesOfArm, *]
    · split at h
      · split at h
        · rename_i n hn
          cases h
          simp [bytesOfArm, parseWord_eq_ok.1 hn, *]
        · cases h
        · cases h
      · cases h

theorem rxDataOf_eq_ok {b : Bool} {d : RxData} : rxDataOf b bs = .ok d ↔ b = d.isDirect ∧ bs = d.bytes := by
  unfold rxDataOf
  cases b
  · cases d <;> simp [RxData.isDirect, RxData.bytes]
  · rcases bs with _ | ⟨a, _ | ⟨a', bs⟩⟩ <;> cases d <;> simp [RxData.isDirect, RxData.bytes]

end readers

/-! ## The fields of a word, put together again -/

/-- A command word is its fields (R132). -/
theorem cmdWord_fields {w : Word} {x : Cmd} (h : w &&& 0xF83F#32 = x.action) :
    cmdWord x (cmdEn w) (cmdAlert w) (cmdHigh w) = w := by
  apply BitVec.eq_of_getLsbD_eq
  intro j hj
  have hmask : (0xF83F#32).getLsbD j = decide (j < 6 ∨ 11 ≤ j ∧ j < 16) := by
    have : ∀ j : Fin 32, (0xF83F#32).getLsbD j.val = decide (j.val < 6 ∨ 11 ≤ j.val ∧ j.val < 16) := by decide
    exact this ⟨j, hj⟩
  have hhigh : (decide (16 ≤ j) && (cmdHigh w).getLsbD (j - 16)) = (decide (16 ≤ j) && w.getLsbD j) := by
    by_cases hk : 16 ≤ j
    · simp [cmdHigh, show j - 16 < 16 by omega, Nat.add_sub_cancel' hk]
    · simp [hk]
  have hen : (decide (6 ≤ j) && decide (j < 10) && (cmdEn w).getLsbD (j - 6))
      = (decide (6 ≤ j) && decide (j < 10) && w.getLsbD j) := by
    by_cases hk : 6 ≤ j
    · have hw : decide (j - 6 < 4) = decide (j < 10) := decide_eq_decide.2 (by omega)
      simp [cmdEn, hk, hw, Nat.add_sub_cancel' hk]
    · simp [hk]
  have hal : (decide (j = 10) && cmdAlert w) = (decide (j = 10) && w.getLsbD j) := by
    by_cases hk : j = 10 <;> simp [cmdAlert, hk]
  rw [cmdWord_bit _ _ _ _ _ hj, ← h, BitVec.getLsbD_and, hmask, hhigh, hen, hal]
  cases w.getLsbD j with
  | false => simp
  | true => simp; omega

/-- A request's word 0 is its fields when its reserved bits are 0 (R137). -/
theorem hostWord_fields {w : Word} (h : hostRes w = 0#3) : hostWord (hostOpc w) (hostInst w) (hostA w) = w := by
  have h1 : hostA w ++ hostRes w = w.extractLsb' 13 19 := BitVec.extractLsb'_append_extractLsb'_eq_extractLsb' rfl
  have h2 : w.extractLsb' 13 19 ++ hostInst w = w.extractLsb' 8 24 :=
    BitVec.extractLsb'_append_extractLsb'_eq_extractLsb' rfl
  have h3 : w.extractLsb' 8 24 ++ hostOpc w = w.extractLsb' 0 32 :=
    BitVec.extractLsb'_append_extractLsb'_eq_extractLsb' rfl
  rw [hostWord, ← h, h1, h2, h3, BitVec.extractLsb'_eq_self]

/-- An address is the base of its window and the offset in it (R131). -/
theorem window_fields (a : Word) : (a &&& 0xFFFFFFC0#32) + (a.extractLsb' 0 6).setWidth 32 = a := by
  have hlow : (a.extractLsb' 0 6).setWidth 32 = a &&& 0x3F#32 := by
    apply BitVec.eq_of_toNat_eq
    rw [BitVec.toNat_and, show (0x3F#32).toNat = 2 ^ 6 - 1 by rfl, Nat.and_two_pow_sub_one_eq_mod]
    simp
    omega
  have hdisj : (a &&& 0xFFFFFFC0#32) &&& (a &&& 0x3F#32) = 0#32 := calc
    _ = (a &&& a) &&& (0xFFFFFFC0#32 &&& 0x3F#32) := by ac_rfl
    _ = 0#32 := BitVec.and_zero
  rw [hlow, BitVec.add_eq_or_of_and_eq_zero _ _ hdisj, ← BitVec.and_or_distrib_left]
  exact BitVec.and_allOnes

/-! ## The classes -/

/-- The frame spells the operation: it is well formed, names a window of the machine, and the frame is its encoding. -/
def Spells (c : Config) (x : Instr) (bs : List Byte) : Prop := x.wf = true ∧ x.mapped c = true ∧ encode c x = bs

/-- The address a place stands at. -/
def Place.addr (c : Config) : Place → Word
  | .group => c.groupBase
  | .reg i r => regAddr c i r.offset
  | .reserved i off => regAddr c i off

/-- A place is the machine's: its window exists, and what names no register is a reserved offset (R143). -/
def Place.On (c : Config) : Place → Prop
  | .group => True
  | .reg i _ => i.toNat < c.insts.length
  | .reserved i off => i.toNat < c.insts.length ∧ reservedOffset off = true

section classes

variable {c : Config} {bs : List Byte} {x : Instr}

/-- An address is in the window whose base is its high part (R131). -/
theorem windowOf_eq_some {a : Word} {i : InstId} (hl : c.insts.length ≤ 32) (h : c.windowOf a = some i) :
    i.toNat < c.insts.length ∧ (c.inst i.toNat).base = a &&& 0xFFFFFFC0#32 := by
  obtain ⟨k, hk, rfl⟩ := Option.map_eq_some_iff.1 h
  obtain ⟨hlt, hbase, -⟩ := List.findIdx?_eq_some_iff_getElem.1 hk
  have hn : (BitVec.ofNat 5 k).toNat = k := by simp; omega
  rw [hn]
  exact ⟨hlt, by simpa [Config.inst, List.getD_eq_getElem?_getD, hlt] using hbase⟩

theorem regAt_eq_some {off : BitVec 6} {r : Reg} (h : regAt off = some r) : r.offset = off :=
  by simpa using List.find?_some h

/-- An aligned offset that names no register is a reserved one (R143). -/
theorem reservedOffset_of_regAt (off : BitVec 6) (h : regAt off = none) (ha : off.extractLsb' 0 2 = 0#2) :
    reservedOffset off = true := by
  revert off
  decide

/-- What an address is found to be is on the machine and stands at that address (R131). -/
theorem placeOf_eq_ok {a : Word} {p : Place} (hl : c.insts.length ≤ 32) (h : c.placeOf a = .ok p) :
    p.On c ∧ p.addr c = a := by
  unfold Config.placeOf at h
  split at h
  · cases h
    exact ⟨trivial, Eq.symm ‹_›⟩
  split at h
  · cases h
  rename_i halign
  rw [ne_eq, not_not, extract_low] at halign
  split at h
  · cases h
  rename_i i hw
  obtain ⟨hi, hbase⟩ := windowOf_eq_some hl hw
  have hoff : regAddr c i (a.extractLsb' 0 6) = a := by rw [regAddr, hbase, window_fields]
  split at h <;> cases h
  · exact ⟨hi, by rw [Place.addr, regAt_eq_some ‹_›, hoff]⟩
  · exact ⟨⟨hi, reservedOffset_of_regAt _ ‹_› halign⟩, hoff⟩

/-- The operation a register read of a place is. -/
def Place.rd : Place → Instr
  | .group => .rdGroupSts
  | .reg i r => rdInstr i r
  | .reserved i off => .rdReserved i off

/-- The operation a register write of a place is. -/
def Place.wr (v : Word) : Place → Instr
  | .group => .wrGroupSts v
  | .reg i r => wrInstr i v r
  | .reserved i off => .wrReserved i off v

theorem place_rd_spells {p : Place} (h : p.On c) : Spells c p.rd (frameRd (p.addr c)) := by
  cases p with
  | group => exact ⟨rfl, rfl, rfl⟩
  | reg i r => cases r <;> exact ⟨rfl, decide_eq_true h, rfl⟩
  | reserved i off => exact ⟨h.2, decide_eq_true h.1, rfl⟩

theorem place_wr_spells {p : Place} (v : Word) (h : p.On c) : Spells c (p.wr v) (frameWr (p.addr c) v) := by
  cases p with
  | group => exact ⟨rfl, rfl, rfl⟩
  | reg i r => cases r <;> exact ⟨rfl, decide_eq_true h, rfl⟩
  | reserved i off => exact ⟨h.2, decide_eq_true h.1, rfl⟩

/-- The place of the address decides the operation (R131). -/
theorem decodeReg_spells (hp : c.placed = true) (h : decodeReg c bs = .ok x) : Spells c x (0#8 :: bs) := by
  have hl : c.insts.length ≤ 32 := by
    simp only [Config.placed, Bool.and_eq_true, decide_eq_true_eq] at hp
    omega
  simp only [decodeReg, andParse_eq_ok, parseByte_eq_ok, parseWord_eq_ok] at h
  obtain ⟨op, _, rfl, a, r, rfl, h⟩ := h
  split at h
  case isTrue hop =>
    cases hpl : c.placeOf a with
    | error e => rw [hpl] at h; cases h
    | ok p =>
      have hf : finish p.rd r = .ok x := by rw [hpl] at h; cases p <;> exact h
      obtain ⟨hon, rfl⟩ := placeOf_eq_ok hl hpl
      obtain ⟨rfl, rfl⟩ := finish_eq_ok.1 hf
      simpa [frameRd, hop] using place_rd_spells hon
  split at h
  case isTrue hop =>
    obtain ⟨v, r, hr, h⟩ := andParse_eq_ok.1 h
    cases hpl : c.placeOf a with
    | error e => rw [hpl] at h; cases h
    | ok p =>
      have hf : finish (p.wr v) r = .ok x := by rw [hpl] at h; cases p <;> exact h
      obtain ⟨hon, rfl⟩ := placeOf_eq_ok hl hpl
      obtain ⟨rfl, rfl⟩ := finish_eq_ok.1 hf
      simpa [frameWr, hop, parseWord_eq_ok.1 hr] using place_wr_spells v hon
  cases h

/-- A word that selects a command spells it with the word's own fields (R132, R133). -/
theorem cmdInstr_spells {i : InstId} {w : Word} {k : Cmd} (h : cmdOf w = some k) :
    Spells c (cmdInstr i (cmdEn w) (cmdAlert w) (cmdHigh w) k) (frameCmd i w) := by
  obtain ⟨ha, he⟩ := cmdOf_eq_some w k h
  have hw := cmdWord_fields ha
  have hc := List.contains_iff_mem.2 he
  cases k <;> exact ⟨hc, rfl, congrArg (frameCmd i) hw⟩

theorem decodeCmd_spells (h : decodeCmd bs = .ok x) : Spells c x (1#8 :: bs) := by
  simp only [decodeCmd, andParse_eq_ok, parseInst_eq_ok, parseWord_eq_ok] at h
  obtain ⟨i, _, rfl, w, r, rfl, h⟩ := h
  split at h
  · obtain ⟨rfl, rfl⟩ := finish_eq_ok.1 h
    simpa [frameCmd] using cmdInstr_spells ‹_›
  · obtain ⟨rfl, rfl⟩ := finish_eq_ok.1 h
    exact ⟨Option.isNone_iff_eq_none.2 ‹_›, rfl, by simp [encode, frameCmd]⟩

/-- A word of the exact-combination table is its operation's (R386). -/
theorem stsExact_spells {i : InstId} {w : Word} (h : stsExact i w = some x) : Spells c x (frameSts i 5#8 w) := by
  unfold stsExact at h
  split at h <;> cases h
  all_goals
    obtain rfl := (BitVec.toNat_eq_nat.1 ‹w.toNat = _›).2
    exact ⟨rfl, rfl, rfl⟩

/-- Each stage takes only words of its rows' patterns, and no word with a hardwired bit set (R142, R386). -/
theorem stsInstr_spells {i : InstId} {stage : Byte} {w : Word} (h : stsInstr i stage w = .ok x) :
    Spells c x (frameSts i stage w) := by
  unfold stsInstr at h
  generalize hn : stage.toNat = n at h
  obtain rfl := (BitVec.toNat_eq_nat.1 hn).2
  split at h
  · cases h
  split at h
  -- the two stages of the empty word
  case h_1 | h_2 =>
    split at h <;> cases h
    next hz => subst hz; exact ⟨rfl, rfl, rfl⟩
  -- the exact-combination table
  case h_6 =>
    split at h <;> cases h
    exact stsExact_spells ‹_›
  -- the sweep takes any word
  case h_7 =>
    cases h
    exact ⟨by simp_all [Instr.wf], rfl, rfl⟩
  -- no stage
  case h_8 => cases h
  -- SMBus bits, faults and the slave's STOP, each by its bit
  all_goals split_ifs at h <;> cases h <;> exact ⟨by simp_all [Instr.wf], rfl, rfl⟩

theorem decodeSts_spells (h : decodeSts bs = .ok x) : Spells c x (2#8 :: bs) := by
  simp only [decodeSts, andParse_eq_ok, parseInst_eq_ok, parseByte_eq_ok, parseWord_eq_ok] at h
  obtain ⟨i, _, rfl, stage, _, rfl, w, r, rfl, h⟩ := h
  split at h
  · obtain ⟨rfl, rfl⟩ := finish_eq_ok.1 h
    simpa [frameSts] using stsInstr_spells ‹_›
  · cases h

/-- The order of the tests leaves L.SLAVE_HOLD the words with SCL low (R135, R421). -/
theorem lineInstr_spells {i : InstId} {w : Word} : Spells c (lineInstr i w) (frameLine i w) := by
  unfold lineInstr
  split
  · exact ⟨beq_iff_eq.2 ‹_›, rfl, rfl⟩
  · split
    · exact ⟨beq_iff_eq.2 ‹_›, rfl, rfl⟩
    · exact ⟨beq_iff_eq.2 ((sclLow_iff w).2 ⟨‹_›, ‹_›⟩), rfl, rfl⟩

theorem decodeLine_spells (h : decodeLine bs = .ok x) : Spells c x (3#8 :: bs) := by
  simp only [decodeLine, andParse_eq_ok, parseInst_eq_ok, parseWord_eq_ok, finish_eq_ok] at h
  obtain ⟨i, _, rfl, w, r, rfl, rfl, rfl⟩ := h
  simpa [frameLine] using lineInstr_spells

/-- A request spells an operation only with its reserved bits and its unused operands 0 (R137, R144). -/
theorem hostOf_spells {w0 w1 w2 : Word} (h : hostOf w0 w1 w2 = some x) : Spells c x (frameHost w0 w1 w2) := by
  unfold hostOf at h
  split at h
  · cases h
  rename_i hres
  rw [← hostWord_fields (not_not.1 hres)]
  generalize hostA w0 = a, hostInst w0 = i at h ⊢
  generalize hostOpc w0 = o at h ⊢
  generalize hn : o.toNat = n at h
  obtain rfl := (BitVec.toNat_eq_nat.1 hn).2
  simp only [Bool.and_eq_true, beq_iff_eq] at h
  split at h
  -- SUBMIT takes three operands
  case h_2 =>
    cases h
    exact ⟨rfl, rfl, rfl⟩
  -- SLAVE_READ leaves A unused, SLAVE_WRITE word 2
  case h_3 | h_4 =>
    split at h <;> cases h
    next hz => subst hz; exact ⟨rfl, rfl, rfl⟩
  -- SLAVE_ENABLE leaves words 1 and 2 unused
  case h_5 =>
    split at h <;> cases h
    next hz => obtain ⟨rfl, rfl⟩ := hz; exact ⟨rfl, rfl, rfl⟩
  -- no OPC
  case h_15 => cases h
  -- the operations with no operand but INST
  all_goals
    split at h <;> cases h
    next hz => obtain ⟨⟨rfl, rfl⟩, rfl⟩ := hz; exact ⟨rfl, rfl, rfl⟩

theorem decodeHost_spells (h : decodeHost bs = .ok x) : Spells c x (4#8 :: bs) := by
  simp only [decodeHost, andParse_eq_ok, parseWord_eq_ok, finish_eq_ok] at h
  obtain ⟨w0, _, rfl, w1, _, rfl, w2, r, rfl, rfl, rfl⟩ := h
  rw [List.append_nil]
  cases ho : hostOf w0 w1 w2 with
  | none => exact ⟨Option.isNone_iff_eq_none.2 ho, rfl, by simp [encode, frameHost]⟩
  | some y => simpa [frameHost] using hostOf_spells (c := c) ho

theorem decodeMsg_spells (h : decodeMsg bs = .ok x) : Spells c x (5#8 :: bs) := by
  simp only [decodeMsg, andParse_eq_ok, parseWord_eq_ok] at h
  obtain ⟨loc, _, rfl, w0, _, rfl, b, _, rfl, n, r, rfl, h⟩ := h
  cases h
  exact ⟨rfl, rfl, by simp [encode]⟩

theorem decodeMode_spells (h : decodeMode bs = .ok x) : Spells c x (6#8 :: bs) := by
  simp only [decodeMode, andParse_eq_ok, parseByte_eq_ok, parseBool_eq_ok, parseInst_eq_ok] at h
  obtain ⟨tag, _, rfl, ext, _, rfl, i, r, rfl, h⟩ := h
  generalize hn : tag.toNat = n at h
  obtain rfl := (BitVec.toNat_eq_nat.1 hn).2
  split at h
  -- no mode
  case h_9 => cases h
  -- EXT in the four modes
  case h_1 | h_2 | h_3 | h_4 =>
    obtain ⟨rfl, rfl⟩ := finish_eq_ok.1 h
    exact ⟨rfl, rfl, rfl⟩
  -- ARM in BYTE mode carries an optional byte, in the other modes bytes or a window
  case h_5 =>
    simp only [andParse_eq_ok, parseWord_eq_ok, finish_eq_ok] at h
    obtain ⟨a, _, rfl, d, r, hd, rfl, rfl⟩ := h
    rw [parseOptByte_eq_ok hd, List.append_nil]
    exact ⟨rfl, rfl, rfl⟩
  all_goals
    obtain ⟨a, r, hr, h⟩ := andParse_eq_ok.1 h
    split at h <;> cases h
    next hd => rw [parseWord_eq_ok.1 hr, parseArm_eq_ok.1 hd]; exact ⟨rfl, rfl, rfl⟩

theorem withInst_spells {p row : Byte} {mk : InstId → Instr} (h : withInst mk bs = .ok x)
    (hs : ∀ i, Spells c (mk i) [p, row, byteOfInst i]) : Spells c x (p :: row :: bs) := by
  simp only [withInst, andParse_eq_ok, parseInst_eq_ok, finish_eq_ok] at h
  obtain ⟨i, r, rfl, rfl, rfl⟩ := h
  exact hs i

theorem withInstBool_spells {p row : Byte} {mk : InstId → Bool → Instr} (h : withInstBool mk bs = .ok x)
    (hs : ∀ i b, Spells c (mk i b) [p, row, byteOfInst i, byteOfBool b]) : Spells c x (p :: row :: bs) := by
  simp only [withInstBool, andParse_eq_ok, parseInst_eq_ok, parseBool_eq_ok, finish_eq_ok] at h
  obtain ⟨i, _, rfl, b, r, rfl, rfl, rfl⟩ := h
  exact hs i b

theorem withInstWord_spells {p row : Byte} {mk : InstId → Word → Instr} (h : withInstWord mk bs = .ok x)
    (hs : ∀ i w, Spells c (mk i w) (p :: row :: byteOfInst i :: w.toBytes)) : Spells c x (p :: row :: bs) := by
  simp only [withInstWord, andParse_eq_ok, parseInst_eq_ok, parseWord_eq_ok, finish_eq_ok] at h
  obtain ⟨i, _, rfl, w, r, rfl, rfl, rfl⟩ := h
  rw [List.append_nil]
  exact hs i w

theorem withInstSide_spells {p row : Byte} {mk : InstId → Side → Instr} (h : withInstSide mk bs = .ok x)
    (hs : ∀ i d, Spells c (mk i d) [p, row, byteOfInst i, byteOfSide d]) : Spells c x (p :: row :: bs) := by
  simp only [withInstSide, andParse_eq_ok, parseInst_eq_ok, parseSide_eq_ok, finish_eq_ok] at h
  obtain ⟨i, _, rfl, d, r, rfl, rfl, rfl⟩ := h
  exact hs i d

theorem withInstByte_spells {p row : Byte} {mk : InstId → Byte → Instr} (h : withInstByte mk bs = .ok x)
    (hs : ∀ i b, Spells c (mk i b) [p, row, byteOfInst i, b]) : Spells c x (p :: row :: bs) := by
  simp only [withInstByte, andParse_eq_ok, parseInst_eq_ok, parseByte_eq_ok, finish_eq_ok] at h
  obtain ⟨i, _, rfl, b, r, rfl, rfl, rfl⟩ := h
  exact hs i b

/-- A fault comes with bits of a command's outcome only (R219). -/
theorem withFault_spells {p row : Byte} {mk : FaultAt → Instr} (h : withFault mk bs = .ok x)
    (hs : ∀ f, f.also &&& ~~~alsoMask = 0#32 → Spells c (mk f) (p :: row :: byteOfInst f.inst :: f.also.toBytes)) :
    Spells c x (p :: row :: bs) := by
  simp only [withFault, andParse_eq_ok, parseInst_eq_ok, parseWord_eq_ok] at h
  obtain ⟨i, _, rfl, w, r, rfl, h⟩ := h
  split at h
  · obtain ⟨rfl, rfl⟩ := finish_eq_ok.1 h
    rw [List.append_nil]
    exact hs ⟨i, w⟩ ‹_›
  · cases h

theorem decodeInternal_spells (h : decodeInternal bs = .ok x) : Spells c x (7#8 :: bs) := by
  obtain ⟨row, r, hr, h⟩ := andParse_eq_ok.1 h
  rw [parseByte_eq_ok.1 hr]
  generalize hn : row.toNat = n at h
  obtain rfl := (BitVec.toNat_eq_nat.1 hn).2
  split at h
  -- CALC_TIMING
  case h_2 =>
    simp only [andParse_eq_ok, parseWord_eq_ok, finish_eq_ok] at h
    obtain ⟨k, _, rfl, f, _, rfl, rfl, rfl⟩ := h
    exact ⟨rfl, rfl, by simp [encode]⟩
  -- POOL_ACQ, POOL_REL, SELECT_MODE
  case h_7 | h_8 | h_9 => exact withInstSide_spells h fun _ _ => ⟨rfl, rfl, rfl⟩
  -- START_MSG, S_STOP
  case h_14 | h_30 => exact withInstWord_spells h fun _ _ => ⟨rfl, rfl, rfl⟩
  -- M_DONE
  case h_18 =>
    simp only [andParse_eq_ok, parseInst_eq_ok, parseKind_eq_ok, parseBool_eq_ok, finish_eq_ok] at h
    obtain ⟨i, _, rfl, k, _, rfl, s, _, rfl, rfl, rfl⟩ := h
    exact ⟨rfl, rfl, rfl⟩
  -- M_NACK, S_DATA
  case h_19 | h_27 => exact withInstBool_spells h fun _ _ => ⟨rfl, rfl, rfl⟩
  -- the start of a write and of a read
  case h_25 | h_26 => exact withInstByte_spells h fun _ _ => ⟨rfl, rfl, rfl⟩
  -- no row
  case h_34 => cases h
  -- the rows with no operand but INST
  all_goals exact withInst_spells h fun _ => ⟨rfl, rfl, rfl⟩

theorem decodeEnv_spells (h : decodeEnv bs = .ok x) : Spells c x (8#8 :: bs) := by
  obtain ⟨row, r, hr, h⟩ := andParse_eq_ok.1 h
  rw [parseByte_eq_ok.1 hr]
  generalize hn : row.toNat = n at h
  obtain rfl := (BitVec.toNat_eq_nat.1 hn).2
  split at h
  -- K.ACK
  case h_1 =>
    simp only [andParse_eq_ok, parseInst_eq_ok, parseBool_eq_ok, parseOptWord_eq_ok, finish_eq_ok] at h
    obtain ⟨i, _, rfl, s, _, rfl, m, _, rfl, rfl, rfl⟩ := h
    exact ⟨rfl, rfl, by simp [encode, frameEnv]⟩
  -- K.NACK
  case h_2 =>
    simp only [andParse_eq_ok, parseInst_eq_ok, parseWord_eq_ok, parseBool_eq_ok, parseOptWord_eq_ok, finish_eq_ok] at h
    obtain ⟨i, _, rfl, j, _, rfl, s, _, rfl, m, _, rfl, rfl, rfl⟩ := h
    exact ⟨rfl, rfl, by simp [encode, frameEnv]⟩
  -- K.RX
  case h_3 =>
    simp only [andParse_eq_ok, parseInst_eq_ok, parseBool_eq_ok, parseOptWord_eq_ok] at h
    obtain ⟨i, _, rfl, d, _, rfl, s, _, rfl, m, _, rfl, h⟩ := h
    split at h <;> cases h
    obtain ⟨rfl, rfl⟩ := rxDataOf_eq_ok.1 ‹_›
    exact ⟨rfl, rfl, by simp [encode, frameEnv]⟩
  -- K.STOP, T.EXPIRE
  case h_4 | h_12 => exact withInst_spells h fun _ => ⟨rfl, rfl, rfl⟩
  -- the three faults
  case h_5 | h_6 | h_7 => exact withFault_spells h fun _ hf => ⟨beq_iff_eq.2 hf, rfl, rfl⟩
  -- K.MATCH
  case h_8 =>
    simp only [andParse_eq_ok, parseInst_eq_ok, parseByte_eq_ok, parseBool_eq_ok, finish_eq_ok] at h
    obtain ⟨i, _, rfl, a, _, rfl, b, _, rfl, rfl, rfl⟩ := h
    exact ⟨rfl, rfl, rfl⟩
  -- K.RECOVERED
  case h_9 => exact withInstBool_spells h fun _ _ => ⟨rfl, rfl, rfl⟩
  -- K.LINE
  case h_10 =>
    simp only [andParse_eq_ok, parseInst_eq_ok, parseBool_eq_ok, finish_eq_ok] at h
    obtain ⟨i, _, rfl, s, _, rfl, l, _, rfl, b, _, rfl, rfl, rfl⟩ := h
    exact ⟨rfl, rfl, rfl⟩
  -- K.SMBUS
  case h_11 =>
    simp only [andParse_eq_ok, parseInst_eq_ok, parseSmbus_eq_ok, finish_eq_ok] at h
    obtain ⟨i, _, rfl, m, _, rfl, rfl, rfl⟩ := h
    exact ⟨rfl, rfl, rfl⟩
  -- no row
  case h_13 => cases h

end classes

/-- Settles O2: the interface byte decides the class, and each class's reader takes only encodings. -/
theorem decodedOperationsAreWellFormed : Obligations.DecodedOperationsAreWellFormed := by
  intro c bs x hc h
  show Spells c x bs
  cases bs with
  | nil => cases h
  | cons port r =>
    rw [decode] at h
    generalize hn : port.toNat = n at h
    obtain rfl := (BitVec.toNat_eq_nat.1 hn).2
    split at h
    · exact decodeReg_spells (placed_of_wf hc) h
    · exact decodeCmd_spells h
    · exact decodeSts_spells h
    · exact decodeLine_spells h
    · exact decodeHost_spells h
    · exact decodeMsg_spells h
    · exact decodeMode_spells h
    · exact decodeInternal_spells h
    · exact decodeEnv_spells h
    · cases h

/-- The command with an action part and an enable part of its column is the word's command (R133). -/
theorem cmdOf_eq_some_iff (w : Word) (x : Cmd) :
    cmdOf w = some x ↔ w &&& 0xF83F#32 = x.action ∧ cmdEn w ∈ x.enables := by
  refine ⟨cmdOf_eq_some w x, fun ⟨ha, he⟩ => ?_⟩
  rw [← cmdWord_fields ha]
  exact cmdOf_cmdWord x _ _ _ he

/-- Settles O3: `cmdEn` is the enable part of the word. -/
theorem commandIsSelectedByActionAndEnables : Obligations.CommandIsSelectedByActionAndEnables := cmdOf_eq_some_iff

/-- Settles O4: the decoder runs on the seven frames. -/
theorem wordsOfTheSpecDecode : Obligations.WordsOfTheSpecDecode :=
  ⟨rfl, rfl, rfl, rfl, rfl, rfl, rfl⟩

end Sys2Proof
end

section
/-! PROOFS. Host requests that are not offered, and the descriptor MSG lays. -/

namespace Sys2Proof.Machine
open Sys2Proof

section requests

variable {s : State} {i : InstId}

/-- A request whose INST the machine does not have answers E_INVAL, whatever it asks (R137, R144). -/
theorem hostCall_absent (op : Nat → Op Ret) (h : s.insts.length ≤ i.toNat) :
    hostCall i op s = .next { s with ret := .word (s.cfg.code .inval) } := by
  rw [hostCall, if_neg (Nat.not_lt.2 h)]
  rfl

/-- A slave request answers E_INVAL on a machine without the slave engine, whatever it asks (R358). -/
theorem slaveCall_absent (op : Nat → Op Ret) (h : s.cfg.slavePresent = false ∨ s.insts.length ≤ i.toNat) :
    slaveCall i op s = .next { s with ret := .word (s.cfg.code .inval) } := by
  by_cases hi : s.insts.length ≤ i.toNat
  · exact hostCall_absent _ hi
  · rw [slaveCall, hostCall, if_pos (Nat.lt_of_not_le hi)]
    exact runOp_ok s _ _ _ (by simp [h.resolve_right hi])

end requests

/-- Settles O38: each request is a host or a slave call, which answers before its operation is looked at. -/
theorem requestsThatAreNotOfferedReturnInvalid : Obligations.RequestsThatAreNotOfferedReturnInvalid := by
  intro s i a b c h n
  refine ⟨rfl, fun hs => ?_, fun hi => ?_⟩
  · simp [exec, execSlaveRead, execSlaveWrite, execSlaveEnable, execSlaveDisable, execAlertAssert, execAlertDeassert,
      slaveCall_absent _ hs]
  · simp [exec, execDevInit, execSubmit, execRecoverReq, execReadMrstCnt, execReadSrecCnt, execReadRecovStatus,
      execBusReset, execIrq, hostCall_absent _ hi]

/-- A write of host memory inside its space. -/
theorem op_hostWrite (s : State) (a : Nat) (bs : List Byte) (h : a + bs.length ≤ spaceSize) :
    hostWrite a bs s = .ok ((), { s with mem := Memory.writeN s.mem a bs }) := by
  rw [hostWrite, if_pos h]
  rfl

/-- The bytes of a descriptor (R136, R102). -/
def descBytes (w0 ref cap : Word) : List Byte := w0.toBytes ++ ref.toBytes ++ cap.toBytes

@[simp] theorem descBytes_length (w0 ref cap : Word) : (descBytes w0 ref cap).length = 12 := rfl

/-- A descriptor whose bytes lie in memory is read as the message of its words (R136). -/
theorem message_of_holds {s : State} {loc w0 ref cap : Word} (hs : loc.toNat + 12 ≤ spaceSize)
    (h : Holds s.mem loc.toNat (descBytes w0 ref cap)) : s.message loc 0 = some (msgOfWords w0 ref cap) := by
  have hb : s.mem.bytes (loc.toNat + 12 * 0) 12 = some (descBytes w0 ref cap) := by
    rw [Nat.mul_zero, Nat.add_zero, Memory.bytes, if_pos hs, readN_eq_some]
    exact ⟨rfl, h⟩
  rw [State.message, hb]
  simp only [descBytes, Word.toBytes, List.cons_append, List.nil_append, ofBytes_toBytes]

/-- MSG writes the descriptor and then its buffer (R136). -/
theorem exec_msg (s : State) (loc w0 ref cap : Word) (data : List Byte) (hl : loc.toNat + 12 ≤ spaceSize)
    (hr : ref.toNat + data.length ≤ spaceSize) : exec (.msg loc w0 ref cap data) s =
      .next { s with mem := (s.mem.writeN loc.toNat (descBytes w0 ref cap)).writeN ref.toNat data, ret := .none } := by
  show runOp (noRet (do hostWrite loc.toNat (descBytes w0 ref cap); hostWrite ref.toNat data)) s = _
  refine runOp_ok s _ .none { s with mem := (s.mem.writeN loc.toNat (descBytes w0 ref cap)).writeN ref.toNat data } ?_
  have hl' : loc.toNat + (descBytes w0 ref cap).length ≤ spaceSize := hl
  simp only [noRet, op_bind, op_pure, op_hostWrite _ _ _ hl', op_hostWrite _ _ _ hr]

/-- Settles O40: what lies outside both writes is untouched by each, and the buffer's leaves a descriptor apart from it
as it was laid. -/
theorem messageDescriptorIsLaidInMemory : Obligations.MessageDescriptorIsLaidInMemory := by
  intro s loc w0 ref cap data hl hr
  refine ⟨_, exec_msg s loc w0 ref cap data hl hr, rfl, writeN_holds _ _ _, fun a ha hb => ?_, fun hd => ?_⟩
  · rw [get_writeN_outside _ _ _ _ hb, get_writeN_outside _ _ _ _ ha]
  · refine message_of_holds hl fun j hj => ?_
    rw [descBytes_length] at hj
    rw [get_writeN_outside _ _ _ _ (by omega), get_writeN_inside _ _ _ _ hj]

end Sys2Proof.Machine
end

section
/-! PROOFS. The register accesses: what each read answers and each write stores. -/

namespace Sys2Proof.Machine

open Sys2Proof

/-! ## Accesses as one operation -/

section accesses

variable {s t : State} {i : InstId} {x : Inst}

/-- A step of an existing instance is its operation's outcome, run where it stands. -/
theorem stepOn_has (op : Nat → Op Ret) (h : s.Has i x) : stepOn i op s = runOp (op i.toNat) s := by
  rw [stepOn_put s x i op h, put_self s i.toNat x h]

/-- A register read whose value is no draw answers the register's view and changes nothing else (R170, R104). -/
theorem rdReg_view (h : s.Has i x) (r : Reg) (hd : r ≠ .dmaLen ∨ x.dmaInFlight = none) :
    rdReg i r s = .next { s with ret := .word (x.view r) } := by
  rw [rdReg, stepOn_has _ h]
  exact runOp_ok s _ _ s (by rw [op_bind, op_regRead s _ r x h hd]; rfl)

/-- A register write that completes is a step that returns nothing (R171). -/
theorem wrReg_next (h : s.Has i x) {r : Reg} {v : Word} (hw : regWrite i.toNat r v s = .ok ((), t)) :
    wrReg i r v s = .next { t with ret := .none } := by
  rw [wrReg, stepOn_has _ h]
  exact runOp_ok s _ _ t (by rw [noRet, op_bind, hw]; rfl)

end accesses

/-- What an operation leaves at instance i touches nothing else. -/
theorem put_becomes (s : State) (i : InstId) (x y : Inst) (n : Nat) (r : Ret) (h : s.Has i x) :
    s.Becomes (s.put i.toNat y s.poolOwner n r) i y :=
  ⟨put_get _ _ _ _ _ _ (has_lt s x i h), ⟨rfl, rfl, put_length _ _ _ _ _ _, fun _ hj => put_other _ _ _ _ _ _ _ hj⟩,
    ⟨fun _ => rfl, fun _ => rfl, fun _ => rfl⟩, rfl⟩

/-! ## GROUP_STS and the reserved offsets -/

/-- Settles O18: the view's bits are the instances' lines (`groupWord_bit`). -/
theorem groupStatusShowsTheInterruptLines : Obligations.GroupStatusShowsTheInterruptLines := by
  intro s i x off v h
  refine ⟨⟨s.groupSts, rfl, fun k hk => ?_⟩, (stepOn_has (fun _ => retWord 0#32) h).trans rfl,
    (stepOn_has (fun _ => pure .none) h).trans rfl, rfl⟩
  rw [State.groupSts, groupWord_bit s.insts k hk]
  cases s.insts[k]? with
  | none => rfl
  | some y => exact (decide_not (p := y.regs.intrSts &&& y.regs.intrCtrl = 0#32)).symm

/-! ## Writes that store -/

/-- A write of BUF_CTRL keeps ACT_CNT, bits 29:20, and stores the others (R179). -/
theorem bufStore_bit (v b : Word) (j : Nat) (hj : j < 32) :
    ((v &&& 0xC00FFFFF#32) ||| (b &&& 0x3FF00000#32)).getLsbD j =
      if 20 ≤ j ∧ j < 30 then b.getLsbD j else v.getLsbD j := by
  have hmask : ∀ j : Fin 32, (0xC00FFFFF#32).getLsbD j.val = !decide (20 ≤ j.val ∧ j.val < 30)
      ∧ (0x3FF00000#32).getLsbD j.val = decide (20 ≤ j.val ∧ j.val < 30) := by decide
  obtain ⟨hstored, hkept⟩ := hmask ⟨j, hj⟩
  simp only [BitVec.getLsbD_or, BitVec.getLsbD_and, hstored, hkept]
  by_cases hr : 20 ≤ j ∧ j < 30 <;> simp [hr]

/-- Settles O19: each write by its register's law; of BUF_CTRL the word stored, by its bits. -/
theorem plainRegisterWritesStore : Obligations.PlainRegisterWritesStore := by
  intro s i x v h
  have hbuf := updInst_congr s i.toNat
    (fun y => { y with
      regs := { y.regs with bufCtrl := (v &&& 0xC00FFFFF#32) ||| (y.regs.bufCtrl &&& 0x3FF00000#32) }
      outs := y.noted .bufCtrl v })
    (fun y => { y with
      regs := { y.regs with bufCtrl := (v &&& 0xC00FFFFF#32) ||| (x.regs.bufCtrl &&& 0x3FF00000#32) }
      outs := y.noted .bufCtrl v }) x h rfl
  have hbyte : v.setWidth 8 = v.extractLsb' 0 8 := BitVec.setWidth_eq_extractLsb' (by decide)
  refine ⟨wrReg_next h (op_regWrite_acTiming1 s _ v), wrReg_next h (op_regWrite_acTiming2 s _ v),
    wrReg_next h (op_regWrite_intrCtrl s _ v), wrReg_next h (op_regWrite_devAddr s _ v),
    wrReg_next h (op_regWrite_dmaBase s _ v), wrReg_next h (op_regWrite_dmaLen s _ v),
    ⟨_, wrReg_next h ((op_regWrite_bufCtrl s _ v).trans (by rw [hbuf])), bufStore_bit v x.regs.bufCtrl⟩, ?_⟩
  rw [hbyte]
  exact wrReg_next h (op_regWrite_byteData s _ v)

/-- A bit survives a write-one-to-clear where the word has 0 and a bit exists (R176, R45). -/
theorem w1c_bit (old v : Word) (j : Nat) :
    (w1c old v).getLsbD j = (old.getLsbD j && !v.getLsbD j && decide (j < 15)) := by
  by_cases hj : j < 32
  · have hmask : ∀ j : Fin 32, STS_ANY.getLsbD j.val = decide (j.val < 15) := by decide
    simp only [w1c, BitVec.getLsbD_and, BitVec.getLsbD_not, hmask ⟨j, hj⟩, hj, decide_true, Bool.true_and]
  · rw [BitVec.getLsbD_of_ge _ _ (Nat.le_of_not_lt hj), BitVec.getLsbD_of_ge old _ (Nat.le_of_not_lt hj)]
    rfl

/-- Settles O20: the word stored is `w1c` of the one that stood, bit by bit. -/
theorem intrStsIsWriteOneToClear : Obligations.IntrStsIsWriteOneToClear := by
  intro s i x v h
  have hw := updInst_congr s i.toNat
    (fun y => { y with regs := { y.regs with intrSts := w1c y.regs.intrSts v }, outs := y.noted .intrSts v })
    (fun y => { y with regs := { y.regs with intrSts := w1c x.regs.intrSts v }, outs := y.noted .intrSts v }) x h rfl
  exact ⟨rdReg_view h .intrSts (.inl (by decide)), _,
    wrReg_next h ((op_regWrite_intrSts s _ v).trans (by rw [hw])), w1c_bit x.regs.intrSts v⟩

/-! ## FUN_CTRL -/

section sides

variable (c : Core) (old new : Word) (a b d : Bool)

/-- A core reset adds nothing to the bus trace (R229; log entry 29). -/
theorem afterFun_trace : (c.afterFun old new a b d).trace = c.trace := by
  simp only [Core.afterFun, apply_ite Core.trace, Core.resetMaster, Core.resetSlave, ite_self]

/-- The master side's reset keeps a slave command (R229). -/
theorem resetMaster_inflight : (c.resetMaster a b d).inflight = c.inflight.filter fun f => !cmdIsMaster f.cmd := by
  cases hf : c.inflight with
  | none => simp only [Core.resetMaster, hf, Option.filter_none]
  | some f => cases hc : cmdIsMaster f.cmd <;> simp [Core.resetMaster, hf, Option.filter_some, hc]

/-- The slave side's reset keeps a master command (R229). -/
theorem resetSlave_inflight : (c.resetSlave a b d).inflight = c.inflight.filter fun f => cmdIsMaster f.cmd := by
  cases hf : c.inflight with
  | none => simp only [Core.resetSlave, hf, Option.filter_none]
  | some f => cases hc : cmdIsMaster f.cmd <;> simp [Core.resetSlave, hf, Option.filter_some, hc]

/-- A write drops the command in flight exactly when it turns that command's side off (R229). -/
theorem afterFun_inflight : (c.afterFun old new a b d).inflight = (match c.inflight with
    | none => none
    | some f =>
      if (cmdIsMaster f.cmd && old.getLsbD 0 && !new.getLsbD 0)
        || (!cmdIsMaster f.cmd && old.getLsbD 1 && !new.getLsbD 1) then none else some f) := by
  simp only [Core.afterFun, apply_ite Core.inflight, resetMaster_inflight, resetSlave_inflight]
  cases c.inflight with
  | none => simp only [Option.filter_none, ite_self]
  | some f =>
    cases hc : cmdIsMaster f.cmd with
    | true =>
      simp only [hc, Bool.true_and, Bool.not_true, Bool.false_and, Bool.or_false]
      cases old.getLsbD 0 && !new.getLsbD 0 <;> simp [Option.filter_some, hc]
    | false => simp [Option.filter_some, hc]

/-- A write makes XFER_STATE idle exactly when it turns off the side XFER_STATE shows (R229). -/
theorem afterFun_xfer : (c.afterFun old new a b d).xfer = (match c.xfer with
    | .idle => .idle
    | .master m => if old.getLsbD 0 && !new.getLsbD 0 then .idle else .master m
    | .slave m => if old.getLsbD 1 && !new.getLsbD 1 then .idle else .slave m) := by
  simp only [Core.afterFun, apply_ite Core.xfer, Core.resetMaster, Core.resetSlave]
  cases c.xfer with
  | idle => simp only [XferState.isMaster, Bool.false_eq_true, ite_self]
  | master m => cases old.getLsbD 0 && !new.getLsbD 0 <;> simp [XferState.isMaster, XferState.isSlave]
  | slave m => simp [XferState.isMaster, XferState.isSlave]

end sides

/-- Settles O21: the core a write leaves, by the side its command and XFER_STATE belong to. -/
theorem funCtrlWriteResetsTheSideItDisables : Obligations.FunCtrlWriteResetsTheSideItDisables := by
  intro s i x v h
  have hw := regWrite_funCtrl_put s i.toNat x s.poolOwner s.draws s.ret v (has_lt s x i h)
  rw [put_self s i.toNat x h] at hw
  obtain ⟨a, b, d, hcore⟩ := wrFun_after x.core x.regs.funCtrl v s.draws
  refine ⟨_, _, wrReg_next h hw, put_becomes s i x _ _ _ h, rfl, rfl, ?_, ?_, ?_, fun hm hs =>
    (wrFun_keep x.core x.regs.funCtrl v s.draws hm hs).1⟩
  · exact hcore ▸ afterFun_trace _ _ _ _ _ _
  · exact hcore ▸ afterFun_inflight _ _ _ _ _ _
  · exact hcore ▸ afterFun_xfer _ _ _ _ _ _

end Sys2Proof.Machine
end

section
/-! PROOFS. What a register read answers: the fields of CMD, and DMA_LEN while a command moves its bytes, which is what
the schedule makes of the command. -/

namespace Sys2Proof.Machine

open Sys2Proof

/-! ## The fields of CMD -/

/-- The fields of CMD in a word (R177): bits 31:23, which are 0, XFER_STATE's code, the lines, the alert level, the
enables, and the bits of the action mask. -/
def CmdShows (w : Word) (code : BitVec 4) (sda scl busy level : Bool) (en : BitVec 4) (action : Word) : Prop :=
  w.extractLsb' 23 9 = 0#9 ∧ w.extractLsb' 19 4 = code ∧ w.getLsbD 18 = sda ∧ w.getLsbD 17 = scl
  ∧ w.getLsbD 16 = busy ∧ w.getLsbD 10 = level ∧ w.extractLsb' 6 4 = en ∧ w &&& 0xF83F#32 = action

/-- A word put together of two shows what they show together. -/
theorem CmdShows.or {w w' : Word} {c c' e e' : BitVec 4} {a a' b b' d d' l l' : Bool} {m m' : Word}
    (h : CmdShows w c a b d l e m) (h' : CmdShows w' c' a' b' d' l' e' m') :
    CmdShows (w ||| w') (c ||| c') (a || a') (b || b') (d || d') (l || l') (e ||| e') (m ||| m') := by
  obtain ⟨htop, rfl, rfl, rfl, rfl, rfl, rfl, rfl⟩ := h
  obtain ⟨htop', rfl, rfl, rfl, rfl, rfl, rfl, rfl⟩ := h'
  refine ⟨?_, BitVec.extractLsb'_or, BitVec.getLsbD_or, BitVec.getLsbD_or, BitVec.getLsbD_or, BitVec.getLsbD_or,
    BitVec.extractLsb'_or, BitVec.and_or_distrib_right⟩
  rw [BitVec.extractLsb'_or, htop, htop']
  rfl

theorem code_shows (j : Fin 16) :
    CmdShows (BitVec.ofNat 32 j.val <<< 19) (BitVec.ofNat 4 j.val) false false false false 0#4 0#32 := by
  unfold CmdShows; revert j; decide

theorem sda_shows (b : Bool) : CmdShows (if b then 0x40000#32 else 0#32) 0#4 b false false false 0#4 0#32 := by
  unfold CmdShows; cases b <;> decide

theorem scl_shows (b : Bool) : CmdShows (if b then 0x20000#32 else 0#32) 0#4 false b false false 0#4 0#32 := by
  unfold CmdShows; cases b <;> decide

theorem busy_shows (b : Bool) : CmdShows (if b then 0x10000#32 else 0#32) 0#4 false false b false 0#4 0#32 := by
  unfold CmdShows; cases b <;> decide

theorem level_shows (b : Bool) : CmdShows (if b then 0x400#32 else 0#32) 0#4 false false false b 0#4 0#32 := by
  unfold CmdShows; cases b <;> decide

theorem en_shows (e : BitVec 4) : CmdShows (0#22 ++ e ++ 0#6) 0#4 false false false false e 0#32 := by
  unfold CmdShows; revert e; decide

theorem action_shows (c : Cmd) : CmdShows c.action 0#4 false false false false 0#4 c.action := by
  unfold CmdShows; cases c <;> decide

/-- XFER_STATE's code fits the four bits it is shown in (R47). -/
theorem xferCode_lt (c : XferState) : c.code < 16 := by
  cases c <;> simp only [XferState.code] <;> omega

/-- What CMD reads as (R46, R47, R177). -/
theorem cmdView_shows (x : Inst) : CmdShows x.cmdView (BitVec.ofNat 4 x.core.xfer.code) x.core.sda x.core.scl
    x.core.busy x.regs.alertEn x.regs.en (match x.core.inflight with
      | none => 0#32
      | some f => f.cmd.action) := by
  have hview := (((((code_shows ⟨_, xferCode_lt x.core.xfer⟩).or (sda_shows x.core.sda)).or (scl_shows x.core.scl)).or
    (busy_shows x.core.busy)).or (level_shows x.regs.alertEn)).or (en_shows x.regs.en)
  unfold Inst.cmdView
  cases x.core.inflight with
  | none => simpa using hview
  | some f => simpa using hview.or (action_shows f.cmd)

/-- BYTE_DATA reads as the received byte above the one to send (R180). -/
theorem byteData_view (rx tx : Byte) : (0#16 ++ rx ++ tx : Word) = (rx.setWidth 32 <<< 8) ||| tx.setWidth 32 := by
  apply BitVec.eq_of_getLsbD_eq
  intro j hj
  simp only [BitVec.getLsbD_append, BitVec.getLsbD_or, BitVec.getLsbD_shiftLeft, BitVec.getLsbD_setWidth, hj]
  by_cases h8 : j < 8
  · simp [h8]
  · have htx : tx.getLsbD j = false := BitVec.getLsbD_of_ge _ _ (by omega)
    have hlt : j - 8 < 32 := by omega
    by_cases h16 : j - 8 < 8
    · simp [h8, h16, htx, hlt]
    · have hrx : rx.getLsbD (j - 8) = false := BitVec.getLsbD_of_ge _ _ (by omega)
      simp [h8, h16, htx, hrx]

/-! ## DMA_LEN -/

theorem dmaInFlight_of_moving {x : Inst} {f : InFlight} (hf : x.core.inflight = some f) (hp : f.path = .dma)
    (hd : f.phase = .data) : x.dmaInFlight = some f := by
  rw [Inst.dmaInFlight, hf]
  exact if_pos ⟨hp, hd⟩

/-- DMA_LEN while a command moves its bytes reads as a value picked between the programmed and the final one (R182). -/
theorem rdDmaLen_flight {s : State} {i : InstId} {x : Inst} {f : InFlight} (h : s.Has i x)
    (hf : x.dmaInFlight = some f) : rdReg i .dmaLen s = .next { s with
      ret := .word (dmaPick (coreInc (s.cfg.inst i.toNat) (cmdIsMaster f.cmd)) f.prog (s.dmaFinal i.toNat x f)
        (Config.freeNat s.draws))
      draws := s.draws + 1 } := by
  rw [rdReg, stepOn_has _ h]
  simp only [runOp, op_bind, op_regRead_flight s _ x f h hf, op_retWord]

/-! ## What an outcome makes of the command whose bytes move

`InFlight.fate` says of every operation what becomes of the command f; here the outcomes of the core are run and found
to leave what it says. -/

/-- The instance is as the fate of command f has it: f still in flight, or DMA_LEN at the open count q, or at the final
value. -/
def Follows (f : InFlight) (q : Word) : Fate → Inst → Prop
  | .goesOn, y => y.core.inflight = some f
  | .cut, y => y.regs.dmaLen = q
  | .done v, y => y.regs.dmaLen = v

/-- An operation that came to an end left instance k with Q. -/
def Lands (k : Nat) {α : Type} (Q : Inst → Prop) : Except Stop (α × State) → Prop
  | .ok (_, t) => ∃ y, t.insts[k]? = some y ∧ Q y
  | .error _ => True

section lands

variable {s : State} {k : Nat} {x y : Inst} {α : Type} {Q : Inst → Prop}

theorem lands_put {a : α} {o : Option (Nat × Side)} {n : Nat} {r : Ret} (hk : k < s.insts.length) (h : Q y) :
    Lands k Q (.ok (a, s.put k y o n r)) := ⟨y, put_get s k y o n r hk, h⟩

theorem lands_of_leads {op : Op α} {P : Inst → Prop} {o : Option (Nat × Side)} {n : Nat} {r : Ret}
    (h : Leads k P op fun _ => Q) (hk : k < s.insts.length) (hp : P x) : Lands k Q (op (s.put k x o n r)) := by
  cases ho : op (s.put k x o n r) with
  | error e => trivial
  | ok a => exact h _ a.1 a.2 x (put_get s k x o n r hk) hp ho

/-- A step that answers a next state leaves its instance as its operation does. -/
theorem stepOn_lands {i : InstId} {op : Nat → Op Unit} {t : State} (hx : s.Has i x)
    (hop : Lands i.toNat Q (op i.toNat (s.put i.toNat x s.poolOwner s.draws s.ret)))
    (ht : stepOn i (fun i => noRet (op i)) s = .next t) (hy : t.Has i y) : Q y := by
  rw [stepOn_put s x i _ hx] at ht
  obtain ⟨r, u, hr, rfl⟩ := (runOp_next _ _ _).1 ht
  rw [noRet_ok hr] at hop
  obtain ⟨z, hz, hq⟩ := hop
  obtain rfl : z = y := Option.some.inj (hz.symm.trans hy)
  exact hq

end lands

/-! ### Faults and a match: the command is cut short -/

section cuts

variable {k c : Nat} {α : Type} {P : Inst → Prop} {f : InFlight} {q : Word}

/-- An operation that touches no instance. -/
theorem leads_apart {op : Op α} (h : ∀ s a t, op s = .ok (a, t) → t.insts = s.insts) : Leads k P op fun _ => P :=
  fun s a t x hx hp ht => ⟨x, (h s a t ht).symm ▸ hx, hp⟩

theorem leads_draw : Leads k P draw fun _ => P := leads_apart fun _ _ _ h => by cases h; rfl

/-- DMA_LEN holds this value. -/
def LenIs (v : Word) (x : Inst) : Prop := x.regs.dmaLen = v

theorem modCore_lenIs {v : Word} {g : Core → Core} : Leads k (LenIs v) (modCore k g) fun _ => LenIs v :=
  leads_modInst fun _ h => h

theorem latch_lenIs {v w : Word} : Leads k (LenIs v) (latch k w) fun _ => LenIs v := leads_modInst fun _ h => h

/-- A miscounted report of a DMA command leaves DMA_LEN at the value reported (R218). -/
theorem reportCount_lenIs {m : Nat} (hp : f.path = .dma) : Leads k P (reportCount k f m (some q)) fun _ => LenIs q :=
  leads_bind (leads_apart fun _ _ _ h => by cases h; rfl) fun _ =>
    leads_bind (leads_apart fun _ _ _ h => by cases h; rfl) fun _ =>
      leads_modInst (P := P) fun x _ => by simp only [LenIs, Regs.report, hp]; rfl

/-- A command is cut short with its count open (R219; log entry 10). -/
theorem cutShort_lenIs (hp : f.path = .dma) :
    Leads k (fun x => x.core.cuts = c) (cutShort k (some f)) fun _ => LenIs (Config.cutCount k c) :=
  leads_reading fun x hx => by
    subst hx
    exact leads_weaken (fun _ _ => trivial) <|
      leads_bind (P := fun _ => True) leads_draw fun _ => leads_bind (leads_of_does does_faultData fun _ _ _ _ h => h)
        fun _ => leads_bind leads_draw fun _ => leads_bind (reportCount_lenIs hp) fun _ =>
          leads_bind leads_draw fun _ => leads_bind modCore_lenIs fun _ => modCore_lenIs

theorem drawXfer_lenIs {v : Word} : Leads k (LenIs v) (drawXfer k) fun _ => LenIs v :=
  leads_bind leads_draw fun _ => leads_bind leads_draw fun _ => modCore_lenIs

/-- Command f is in flight, after c cuts. -/
def Flies (f : InFlight) (c : Nat) (x : Inst) : Prop := x.core.inflight = some f ∧ x.core.cuts = c

theorem coreFault_lenIs {b w : Word} (hp : f.path = .dma) :
    Leads k (Flies f c) (coreFault k b w) fun _ => LenIs (Config.cutCount k c) :=
  leads_reading fun x ⟨hf, _⟩ => by
    rw [hf]
    exact leads_bind (leads_weaken (fun _ h => h.2) (cutShort_lenIs hp)) fun _ => latch_lenIs

theorem coreArb_lenIs {w : Word} (hp : f.path = .dma) :
    Leads k (Flies f c) (coreArb k w) fun _ => LenIs (Config.cutCount k c) :=
  leads_reading fun _ _ => leads_require fun _ => leads_bind (coreFault_lenIs hp) fun _ => modCore_lenIs

theorem coreAbn_lenIs {w : Word} (hp : f.path = .dma) :
    Leads k (Flies f c) (coreAbn k w) fun _ => LenIs (Config.cutCount k c) :=
  leads_bind (coreFault_lenIs hp) fun _ => drawXfer_lenIs

theorem coreSclto_lenIs {w : Word} (hp : f.path = .dma) :
    Leads k (Flies f c) (coreSclto k w) fun _ => LenIs (Config.cutCount k c) :=
  leads_bind (coreFault_lenIs hp) fun _ => leads_bind drawXfer_lenIs fun _ => leads_bind leads_draw fun _ =>
    modCore_lenIs

/-- A match cuts a master command short and lets a slave command go on (R220). -/
theorem coreMatch_follows {a : Byte} {arb : Bool} (hp : f.path = .dma) :
    Leads k (Flies f c) (coreMatch k a arb) fun _ =>
      Follows f (Config.cutCount k c) (if cmdIsMaster f.cmd then .cut else .goesOn) :=
  leads_reading fun x ⟨hf, _⟩ => leads_require fun _ => by
    unfold masterInFlight
    simp only [hf]
    by_cases hm : cmdIsMaster f.cmd = true
    · rw [if_pos hm, if_pos hm]
      exact leads_bind (leads_weaken (fun _ h => h.2) (cutShort_lenIs hp)) fun _ => leads_bind leads_draw fun _ =>
        leads_bind (R := fun _ => LenIs _) (leads_modInst fun _ h => h) fun _ =>
          leads_bind modCore_lenIs fun _ => latch_lenIs
    · rw [if_neg hm, if_neg hm]
      exact leads_bind (leads_pure fun _ h => h) fun _ => leads_bind leads_draw fun _ =>
        leads_bind (R := fun _ => Flies f c) (leads_modInst fun _ h => h) fun _ =>
          leads_bind (R := fun _ => Flies f c) (leads_modInst fun _ h => h) fun _ => leads_modInst fun _ h => h.1

end cuts

/-! ### The outcomes that report a count

The count they report depends on the codec, a parameter of the state, so they are run on it. -/

section counts

variable {k : Nat} {v : Word}

/-- The command is gone, DMA_LEN at this value. -/
def Gone (v : Word) (x : Inst) : Prop := x.core.inflight = none ∧ LenIs v x

/-- The remote master's STOP finds no window open (R222). -/
theorem remoteStop_gone : Leads k (Gone v) (remoteStop k) fun _ => LenIs v :=
  leads_reading fun x ⟨hnone, _⟩ => leads_require fun _ => by
    rw [hnone]
    exact leads_bind (leads_pure (Q := fun _ => Gone v) fun _ h => h) fun _ =>
      leads_bind (leads_modInst (Q := fun _ => LenIs v) fun _ h => h.2) fun _ => latch_lenIs

/-- What follows the report of a slave window leaves DMA_LEN alone (R221). -/
theorem windowEnd_gone {b stop : Bool} {w : Word} :
    Leads k (Gone v) (whenB b (latch k w) >>= fun _ => whenB stop (remoteStop k)) fun _ => LenIs v :=
  leads_bind (R := fun _ => Gone v) (leads_ite (fun _ => leads_modInst fun _ h => h) fun _ => leads_pure fun _ h => h)
    fun _ => leads_ite (fun _ => remoteStop_gone) fun _ => leads_pure fun _ h => h.2

end counts

section outcomes

variable {s : State} {i : InstId} {x : Inst} {f : InFlight} {q : Word} {o : Option (Nat × Side)} {n : Nat} {r : Ret}
  (hk : i.toNat < s.insts.length) (hf : x.core.inflight = some f) (hp : f.path = .dma) (hd : f.phase = .data)

/-- The core's codec for command f of instance i. -/
abbrev State.codecOf (s : State) (i : InstId) (f : InFlight) : Codec :=
  coreCodec s.cfg (s.cfg.inst i.toNat) (cmdIsMaster f.cmd)

include hp in
/-- The count reported of a DMA command is DMA_LEN's value (R218). -/
theorem reported_dmaLen (m : Nat) (mis : Option Word) :
    (x.reported s.cfg (s.cfg.inst i.toNat) f m mis).dmaLen = mis.getD (dmaReadback (s.codecOf i f) f.n m) := by
  simp only [Inst.reported, hp]

include hk hf hp in
/-- The remote master's STOP completes an open window with count 0 and touches no other command (R221, R222). -/
theorem remoteStop_follows : Lands i.toNat
    (Follows f q (if f.cmd = .sRx then .done (dmaReadback (s.codecOf i f) f.n 0) else .goesOn))
    (remoteStop i.toNat (s.put i.toNat x o n r)) := by
  cases hs : x.core.xfer.isSlave with
  | false => rw [remoteStop_none s i x o n r hk hs]; trivial
  | true =>
    by_cases hc : f.cmd = .sRx
    · rw [remoteStop_window_put s i x o n r f hk hs hf hc, if_pos hc]
      exact lands_put hk (reported_dmaLen hp 0 none)
    · rw [remoteStop_put s i x o n r hk hs fun g hg => by rw [hf] at hg; cases hg; exact hc, if_neg hc]
      exact lands_put hk hf

include hk hf hp hd in
/-- An acknowledged transmit reports all its bytes (R216, R223). -/
theorem coreAck_follows {stop : Bool} {mis : Option Word} : Lands i.toNat
    (Follows f q (if cmdIsTx f.cmd then .done (mis.getD (dmaReadback (s.codecOf i f) f.n f.n)) else .goesOn))
    (coreAck i.toNat stop mis (s.put i.toNat x o n r)) := by
  simp only [coreAck, op_bind, getInst_put _ _ _ _ _ _ hk, dataCmd, hf, hd, if_true]
  by_cases hgo : (cmdIsTx f.cmd && stopAllowed f false stop) = true
  · rw [op_if_pos _ hgo, endData_put s i x o n r f _ _ _ _ _ hk, if_pos (Bool.and_eq_true_iff.1 hgo).1]
    exact lands_put hk (reported_dmaLen hp _ _)
  · rw [op_if_neg _ hgo]
    trivial

include hk hf hp hd in
/-- A transmit refused at byte j reports j bytes, also when the remote master's STOP follows (R216, R223). -/
theorem coreNack_follows {j : Nat} {stop : Bool} {mis : Option Word} : Lands i.toNat
    (Follows f q (if cmdIsTx f.cmd then .done (mis.getD (dmaReadback (s.codecOf i f) f.n j)) else .goesOn))
    (coreNack i.toNat j stop mis (s.put i.toNat x o n r)) := by
  simp only [coreNack, op_bind, getInst_put _ _ _ _ _ _ hk, dataCmd, hf, hd, if_true]
  by_cases hgo : (cmdIsTx f.cmd && decide (1 ≤ j) && decide (j ≤ f.n) && stopAllowed f (f.cmd == .sTx) stop) = true
  · have htx : cmdIsTx f.cmd = true := by simp only [Bool.and_eq_true] at hgo; exact hgo.1.1.1
    rw [op_if_pos _ hgo, op_bind, endData_put s i x o n r f _ _ _ _ _ hk, if_pos htx]
    cases hs : f.cmd == .sTx && stop with
    | false => exact lands_put hk (reported_dmaLen hp _ _)
    | true =>
      have hnoStop : cmdHasStop f.cmd = false := by
        rw [beq_iff_eq.1 (Bool.and_eq_true_iff.1 hs).1]; rfl
      refine lands_of_leads remoteStop_gone hk ⟨?_, reported_dmaLen hp _ _⟩
      simp only [Core.ends, hnoStop, if_true]
  · rw [op_if_neg _ hgo]
    trivial

include hk hf hp hd in
/-- A STOP ends a command whose bytes move only as the remote master's (R222). -/
theorem coreStop_follows (hc : f.cmd ≠ .stop) : Lands i.toNat
    (Follows f q (if f.cmd = .sRx then .done (dmaReadback (s.codecOf i f) f.n 0) else .goesOn))
    (coreStop i.toNat (s.put i.toNat x o n r)) := by
  have hno : ¬ (f.cmd = .stop ∨ f.phase = .stopPending) := by simp [hc, hd]
  simp only [coreStop, op_bind, getInst_put _ _ _ _ _ _ hk, hf]
  rw [op_if_neg _ hno]
  exact remoteStop_follows hk hf hp

include hk hf hp in
/-- A byte for no window ends a command only by the STOP that comes with it (R221, R222). -/
theorem remoteByte_follows {b : Byte} {stop : Bool} : Lands i.toNat
    (Follows f q (if f.cmd = .sRx ∧ stop then .done (dmaReadback (s.codecOf i f) f.n 0) else .goesOn))
    (remoteByte i.toNat b stop (s.put i.toNat x o n r)) := by
  simp only [remoteByte, op_bind, getInst_put _ _ _ _ _ _ hk]
  by_cases hgo : remoteByteEnabled x = true
  · rw [op_if_pos _ hgo]
    simp only [op_bind, op_modRegs, op_latch, updInst_put _ _ _ _ _ _ _ hk]
    cases stop with
    | false => rw [if_neg (by simp)]; exact lands_put hk hf
    | true => simp only [and_true]; exact remoteStop_follows hk (by exact hf) hp
  · rw [op_if_neg _ hgo]
    trivial

include hp in
/-- The bytes of a DMA command reach the DMA space, or lie outside it (R215, R100). -/
theorem sinkData_dma (bs : List Byte) (hk : i.toNat < s.insts.length) :
    (∃ e, sinkData i.toNat f bs (s.put i.toNat x o n r) = .error e)
    ∨ sinkData i.toNat f bs (s.put i.toNat x o n r) = .ok ((), (s.sunk f bs).put i.toNat x o n r) := by
  by_cases hb : f.base.toNat + bs.length ≤ spaceSize
  · refine .inr ((sinkData_put s i x o n r f bs hk fun _ => hb).trans ?_)
    rw [hp]
    rfl
  · exact .inl ⟨_, by simp only [sinkData, hp, dmaWrite, if_neg hb]; rfl⟩

include hk hp in
/-- A slave window reports the bytes it took, also when the remote master's STOP follows (R221). -/
theorem slaveWindow_lands {bs : List Byte} {stop : Bool} {mis : Option Word} : Lands i.toNat
    (LenIs (mis.getD (dmaReadback (s.codecOf i f) f.n bs.length)))
    (slaveWindow i.toNat f bs stop mis (s.put i.toNat x o n r)) := by
  unfold slaveWindow
  by_cases hlen : bs.length ≤ f.n
  · rw [op_if_pos _ hlen, op_bind]
    rcases sinkData_dma hp bs hk with ⟨e, he⟩ | hsunk
    · rw [he]; trivial
    · obtain ⟨hinsts, hcfg⟩ := sunk_insts s f bs
      have hk' : i.toNat < (s.sunk f bs).insts.length := hinsts ▸ hk
      simp only [hsunk, op_bind, reportCount_put _ i _ _ _ _ f _ _ hk', op_modCore, updInst_put _ _ _ _ _ _ _ hk', hcfg]
      rw [← op_bind]
      exact lands_of_leads windowEnd_gone hk' ⟨rfl, reported_dmaLen hp _ _⟩
  · rw [op_if_neg _ hlen]
    trivial

include hk hp in
/-- A master receive reports all its bytes (R217). -/
theorem coreReceive_lands {bs : List Byte} {stop : Bool} {mis : Option Word} : Lands i.toNat
    (LenIs (mis.getD (dmaReadback (s.codecOf i f) f.n bs.length)))
    (coreReceive i.toNat f bs stop mis (s.put i.toNat x o n r)) := by
  unfold coreReceive
  by_cases hgo : (decide (bs.length = f.n) && stopAllowed f false stop) = true
  · rw [op_if_pos _ hgo, op_bind]
    rcases sinkData_dma hp bs hk with ⟨e, he⟩ | hsunk
    · rw [he]; trivial
    · obtain ⟨hinsts, hcfg⟩ := sunk_insts s f bs
      have hk' : i.toNat < (s.sunk f bs).insts.length := hinsts ▸ hk
      simp only [hsunk, endData_put _ i _ _ _ _ f _ _ _ _ _ hk', hcfg,
        of_decide_eq_true (Bool.and_eq_true_iff.1 hgo).1]
      exact lands_put hk' (reported_dmaLen hp _ _)
  · rw [op_if_neg _ hgo]
    trivial

include hk hf hp hd in
/-- The bytes of a window end a receive, whichever side's (R217, R221). -/
theorem coreRx_window_follows {bs : List Byte} {stop : Bool} {mis : Option Word} : Lands i.toNat
    (Follows f q (if cmdIsRx f.cmd then .done (mis.getD (dmaReadback (s.codecOf i f) f.n bs.length)) else .goesOn))
    (coreRx i.toNat (.window bs) stop mis (s.put i.toNat x o n r)) := by
  simp only [coreRx, op_bind, getInst_put _ _ _ _ _ _ hk, dataCmd, hf, hd, if_true]
  by_cases hs : f.cmd = .sRx
  · rw [op_if_pos _ hs, if_pos (by rw [hs]; rfl)]
    exact slaveWindow_lands hk hp
  · rw [op_if_neg _ hs]
    by_cases hrx : cmdIsRx f.cmd = true
    · rw [op_if_pos _ hrx, if_pos hrx]
      exact coreReceive_lands hk hp
    · rw [op_if_neg _ hrx]
      trivial

end outcomes

/-! ### The schedule's final value -/

section final

variable {s t : State} {i : InstId} {x y : Inst} {f : InFlight}

/-- An outcome of the core leaves the DMA command whose bytes move as the command's fate says. -/
theorem exec_follows_fate {o : Instr} (on : Bool) (back : Option Word) (hx : s.Has i x)
    (hf : x.core.inflight = some f) (hp : f.path = .dma) (hd : f.phase = .data)
    (hc : cmdIsTx f.cmd ∨ cmdIsRx f.cmd) (hl : o.latches = true) (hi : o.target = some i)
    (ht : exec o s = .next t) (hy : t.Has i y) :
    Follows f (Config.cutCount i.toNat x.core.cuts) (f.fate s.cfg (s.codecOf i f) i.toNat on back o) y := by
  have hk := has_lt s x i hx
  have hflies : Flies f x.core.cuts x := ⟨hf, rfl⟩
  have hcmd : f.cmd ≠ .stop ∧ f.cmd ≠ .recover := by
    constructor <;> intro e <;> simp [e, cmdIsTx, cmdIsRx] at hc
  cases o
  case kAck j stop mis =>
    cases hi
    refine stepOn_lands (op := fun k => coreAck k stop mis) hx ?_ ht hy
    simpa only [InFlight.fate, true_and] using coreAck_follows hk hf hp hd
  case kNack j m stop mis =>
    cases hi
    refine stepOn_lands (op := fun k => coreNack k m.toNat stop mis) hx ?_ ht hy
    simpa only [InFlight.fate, true_and] using coreNack_follows hk hf hp hd
  case kRx j d stop mis =>
    cases hi
    refine stepOn_lands (op := fun k => coreRx k d stop mis) hx ?_ ht hy
    cases d with
    | window bs => simpa only [InFlight.fate, true_and] using coreRx_window_follows hk hf hp hd
    | direct b =>
      simpa only [InFlight.fate, true_and, coreRx, op_bind, getInst_put _ _ _ _ _ _ hk] using
        remoteByte_follows hk hf hp
  case kStop j =>
    cases hi
    refine stepOn_lands (op := coreStop) hx ?_ ht hy
    simpa only [InFlight.fate, true_and] using coreStop_follows hk hf hp hd hcmd.1
  case kArb g =>
    cases hi
    refine stepOn_lands (op := fun k => coreArb k g.also) hx ?_ ht hy
    simp only [InFlight.fate, if_true]
    exact lands_of_leads (coreArb_lenIs hp) hk hflies
  case kAbn g =>
    cases hi
    refine stepOn_lands (op := fun k => coreAbn k g.also) hx ?_ ht hy
    simp only [InFlight.fate, if_true]
    exact lands_of_leads (coreAbn_lenIs hp) hk hflies
  case kSclto g =>
    cases hi
    refine stepOn_lands (op := fun k => coreSclto k g.also) hx ?_ ht hy
    simp only [InFlight.fate, if_true]
    exact lands_of_leads (coreSclto_lenIs hp) hk hflies
  case kMatch j a arb =>
    cases hi
    refine stepOn_lands (op := fun k => coreMatch k a arb) hx ?_ ht hy
    simpa only [InFlight.fate, true_and] using lands_of_leads (coreMatch_follows hp) hk hflies
  case kRecovered j sda =>
    cases hi
    refine stepOn_lands (op := fun k => coreRecovered k sda) hx ?_ ht hy
    simp only [coreRecovered, op_bind, getInst_put _ _ _ _ _ _ hk, dataCmd, hf, hd, if_true, if_neg hcmd.2]
    trivial
  case kSmbus j m =>
    cases hi
    refine stepOn_lands (op := fun k => latch k (smbusMask m)) hx ?_ ht hy
    exact lands_of_leads (leads_modInst fun _ h => h.1) hk hflies
  all_goals cases hl

/-- A schedule whose next operation ends command f, as f's fate says, has DMA_LEN's value after it as the final one. -/
theorem final_of_follows {c : Config} {k : Codec} {j : Nat} {on : Bool} {q : Word} {back : Option Word} {a : List Byte}
    {l : List (List Byte)} {o : Instr} (hp : f.path = .dma) (hd : f.phase = .data) (ho : decode c a = .ok o)
    (hfate : Follows f q (f.fate c k j on back o) y) (hend : y.dmaInFlight = none) :
    f.final c k j on q back (a :: l) = y.regs.dmaLen := by
  simp only [InFlight.final, ho]
  cases he : f.fate c k j on back o <;> rw [he] at hfate
  case goesOn =>
    rw [dmaInFlight_of_moving hfate hp hd] at hend
    cases hend
  case cut => exact hfate.symm
  case done v => exact hfate.symm

/-- The final value of DMA_LEN is what the outcome next in the schedule leaves there, if it ends the command. -/
theorem dmaFinal_of_next {a : List Byte} {l : List (List Byte)} {o : Instr} {v : Ret} {n : Nat} (hx : s.Has i x)
    (hf : x.core.inflight = some f) (hp : f.path = .dma) (hd : f.phase = .data)
    (hc : cmdIsTx f.cmd ∨ cmdIsRx f.cmd) (hs : s.inbox = a :: l) (ho : decode s.cfg a = .ok o)
    (hl : o.latches = true) (hi : o.target = some i)
    (ht : exec o { s with inbox := l, ret := v, draws := n } = .next t) (hy : t.Has i y)
    (hend : y.dmaInFlight = none) : s.dmaFinal i.toNat x f = y.regs.dmaLen := by
  rw [State.dmaFinal, hs]
  exact final_of_follows hp hd ho
    (exec_follows_fate (s := { s with inbox := l, ret := v, draws := n }) _ _ hx hf hp hd hc hl hi ht hy) hend

end final

/-- Settles O17: reads by the register's view; DMA_LEN in flight by `dmaPick_between`, its final value by the outcome
next in the schedule. -/
theorem registerReadsAnswerTheirView : Obligations.RegisterReadsAnswerTheirView := by
  intro s i x h
  have hrd (r : Reg) (hr : r ≠ .dmaLen) : rdReg i r s = .next { s with ret := .word (x.view r) } :=
    rdReg_view h r (.inl hr)
  refine ⟨hrd _ (by decide), hrd _ (by decide), hrd _ (by decide), hrd _ (by decide), hrd _ (by decide),
    hrd _ (by decide), hrd _ (by decide), byteData_view x.regs.byteRx x.regs.byteTx ▸ hrd .byteData (by decide),
    hrd _ (by decide), ?_, fun hidle => rdReg_view h .dmaLen (.inr hidle), fun f hf hp hd => ?_⟩
  · obtain ⟨htop, hcode, hsda, hscl, hbusy, hlevel, hen, haction⟩ := cmdView_shows x
    refine ⟨x.cmdView, hrd .cmd (by decide), htop, ?_, hsda, hscl, hbusy, hlevel, hen, haction⟩
    rw [hcode, BitVec.toNat_ofNat, Nat.mod_eq_of_lt (xferCode_lt _)]
    cases x.core.xfer <;> simp only [XferState.code, Nat.add_comm]
  · have hbetween := dmaPick_between (coreInc (s.cfg.inst i.toNat) (cmdIsMaster f.cmd)) f.prog
      (s.dmaFinal i.toNat x f) (Config.freeNat s.draws)
    refine ⟨s.draws + 1, _, rdDmaLen_flight h (dmaInFlight_of_moving hf hp hd), hbetween,
      fun a l o t y hs ho hl hi hc ht hy hend => ?_⟩
    rw [← dmaFinal_of_next h hf hp hd hc hs ho hl hi ht hy hend]
    exact hbetween

end Sys2Proof.Machine
end

section
/-! PROOFS. The command words: what each write of CMD issues, stores and refuses. -/

namespace Sys2Proof.Machine

open Sys2Proof

section commands

variable {s : State} {i : InstId} {x : Inst} {c : Cmd} {en : BitVec 4} {al : Bool} {hi : BitVec 16} {v : Word}

/-- A command word is the write of its word to CMD (R132, R177). -/
theorem exec_cmdInstr (s : State) (i : InstId) (c : Cmd) (en : BitVec 4) (al : Bool) (hi : BitVec 16) :
    exec (cmdInstr i en al hi c) s = wrReg i .cmd (cmdWord c en al hi) s := by
  cases c <;> rfl

/-- A register write that is refused is a step that is refused. -/
theorem wrReg_refused (h : s.Has i x) {r : Reg} {e : Refusal} (hw : regWrite i.toNat r v s = .error (.refuse e)) :
    wrReg i r v s = .refused e := by
  rw [wrReg, stepOn_has _ h]
  simp only [runOp, noRet, op_bind, hw]

/-- A data command whose count is 0 or above its path's maximum is refused (R202, R230). -/
theorem op_regWrite_illegal {k : Nat} (hx : s.insts[k]? = some x) (hc : cmdOf v = some c)
    (hdata : (cmdIsTx c || cmdIsRx c) = true) (hf : x.core.inflight = none) (hen : x.enabled c = true)
    (hn : cmdCount x s.cfg (s.cfg.inst k) c (pathOf (cmdEn v)) = 0
      ∨ maxPath s.cfg (pathOf (cmdEn v)) < cmdCount x s.cfg (s.cfg.inst k) c (pathOf (cmdEn v))) :
    regWrite k .cmd v s = .error (.refuse .illegalChunk) := by
  have hnop : (c != .nop) = true := bne_iff_ne.2 (by rintro rfl; cases hdata)
  have hside : (cmdIsMaster c && !x.regs.funCtrl.getLsbD 0) = false
      ∧ (!cmdIsMaster c && !x.regs.funCtrl.getLsbD 1) = false := by
    cases hm : cmdIsMaster c <;> simp only [Inst.enabled, hm, if_true, Bool.false_eq_true, if_false] at hen <;>
      simp [hen]
  have hillegal : ((cmdIsTx c || cmdIsRx c) && (cmdCount x s.cfg (s.cfg.inst k) c (pathOf (cmdEn v)) == 0
      || decide (maxPath s.cfg (pathOf (cmdEn v)) < cmdCount x s.cfg (s.cfg.inst k) c (pathOf (cmdEn v))))) = true := by
    simpa [hdata] using hn
  simp only [regWrite, op_bind, op_noteWrite, writeCmd, hc, op_modRegs, op_whenB, hnop, if_true, updInst_updInst,
    issueCmd, op_getCfg, op_getInstCfg]
  rw [op_getInst _ k { x with regs := { x.regs with en := cmdEn v, alertEn := cmdAlert v }, outs := x.noted .cmd v }
    (by rw [updInst_same, hx]; rfl)]
  simp only [hf, Option.isSome_none, Bool.false_eq_true, if_false, hside.1, hside.2]
  exact op_if_pos _ hillegal _ _

/-- The commands other than C.NOP, C.STOP and C.RECOVER move data (R133, R202). -/
theorem movesData_of_ne (hn : c ≠ .nop) (hs : c ≠ .stop) (hr : c ≠ .recover) :
    (cmdIsTx c || cmdIsRx c) = true := by
  cases c with
  | nop | stop | recover => contradiction
  | _ => rfl

end commands

/-- Settles O22: C.NOP, a side that is off, and the three refusals are the laws of a write of CMD. -/
theorem commandWordsThatIssueNothing : Obligations.CommandWordsThatIssueNothing := by
  intro s i x c en al hi h
  have hnext {w : Word} {f : Inst → Inst} (hw : regWrite i.toNat .cmd w s = .ok ((), s.updInst i.toNat f)) :
      wrReg i .cmd w s = .next (s.after i f .none) := wrReg_next h hw
  refine ⟨?_, fun hn hc hf hoff => ?_, rfl, fun _ => (exec_cmdInstr s i c en al hi).symm, fun _ => rfl,
    fun w hw => wrReg_refused h (op_regWrite_reserved s i.toNat w hw), fun hn hc => ⟨fun hf => ?_,
    fun hf hs hr hon hcount => ?_⟩⟩
  · have hw := op_regWrite_nop s i.toNat _ (cmdOf_cmdWord .nop 0#4 al hi (by decide))
    rw [cmdEn_cmdWord, cmdAlert_cmdWord] at hw
    exact hnext hw
  · have hw := op_regWrite_disabled s i.toNat _ x c h (cmdOf_cmdWord c en al hi hc) hn hf hoff
    rw [cmdEn_cmdWord, cmdAlert_cmdWord] at hw
    rw [exec_cmdInstr]
    exact hnext hw
  · rw [exec_cmdInstr]
    exact wrReg_refused h (op_regWrite_busy s i.toNat _ x c h (cmdOf_cmdWord c en al hi hc) hn hf)
  · rw [exec_cmdInstr]
    refine wrReg_refused h (op_regWrite_illegal h (cmdOf_cmdWord c en al hi hc) (movesData_of_ne hn hs hr) hf hon ?_)
    rwa [cmdEn_cmdWord]

/-- Settles O23: an accepted word goes in flight (`op_regWrite_issue`). -/
theorem commandWordGoesInFlight : Obligations.CommandWordGoesInFlight := by
  intro s i x c en al hi n d h hn hc hf hon hcount hlegal hdata
  obtain rfl : n = cmdCount x s.cfg (s.cfg.inst i.toNat) c (pathOf en) := hcount.trans <| by
    cases c with
    | nop => exact absurd rfl hn
    | _ => rfl
  have hacc : Accepts s x (s.cfg.inst i.toNat) c en d := by
    refine ⟨hf, hon, fun hmoves => hlegal ?_ ?_, hdata⟩ <;> rintro rfl <;> cases hmoves
  have hw := op_regWrite_issue s i.toNat (cmdWord c en al hi) x c d h (cmdOf_cmdWord c en al hi hc) hn
    (by rwa [cmdEn_cmdWord])
  refine ⟨codeAt c s.draws, s.draws + 1, codeAt_side c s.draws, ?_, (exec_cmdInstr s i c en al hi).symm⟩
  rw [exec_cmdInstr, wrReg_next h hw, cmdEn_cmdWord, cmdAlert_cmdWord]
  have hbusy : (if cmdHasStart c then true else x.core.busy) = (cmdHasStart c || x.core.busy) := by
    cases cmdHasStart c <;> rfl
  refine congrArg (fun t : State => Host.Outcome.next { t with draws := s.draws + 1, ret := .none })
    (updInst_congr s i.toNat _ _ x h ?_)
  simp only [Core.issue, hbusy, codeAt]

end Sys2Proof.Machine
end

section
/-! PROOFS. The outcomes of a transmit: what each reports, traces, latches and leaves of the command. -/

namespace Sys2Proof.Machine

open Sys2Proof

/-! ## An outcome as a step -/

section steps

variable {s t : State} {i : InstId} {x y : Inst} {o : Option (Nat × Side)} {n : Nat}

/-- An outcome that completes is a step that returns nothing. -/
theorem outcome_run (op : Nat → Op Unit) (h : s.Has i x)
    (he : op i.toNat (s.put i.toNat x s.poolOwner s.draws s.ret) = .ok ((), t.put i.toNat y o n s.ret)) :
    stepOn i (fun k => noRet (op k)) s = .next (t.put i.toNat y o n .none) :=
  step_run s x y o n .none h (by rw [noRet, op_bind, he]; rfl)

/-- An outcome that is refused is a step that is refused. -/
theorem outcome_refused (op : Nat → Op Unit) {e : Refusal} (h : s.Has i x)
    (he : op i.toNat (s.put i.toNat x s.poolOwner s.draws s.ret) = .error (.refuse e)) :
    stepOn i (fun k => noRet (op k)) s = .refused e := by
  rw [stepOn_put s x i _ h]
  simp only [runOp, noRet, op_bind, he]

end steps

/-! ## The parts of an outcome -/

section parts

variable {x : Inst} {f : InFlight} {stop remote : Bool}

theorem dataCmd_of_inflight (hf : x.core.inflight = some f) (hd : f.phase = .data) : dataCmd x = some f := by
  simp only [dataCmd, hf, hd, if_true]

/-- A STOP in the step of a data bit is the command's own or the remote master's (R216, R222, R223). -/
theorem stopAllowed_iff :
    stopAllowed f remote stop = true ↔ (stop = true → cmdHasStop f.cmd = true ∨ remote = true) := by
  cases stop <;> simp [stopAllowed]

/-- NORMAL_STOP is latched beside a bit when the STOP came (R108, R216). -/
theorem or_normalStop (b : Bool) (w : Word) :
    (w ||| if b then 0x0010#32 else 0#32) = if b then w ||| 0x0010#32 else w := by
  cases b <;> simp

/-- The first j of n bytes on the bus, the last of them refused (R216). -/
theorem traceBytes_take {d : List Byte} {j : Nat} (h1 : 1 ≤ j) (hj : j ≤ d.length) :
    traceBytes (d.take j) false = ((d.take (j - 1)).map fun b => TraceItem.byte b true)
      ++ ((d.drop (j - 1)).take 1).map fun b => TraceItem.byte b false := by
  have hlen : (d.take j).length = j := List.length_take_of_le hj
  rw [traceBytes_last, hlen, List.dropLast_eq_take, hlen, List.take_take, Nat.min_eq_left (Nat.sub_le j 1),
    List.drop_take, Nat.sub_sub_self h1]

end parts

/-! ## Transmits -/

section transmit

variable (s : State) {i : InstId} {x : Inst} (o : Option (Nat × Side)) (n : Nat) (r : Ret) {f : InFlight}
  {stop : Bool} (mis : Option Word) {j : Nat}

/-- The instance after the bytes of a transmit are over: count k reported, the bit latched, the items t on the bus
(R216). -/
def Inst.transmitted (x : Inst) (g : Config) (ic : InstConfig) (f : InFlight) (k : Nat) (mis : Option Word) (bit : Word)
    (stop : Bool) (t : List TraceItem) : Inst :=
  { x with
    regs := (x.reported g ic f k mis).latched (if stop && cmdHasStop f.cmd then bit ||| 0x0010#32 else bit)
    core := x.core.ends f stop t }

/-- ACKED and S_ACKED (R216, R223). -/
theorem coreAck_put (hk : i.toNat < s.insts.length) (hf : x.core.inflight = some f) (hd : f.phase = .data)
    (htx : cmdIsTx f.cmd = true) (hs : stop = true → cmdHasStop f.cmd = true) :
    coreAck i.toNat stop mis (s.put i.toNat x o n r) = .ok ((), s.put i.toNat
      (x.transmitted s.cfg (s.cfg.inst i.toNat) f f.n mis 0x0001#32 stop
        (startTrace f ++ f.data.map fun b => .byte b true)) o n r) := by
  have hgo : (cmdIsTx f.cmd && stopAllowed f false stop) = true := by
    rw [htx, Bool.true_and, stopAllowed_iff]; exact fun h => .inl (hs h)
  simp only [coreAck, op_bind, getInst_put _ _ _ _ _ _ hk, dataCmd_of_inflight hf hd]
  rw [op_if_pos _ hgo, endData_put s i x o n r f _ _ _ _ _ hk, or_normalStop, traceBytes_true]
  rfl

/-- A STOP the command does not carry comes with no acknowledge (R216). -/
theorem coreAck_refused (hk : i.toNat < s.insts.length) (hf : x.core.inflight = some f) (hd : f.phase = .data)
    (hs : stop = true) (hc : cmdHasStop f.cmd = false) :
    coreAck i.toNat stop mis (s.put i.toNat x o n r) = .error (.refuse .notEnabled) := by
  simp only [coreAck, op_bind, getInst_put _ _ _ _ _ _ hk, dataCmd_of_inflight hf hd]
  rw [op_if_neg _ (by simp [stopAllowed, hs, hc])]
  rfl

/-- NACKED(j) and S_NACKED(j): the j bytes end as a transmit does, and after a C.S_TX the remote master's STOP may
follow (R216, R223). -/
theorem coreNack_put (hk : i.toNat < s.insts.length) (hf : x.core.inflight = some f) (hd : f.phase = .data)
    (htx : cmdIsTx f.cmd = true) (h1 : 1 ≤ j) (hj : j ≤ f.n) (hlen : f.data.length = f.n)
    (hs : stop = true → cmdHasStop f.cmd = true ∨ f.cmd = .sTx) :
    coreNack i.toNat j stop mis (s.put i.toNat x o n r) =
      whenB (f.cmd == .sTx && stop) (remoteStop i.toNat) (s.put i.toNat
        (x.transmitted s.cfg (s.cfg.inst i.toNat) f j mis 0x0002#32 stop
          (startTrace f ++ ((f.data.take (j - 1)).map fun b => TraceItem.byte b true)
            ++ (((f.data.drop (j - 1)).take 1).map fun b => TraceItem.byte b false))) o n r) := by
  have hgo :
      (cmdIsTx f.cmd && decide (1 ≤ j) && decide (j ≤ f.n) && stopAllowed f (f.cmd == .sTx) stop) = true := by
    simp only [Bool.and_eq_true, decide_eq_true_eq, stopAllowed_iff, beq_iff_eq]
    exact ⟨⟨⟨htx, h1⟩, hj⟩, hs⟩
  simp only [coreNack, op_bind, getInst_put _ _ _ _ _ _ hk, dataCmd_of_inflight hf hd]
  rw [op_if_pos _ hgo, op_bind, endData_put s i x o n r f _ _ _ _ _ hk, or_normalStop,
    traceBytes_take h1 (hlen.symm ▸ hj), ← List.append_assoc]
  rfl

/-- No refusal of a byte the command does not have, and no STOP no rule allows with one (R216, R223). -/
theorem coreNack_refused (hk : i.toNat < s.insts.length) (hf : x.core.inflight = some f) (hd : f.phase = .data)
    (hno : (j = 0 ∨ f.n < j) ∨ stop = true ∧ cmdHasStop f.cmd = false ∧ f.cmd ≠ .sTx) :
    coreNack i.toNat j stop mis (s.put i.toNat x o n r) = .error (.refuse .notEnabled) := by
  simp only [coreNack, op_bind, getInst_put _ _ _ _ _ _ hk, dataCmd_of_inflight hf hd]
  refine op_if_neg _ (fun hgo => ?_) _ _
  simp only [Bool.and_eq_true, decide_eq_true_eq, stopAllowed_iff, beq_iff_eq] at hgo
  obtain ⟨⟨⟨-, h1⟩, hj⟩, hstop⟩ := hgo
  rcases hno with hno | ⟨hs, hc, hcmd⟩
  · omega
  · exact (hstop hs).elim (by simp [hc]) hcmd

end transmit

/-- Settles O57: each outcome ends the data phase as `endData_put` says; a refused reply may go on to the remote
STOP. -/
theorem transmitOutcomesReportAndLatch : Obligations.TransmitOutcomesReportAndLatch := by
  intro s i x f stop mis j h hf hd htx ic start with' leaves
  have hk := has_lt s x i h
  refine ⟨fun hs => ?_, fun h1 hj hlen => ?_, fun hs hc => ?_, fun hs hc hcmd => ?_, fun hno => ?_⟩
  · exact outcome_run (coreAck · stop mis) h
      (coreAck_put s _ _ _ mis hk hf hd htx fun e => hs.resolve_left (by simp [e]))
  · intro t y
    have hput (hs : stop = true → cmdHasStop f.cmd = true ∨ f.cmd = .sTx) :
        coreNack i.toNat j.toNat stop mis (s.put i.toNat x s.poolOwner s.draws s.ret) =
          whenB (f.cmd == .sTx && stop) (remoteStop i.toNat) (s.put i.toNat y s.poolOwner s.draws s.ret) :=
      coreNack_put s _ _ _ mis hk hf hd htx h1 hj hlen hs
    have hreply (hc : f.cmd = .sTx) : y.core.inflight = none ∧ y.core.xfer = x.core.xfer := by
      have : cmdHasStop f.cmd = false := by rw [hc]; rfl
      simp only [y, Core.ends, this, if_true, and_self]
    refine ⟨fun hs => ?_, fun hc hs hsl => ?_, fun hc hs hsl => ?_⟩
    · have hown : (f.cmd == .sTx && stop) = false := by
        rcases hs with rfl | hs
        · exact Bool.and_false _
        · cases hcmd : f.cmd == .sTx with
          | false => rfl
          | true => rw [beq_iff_eq.1 hcmd] at hs; cases hs
      refine outcome_run (coreNack · j.toNat stop mis) h ?_
      rw [hput fun e => .inl (hs.resolve_left (by simp [e])), hown, op_whenB_false]
    · refine outcome_run (coreNack · j.toNat stop mis) h ?_
      rw [hput fun _ => .inr hc, hc, hs]
      exact remoteStop_put s i y _ _ _ hk ((hreply hc).2 ▸ hsl) fun g hg => by rw [(hreply hc).1] at hg; cases hg
    · refine outcome_refused (coreNack · j.toNat stop mis) h ?_
      rw [hput fun _ => .inr hc, hc, hs]
      exact remoteStop_none s i y _ _ _ hk ((hreply hc).2 ▸ hsl)
  · exact outcome_refused (coreAck · stop mis) h (coreAck_refused s _ _ _ mis hk hf hd hs hc)
  · exact outcome_refused (coreNack · j.toNat stop mis) h
      (coreNack_refused s _ _ _ mis hk hf hd (.inr ⟨hs, hc, hcmd⟩))
  · exact outcome_refused (coreNack · j.toNat stop mis) h (coreNack_refused s _ _ _ mis hk hf hd (.inl hno))

end Sys2Proof.Machine
end

section
/-! PROOFS. The outcomes of a receive: where the bytes go, what is reported and latched. -/

namespace Sys2Proof.Machine

open Sys2Proof

section receive

variable (s : State) {i : InstId} {x : Inst} (o : Option (Nat × Side)) (n : Nat) (r : Ret) {f : InFlight}
  {bs : List Byte} {b : Byte} {stop : Bool} (mis : Option Word)

/-- Received bytes change the core in nothing (R215). -/
theorem sunk_core (x : Inst) (p : Path) (bs : List Byte) : (x.sunk p bs).core = x.core := by
  unfold Inst.sunk; split <;> rfl

/-- The instance after a master receive is over (R217). -/
def Inst.receivedAll (x : Inst) (g : Config) (ic : InstConfig) (f : InFlight) (bs : List Byte) (stop : Bool)
    (mis : Option Word) : Inst :=
  { x.sunk f.path bs with
    regs := ((x.sunk f.path bs).reported g ic f f.n mis).latched (if stop then 0x0014#32 else 0x0004#32)
    core := x.core.ends f stop ((bs.dropLast.map fun b => .byte b true)
      ++ (bs.drop (f.n - 1)).map fun b => .byte b !(cmdNacksLast f.cmd)) }

/-- RECEIVED: all n bytes of a master receive (R217). -/
theorem coreRx_master_put (hk : i.toNat < s.insts.length) (hf : x.core.inflight = some f) (hd : f.phase = .data)
    (hrx : cmdIsRx f.cmd = true) (hc : f.cmd ≠ .sRx) (hlen : bs.length = f.n)
    (hs : stop = true → cmdHasStop f.cmd = true) (hb : f.path = .dma → f.base.toNat + bs.length ≤ 4294967296) :
    coreRx i.toNat (.window bs) stop mis (s.put i.toNat x o n r) = .ok ((), (s.sunk f bs).put i.toNat
      (x.receivedAll s.cfg (s.cfg.inst i.toNat) f bs stop mis) o n r) := by
  have hgo : (decide (bs.length = f.n) && stopAllowed f false stop) = true := by
    rw [hlen, decide_eq_true rfl, Bool.true_and, stopAllowed_iff]
    exact fun h => .inl (hs h)
  have hbits : (if stop && cmdHasStop f.cmd then RX_DONE ||| 0x0010#32 else RX_DONE) =
      if stop then 0x0014#32 else 0x0004#32 := by
    cases stop with
    | false => rfl
    | true => rw [hs rfl]; rfl
  obtain ⟨hinsts, hcfg⟩ := sunk_insts s f bs
  simp only [coreRx, op_bind, getInst_put _ _ _ _ _ _ hk, dataCmd_of_inflight hf hd, if_neg hc, if_pos hrx]
  rw [coreReceive, op_if_pos _ hgo, op_bind, sinkData_put s i x o n r f bs hk hb]
  refine (endData_put (s.sunk f bs) i _ o n r f _ _ _ _ _ (hinsts ▸ hk)).trans ?_
  rw [or_normalStop, hbits, hcfg, traceBytes_last, hlen, sunk_core]
  rfl

/-- The instance after an open slave window has taken bs and is gone (R221). -/
def Inst.windowFilled (x : Inst) (g : Config) (ic : InstConfig) (f : InFlight) (bs : List Byte) (mis : Option Word) :
    Inst :=
  { x.sunk f.path bs with
    regs := if bs = [] then (x.sunk f.path bs).reported g ic f bs.length mis
      else ((x.sunk f.path bs).reported g ic f bs.length mis).latched 0x0004#32
    core := { x.core with inflight := none } }

/-- S_RECEIVED: an open window takes its bytes, and the remote master's STOP may follow (R221, R222). -/
theorem coreRx_window_put (hk : i.toNat < s.insts.length) (hf : x.core.inflight = some f) (hd : f.phase = .data)
    (hc : f.cmd = .sRx) (hlen : bs.length ≤ f.n) (hb : f.path = .dma → f.base.toNat + bs.length ≤ 4294967296) :
    coreRx i.toNat (.window bs) stop mis (s.put i.toNat x o n r) =
      whenB stop (remoteStop i.toNat) ((s.sunk f bs).put i.toNat
        (x.windowFilled s.cfg (s.cfg.inst i.toNat) f bs mis) o n r) := by
  obtain ⟨hinsts, hcfg⟩ := sunk_insts s f bs
  have hk' : i.toNat < (s.sunk f bs).insts.length := hinsts ▸ hk
  simp only [coreRx, op_bind, getInst_put _ _ _ _ _ _ hk, dataCmd_of_inflight hf hd, if_pos hc]
  rw [slaveWindow, op_if_pos _ hlen, op_bind, sinkData_put s i x o n r f bs hk hb]
  simp only [op_bind, reportCount_put (s.sunk f bs) i _ o n r f _ _ hk', op_modCore, updInst_put _ _ _ _ _ _ _ hk',
    hcfg, sunk_core]
  cases bs with
  | nil => rfl
  | cons b l =>
    simp only [List.length_cons, Nat.le_add_left, decide_true, op_whenB_true, op_latch, updInst_put _ _ _ _ _ _ _ hk']
    rfl

/-- The bytes of a window are not enabled with nothing in flight (R217, R221). -/
theorem coreRx_window_refused (hk : i.toNat < s.insts.length) (hf : x.core.inflight = none) :
    coreRx i.toNat (.window bs) stop mis (s.put i.toNat x o n r) = .error (.refuse .notEnabled) := by
  simp only [coreRx, op_bind, getInst_put _ _ _ _ _ _ hk, dataCmd, hf]
  rfl

/-- RemoteByte is enabled on the four conditions of R221. -/
theorem remoteByteEnabled_iff : remoteByteEnabled x = true ↔ x.core.xfer.isSlave = true ∧ x.core.matchRd = false
    ∧ x.regs.en &&& 0xA#4 = 0#4 ∧ x.regs.intrSts.getLsbD 2 = false := by
  have hen : ∀ e : BitVec 4, e &&& 0xA#4 = 0#4 ↔ e.getLsbD 1 = false ∧ e.getLsbD 3 = false := by decide
  simp only [remoteByteEnabled, (anyOf_rx _).1, hen, Bool.and_eq_true, Bool.not_eq_true', and_assoc]

/-- The instance after a byte for no window (R221). -/
def Inst.byteTaken (x : Inst) (b : Byte) : Inst :=
  { x with regs := { x.regs with byteRx := b }.latched 0x0004#32 }

/-- RemoteByte, and the remote master's STOP that may follow it (R221, R222). -/
theorem coreRx_direct_put (hk : i.toNat < s.insts.length) (h : remoteByteEnabled x = true) :
    coreRx i.toNat (.direct b) stop mis (s.put i.toNat x o n r) =
      whenB stop (remoteStop i.toNat) (s.put i.toNat (x.byteTaken b) o n r) := by
  simp only [coreRx, remoteByte, op_bind, getInst_put _ _ _ _ _ _ hk]
  rw [op_if_pos _ h]
  simp only [op_bind, op_modRegs, op_latch, updInst_put _ _ _ _ _ _ _ hk]
  rfl

theorem coreRx_direct_refused (hk : i.toNat < s.insts.length) (h : ¬ remoteByteEnabled x = true) :
    coreRx i.toNat (.direct b) stop mis (s.put i.toNat x o n r) = .error (.refuse .notEnabled) := by
  simp only [coreRx, remoteByte, op_bind, getInst_put _ _ _ _ _ _ hk]
  exact op_if_neg _ h _ _

end receive

/-- The remote master's STOP that comes in the same step or does not, no window open (R222). -/
theorem whenStop_put (s : State) {i : InstId} {x : Inst} (o : Option (Nat × Side)) (n : Nat) (r : Ret) {stop : Bool}
    (hk : i.toNat < s.insts.length) (hs : stop = true → x.core.xfer.isSlave = true)
    (hw : stop = true → ∀ f, x.core.inflight = some f → f.cmd ≠ .sRx) :
    whenB stop (remoteStop i.toNat) (s.put i.toNat x o n r) =
      .ok ((), s.put i.toNat (if stop then x.remoteStopped else x) o n r) := by
  cases stop with
  | false => rfl
  | true => exact remoteStop_put s i x o n r hk (hs rfl) (hw rfl)

/-- Settles O58: the window of a master or of a slave, and a byte for no window, each with the STOP that may follow. -/
theorem receivedBytesReachTheirSink : Obligations.ReceivedBytesReachTheirSink := by
  intro s i x f bs b stop mis h ic leaves stopped direct
  have hk := has_lt s x i h
  have hk' : i.toNat < (s.sunk f bs).insts.length := (sunk_insts s f bs).1 ▸ hk
  refine ⟨fun hf hd hrx hb => ⟨fun hc hlen _ hs => ?_, fun hc hlen hs hsl => ?_, fun hc hlen hs => ?_⟩,
    ⟨fun hdir hs => ?_, fun hdir hs hf hc => ?_⟩, fun hdir => ?_, fun hf => ?_⟩
  · exact outcome_run (coreRx · (.window bs) stop mis) h
      (coreRx_master_put s _ _ _ mis hk hf hd hrx hc hlen hs fun hp => hb hp)
  · refine outcome_refused (coreRx · (.window bs) stop mis) h ?_
    rw [coreRx_window_put s _ _ _ mis hk hf hd hc hlen hb, hs]
    exact remoteStop_none (s.sunk f bs) i _ _ _ _ hk' hsl
  · refine outcome_run (coreRx · (.window bs) stop mis) h ?_
    rw [coreRx_window_put s _ _ _ mis hk hf hd hc hlen hb]
    exact whenStop_put (s.sunk f bs) _ _ _ hk' hs fun _ g hg => by cases hg
  · refine outcome_run (coreRx · (.direct b) stop mis) h ?_
    rw [coreRx_direct_put s _ _ _ mis hk (remoteByteEnabled_iff.2 hdir)]
    exact whenStop_put s _ _ _ hk (fun _ => hdir.1) fun e g hg hc =>
      hs.elim (by simp [e]) fun hno => hno ⟨g, hg, hc⟩
  · refine outcome_run (coreRx · (.direct b) stop mis) h ?_
    rw [coreRx_direct_put s _ _ _ mis hk (remoteByteEnabled_iff.2 hdir), hs]
    exact remoteStop_window_put s i (x.byteTaken b) _ _ _ f hk hdir.1 hf hc
  · exact outcome_refused (coreRx · (.direct b) stop mis) h
      (coreRx_direct_refused s _ _ _ mis hk fun he => hdir (remoteByteEnabled_iff.1 he))
  · exact outcome_refused (coreRx · (.window bs) stop mis) h (coreRx_window_refused s _ _ _ mis hk hf)

end Sys2Proof.Machine
end

section
/-! PROOFS. STOPs, the end of C.RECOVER, address matches, line changes and SMBus events. -/

namespace Sys2Proof.Machine

open Sys2Proof

section stops

variable (s : State) {i : InstId} {x : Inst} (o : Option (Nat × Side)) (n : Nat) (r : Ret) {f : InFlight}

/-- The instance after the STOP of its own command: the command gone, the bus free (R210, R216). -/
def Inst.ownStopped (x : Inst) : Inst :=
  { x with
    regs := x.regs.latched 0x0010#32
    core := { x.core with inflight := none, busy := false, xfer := .idle, trace := x.core.trace ++ [.stop] } }

/-- The STOP of C.STOP, or the pending one; the lines are drawn after a C.STOP that did not hold the bus (R210,
R216). -/
theorem coreStop_own_put (hk : i.toNat < s.insts.length) (hf : x.core.inflight = some f)
    (hs : f.cmd = .stop ∨ f.phase = .stopPending) :
    coreStop i.toNat (s.put i.toNat x o n r) =
      whenB (f.cmd == .stop && !f.held) (drawLines i.toNat) (s.put i.toNat x.ownStopped o n r) := by
  simp only [coreStop, op_bind, getInst_put _ _ _ _ _ _ hk, hf]
  rw [op_if_pos _ hs]
  simp only [addTrace, op_bind, op_modCore, op_latch, updInst_put _ _ _ _ _ _ _ hk]
  rfl

/-- Any other STOP is the remote master's (R222). -/
theorem coreStop_remote (hk : i.toNat < s.insts.length)
    (hs : ∀ f, x.core.inflight = some f → f.cmd ≠ .stop ∧ f.phase = .data) :
    coreStop i.toNat (s.put i.toNat x o n r) = remoteStop i.toNat (s.put i.toNat x o n r) := by
  simp only [coreStop, op_bind, getInst_put _ _ _ _ _ _ hk]
  cases hf : x.core.inflight with
  | none => rfl
  | some f =>
    obtain ⟨hc, hd⟩ := hs f hf
    exact op_if_neg _ (by simp [hc, hd]) _ _

theorem drawLines_put (hk : i.toNat < s.insts.length) : drawLines i.toNat (s.put i.toNat x o n r) =
    .ok ((), s.put i.toNat { x with core := { x.core with
      sda := Config.freeBit n, scl := Config.freeBit (n + 1) } } o (n + 2) r) := by
  simp only [drawLines, op_bind, draw_put, op_modCore, updInst_put _ _ _ _ _ _ _ hk]

/-- RECOVERED (R213). -/
theorem coreRecovered_put {sda : Bool} (hk : i.toNat < s.insts.length) (hf : x.core.inflight = some f)
    (hd : f.phase = .data) (hc : f.cmd = .recover) : coreRecovered i.toNat sda (s.put i.toNat x o n r) =
    .ok ((), s.put i.toNat { x with
      regs := x.regs.latched 0x2000#32
      core := { x.core with
        inflight := none, sda := sda, scl := true, xfer := .idle, trace := x.core.trace ++ [.recover] } } o n r) := by
  simp only [coreRecovered, op_bind, getInst_put _ _ _ _ _ _ hk, dataCmd_of_inflight hf hd]
  rw [op_if_pos _ hc]
  simp only [addTrace, op_bind, op_modCore, op_latch, updInst_put _ _ _ _ _ _ _ hk]
  rfl

end stops

/-- Cutting a command short touches the byte spaces alone (R219; log entry 11). -/
theorem State.CutSpaces.apart {s t : State} {f : InFlight} (h : s.CutSpaces f t) :
    t.insts = s.insts ∧ t.cfg = s.cfg ∧ t.inbox = s.inbox := by
  rcases h with rfl | ⟨-, bs, -, rfl⟩
  · exact ⟨rfl, rfl, rfl⟩
  · unfold State.sunk; split <;> exact ⟨rfl, rfl, rfl⟩

section addresses

variable (s : State) {i : InstId} {x y : Inst} (o : Option (Nat × Side)) (n : Nat) (r : Ret) {f : InFlight} {a : Byte}
  {arb : Bool}

/-- The instance after a match at address byte a, XFER_STATE a code of the slave class (R220). -/
def Inst.addressed (x : Inst) (a : Byte) (arb : Bool) (code : XferState) : Inst :=
  { x with
    regs := { x.regs with byteRx := a }.latched (if arb then 0x008C#32 else 0x0084#32)
    core := { x.core with xfer := code, busy := true, matchRd := a.getLsbD 0 } }

/-- A master command is in flight (R220). -/
def Inst.Driving (x : Inst) : Prop := ∃ f : InFlight, x.core.inflight = some f ∧ cmdIsMaster f.cmd = true

theorem masterInFlight_of (hf : x.core.inflight = some f) (hm : cmdIsMaster f.cmd = true) :
    masterInFlight x = some f := by
  simp only [masterInFlight, hf, hm, if_true]

theorem masterInFlight_none (h : ¬ x.Driving) : masterInFlight x = none := by
  unfold masterInFlight
  cases hf : x.core.inflight with
  | none => rfl
  | some f => exact if_neg fun hm => h ⟨f, hf, hm⟩

theorem mastering_iff : mastering x = true ↔ x.Driving ∨ x.core.xfer.isMaster = true := by
  rw [mastering, Bool.or_eq_true]
  refine or_congr_left ?_
  by_cases h : x.Driving
  · obtain ⟨f, hf, hm⟩ := id h
    simp [masterInFlight_of hf hm, h]
  · simp [masterInFlight_none h, h]

/-- RemoteMatch is enabled for this controller's address, the slave side enabled and idle (R220). -/
theorem matchEnabled_iff : matchEnabled x a = true ↔ x.regs.funCtrl.getLsbD 1 = true
    ∧ a.extractLsb' 1 7 = x.regs.devAddr.extractLsb' 0 7 ∧ x.core.xfer.isSlave = false := by
  simp only [matchEnabled, Bool.and_eq_true, beq_iff_eq, Bool.not_eq_true', and_assoc]

/-- An enabled match, once the command it drops is cut short (R220). -/
theorem coreMatch_put {t : State} {m : Nat} (hk : i.toNat < s.insts.length) (hk' : i.toNat < t.insts.length)
    (hgo : (matchEnabled x a && (!arb || mastering x)) = true)
    (hcut : cutShort i.toNat (masterInFlight x) (s.put i.toNat x o n r) = .ok ((), t.put i.toNat y o m r)) :
    coreMatch i.toNat a arb (s.put i.toNat x o n r) = .ok ((), t.put i.toNat
      (y.addressed a arb (.slave (Config.freeSlaveCode m))) o (m + 1) r) := by
  have hbits : (SLAVE_MATCH ||| RX_DONE ||| if arb then ARB_LOSS else 0#32) =
      if arb then 0x008C#32 else 0x0084#32 := by
    cases arb <;> rfl
  simp only [coreMatch, op_bind, getInst_put _ _ _ _ _ _ hk, hgo, op_require_true, hcut, draw_put, op_modRegs,
    op_modCore, op_latch, updInst_put _ _ _ _ _ _ _ hk', hbits]
  rfl

/-- A match that drops the master command in flight (R220; log entry 11). -/
theorem coreMatch_drops (hk : i.toNat < s.insts.length) (hf : x.core.inflight = some f)
    (hm : cmdIsMaster f.cmd = true) (hb : f.path = .dma → f.base.toNat + f.n ≤ 4294967296)
    (hgo : (matchEnabled x a && (!arb || mastering x)) = true) : ∃ t v l j, s.CutSpaces f t
    ∧ coreMatch i.toNat a arb (s.put i.toNat x o n r) = .ok ((), t.put i.toNat
      ((x.cut s.cfg (s.cfg.inst i.toNat) f v (Config.cutCount i.toNat x.core.cuts) l).addressed a arb
        (.slave (Config.freeSlaveCode j))) o (j + 1) r) := by
  obtain ⟨t, v, l, j, hcut, ht⟩ := cutShort_put s i x o n r f hk hb
  exact ⟨t, v, l, j, ht,
    coreMatch_put s o n r hk (ht.apart.1 ▸ hk) hgo (by rw [masterInFlight_of hf hm, hcut])⟩

/-- A match is enabled by its address, and with ARB_LOSS only while mastering (R220). -/
theorem matchGoes_iff : (matchEnabled x a && (!arb || mastering x)) = true ↔
    (x.regs.funCtrl.getLsbD 1 = true ∧ a.extractLsb' 1 7 = x.regs.devAddr.extractLsb' 0 7
      ∧ x.core.xfer.isSlave = false) ∧ (arb = true → x.Driving ∨ x.core.xfer.isMaster = true) := by
  rw [Bool.and_eq_true, matchEnabled_iff, Bool.or_eq_true, Bool.not_eq_true', mastering_iff]
  cases arb <;> simp

theorem coreMatch_refused (hk : i.toNat < s.insts.length)
    (hno : ¬ (matchEnabled x a && (!arb || mastering x)) = true) :
    coreMatch i.toNat a arb (s.put i.toNat x o n r) = .error (.refuse .notEnabled) := by
  simp only [coreMatch, op_bind, getInst_put _ _ _ _ _ _ hk, Bool.eq_false_iff.2 hno, op_require_false]

end addresses

/-- Settles O59: a STOP by whose it is, a match by whether it drops a command, the line and SMBus steps by their one
change. -/
theorem stopsMatchesAndEventsLatchTheirBits : Obligations.StopsMatchesAndEventsLatchTheirBits := by
  intro s i x f a arb sda scl busy m h leaves mine driving mastering matched stopped
  have hk := has_lt s x i h
  have hgoes : (matchEnabled x a && (!arb || Machine.mastering x)) = true ↔ mine ∧ (arb = true → mastering) :=
    matchGoes_iff
  refine ⟨fun hf hs => ⟨fun hc hh => ?_, fun hno => ?_⟩, fun hsl => ⟨fun hf => ?_, fun hf hd hc hc' => ?_,
    fun hf hd hc => ?_⟩, fun hno hsl => ?_, fun hf hd hc => ?_, fun hm harb => ?_, fun hno => ?_, ?_, ?_⟩
  · refine ⟨Config.freeBit s.draws, Config.freeBit (s.draws + 1), s.draws + 2, outcome_run coreStop h ?_⟩
    rw [coreStop_own_put s _ _ _ hk hf hs, hc, hh]
    exact drawLines_put s _ _ _ hk
  · refine outcome_run coreStop h ?_
    have hheld : (f.cmd == .stop && !f.held) = false := by
      rcases hno with hc | hh
      · rw [beq_false_of_ne hc, Bool.false_and]
      · rw [hh, Bool.not_true, Bool.and_false]
    rw [coreStop_own_put s _ _ _ hk hf hs, hheld]
    rfl
  · refine outcome_run coreStop h ?_
    rw [coreStop_remote s _ _ _ hk (by simp [hf])]
    exact remoteStop_put s i x _ _ _ hk hsl (by simp [hf])
  · refine outcome_run coreStop h ?_
    rw [coreStop_remote s _ _ _ hk (by simp [hf, hc, hd])]
    exact remoteStop_put s i x _ _ _ hk hsl (by simp [hf, hc'])
  · refine outcome_run coreStop h ?_
    rw [coreStop_remote s _ _ _ hk (by simp [hf, hc, hd])]
    exact remoteStop_window_put s i x _ _ _ f hk hsl hf hc
  · refine outcome_refused coreStop h ?_
    rw [coreStop_remote s _ _ _ hk fun g hg => ?_]
    · exact remoteStop_none s i x _ _ _ hk hsl
    · rcases hno with hnone | ⟨f', hf', hmoves⟩
      · rw [hnone] at hg; cases hg
      · rw [hf'] at hg; cases hg; exact hmoves
  · exact outcome_run (coreRecovered · sda) h (coreRecovered_put s _ _ _ hk hf hd hc)
  · by_cases hdrive : x.Driving
    · obtain ⟨g, hg, hmaster⟩ := id hdrive
      by_cases hb : g.path = .dma → g.base.toNat + g.n ≤ 4294967296
      · obtain ⟨t, v, l, j, ht, hput⟩ := coreMatch_drops s s.poolOwner s.draws s.ret hk hg hmaster hb
          (hgoes.2 ⟨hm, harb⟩)
        refine ⟨.slave (Config.freeSlaveCode j), rfl, fun hn => absurd hdrive hn, fun hf _ _ => ?_⟩
        obtain rfl : g = f := Option.some.inj (hg.symm.trans hf)
        exact ⟨t, v, _, l, j + 1, ht, outcome_run (coreMatch · a arb) h hput⟩
      · refine ⟨.slave 0, rfl, fun hn => absurd hdrive hn, fun hf _ hb' => ?_⟩
        obtain rfl : g = f := Option.some.inj (hg.symm.trans hf)
        exact absurd hb' hb
    · refine ⟨.slave (Config.freeSlaveCode s.draws), rfl,
        fun _ => ⟨s.draws + 1, outcome_run (coreMatch · a arb) h ?_⟩,
        fun hf hmaster _ => absurd ⟨f, hf, hmaster⟩ hdrive⟩
      exact coreMatch_put s _ _ _ hk hk (hgoes.2 ⟨hm, harb⟩) (by rw [masterInFlight_none hdrive]; rfl)
  · refine outcome_refused (coreMatch · a arb) h (coreMatch_refused s _ _ _ hk fun hgo => ?_)
    obtain ⟨hm, harb⟩ := hgoes.1 hgo
    exact hno.elim (fun hn => hn hm) fun ⟨ha, hn⟩ => hn (harb ha)
  · refine outcome_run (fun k => modCore k fun c => { c with sda := sda, scl := scl, busy := busy }) h ?_
    rw [op_modCore, updInst_put _ _ _ _ _ _ _ hk]
  · refine outcome_run (fun k => latch k (smbusMask m)) h ?_
    rw [op_latch, updInst_put _ _ _ _ _ _ _ hk]
    cases m <;> rfl

end Sys2Proof.Machine
end

section
/-! PROOFS. The bus faults: the command in flight is cut short, and what of it the spec does not state. -/

namespace Sys2Proof.Machine

open Sys2Proof

section faults

variable {s t : State} {i : InstId} {x y : Inst} {o : Option (Nat × Side)} {n m : Nat} {r : Ret} {f : InFlight}
  {w : Word}

/-! ## What is left beside the bits -/

/-- The spaces after a command is cut short differ at most in the window of a receive (R219; log entry 11). -/
theorem State.CutSpaces.frame (h : s.CutSpaces f t) : SameBytes s.mem t.mem
    ∧ (if cmdIsRx f.cmd && f.path == .buf then SameOutside s.pool t.pool 0 f.n else SameBytes s.pool t.pool)
    ∧ (if cmdIsRx f.cmd && f.path == .dma then SameOutside s.dma t.dma f.base.toNat f.n
      else SameBytes s.dma t.dma) := by
  have houtside (m : Memory) (a n : Nat) : SameOutside m m a n := fun _ _ => rfl
  have hwritten (m : Memory) (a : Nat) {bs : List Byte} (hlen : bs.length ≤ f.n) :
      SameOutside m (m.writeN a bs) a f.n := fun b hb => get_writeN_outside m a b bs (by omega)
  rcases h with rfl | ⟨hrx, bs, hlen, rfl⟩
  · refine ⟨sameBytes_refl _, ?_, ?_⟩ <;> split <;> simp [houtside]
  · cases hp : f.path <;> simp [State.sunk, hp, hrx, hwritten _ _ hlen]

/-- A count report changes of BUF_CTRL only ACT_CNT (R218). -/
theorem actCnt_masked (b c : Word) :
    ((b &&& 0xC00FFFFF#32) ||| ((c &&& 0x3FF#32) <<< 20)) &&& 0xC00FFFFF#32 = b &&& 0xC00FFFFF#32 := by
  have hfield : (0x3FF#32 <<< 20) &&& 0xC00FFFFF#32 = 0#32 := by decide
  rw [BitVec.and_or_distrib_right, BitVec.and_assoc, BitVec.and_self, BitVec.shiftLeft_and_distrib, BitVec.and_assoc,
    hfield, BitVec.and_zero, BitVec.or_zero]

/-- A cut command is gone, and of the registers only BYTE_DATA.RX, DMA_LEN and ACT_CNT may differ (R219). -/
theorem cut_shape (x : Inst) (g : Config) (ic : InstConfig) (f : InFlight) (v : Byte) (q : Word) (l : List TraceItem) :
    ∃ b u : Word, x.cut g ic f v q l = { x with
        regs := { x.regs with byteRx := v, bufCtrl := b, dmaLen := u }
        core := { x.core with inflight := none, trace := x.core.trace ++ l, cuts := x.core.cuts + 1 } }
      ∧ b &&& 0xC00FFFFF#32 = x.regs.bufCtrl &&& 0xC00FFFFF#32 := by
  unfold Inst.cut Inst.reported
  cases f.path with
  | byte | dma => exact ⟨_, _, rfl, rfl⟩
  | buf => exact ⟨_, _, rfl, actCnt_masked _ _⟩

/-! ## The three faults -/

/-- The instance with XFER_STATE and SCL as a fault leaves them (R219). -/
def Inst.lines (x : Inst) (code : XferState) (scl : Bool) : Inst :=
  { x with core := { x.core with xfer := code, scl := scl } }

/-- With nothing in flight a fault only latches its bits (R219). -/
theorem coreFault_idle_put (bit also : Word) (hk : i.toNat < s.insts.length) (hf : x.core.inflight = none) :
    coreFault i.toNat bit also (s.put i.toNat x o n r) =
      .ok ((), s.put i.toNat { x with regs := x.regs.latched (bit ||| also) } o n r) := by
  simp only [coreFault, op_bind, getInst_put _ _ _ _ _ _ hk, hf, cutShort, op_pure, op_latch,
    updInst_put _ _ _ _ _ _ _ hk]
  rfl

theorem coreArb_put (hk : i.toNat < s.insts.length) (hk' : i.toNat < t.insts.length)
    (hf : x.core.inflight.isSome = true)
    (h : coreFault i.toNat 0x0008#32 w (s.put i.toNat x o n r) = .ok ((), t.put i.toNat y o m r)) :
    coreArb i.toNat w (s.put i.toNat x o n r) = .ok ((), t.put i.toNat (y.lines .idle y.core.scl) o m r) := by
  have hfault : coreFault i.toNat ARB_LOSS w (s.put i.toNat x o n r) = .ok ((), t.put i.toNat y o m r) := h
  simp only [coreArb, op_bind, getInst_put _ _ _ _ _ _ hk, hf, op_require_true, hfault, op_modCore,
    updInst_put _ _ _ _ _ _ _ hk']
  rfl

theorem coreAbn_put (hk' : i.toNat < t.insts.length)
    (h : coreFault i.toNat 0x0020#32 w (s.put i.toNat x o n r) = .ok ((), t.put i.toNat y o m r)) : ∃ code j,
    coreAbn i.toNat w (s.put i.toNat x o n r) = .ok ((), t.put i.toNat (y.lines code y.core.scl) o j r) := by
  obtain ⟨code, j, hx⟩ := drawXfer_put t i y o m r hk'
  have hfault : coreFault i.toNat ABNORMAL w (s.put i.toNat x o n r) = .ok ((), t.put i.toNat y o m r) := h
  exact ⟨code, j, by rw [coreAbn, op_bind, hfault]; exact hx⟩

theorem coreSclto_put (hk' : i.toNat < t.insts.length)
    (h : coreFault i.toNat 0x0040#32 w (s.put i.toNat x o n r) = .ok ((), t.put i.toNat y o m r)) : ∃ code scl j,
    coreSclto i.toNat w (s.put i.toNat x o n r) = .ok ((), t.put i.toNat (y.lines code scl) o j r) := by
  obtain ⟨code, j, hx⟩ := drawXfer_put t i y o m r hk'
  have hfault : coreFault i.toNat SCL_TIMEOUT w (s.put i.toNat x o n r) = .ok ((), t.put i.toNat y o m r) := h
  refine ⟨code, Config.freeBit j, j + 1, ?_⟩
  simp only [coreSclto, op_bind, hfault, hx, draw_put, op_modCore, updInst_put _ _ _ _ _ _ _ hk']
  rfl

/-- The fault operations with the bit each latches (R219). -/
def faultOps (i : InstId) (w : Word) : List (Instr × Word) :=
  [(.kArb ⟨i, w⟩, 0x0008#32), (.kAbn ⟨i, w⟩, 0x0020#32), (.kSclto ⟨i, w⟩, 0x0040#32)]

/-- A fault operation is its `coreFault`, XFER_STATE drawn or idle after it, and for SCL_TIMEOUT SCL drawn (R219). -/
theorem exec_fault {q : Instr × Word} (hq : q ∈ faultOps i w) (h : s.Has i x) (hk' : i.toNat < t.insts.length)
    (hf : q.1 = .kArb ⟨i, w⟩ → x.core.inflight.isSome = true)
    (hfault : coreFault i.toNat q.2 w (s.put i.toNat x s.poolOwner s.draws s.ret) =
      .ok ((), t.put i.toNat y s.poolOwner m s.ret)) :
    ∃ code scl j, exec q.1 s = .next (t.put i.toNat (y.lines code scl) s.poolOwner j .none)
      ∧ (q.1 = .kArb ⟨i, w⟩ → code = .idle) ∧ (q.1 ≠ .kSclto ⟨i, w⟩ → scl = y.core.scl) := by
  have hk := has_lt s x i h
  simp only [faultOps, List.mem_cons, List.not_mem_nil, or_false] at hq
  rcases hq with rfl | rfl | rfl
  · exact ⟨.idle, y.core.scl, m, outcome_run (coreArb · w) h (coreArb_put hk hk' (hf rfl) hfault), fun _ => rfl,
      fun _ => rfl⟩
  · obtain ⟨code, j, hput⟩ := coreAbn_put hk' hfault
    exact ⟨code, y.core.scl, j, outcome_run (coreAbn · w) h hput, nofun, fun _ => rfl⟩
  · obtain ⟨code, scl, j, hput⟩ := coreSclto_put hk' hfault
    exact ⟨code, scl, j, outcome_run (coreSclto · w) h hput, nofun, fun hne => absurd rfl hne⟩

end faults

/-- Settles O60: with a command in flight by what cutting it short leaves (`cut_shape`, `State.CutSpaces.frame`), with
none by the bits alone. -/
theorem busFaultsDropTheCommand : Obligations.BusFaultsDropTheCommand := by
  intro s i x w h
  have hk := has_lt s x i h
  refine ⟨fun q hq => ⟨fun f hf hb => ?_, fun hf hne => ?_⟩, fun hf => ?_⟩
  · obtain ⟨t, v, l, j, hfault, ht⟩ := coreFault_put s i x s.poolOwner s.draws s.ret f q.2 w hk hf hb
    obtain ⟨b, u, hcut, hmask⟩ := cut_shape x s.cfg (s.cfg.inst i.toNat) f v (Config.cutCount i.toNat x.core.cuts) l
    rw [hcut] at hfault
    obtain ⟨hinsts, hcfg, hinbox⟩ := ht.apart
    have hk' : i.toNat < t.insts.length := hinsts ▸ hk
    obtain ⟨code, scl, j, hrun, hidle, hscl⟩ := exec_fault hq h hk' (fun _ => by rw [hf]; rfl) hfault
    obtain ⟨hmem, hpool, hdma⟩ := ht.frame
    refine ⟨_, _, u, v, l, hrun, put_get _ _ _ _ _ _ hk', ⟨hcfg, hinbox, ?_, fun k hne => ?_⟩, rfl, rfl, hmem,
      hpool, hdma, rfl, hmask, hidle, hscl⟩
    · rw [put_length, hinsts]
    · rw [put_other _ _ _ _ _ _ _ hne, hinsts]
  · obtain ⟨code, scl, j, hrun, -, hscl⟩ := exec_fault hq h hk (fun e => absurd e hne)
      (coreFault_idle_put q.2 w hk hf)
    exact ⟨code, scl, j, hrun, fun e => hscl (by rw [e]; nofun)⟩
  · refine outcome_refused (coreArb · w) h ?_
    simp only [coreArb, op_bind, getInst_put _ _ _ _ _ _ hk, hf]
    rfl

end Sys2Proof.Machine
end

section
/-! PROOFS. The timing calculator: the halving loop, the packed word, and the initialisation sequences. -/

namespace Sys2Proof.Machine

open Sys2Proof

/-! ## The halving loop -/

/-- The loop stops at the least count of halvings that brings the ratio below 16, and has noted an odd remainder exactly
when a 1 was shifted out (R240). -/
theorem halve_stops (fuel q div : Nat) (odd : Bool) (hq : q < 2 ^ (fuel + 4)) : ∃ d,
    halve fuel q div odd = (q / 2 ^ d, div + d, odd || decide (q % 2 ^ d ≠ 0))
    ∧ q / 2 ^ d < 16 ∧ (d = 0 ∨ 16 ≤ q / 2 ^ (d - 1)) := by
  induction fuel generalizing q div odd with
  | zero => exact ⟨0, by simp [halve, Nat.mod_one], by omega, .inl rfl⟩
  | succ fuel ih =>
    by_cases hbig : 16 ≤ q
    · have hhalf : q / 2 < 2 ^ (fuel + 4) := by rw [Nat.div_lt_iff_lt_mul (by decide), ← Nat.pow_succ]; exact hq
      obtain ⟨d, hrun, hlt, hleast⟩ := ih (q / 2) (div + 1) (odd || q % 2 == 1) hhalf
      have hdiv (k : Nat) : q / 2 / 2 ^ k = q / 2 ^ (k + 1) := by rw [Nat.div_div_eq_div_mul, Nat.pow_succ']
      have hmod : q % 2 ^ (d + 1) = q % 2 + 2 * (q / 2 % 2 ^ d) := by rw [Nat.pow_succ', Nat.mod_mul]
      refine ⟨d + 1, ?_, hdiv d ▸ hlt, .inr ?_⟩
      · rw [halve, if_pos hbig, hrun, hdiv, Bool.or_assoc, Nat.add_assoc, Nat.add_comm 1 d]
        congr 3
        rw [Bool.eq_iff_iff]
        simp only [Bool.or_eq_true, beq_iff_eq, decide_eq_true_eq]
        omega
      · cases d with
        | zero => simpa using hbig
        | succ d => exact hdiv d ▸ hleast.resolve_left (Nat.succ_ne_zero d)
    · exact ⟨0, by simp [halve, hbig, Nat.mod_one], by omega, .inl rfl⟩

/-- A quotient rounded up is the quotient, and one more when something is left over. -/
theorem div_roundUp (q m : Nat) (hm : 0 < m) : (q + m - 1) / m = q / m + if q % m = 0 then 0 else 1 := by
  have hlast : (m - 1) % m = m - 1 := Nat.mod_eq_of_lt (by omega)
  rw [Nat.add_sub_assoc hm, Nat.add_div hm, Nat.div_eq_of_lt (by omega : m - 1 < m), hlast]
  congr 1
  split <;> split <;> omega

section pairs

variable {clk freq : Word} {q d r : Nat}

/-- The halving count of a pair is the least that brings the quotient below 16, and the final ratio is the quotient
halved as often and rounded up (R240). -/
theorem halvedRatio_spec (hq : q = clk.toNat / freq.toNat) (h : (r, d) = halvedRatio clk freq) :
    q / 2 ^ d < 16 ∧ (d = 0 ∨ 16 ≤ q / 2 ^ (d - 1)) ∧ r = q / 2 ^ d + if q % 2 ^ d = 0 then 0 else 1 := by
  have hfuel : q < 2 ^ (32 + 4) := by
    have := Nat.div_le_self clk.toNat freq.toNat
    have := clk.isLt
    omega
  obtain ⟨e, hrun, hlt, hleast⟩ := halve_stops 32 q 0 false hfuel
  rw [halvedRatio, ← hq, hrun, Prod.mk.injEq] at h
  obtain ⟨rfl, rfl⟩ := h
  rw [Nat.zero_add]
  exact ⟨hlt, hleast, by simp⟩

/-- The final ratio has a low period exactly when the quotient is at least 2: a halved one stays at 8 or more. -/
theorem two_le_ratio_iff (hq : q = clk.toNat / freq.toNat) (h : (r, d) = halvedRatio clk freq) : 2 ≤ r ↔ 2 ≤ q := by
  obtain ⟨-, hleast, hr⟩ := halvedRatio_spec hq h
  cases d with
  | zero => simp [hr, Nat.mod_one]
  | succ d =>
    have hbig : 16 ≤ q / 2 ^ d := hleast.resolve_left (Nat.succ_ne_zero d)
    have hhalf : q / 2 ^ (d + 1) = q / 2 ^ d / 2 := by rw [Nat.div_div_eq_div_mul, Nat.pow_succ]
    have := Nat.div_le_self q (2 ^ d)
    omega

/-- The halving count fits its field exactly when the quotient is below 2^19 (R242). -/
theorem halvings_le_iff (hq : q = clk.toNat / freq.toNat) (h : (r, d) = halvedRatio clk freq) :
    d ≤ 15 ↔ q < 2 ^ 19 := by
  obtain ⟨hlt, hleast, -⟩ := halvedRatio_spec hq h
  constructor
  · intro hd
    have hpow : 2 ^ d ≤ 2 ^ 15 := Nat.pow_le_pow_right (by decide) hd
    have := (Nat.div_lt_iff_lt_mul (Nat.two_pow_pos d)).1 hlt
    omega
  · intro hsmall
    by_contra hd
    have hge : 16 ≤ q / 2 ^ (d - 1) := hleast.resolve_left (by omega)
    have hmono : q / 2 ^ (d - 1) ≤ q / 2 ^ 15 :=
      Nat.div_le_div_left (Nat.pow_le_pow_right (by decide) (by omega)) (by decide)
    omega

/-- The model's test of a pair, on its final ratio and halving count (R242). -/
theorem validPair_iff_ratio (h : (r, d) = halvedRatio clk freq) :
    validPair clk freq = true ↔ 0 < freq.toNat ∧ 2 ≤ r ∧ d ≤ 15 := by
  have hne : freq ≠ 0#32 ↔ 0 < freq.toNat := by simp [BitVec.toNat_eq, Nat.pos_iff_ne_zero]
  rw [validPair, ← h, Bool.and_eq_true, Bool.and_eq_true, decide_eq_true_iff, decide_eq_true_iff, bne_iff_ne, hne,
    and_assoc]

/-- A pair is valid exactly when its clock is at least twice its frequency and the quotient below 2^19 (R242). -/
theorem validPair_iff (hq : q = clk.toNat / freq.toNat) (h : (r, d) = halvedRatio clk freq) :
    validPair clk freq = true ↔ 0 < freq.toNat ∧ 2 * freq.toNat ≤ clk.toNat ∧ q < 2 ^ 19 := by
  rw [validPair_iff_ratio h, two_le_ratio_iff hq h, halvings_le_iff hq h]
  refine and_congr_right fun hpos => and_congr_left fun _ => ?_
  rw [hq, Nat.le_div_iff_mul_le hpos]

/-- The final ratio and the halving count of a valid pair are in range (R242, R243). -/
theorem validPair_bounds (hv : validPair clk freq = true) (h : (r, d) = halvedRatio clk freq) :
    2 ≤ r ∧ r ≤ 16 ∧ d < 16 := by
  obtain ⟨hlt, -, hr⟩ := halvedRatio_spec rfl h
  obtain ⟨-, hlow, hdiv⟩ := (validPair_iff_ratio h).1 hv
  exact ⟨hlow, by split at hr <;> omega, by omega⟩

end pairs

/-- The two periods split a ratio of 2 to 16, less 2, as evenly as they can (R240, R246). -/
theorem periods_split {r : Nat} (h2 : 2 ≤ r) (h16 : r ≤ 16) :
    (lowPeriod r : Int) = (r : Int) / 2 - 1 ∧ (highPeriod r : Int) = (r : Int) - lowPeriod r - 2
    ∧ lowPeriod r + highPeriod r + 2 = r ∧ (highPeriod r = lowPeriod r ∨ highPeriod r = lowPeriod r + 1)
    ∧ lowPeriod r < 16 ∧ highPeriod r < 16 := by
  unfold highPeriod lowPeriod
  omega

/-! ## The packed word -/

/-- The three fields of a timing word, and what it has outside them (R243). -/
def TimingShows (w : Word) (high low div : BitVec 4) (rest : Word) : Prop :=
  w.extractLsb' 16 4 = high ∧ w.extractLsb' 12 4 = low ∧ w.extractLsb' 0 4 = div ∧ w &&& 0xFFF00FF0#32 = rest

theorem TimingShows.or {w w' : Word} {h h' l l' d d' : BitVec 4} {m m' : Word} (hw : TimingShows w h l d m)
    (hw' : TimingShows w' h' l' d' m') : TimingShows (w ||| w') (h ||| h') (l ||| l') (d ||| d') (m ||| m') := by
  obtain ⟨rfl, rfl, rfl, rfl⟩ := hw
  obtain ⟨rfl, rfl, rfl, rfl⟩ := hw'
  exact ⟨BitVec.extractLsb'_or, BitVec.extractLsb'_or, BitVec.extractLsb'_or, BitVec.and_or_distrib_right⟩

/-- A base word with zeros in the three fields shows nothing there (R243). -/
theorem base_shows {base : Word} (hb : base &&& 0x000FF00F#32 = 0#32) : TimingShows base 0#4 0#4 0#4 base := by
  have hmask : base &&& 0xFFF00FF0#32 = base := by
    have hsplit : base &&& (0x000FF00F#32 ||| 0xFFF00FF0#32) = base := BitVec.and_allOnes
    rwa [BitVec.and_or_distrib_left, hb, BitVec.zero_or] at hsplit
  have hfield {k : Nat} (hk : (0xFFF00FF0#32).extractLsb' k 4 = 0#4) : base.extractLsb' k 4 = 0#4 := by
    rw [← hmask, BitVec.extractLsb'_and, hk, BitVec.and_zero]
  exact ⟨hfield (by decide), hfield (by decide), hfield (by decide), hmask⟩

theorem high_shows (j : Fin 16) : TimingShows (BitVec.ofNat 32 j <<< 16) (BitVec.ofNat 4 j) 0#4 0#4 0#32 := by
  revert j; unfold TimingShows; decide

theorem low_shows (j : Fin 16) : TimingShows (BitVec.ofNat 32 j <<< 12) 0#4 (BitVec.ofNat 4 j) 0#4 0#32 := by
  revert j; unfold TimingShows; decide

theorem div_shows (j : Fin 16) : TimingShows (BitVec.ofNat 32 j) 0#4 0#4 (BitVec.ofNat 4 j) 0#32 := by
  revert j; unfold TimingShows; decide

/-- Packed periods and a halving count that fit their fields are read back from them (R243). -/
theorem packTiming_shows {base : Word} {div low high : Nat} (hb : base &&& 0x000FF00F#32 = 0#32) (hd : div < 16)
    (hl : low < 16) (hh : high < 16) :
    (packTiming base div low high).extractLsb' 0 4 = BitVec.ofNat 4 div
    ∧ (packTiming base div low high).extractLsb' 12 4 = BitVec.ofNat 4 low
    ∧ (packTiming base div low high).extractLsb' 16 4 = BitVec.ofNat 4 high
    ∧ packTiming base div low high &&& 0xFFF00FF0#32 = base := by
  obtain ⟨hhigh, hlow, hdiv, hrest⟩ :=
    (((base_shows hb).or (high_shows ⟨high, hh⟩)).or (low_shows ⟨low, hl⟩)).or (div_shows ⟨div, hd⟩)
  simp only [BitVec.zero_or, BitVec.or_zero] at hhigh hlow hdiv hrest
  exact ⟨hdiv, hlow, hhigh, hrest⟩

/-- The calculator's word of a valid pair is its packed periods (R240). -/
theorem calcWord_valid {base clk freq : Word} {r d : Nat} (hv : validPair clk freq = true)
    (h : (r, d) = halvedRatio clk freq) : calcWord base clk freq = packTiming base d (lowPeriod r) (highPeriod r) := by
  rw [calcWord, if_pos hv, ← h]

theorem exec_timingWord {s : State} {i : InstId} {x : Inst} (h : s.Has i x) :
    exec (.timingWord i) s = .next { s with ret := .word (timingWordOf s.cfg (s.cfg.inst i.toNat)) } := by
  change execTimingWord i s = _
  rw [execTimingWord, stepOn_has _ h]
  rfl

/-- Settles O24: the loop by `halvedRatio_spec`, the periods by `periods_split`, the word by `packTiming_shows`. -/
theorem timingWordIsOverrideOrPackedPeriods : Obligations.TimingWordIsOverrideOrPackedPeriods := by
  intro s i x clk freq hx
  refine ⟨fun r d hv h => ?_, fun q d r hq h => ?_, calcWord s.cfg.ac1Base clk freq,
    timingWordOf s.cfg (s.cfg.inst i.toNat), rfl, exec_timingWord hx, fun r d hv h hb => ?_, fun e he => ?_,
    fun he hclk hfreq => ?_⟩
  · obtain ⟨h2, h16, hd⟩ := validPair_bounds hv h
    obtain ⟨hlow, hhigh, hsum, hnear, hl, hh⟩ := periods_split h2 h16
    exact ⟨hlow, hhigh, hsum, hnear, hl, hh, hd⟩
  · obtain ⟨hlt, hleast, hr⟩ := halvedRatio_spec hq h
    exact ⟨hlt, hleast, hr.trans (div_roundUp q _ (Nat.two_pow_pos d)).symm, validPair_iff hq h⟩
  · obtain ⟨h2, h16, hd⟩ := validPair_bounds hv h
    obtain ⟨-, -, -, -, hl, hh⟩ := periods_split h2 h16
    obtain ⟨fdiv, flow, fhigh, frest⟩ := packTiming_shows hb hd hl hh
    rw [calcWord_valid hv h, fdiv, flow, fhigh]
    exact ⟨Nat.mod_eq_of_lt hd, Nat.mod_eq_of_lt hl, Nat.mod_eq_of_lt hh, frest⟩
  · rw [timingWordOf, he]
  · rw [timingWordOf, he, hclk, hfreq]

/-! ## The initialisation sequences -/

/-- The instance after REG_INIT: FUN_CTRL 0 with the enabled sides of the core reset, the enables again, then
TIMING_INIT (R247). -/
def Inst.regInit (x : Inst) (c : Config) (ic : InstConfig) (a b d : Bool) : Inst :=
  { x with
    core := x.core.afterFun x.regs.funCtrl 0#32 a b d
    regs := { x.regs with funCtrl := if x.slave.slaveEnabled then 3#32 else 1#32
                          acTiming1 := timingWordOf c ic, acTiming2 := c.ac2Value
                          intrSts := 0#32, intrCtrl := c.intrMask }
    outs := x.notedAll [(.funCtrl, 0#32), (.funCtrl, if x.slave.slaveEnabled then 3#32 else 1#32),
                        (.acTiming1, timingWordOf c ic), (.acTiming2, c.ac2Value), (.intrSts, 0xFFFFFFFF#32),
                        (.intrCtrl, c.intrMask)] }

theorem enableWord_eq (e : Bool) : enableWord e = if e then 3#32 else 1#32 := by cases e <;> rfl

/-- REG_INIT (R247): only the write of 0 can turn a side off, so only it resets the core. -/
theorem regInit_put (s : State) (k : Nat) (x : Inst) (o : Option (Nat × Side)) (n : Nat) (r : Ret)
    (hk : k < s.insts.length) : ∃ a b d j, regInit k (s.put k x o n r) =
      .ok ((), s.put k (x.regInit s.cfg (s.cfg.inst k) a b d) o j r) := by
  obtain ⟨a, b, d, hcore⟩ := wrFun_after x.core x.regs.funCtrl 0#32 n
  obtain ⟨hkeep, hdraws⟩ := wrFun_keep (x.core.wrFun x.regs.funCtrl 0#32 n) 0#32 (enableWord x.slave.slaveEnabled)
    (funDraws x.regs.funCtrl 0#32 n) (by simp) (by simp)
  rw [enableWord_eq] at hkeep hdraws
  refine ⟨a, b, d, funDraws x.regs.funCtrl 0#32 n, ?_⟩
  simp only [regInit, op_bind, regWrite_funCtrl_put _ _ _ _ _ _ _ hk, getInst_put _ _ _ _ _ _ hk,
    timingInit_put _ _ _ _ _ _ hk, enableWord_eq, hkeep, hdraws]
  rw [hcore]
  simp [Inst.regInit, Inst.timed, Inst.noted, Inst.notedAll]

section runs

variable {s : State} {i : InstId} {x : Inst}

/-- A part of DEV_INIT's test of an idle instance fails (R245). -/
def Inst.Engaged (x : Inst) : Prop :=
  x.master.waiting ≠ .none ∨ x.master.mstate ≠ .idle ∨ x.recov.rstate ≠ .idle ∨ x.thread.pc ≠ .idle

/-- TIMING_INIT without a BUS_RESET that has come to it (R244). -/
theorem exec_timingInit (h : s.Has i x) (hpc : ∀ a, x.thread.pc ≠ .resetTiming a) :
    exec (.timingInit i) s = .next (s.put i.toNat (x.timed s.cfg (s.cfg.inst i.toNat)) s.poolOwner s.draws .none) := by
  have hk := has_lt s x i h
  change execTimingInit i s = _
  refine step_run s x _ _ _ _ h ?_
  -- `hpc` rules out the match's first arm, BUS_RESET's next write.
  simp only [op_bind, getInst_put _ _ _ _ _ _ hk, noRet, timingInit_put _ _ _ _ _ _ hk, op_pure]

/-- DEV_INIT of a pair it cannot time answers E_INVAL before it looks at the instance (R245). -/
theorem exec_devInit_inval (h : s.Has i x) (ho : overrideWord s.cfg (s.cfg.inst i.toNat) = none)
    (hv : validPair (s.cfg.inst i.toNat).clkIn (s.cfg.inst i.toNat).busFreq = false) :
    exec (.devInit i) s = .next { s with ret := .word (s.cfg.code .inval) } := by
  have huntimed : ((overrideWord s.cfg (s.cfg.inst i.toNat)).isNone
      && !validPair (s.cfg.inst i.toNat).clkIn (s.cfg.inst i.toNat).busFreq) = true := by rw [ho, hv]; rfl
  rw [← put_same s x _ i h]
  refine call_run s x _ _ _ _ h ?_
  simp only [devInit, op_bind, op_getCfg, op_getInstCfg, put_cfg]
  rw [op_if_pos _ huntimed, op_retCode, put_cfg]

/-- DEV_INIT of a pair it can time: lock M first, then the test of an idle instance, then REG_INIT (R245, R109). -/
theorem devInit_put (n : Nat) (o : Option (Nat × Side)) (r : Ret)
    (ht : overrideWord s.cfg (s.cfg.inst i.toNat) ≠ none ∨
      validPair (s.cfg.inst i.toNat).clkIn (s.cfg.inst i.toNat).busFreq = true) (hk : i.toNat < s.insts.length) :
    (x.lockM ≠ none → devInit i.toNat (s.put i.toNat x o n r) = .error (.refuse .lockHeld))
    ∧ (x.lockM = none → x.Engaged →
      devInit i.toNat (s.put i.toNat x o n r) = .ok (.word (s.cfg.code .busy), s.put i.toNat x o n r))
    ∧ (x.lockM = none → ¬ x.Engaged → devInit i.toNat (s.put i.toNat x o n r) =
      (do regInit i.toNat; retCode .ok : Op Ret) (s.put i.toNat x o n r)) := by
  have htimed : ((overrideWord s.cfg (s.cfg.inst i.toNat)).isNone
      && !validPair (s.cfg.inst i.toNat).clkIn (s.cfg.inst i.toNat).busFreq) = false := by
    rcases ht with ho | hv
    · rw [Option.isNone_eq_false_iff.2 (Option.isSome_iff_ne_none.2 ho), Bool.false_and]
    · rw [hv, Bool.not_true, Bool.and_false]
  have hbusy : (x.master.waiting != .none || x.master.mstate != .idle || x.recov.rstate != .idle
      || x.thread.pc != .idle) = true ↔ x.Engaged := by
    simp only [Inst.Engaged, Bool.or_eq_true, bne_iff_ne, or_assoc]
  simp only [devInit, op_bind, op_getCfg, op_getInstCfg, put_cfg]
  rw [op_if_neg _ (Bool.eq_false_iff.1 htimed), op_bind]
  refine ⟨fun hl => ?_, fun hl he => ?_, fun hl he => ?_⟩
  · rw [needM_put_held _ _ _ _ _ _ hk hl]
  · rw [needM_put _ _ _ _ _ _ hk hl]
    simp only [op_bind, getInst_put _ _ _ _ _ _ hk]
    rw [op_if_pos _ (hbusy.2 he), op_retCode, put_cfg]
  · rw [needM_put _ _ _ _ _ _ hk hl]
    simp only [op_bind, getInst_put _ _ _ _ _ _ hk]
    rw [op_if_neg _ (mt hbusy.1 he), op_bind]

end runs

/-- Settles O25: each sequence by what its operation leaves (`timingInit_put`, `regInit_put`, `devInit_put`). -/
theorem initialisationWritesInOrder : Obligations.InitialisationWritesInOrder := by
  intro s i x h
  have hk := has_lt s x i h
  obtain ⟨a, b, d, n, hput⟩ := regInit_put s i.toNat x s.poolOwner s.draws s.ret hk
  have hreg := outcome_run regInit h hput
  refine ⟨exec_timingInit h, ⟨a, b, d, n, hreg⟩, exec_devInit_inval h, fun ht => ?_⟩
  obtain ⟨hheld, hbusy, hidle⟩ := devInit_put (x := x) s.draws s.poolOwner s.ret ht hk
  refine ⟨fun hl => ?_, fun hl he => ?_, fun hl hw hm hr hp => ⟨_, hreg, ?_⟩⟩
  · exact (hostCall_put s x i devInit h).trans (by rw [runOp, hheld hl])
  · exact (call_run s x _ _ _ _ h (hbusy hl he)).trans (by rw [put_same s x _ i h])
  · have hn : ¬ x.Engaged := by rintro (e | e | e | e) <;> contradiction
    exact call_run s x _ _ _ _ h ((hidle hl hn).trans (by rw [op_bind, hput]; rfl))

end Sys2Proof.Machine
end

section
/-! PROOFS. The DMA length codecs and what the extractions read through them. -/

namespace Sys2Proof.Machine

open Sys2Proof

/-! ## The law of the two default codecs (R283) -/

section codecs

variable {n k j : Nat}

/-- A count of bytes still to move, less one, as the core's DMA_INC register holds it: in two's complement, -1 when none
is left (R283). -/
theorem toInt_remainingLessOne (hn : n ≤ 2147483647) (hk : k ≤ n) :
    (dmaReadback .remainingLessOne n k).toInt = (n : Int) - 1 - k :=
  BitVec.toInt_ofInt_eq_self (by decide) (by omega) (by omega)

theorem toNat_remaining (hn : n ≤ 2147483647) : (dmaReadback .remaining n k).toNat = n - k := by
  rw [dmaReadback, BitVec.toNat_ofNat, Nat.mod_eq_of_lt (by omega)]

/-- What the engine writes is what a core that has moved nothing yet leaves (R283). -/
theorem dmaReadback_zero (h1 : 1 ≤ n) :
    dmaReadback .remaining n 0 = dmaEncode .remaining n
    ∧ dmaReadback .remainingLessOne n 0 = dmaEncode .remainingLessOne n := by
  refine ⟨rfl, ?_⟩
  have hpred : (n : Int) - 1 - (0 : Nat) = ((n - 1 : Nat) : Int) := by omega
  rw [dmaReadback, hpred, BitVec.ofInt_natCast]
  rfl

/-- The law of DMA_DEC's codec: the register holds the bytes still to move, as an unsigned number. -/
theorem remaining_law (h1 : 1 ≤ n) (hn : n ≤ 2147483647) (hk : k ≤ n) (hj : j ≤ k) :
    dmaCount .remaining (dmaEncode .remaining n) = n
    ∧ dmaDecode .remaining n (dmaReadback .remaining n k) = some k
    ∧ dmaBetween false (dmaEncode .remaining n) (dmaReadback .remaining n k) (dmaReadback .remaining n j)
    ∧ ∀ r : Word, dmaDecode .remaining n r = none ↔ n < r.toNat := by
  refine ⟨?_, ?_, ?_, fun r => ?_⟩
  · rw [← (dmaReadback_zero h1).1, dmaCount, toNat_remaining hn, Nat.sub_zero]
  · rw [dmaDecode, toNat_remaining hn, if_pos (Nat.sub_le n k), Nat.sub_sub_self hk]
  · rw [← (dmaReadback_zero h1).1, dmaBetween, if_neg Bool.false_ne_true]
    simp only [BitVec.le_def, toNat_remaining hn]
    omega
  · simp [dmaDecode]

/-- The law of DMA_INC's codec: the register holds one less than the bytes still to move, as a signed number. -/
theorem remainingLessOne_law (h1 : 1 ≤ n) (hn : n ≤ 2147483647) (hk : k ≤ n) (hj : j ≤ k) :
    dmaCount .remainingLessOne (dmaEncode .remainingLessOne n) = n
    ∧ dmaDecode .remainingLessOne n (dmaReadback .remainingLessOne n k) = some k
    ∧ dmaBetween true (dmaEncode .remainingLessOne n) (dmaReadback .remainingLessOne n k)
        (dmaReadback .remainingLessOne n j)
    ∧ ∀ r : Word, dmaDecode .remainingLessOne n r = none ↔ r.toInt < -1 ∨ (n : Int) - 1 < r.toInt := by
  refine ⟨?_, ?_, ?_, fun r => ?_⟩
  · rw [dmaCount, dmaEncode, BitVec.toNat_ofNat, Nat.mod_eq_of_lt (by omega), Nat.sub_add_cancel h1]
  · rw [dmaDecode, toInt_remainingLessOne hn hk, if_pos (by omega)]
    congr 1
    omega
  · rw [← (dmaReadback_zero h1).2, dmaBetween, if_pos rfl, toInt_remainingLessOne hn hk,
      toInt_remainingLessOne hn (Nat.zero_le n), toInt_remainingLessOne hn (Nat.le_trans hj hk)]
    omega
  · rw [dmaDecode, ite_eq_right_iff]
    simp only [reduceCtorEq, imp_false]
    omega

end codecs

/-- Settles O26: the law of each codec. -/
theorem dmaLengthCodecsAgree : Obligations.DmaLengthCodecsAgree := by
  refine ⟨rfl, rfl, fun inc n k j h1 hn hk hj => ?_⟩
  cases inc with
  | false => exact ⟨rfl, remaining_law h1 hn hk hj⟩
  | true => exact ⟨rfl, remainingLessOne_law h1 hn hk hj⟩

/-! ## The extractions (R271 to R274) -/

section extractions

variable {s t : State} {i : InstId} {x : Inst} {k : Option Nat}

/-- The step of EXT in mode m: lock M, then the count for the chunk's xlen. -/
def extStep (i : InstId) (m : Mode) (s : State) : Host.Outcome State Fault Refusal :=
  stepOn i (fun i => do
    needM i
    let x ← getInst i
    let k ← extract i m x.master.xlen.toNat
    pure (retCount k)) s

theorem exec_ext (s : State) (i : InstId) :
    exec (.extByte i) s = extStep i .byte s ∧ exec (.extBuf i) s = extStep i .buf s
    ∧ exec (.extDmaDec i) s = extStep i .dmaDec s ∧ exec (.extDmaInc i) s = extStep i .dmaInc s :=
  ⟨rfl, rfl, rfl, rfl⟩

/-- An extraction under a free lock M answers its count. -/
theorem extStep_run {m : Mode} (h : s.Has i x) (hl : x.lockM = none)
    (he : extract i.toNat m x.master.xlen.toNat s = .ok (k, t)) :
    extStep i m s = .next { t with ret := retCount k } := by
  rw [extStep, stepOn_has _ h]
  exact runOp_ok s _ _ t (by simp only [op_bind, op_needM s _ x h hl, op_getInst s _ x h, he, op_pure])

/-- EXT while DMA_LEN is not moving, or in a mode that does not read it, answers what the registers show. -/
theorem extStep_next (m : Mode) (h : s.Has i x) (hl : x.lockM = none)
    (hd : m = .byte ∨ m = .buf ∨ x.dmaInFlight = none) :
    extStep i m s = .next { s with ret := retCount (x.extracted s.cfg m x.master.xlen.toNat) } := by
  refine extStep_run h hl ?_
  rcases hd with rfl | rfl | hd
  · rfl
  · simp only [extract, op_bind, op_getCfg, op_regRead s _ .bufCtrl x h (.inl (by decide)), op_pure]
    rfl
  · have hput := extract_put s i.toNat x s.poolOwner s.draws s.ret m x.master.xlen.toNat (has_lt s x i h) hd
    rwa [put_self s i.toNat x h] at hput

/-- EXT of a DMA mode while a command moves bytes decodes a value between the programmed and the final one (R182). -/
theorem extStep_flight (inc : Bool) {f : InFlight} (h : s.Has i x) (hl : x.lockM = none)
    (hf : x.dmaInFlight = some f) : ∃ (m : Nat) (w : Word),
    extStep i (if inc then .dmaInc else .dmaDec) s = .next { s with
      ret := retCount (dmaDecode (s.cfg.codec inc) x.master.xlen.toNat w), draws := m }
    ∧ dmaBetween (coreInc (s.cfg.inst i.toNat) (cmdIsMaster f.cmd)) f.prog (s.dmaFinal i.toNat x f) w := by
  refine ⟨s.draws + 1, _, ?_, dmaPick_between _ _ _ (Config.freeNat s.draws)⟩
  refine extStep_run (t := { s with draws := s.draws + 1 }) h hl ?_
  have hread := op_regRead_flight s _ x f h hf
  cases inc with
  | false =>
    simp only [extract, Bool.false_eq_true, if_false, op_bind, op_getCfg, hread]
    rfl
  | true =>
    simp only [extract, if_true, op_bind, op_getCfg, hread]
    rfl

end extractions

theorem retCount_remaining (n : Nat) (r : Word) : retCount (dmaDecode .remaining n r) =
    if r.toNat ≤ n then .word (BitVec.ofNat 32 (n - r.toNat)) else .bad := by
  rw [dmaDecode, apply_ite retCount]
  rfl

theorem retCount_remainingLessOne (n : Nat) (r : Word) : retCount (dmaDecode .remainingLessOne n r) =
    if -1 ≤ r.toInt ∧ r.toInt ≤ (n : Int) - 1 then .word (BitVec.ofInt 32 ((n : Int) - 1 - r.toInt)) else .bad := by
  rw [dmaDecode, apply_ite retCount]
  refine if_ctx_congr Iff.rfl (fun hin => ?_) fun _ => rfl
  have hnat : (((n : Int) - 1 - r.toInt).toNat : Int) = (n : Int) - 1 - r.toInt := Int.toNat_of_nonneg (by omega)
  rw [retCount, ← BitVec.ofInt_natCast, hnat]

/-- Settles O29: the extractions answer `Inst.extracted`, or what DMA_LEN picks while it moves. -/
theorem extractionsReadTheirRegister : Obligations.ExtractionsReadTheirRegister := by
  intro s i x h hl r n count
  have hcount : count = fun c r => retCount (dmaDecode c n r) := by
    funext c r
    simp only [count]
    cases dmaDecode c n r <;> rfl
  obtain ⟨hbyte, hbuf, hdec, hinc⟩ := exec_ext s i
  rw [hcount]
  refine ⟨?_, ?_, fun hd => ⟨?_, ?_⟩, retCount_remaining n r, retCount_remainingLessOne n r, fun f hf q hq => ?_⟩
  · rw [hbyte, extStep_next .byte h hl (.inl rfl)]
    rfl
  · rw [hbuf, extStep_next .buf h hl (.inr (.inl rfl)), ← BitVec.ofNat_toNat]
    rfl
  · rw [hdec, extStep_next .dmaDec h hl (.inr (.inr hd))]
    rfl
  · rw [hinc, extStep_next .dmaInc h hl (.inr (.inr hd))]
    rfl
  · rcases List.mem_pair.1 hq with rfl | rfl
    · exact hdec ▸ extStep_flight false h hl hf
    · exact hinc ▸ extStep_flight true h hl hf

end Sys2Proof.Machine
end

section
/-! PROOFS. The plan of a chunk (R261 to R263, R268 to R270, R276). -/

namespace Sys2Proof.Machine

open Sys2Proof

section plan

variable {c : Config} {m : Msg} {p : Master}

/-- A read's first chunk is its address alone (R268). -/
theorem planChunk_addressing (h : (m.rd && (!p.started && !m.noStart)) = true) : planChunk c m p =
    { addr := true, payload := 0, addressing := true, cmd := .startTx, stop := false } := if_pos h

/-- The row of R263: the command of a chunk that is no addressing chunk. -/
def planCmd (rd first stop fin : Bool) : Cmd :=
  match rd, first, stop, fin with
  | false, true, false, _ => .startTx
  | false, true, true, _ => .startTxStop
  | false, false, false, _ => .tx
  | false, false, true, _ => .txStop
  | true, _, _, false => .rx
  | true, _, false, true => .rxLast
  | true, _, true, true => .rxLastStop

theorem planCmd_eq : ∀ rd first stop fin : Bool, planCmd rd first stop fin =
    if rd then if !fin then .rx else if stop then .rxLastStop else .rxLast
    else if first then if stop then .startTxStop else .startTx
    else if stop then .txStop else .tx := by decide

/-- Any other chunk: its address byte opens a message that needs START (R262, R269), its payload is the length byte of a
block read (R276) or what is left and fits (R261), STOP goes with the final chunk of the last message (R270). -/
theorem planChunk_data (h : (m.rd && (!p.started && !m.noStart)) = false) :
    let first := !p.started && !m.noStart
    let lenByte := m.rd && m.recvLen && !p.lenExt
    let pay := if lenByte then 1 else min (p.len.toNat - p.cnt.toNat) (maxChunk c p.mode - if first then 1 else 0)
    let fin := !lenByte && decide (p.cnt.toNat + pay = p.len.toNat)
    let stop := fin && p.last && !(!m.rd && c.stopDeferred.contains p.mode)
    planChunk c m p = { addr := first, payload := pay, addressing := false, cmd := planCmd m.rd first stop fin
                        stop := stop } := by
  intro first lenByte pay fin stop
  rw [planCmd_eq]
  exact if_neg (by rw [h]; exact Bool.false_ne_true)

/-- A payload bounded by what is left does not pass the message's end (R261). -/
theorem payload_le_left {lenByte first : Bool} {left max : Nat} (h : lenByte = false) :
    (if lenByte then 1 else min left (max - if first then 1 else 0)) ≤ left := by
  rw [h]
  exact Nat.min_le_left _ _

/-- A payload bounded by the mode's chunk less the address byte fits it with that byte; a length byte comes without
(R261, R276). -/
theorem payload_fits {lenByte first : Bool} {left max : Nat} (h : lenByte = true → first = false) (hmax : 1 ≤ max) :
    (if lenByte then 1 else min left (max - if first then 1 else 0)) + (if first then 1 else 0) ≤ max := by
  cases lenByte with
  | true =>
    rw [h rfl]
    exact hmax
  | false =>
    have hfirst : (if first then 1 else 0) ≤ max := by split <;> omega
    exact Nat.le_trans (Nat.add_le_add_right (Nat.min_le_right _ _) _) (Nat.le_of_eq (Nat.sub_add_cancel hfirst))

end plan

/-- Settles O27: the plan by `planChunk_addressing` and `planChunk_data`, its bounds by those of the payload. -/
theorem chunkPlanFollowsTheTable : Obligations.ChunkPlanFollowsTheTable := by
  intro c m p q hq hcnt first lenByte fin stop
  refine ⟨fun hrd hfirst => hq.trans (planChunk_addressing (Bool.and_eq_true_iff.2 ⟨hrd, hfirst⟩)), fun hdata => ?_⟩
  have hlenByte : lenByte = true → first = false := fun h => by
    obtain ⟨hread, -⟩ := Bool.and_eq_true_iff.1 h
    rwa [(Bool.and_eq_true_iff.1 hread).1, Bool.true_and] at hdata
  obtain rfl := hq.trans (planChunk_data hdata)
  exact ⟨rfl, rfl, rfl, rfl, fun h => Nat.add_le_of_le_sub' hcnt (payload_le_left h), payload_fits hlenByte, rfl⟩

end Sys2Proof.Machine
end

section
/-! PROOFS. The operations that program a chunk: the four ARMs, and ARM_NEXT (R260 to R268). -/

namespace Sys2Proof.Machine

open Sys2Proof

section arm

variable {s t : State} {i : InstId} {x y : Inst} {o : Option (Nat × Side)} {j : Nat}

/-- The instance with a chunk of n bytes in mode m recorded (R64). -/
def Inst.chunk (y : Inst) (n : Nat) (m : Mode) : Inst :=
  { y with master := { y.master with xlen := BitVec.ofNat 32 n, xmode := m } }

/-- An ARM step under a free lock M: what it programs, then the record of the chunk (R64, R109). -/
theorem arm_run {prog : Nat → Op Unit} (n : Nat) (m : Mode) (h : s.Has i x) (hl : x.lockM = none)
    (hp : prog i.toNat (s.put i.toNat x s.poolOwner s.draws s.ret) = .ok ((), t.put i.toNat y o j s.ret))
    (ht : i.toNat < t.insts.length) : stepOn i (fun i => noRet (do needM i; prog i; setChunk i n m)) s =
      .next (t.put i.toNat (y.chunk n m) o j .none) := by
  refine outcome_run (fun i => do needM i; prog i; setChunk i n m) h ?_
  simp only [op_bind, needM_put _ _ _ _ _ _ (has_lt s x i h) hl, hp, setChunk, op_modMaster,
    updInst_put _ _ _ _ _ _ _ ht]
  rfl

theorem exec_armByte (h : s.Has i x) (hl : x.lockM = none) {a : Word} {d : Option Byte}
    (hp : progByte i.toNat a d (s.put i.toNat x s.poolOwner s.draws s.ret) = .ok ((), t.put i.toNat y o j s.ret))
    (ht : i.toNat < t.insts.length) : exec (.armByte i a d) s = .next (t.put i.toNat (y.chunk 1 .byte) o j .none) :=
  arm_run (prog := fun i => progByte i a d) 1 .byte h hl hp ht

theorem exec_armBuf (h : s.Has i x) (hl : x.lockM = none) {a : Word} {d : ArmData}
    (hp : progBuf i.toNat (armSide a) a d (s.put i.toNat x s.poolOwner s.draws s.ret) =
      .ok ((), t.put i.toNat y o j s.ret))
    (ht : i.toNat < t.insts.length) : exec (.armBuf i a d) s =
      .next (t.put i.toNat (y.chunk (armLen d) .buf) o j .none) :=
  arm_run (prog := fun i => progBuf i (armSide a) a d) (armLen d) .buf h hl hp ht

theorem exec_armDma (inc : Bool) (h : s.Has i x) (hl : x.lockM = none) {a : Word} {d : ArmData}
    (hp : progDma i.toNat inc a d (s.put i.toNat x s.poolOwner s.draws s.ret) = .ok ((), t.put i.toNat y o j s.ret))
    (ht : i.toNat < t.insts.length) : exec (if inc then .armDmaInc i a d else .armDmaDec i a d) s =
      .next (t.put i.toNat (y.chunk (armLen d) (if inc then .dmaInc else .dmaDec)) o j .none) := by
  cases inc with
  | false => exact arm_run (prog := fun i => progDma i false a d) (armLen d) .dmaDec h hl hp ht
  | true => exact arm_run (prog := fun i => progDma i true a d) (armLen d) .dmaInc h hl hp ht

/-- ARM.BUF of a side without a loan of the page is refused (R106; log entry 26). -/
theorem exec_armBuf_notOwned (h : s.Has i x) (hl : x.lockM = none) {a : Word} (d : ArmData)
    (hloan : x.loan (armSide a) = false) : exec (.armBuf i a d) s = .refused .poolNotOwned := by
  refine outcome_refused (fun i => do needM i; progBuf i (armSide a) a d; setChunk i (armLen d) .buf) h ?_
  have hk := has_lt s x i h
  simp only [op_bind, needM_put _ _ _ _ _ _ hk hl, progBuf, op_needLoan_none _ _ _ x (put_get s _ x _ _ _ hk) hloan]

/-- ARM.BUF is the operation of the side whose command it carries (R265). -/
theorem armSide_action {c : Cmd} (h : (cmdIsTx c || cmdIsRx c) = true) :
    armSide c.action = if c = .sTx ∨ c = .sRx then .slave else .master := by
  revert h
  cases c <;> decide

theorem armLen_rx {n : Nat} (h : n < 4294967296) : armLen (.rx (BitVec.ofNat 32 n)) = n := by
  rw [armLen, BitVec.toNat_ofNat, Nat.mod_eq_of_lt h]

end arm

/-- Settles O28: each operation by the law of what it programs, then `arm_run`. -/
theorem armOperationsProgramTheChunk : Obligations.ArmOperationsProgramTheChunk := by
  intro s i x c b bs n w k h hl hf lent
  have hk := has_lt s x i h
  have hcode := codeAt_side c s.draws
  have hlent {b : Bool} (hdata : (cmdIsTx c || cmdIsRx c) = true) (hb : lent = b) : x.loan (armSide c.action) = b := by
    rw [armSide_action hdata]
    exact hb
  refine ⟨fun htx => ⟨codeAt c s.draws, sendDraws x c s.draws, hcode, ?_⟩,
    fun hrx hns => ⟨codeAt c s.draws, sendDraws x c s.draws, hcode, ?_⟩, ?_,
    fun h1 hpage hfield hown => ⟨fun htx hlen => ?_,
      fun hrx => ⟨codeAt c s.draws, sendDraws x c s.draws, hcode, ?_⟩⟩,
    fun d hdata hnone => exec_armBuf_notOwned h hl d (hlent hdata hnone),
    fun inc hw hw32 h1 hwin h32 hend hk1 hkwin => ?_⟩
  · exact exec_armByte h hl (progByteTx_put s i x _ _ _ c b hk htx hf) hk
  · exact exec_armByte h hl (progByteRx_put s i x _ _ _ c hk hrx hns hf) hk
  · exact exec_armByte h hl (engineNop_put s i.toNat x _ _ _ hk) hk
  · subst hlen
    have hside := hlent (by rw [htx, Bool.true_or]) hown
    exact ⟨_, _, _, hcode, writeN_holds _ _ _, writeN_outside _ _ _,
      exec_armBuf h hl (progBufTx_put s i x _ _ _ c _ bs hk htx hf ⟨hside, h1, hpage, hfield⟩) hk⟩
  · have hside := hlent (by rw [hrx, Bool.or_true]) hown
    have hrun := exec_armBuf h hl (progBufRx_put s i x _ _ _ c _ n hk hrx hf ⟨hside, h1, hpage, hfield⟩) hk
    rwa [armLen_rx (by omega)] at hrun
  · intro v m hcount
    have hchunk : DmaChunk s i c inc w n k := ⟨h1, hwin, h32, hend, hw32, hw, hcount.symm, hk1, hkwin⟩
    refine ⟨fun htx hlen => ?_, fun hrx => ⟨codeAt c s.draws, sendDraws x c s.draws, hcode, ?_⟩⟩
    · subst hlen
      exact ⟨_, writeN_holds _ _ _, writeN_outside _ _ _, fun e he => ⟨_, _, hcode,
        exec_armDma inc h hl (progDmaTx_put s i x _ _ _ c inc w k bs e hk htx hf hchunk he) hk⟩⟩
    · have hrun := exec_armDma inc h hl (progDmaRx_put s i x _ _ _ c inc w n k hk hrx hf hchunk) hk
      rwa [armLen_rx h32] at hrun

/-- Settles O31: what `armNext_put` leaves, by `armed_put` a state with the instance put. -/
theorem armNextProgramsThePlannedChunk : Obligations.ArmNextProgramsThePlannedChunk := by
  intro s i x d m q w pay h hl hd hm hc
  have hk := has_lt s x i h
  obtain ⟨code, j, hcode, hput⟩ := armNext_put s i x s.poolOwner s.draws s.ret d m q w pay hk hd hm hc
  obtain ⟨z, y, -, -, hz⟩ := armed_put s i x s.poolOwner j m q w pay code
  refine ⟨code, j, hcode, ?_⟩
  rw [hz] at hput ⊢
  refine outcome_run (fun i => do needM i; armNext i) h ?_
  simp only [op_bind, needM_put _ _ _ _ _ _ hk hl, hput]

end Sys2Proof.Machine
end

section
/-! PROOFS. The pool loan and the selection of a mode (R277 to R279). -/

namespace Sys2Proof.Machine

open Sys2Proof

section loan

variable {s : State} {i : InstId} {x : Inst} {d : Side}

/-- A step that changes nothing answers its value alone. -/
theorem step_answers {op : Nat → Op Ret} {q : Ret} (h : s.Has i x)
    (he : op i.toNat (s.put i.toNat x s.poolOwner s.draws s.ret) =
      .ok (q, s.put i.toNat x s.poolOwner s.draws s.ret)) : stepOn i op s = .next { s with ret := q } := by
  rw [← put_same s x q i h]
  exact step_run s x _ _ _ _ h he

/-- The page is free: POOL_ACQ takes it (R277). -/
theorem poolAcq_free (h : s.Has i x) (ho : s.poolOwner = none) :
    poolAcq i.toNat d (s.put i.toNat x s.poolOwner s.draws s.ret) =
      .ok (true, s.put i.toNat (x.setLoan d true) (some (i.toNat, d)) s.draws s.ret) := by
  rw [poolAcq_put _ _ _ _ _ _ _ (has_lt s x i h), if_pos (by rw [ho]; rfl)]

/-- The page is lent: POOL_ACQ has no effect (R277). -/
theorem poolAcq_taken (h : s.Has i x) {p : Nat × Side} (ho : s.poolOwner = some p) :
    poolAcq i.toNat d (s.put i.toNat x s.poolOwner s.draws s.ret) =
      .ok (false, s.put i.toNat x s.poolOwner s.draws s.ret) := by
  rw [poolAcq_put _ _ _ _ _ _ _ (has_lt s x i h), if_neg (by rw [ho]; exact Bool.false_ne_true)]

theorem exec_poolAcq_free (h : s.Has i x) (ho : s.poolOwner = none) : exec (.poolAcq i d) s =
    .next (s.put i.toNat (x.setLoan d true) (some (i.toNat, d)) s.draws (.word 1#32)) := by
  change execPoolAcq i d s = _
  refine step_run s x _ _ _ _ h ?_
  rw [op_bind, poolAcq_free h ho]
  rfl

theorem exec_poolAcq_taken (h : s.Has i x) {p : Nat × Side} (ho : s.poolOwner = some p) :
    exec (.poolAcq i d) s = .next { s with ret := .word 0#32 } := by
  change execPoolAcq i d s = _
  refine step_answers h ?_
  rw [op_bind, poolAcq_taken h ho]
  rfl

theorem exec_poolRel (h : s.Has i x) : exec (.poolRel i d) s = .next (if x.loan d then
    s.put i.toNat (x.setLoan d false) none s.draws .none else { s with ret := .none }) := by
  change execPoolRel i d s = _
  have hrel := poolRel_put s i.toNat x s.poolOwner s.draws s.ret d (has_lt s x i h)
  cases hl : x.loan d with
  | true =>
    rw [Inst.release, hl, if_pos rfl] at hrel
    exact outcome_run (fun i => poolRel i d) h hrel
  | false =>
    rw [Inst.release, hl, setLoan_same x d hl] at hrel
    exact step_answers h (by rw [noRet, op_bind, hrel]; rfl)

/-- SELECT_MODE of a role configured to BUF does what POOL_ACQ does: BUF's tag is 1 and BYTE's is 0 (R279, R151). -/
theorem exec_selectMode_buf (h : s.Has i x) (hm : prefMode (s.cfg.inst i.toNat) d = .buf) :
    exec (.selectMode i d) s = exec (.poolAcq i d) s := by
  change execSelectMode i d s = execPoolAcq i d s
  rw [execSelectMode, execPoolAcq, stepOn_has _ h, stepOn_has _ h]
  simp only [runOp, selectMode, op_bind, op_getInstCfg, hm]
  cases poolAcq i.toNat d s with
  | error e => rfl
  | ok r =>
    obtain ⟨got, t⟩ := r
    cases got <;> rfl

/-- SELECT_MODE of a role configured to another mode takes no loan: BYTE, or the DMA mode when there is a window
(R279). -/
theorem exec_selectMode_other (h : s.Has i x) (hm : prefMode (s.cfg.inst i.toNat) d ≠ .buf) :
    exec (.selectMode i d) s = .next { s with ret := .word (modeTag
      (if (s.cfg.inst i.toNat).dmaAddr.isSome then prefMode (s.cfg.inst i.toNat) d else .byte)) } := by
  change execSelectMode i d s = _
  refine step_answers h ?_
  simp only [selectMode, op_bind, op_getInstCfg, put_cfg]
  cases hp : prefMode (s.cfg.inst i.toNat) d with
  | buf => exact absurd hp hm
  | byte => simp only [ite_self, op_pure, op_retWord]
  | dmaDec | dmaInc => simp only [op_pure, op_retWord]

end loan

/-- Settles O30: POOL_ACQ and POOL_REL by their laws, SELECT_MODE by the role's configured mode. -/
theorem poolLoanAndModeSelection : Obligations.PoolLoanAndModeSelection := by
  intro s i x d h lent
  have hlent : lent = x.setLoan d := by funext b; cases d <;> rfl
  rw [hlent]
  have hacq : exec (.poolAcq i d) s = .next (match s.poolOwner with
      | none => s.put i.toNat (x.setLoan d true) (some (i.toNat, d)) s.draws (.word 1#32)
      | some _ => { s with ret := .word 0#32 }) := by
    obtain ho | ⟨p, ho⟩ := Option.eq_none_or_eq_some s.poolOwner
    · rw [exec_poolAcq_free h ho]; simp only [ho]
    · rw [exec_poolAcq_taken h ho]; simp only [ho]
  refine ⟨hacq, exec_poolRel h, ?_⟩
  cases hm : prefMode (s.cfg.inst i.toNat) d with
  | buf =>
    rw [exec_selectMode_buf h hm, hacq]
    cases s.poolOwner <;> rfl
  | byte | dmaDec | dmaInc =>
    rw [exec_selectMode_other h (by rw [hm]; decide), hm]
    cases (s.cfg.inst i.toNat).dmaAddr <;> rfl

end Sys2Proof.Machine
end

section
/-! PROOFS. The master's handlers, run under lock M: a completion, a NACK, and the endings that signal the waiter (R312,
R316 to R321). -/

namespace Sys2Proof.Machine

open Sys2Proof

/-! ## Steps under lock M -/

section locked

variable {s t : State} {i : InstId} {x y : Inst} {o : Option (Nat × Side)} {n : Nat}

/-- Operations that come to the same outcome are the same step. -/
theorem runOp_congr {op op' : Op Ret} (h : op s = op' t) : runOp op s = runOp op' t := by
  unfold runOp
  rw [h]

/-- Under a free lock M a handler's step is its operation's outcome (R109). -/
theorem locked_put (op : Nat → Op Unit) (h : s.Has i x) (hl : x.lockM = none) :
    stepOn i (fun k => noRet (do needM k; op k)) s =
      runOp (noRet (op i.toNat)) (s.put i.toNat x s.poolOwner s.draws s.ret) := by
  rw [stepOn_put s x i _ h]
  exact runOp_congr (by simp only [noRet, op_bind, needM_put _ _ _ _ _ _ (has_lt s x i h) hl])

/-- A handler under a free lock M, run. -/
theorem locked_run (op : Nat → Op Unit) (h : s.Has i x) (hl : x.lockM = none)
    (he : op i.toNat (s.put i.toNat x s.poolOwner s.draws s.ret) = .ok ((), t.put i.toNat y o n s.ret)) :
    stepOn i (fun k => noRet (do needM k; op k)) s = .next (t.put i.toNat y o n .none) := by
  rw [locked_put op h hl]
  exact runOp_put t _ _ _ _ _ _ _ _ (by rw [noRet, op_bind, he]; rfl)

/-- Handlers that come to the same outcome, the second from the state t, are the same step. -/
theorem locked_congr (op op' : Nat → Op Unit) (h : s.Has i x) (hl : x.lockM = none) (ht : t.Has i y)
    (hl' : y.lockM = none) (he : op i.toNat (s.put i.toNat x s.poolOwner s.draws s.ret) = op' i.toNat t) :
    stepOn i (fun k => noRet (do needM k; op k)) s = stepOn i (fun k => noRet (do needM k; op' k)) t := by
  rw [locked_put op h hl, locked_put op' ht hl', put_self t _ _ ht]
  exact runOp_congr (by rw [noRet, noRet, op_bind, op_bind, he])

end locked

/-! ## The endings -/

section endings

variable (s : State) (i : InstId) (x : Inst) (o : Option (Nat × Side)) (n : Nat) (r : Ret)

/-- M_NACK when no chunk is waited for (R317). -/
theorem mNack_stray (stop : Bool) (hk : i.toNat < s.insts.length) (hw : ¬ x.Waited) :
    mNack i.toNat stop (s.put i.toNat x o n r) = .ok ((), s.put i.toNat
      { x with outs := { x.outs with log := x.outs.log ++ [.nackWithNoChunk] } } o n r) := by
  unfold mNack
  simp only [op_bind, getInst_put _ _ _ _ _ _ hk]
  rw [op_if_pos _ (by rw [Bool.not_eq_true', Bool.eq_false_iff]; exact fun h => hw ((chunkWaited_iff x).1 h))]
  simp only [op_logRec, updInst_put _ _ _ _ _ _ _ hk]

/-- M_NACK of a message that ignores it is an acknowledge (R317). -/
theorem mNack_ignored (stop : Bool) (d : Word) (m : Msg) (hk : i.toNat < s.insts.length) (hw : x.Waited)
    (hd : x.master.msgs = some d) (hm : s.message d x.master.cur.toNat = some m) (hi : m.ignoreNak = true) :
    mNack i.toNat stop (s.put i.toNat x o n r) = mDone i.toNat .tx stop (s.put i.toNat x o n r) := by
  unfold mNack
  simp only [op_bind, getInst_put _ _ _ _ _ _ hk]
  rw [op_if_neg _ (by rw [(chunkWaited_iff x).2 hw]; decide)]
  simp only [op_bind, curMsg_put s _ x _ _ _ d m hk hd hm, hi, if_true]

/-- M_STOP_DONE of recovery's STOP (R319). -/
theorem mStopDone_recovery (hk : i.toNat < s.insts.length) (hw : x.master.waiting = .recovStop) :
    mStopDone i.toNat (s.put i.toNat x o n r) =
      .ok ((), s.put i.toNat { x with master := { x.master with done := true } } o n r) := by
  simp only [mStopDone, op_bind, getInst_put _ _ _ _ _ _ hk, op_if_pos _ hw, op_complete, updInst_put _ _ _ _ _ _ _ hk,
    if_neg (show x.master.waiting ≠ .none by rw [hw]; decide)]

/-- M_STOP_DONE of a STOP nobody waits for (R319). -/
theorem mStopDone_stray (hk : i.toNat < s.insts.length) (hr : x.master.waiting ≠ .recovStop)
    (hw : ¬ (x.master.waiting = .xfer ∧ x.master.mstate = .stopping)) :
    mStopDone i.toNat (s.put i.toNat x o n r) =
      .ok ((), s.put i.toNat { x with outs := { x.outs with log := x.outs.log ++ [.strayStop] } } o n r) := by
  simp only [mStopDone, op_bind, getInst_put _ _ _ _ _ _ hk, op_if_neg _ hr, op_if_neg _ hw, op_logRec,
    updInst_put _ _ _ _ _ _ _ hk]

/-- M_PREEMPT with no transfer waited for (R321). -/
theorem mPreempt_idle (hk : i.toNat < s.insts.length) (hw : x.master.waiting ≠ .xfer) :
    mPreempt i.toNat (s.put i.toNat x o n r) = .ok ((), s.put i.toNat x o n r) := by
  simp only [mPreempt, op_bind, getInst_put _ _ _ _ _ _ hk, op_if_neg _ hw, op_pure]

end endings

/-- Settles O46: each handler by its law, M_NACK by whether the STOP was issued and has been seen. -/
theorem masterEndingsSignalTheWaiter : Obligations.MasterEndingsSignalTheWaiter := by
  intro s i x stop d m h hl seen y leaves
  have hk := has_lt s x i h
  refine ⟨fun hw => locked_run (mNack · stop) h hl (mNack_stray s i x _ _ _ stop hk hw),
    fun hw hd hm => ⟨fun hi => ?_, fun hi => ?_⟩,
    locked_run mArb h hl (mArb_put s i x _ _ _ hk), locked_run mFault h hl (mFault_put s i x _ _ _ hk),
    fun hw => locked_run mStopDone h hl (mStopDone_recovery s i x _ _ _ hk hw),
    fun hw hm => locked_run mStopDone h hl (mStopDone_put s i x _ _ _ hk hw hm),
    fun hr hw => locked_run mStopDone h hl (mStopDone_stray s i x _ _ _ hk hr hw), ?_,
    fun hw => locked_run mPreempt h hl (mPreempt_idle s i x _ _ _ hk hw)⟩
  · refine locked_congr (mNack · stop) (mDone · .tx stop) h hl h hl ?_
    rw [mNack_ignored s i x _ _ _ stop d m hk hw hd hm hi, put_self s _ x h]
  · have hnack := mNack_put s i x s.poolOwner s.draws s.ret stop d m hk hw hd hm hi
    have hwait : y.master.waiting ≠ .none := by rw [show y.master.waiting = .xfer from hw.1]; decide
    refine ⟨fun hs he => locked_run (mNack · stop) h hl ?_, fun hs he => locked_run (mNack · stop) h hl ?_,
      fun hs hf => ?_⟩
    · rw [hnack, if_pos (by rw [hs]; exact he)]
      exact finishMsg_put s i y _ _ _ .completeErr hk hwait
    · rw [hnack, if_neg (by rw [hs]; exact fun hc => Bool.false_ne_true (he.symm.trans hc)), if_pos hs, op_modMaster,
        updInst_put _ _ _ _ _ _ _ hk]
    · obtain ⟨code, j, hcode, hstop⟩ := issueStop_put s i y s.poolOwner s.draws s.ret hk hf
      refine ⟨code, j, hcode, locked_run (mNack · stop) h hl ?_⟩
      rw [hnack, hs]
      exact hstop
  · obtain ⟨a, b, c, j, hpre⟩ := mPreempt_put s i x s.poolOwner s.draws s.ret hk
    exact ⟨a, b, c, j, locked_run mPreempt h hl hpre⟩

/-! ## A completed chunk -/

section chunk

variable (s : State) (i : InstId) (x : Inst) (o : Option (Nat × Side)) (n : Nat) (r : Ret)

/-- A completion of the wrong kind, or of a count that is not xlen, is ERR_PROTO (R312, R316). -/
theorem mDone_mismatch (kind : Kind) (stop : Bool) (d : Word) (m : Msg) (hk : i.toNat < s.insts.length) (hw : x.Waited)
    (hd : x.master.msgs = some d) (hm : s.message d x.master.cur.toNat = some m) (hf : x.dmaInFlight = none)
    (hbad : kind ≠ expectedKind m.rd x.master.addrInChunk
      ∨ x.extracted s.cfg x.master.xmode x.master.xlen.toNat ≠ some x.master.xlen.toNat) :
    mDone i.toNat kind stop (s.put i.toNat x o n r) = .ok ((), s.put i.toNat
      (({ x with master := { x.master with stopSeen := x.master.stopSeen || stop } } : Inst).ended 0x00010000#32)
      o n r) := by
  unfold mDone
  simp only [op_bind, getInst_put _ _ _ _ _ _ hk]
  rw [op_if_neg _ (by rw [(chunkWaited_iff x).2 hw]; decide)]
  simp only [noteStop, op_bind, op_modMaster, updInst_put _ _ _ _ _ _ _ hk]
  rw [curMsg_put s _ { x with master := { x.master with stopSeen := x.master.stopSeen || stop } } _ _ _ d m hk hd hm]
  simp only [extract_put s _ { x with master := { x.master with stopSeen := x.master.stopSeen || stop } } _ _ _ _ _ hk
    hf]
  rw [op_if_pos _ (by rw [Bool.or_eq_true, bne_iff_ne, bne_iff_ne]; exact hbad)]
  simp only [op_bind, op_raiseErr, finishMsg, op_modMaster, op_complete, updInst_put _ _ _ _ _ _ _ hk, Inst.ended, hw.1,
    if_true, if_neg (show Waiting.xfer ≠ .none by decide), ERR_PROTO]

/-- With more to move, the next chunk is armed (R316). -/
theorem afterChunk_more (hk : i.toNat < s.insts.length) (hlt : x.master.cnt.toNat < x.master.len.toNat) :
    afterChunk i.toNat (s.put i.toNat x o n r) = armNext i.toNat (s.put i.toNat x o n r) := by
  simp only [afterChunk, op_bind, getInst_put _ _ _ _ _ _ hk, op_if_pos _ hlt]

/-- All of the last message moved and no STOP issued: C.STOP is sent (R316). -/
theorem afterChunk_stop (hk : i.toNat < s.insts.length) (hge : x.master.len.toNat ≤ x.master.cnt.toNat)
    (hlast : x.master.last = true) (hi : x.master.stopIssued = false) :
    afterChunk i.toNat (s.put i.toNat x o n r) = issueStop i.toNat (s.put i.toNat x o n r) := by
  simp only [afterChunk, op_bind, getInst_put _ _ _ _ _ _ hk, op_if_neg _ (Nat.not_lt.2 hge),
    op_if_pos _ (show (x.master.last && !x.master.stopIssued) = true by rw [hlast, hi]; rfl)]

/-- All moved and the STOP issued but not seen: it is waited for (R316). -/
theorem afterChunk_wait (hk : i.toNat < s.insts.length) (hge : x.master.len.toNat ≤ x.master.cnt.toNat)
    (hi : x.master.stopIssued = true) (hs : x.master.stopSeen = false) :
    afterChunk i.toNat (s.put i.toNat x o n r) =
      .ok ((), s.put i.toNat { x with master := { x.master with mstate := .stopping } } o n r) := by
  simp only [afterChunk, op_bind, getInst_put _ _ _ _ _ _ hk, op_if_neg _ (Nat.not_lt.2 hge),
    op_if_neg _ (show ¬ (x.master.last && !x.master.stopIssued) = true by rw [hi]; simp),
    op_if_pos _ (show (x.master.stopIssued && !x.master.stopSeen) = true by rw [hi, hs]; rfl), op_modMaster,
    updInst_put _ _ _ _ _ _ _ hk]

end chunk

/-- Settles O45: the completion accounted for by `mDone_account`, then what is left of the message by `afterChunk`'s
cases. -/
theorem masterCompletionIsAccountedFor : Obligations.MasterCompletionIsAccountedFor := by
  intro s i x kind stop d m src b h hl y s' leaves
  have hk := has_lt s x i h
  have hk' : i.toNat < s'.insts.length := hk
  refine ⟨fun hw => locked_run (mDone · kind stop) h hl (mDone_stray s i x _ _ _ kind stop hk hw),
    fun hw hd hm hf hbad =>
      locked_run (mDone · kind stop) h hl (mDone_mismatch s i x _ _ _ kind stop d m hk hw hd hm hf hbad),
    fun hc => ?_⟩
  have hdone := mDone_account s i x s.poolOwner s.draws s.ret kind stop m src b hk hc
  refine ⟨fun hlt => ?_, fun hge hlast hi hf => ?_, fun hge hi hs => ?_, fun he => ?_⟩
  · exact locked_congr (mDone · kind stop) armNext h hl (put_get s' _ y _ _ _ hk') hl
      (hdone.trans (afterChunk_more s' i y _ _ _ hk' hlt))
  · obtain ⟨code, j, hcode, hstop⟩ := issueStop_put s' i y s.poolOwner s.draws s.ret hk' hf
    exact ⟨code, j, hcode, locked_run (mDone · kind stop) h hl
      (hdone.trans ((afterChunk_stop s' i y _ _ _ hk' hge hlast hi).trans hstop))⟩
  · exact locked_run (mDone · kind stop) h hl (hdone.trans (afterChunk_wait s' i y _ _ _ hk' hge hi hs))
  · exact locked_run (mDone · kind stop) h hl (hdone.trans (afterChunk_ended s' i y _ _ _ hk' he hc.1.1))

end Sys2Proof.Machine
end

section
/-! PROOFS. SUBMIT: the message sets it accepts (R300, R301, R502). -/

namespace Sys2Proof.Machine

open Sys2Proof

/-! ## VALID (R301) -/

section valid

variable {s : State} {desc : Word}

/-- A message is acceptable after the message before it (R301). -/
theorem msgOk_iff {prev : Option Msg} {m : Msg} : msgOk prev m = true ↔
    m.reserved = false ∧ 1 ≤ m.len ∧ m.len ≤ m.cap ∧ (m.recvLen = true → m.rd = true ∧ m.len + 255 ≤ m.cap)
    ∧ (m.noStart = true → ∃ p, prev = some p ∧ p.rd = m.rd) := by
  have himp (a b : Bool) : (!a || b) = true ↔ (a = true → b = true) := by cases a <;> simp
  simp only [msgOk, himp, Bool.and_eq_true, Bool.not_eq_true', decide_eq_true_iff, and_assoc]
  cases prev <;> simp

/-- A set is acceptable when each message is after the one before it (R301). -/
theorem msgsOk_iff {prev : Option Msg} {ms : List Msg} : msgsOk prev ms = true ↔
    ∀ (k : Nat) (m : Msg), ms[k]? = some m → msgOk (if k = 0 then prev else ms[k - 1]?) m = true := by
  induction ms generalizing prev with
  | nil => simp [msgsOk]
  | cons a ms ih =>
    rw [msgsOk, Bool.and_eq_true, ih]
    refine ⟨fun ⟨ha, hr⟩ k m hk => ?_, fun h => ⟨h 0 a rfl, fun k m hk => ?_⟩⟩
    · cases k with
      | zero => cases hk; exact ha
      | succ k => cases k with
        | zero => exact hr 0 m hk
        | succ k => exact hr (k + 1) m hk
    · cases k with
      | zero => exact h 1 m hk
      | succ k => exact h (k + 2) m hk

variable {k : Nat} {x : Inst} {o : Option (Nat × Side)} {n : Nat} {r : Ret}

/-- The descriptors of a set are read in order. -/
theorem readMsgs_put (ms : List Msg) (j : Nat)
    (h : ∀ (k : Nat) (m : Msg), ms[k]? = some m → s.message desc (j + k) = some m) :
    readMsgs desc j ms.length (s.put k x o n r) = .ok (ms, s.put k x o n r) := by
  induction ms generalizing j with
  | nil => rfl
  | cons m ms ih =>
    have hr := ih (j + 1) fun k m hk => by rw [Nat.add_right_comm]; exact h (k + 1) m hk
    simp only [List.length_cons, readMsgs, op_bind, readMsg_put s _ _ _ _ _ desc j m (h 0 m rfl), hr, op_pure]

/-- VALID of a set that can be read: whether each of its messages is acceptable. -/
theorem validSet_put (ms : List Msg) (h1 : 1 ≤ ms.length)
    (h : ∀ (k : Nat) (m : Msg), ms[k]? = some m → s.message desc k = some m) :
    validSet desc ms.length (s.put k x o n r) = .ok (msgsOk none ms, s.put k x o n r) := by
  have hn : ¬ (ms.length == 0) = true := by rw [beq_iff_eq]; omega
  have hr := readMsgs_put (k := k) (x := x) (o := o) (n := n) (r := r) ms 0 fun k m hk => by
    rw [Nat.zero_add]; exact h k m hk
  simp only [validSet, op_if_neg _ hn, op_bind, hr, op_pure]

end valid

/-! ## SUBMIT -/

section submit

variable {s : State} {i : InstId} {x : Inst} {n : BitVec 16} {desc bound : Word}

/-- A second SUBMIT while a blocking call runs (R502). -/
theorem exec_submit_overlapping (h : s.Has i x) (hpc : x.thread.pc ≠ .idle) :
    exec (.submit i n desc bound) s = .refused .overlappingSubmit := by
  change hostCall i (fun k => submit k n.toNat desc bound) s = _
  rw [hostCall_put s x i _ h]
  simp only [runOp, submit, op_bind, getInst_put _ _ _ _ _ _ (has_lt s x i h), op_if_pos _ (bne_iff_ne.2 hpc),
    op_refuse]

/-- SUBMIT answers E_INVAL and changes nothing else (R301). -/
theorem submit_inval (h : s.Has i x)
    (he : submit i.toNat n.toNat desc bound (s.put i.toNat x s.poolOwner s.draws s.ret) =
      retCode .inval (s.put i.toNat x s.poolOwner s.draws s.ret)) :
    exec (.submit i n desc bound) s = .next { s with ret := .word (s.cfg.code .inval) } := by
  rw [← put_same s x _ i h]
  exact call_run (op := fun k => submit k n.toNat desc bound) s x _ _ _ _ h he

/-- SUBMIT of an instance that is not initialised (R301, R492). -/
theorem submit_uninitialised (hk : i.toNat < s.insts.length) (hpc : x.thread.pc = .idle)
    (hen : x.regs.funCtrl.getLsbD 0 = false) {o : Option (Nat × Side)} {j : Nat} {r : Ret} :
    submit i.toNat n.toNat desc bound (s.put i.toNat x o j r) = retCode .inval (s.put i.toNat x o j r) := by
  simp only [submit, op_bind, getInst_put _ _ _ _ _ _ hk, hpc, bne_self_eq_false, initialised, hen, Bool.not_false,
    Bool.false_eq_true, if_false, if_true]

/-- SUBMIT of an initialised instance without a call is what VALID makes of the set (R300, R301). -/
theorem submit_put (hk : i.toNat < s.insts.length) (hpc : x.thread.pc = .idle) (hen : x.regs.funCtrl.getLsbD 0 = true)
    {ok : Bool} {o : Option (Nat × Side)} {j : Nat} {r : Ret}
    (hv : validSet desc n.toNat (s.put i.toNat x o j r) = .ok (ok, s.put i.toNat x o j r)) :
    submit i.toNat n.toNat desc bound (s.put i.toNat x o j r) = if ok then .ok (.none, s.put i.toNat
      { x with thread := { pc := .xferEntry, call := .submit, n := n.toNat, desc := desc, bound := bound.toNat
                           attempt := 0, reached := 0 } } o j r)
    else retCode .inval (s.put i.toNat x o j r) := by
  simp only [submit, op_bind, getInst_put _ _ _ _ _ _ hk, hpc, bne_self_eq_false, initialised, hen, Bool.not_true,
    Bool.false_eq_true, if_false, hv]
  cases ok
  · rfl
  · simp only [if_true, op_bind, op_modThread, updInst_put _ _ _ _ _ _ _ hk, op_pure]

end submit

/-- Settles O39: SUBMIT by `submit_put`, VALID of a set that can be read by `msgsOk_iff` and `msgOk_iff`. -/
theorem submitChecksTheMessageSet : Obligations.SubmitChecksTheMessageSet := by
  intro s i x n desc bound ms h good inval
  have hk := has_lt s x i h
  refine ⟨exec_submit_overlapping h, fun hpc hen => submit_inval h (submit_uninitialised hk hpc hen),
    fun hpc hn => submit_inval h ?_, fun hpc hen h1 hlen hread => ?_⟩
  · cases hen : x.regs.funCtrl.getLsbD 0 with
    | false => exact submit_uninitialised hk hpc hen
    | true => exact submit_put hk hpc hen (ok := false) (by rw [hn]; rfl)
  · have hsubmit := submit_put hk hpc hen (bound := bound) (o := s.poolOwner) (j := s.draws) (r := s.ret)
      (hlen ▸ validSet_put ms (hlen ▸ h1) hread)
    have hgood : msgsOk none ms = true ↔ ∀ (k : Nat) (m : Msg), ms[k]? = some m → good k m := by
      rw [msgsOk_iff]
      refine forall₂_congr fun k m => imp_congr_right fun _ => ?_
      rw [msgOk_iff]
      cases k <;> simp [good]
    refine ⟨fun hg => ?_, fun ⟨k, m, hm, hb⟩ => submit_inval h ?_⟩
    · rw [hgood.2 hg, if_pos rfl] at hsubmit
      exact call_run (op := fun k => submit k n.toNat desc bound) s x _ _ _ _ h hsubmit
    · rw [hsubmit, if_neg fun hg => hb (hgood.1 hg k m hm)]

end Sys2Proof.Machine
end

section
/-! PROOFS. The lines of DO_XFER: entry, mode selection, exit, and what SUBMIT makes of an attempt's result (R300 to
R306, R314). -/

namespace Sys2Proof.Machine

open Sys2Proof

/-! ## An attempt's result (R300, R302) -/

section attempt

variable (s : State) (k : Nat) (y : Inst) (o : Option (Nat × Side)) (n : Nat) (q : Ret)

/-- When SUBMIT's loop tries again (R302). -/
theorem retries_iff {r : Result} {a b : Nat} : (transient r && decide (a < b)) = true ↔
    (r = .code .busy ∨ r = .code .nack ∨ r = .code .again) ∧ a < b := by
  simp only [transient, Bool.and_eq_true, Bool.or_eq_true, beq_iff_eq, decide_eq_true_iff, or_assoc]

/-- A transient result within the bound waits RETRY_DELAY for another attempt (R302). -/
theorem attemptDone_retries {r : Result} (hk : k < s.insts.length)
    (hr : (r = .code .busy ∨ r = .code .nack ∨ r = .code .again) ∧ y.thread.attempt < y.thread.bound) :
    attemptDone k r (s.put k y o n q) = .ok (.none, s.put k
      { y with thread := { y.thread with pc := .retryDelay, attempt := y.thread.attempt + 1 } } o n q) := by
  simp only [attemptDone, op_bind, getInst_put _ _ _ _ _ _ hk, op_getCfg, op_if_pos _ (retries_iff.2 hr), op_modThread,
    updInst_put _ _ _ _ _ _ _ hk, op_pure]

/-- Any other result is the call's; one that reports no failure leaves memory as it is (R300). -/
theorem attemptDone_returns {r : Result} (hk : k < s.insts.length)
    (hr : ¬ ((r = .code .busy ∨ r = .code .nack ∨ r = .code .again) ∧ y.thread.attempt < y.thread.bound))
    (hf : r.failed = false) : attemptDone k r (s.put k y o n q) =
      .ok (.word (r.word s.cfg), s.put k { y with thread := Thread.idle } o n q) := by
  simp only [attemptDone, op_bind, getInst_put _ _ _ _ _ _ hk, op_getCfg, op_if_neg _ (mt retries_iff.1 hr), hf,
    op_whenB_false, op_modThread, updInst_put _ _ _ _ _ _ _ hk, op_retWord, put_cfg]

/-- One that reports a failure leaves the read buffers open past the chunks that completed (R300). -/
theorem attemptDone_fails {r : Result} (hk : k < s.insts.length)
    (hr : ¬ ((r = .code .busy ∨ r = .code .nack ∨ r = .code .again) ∧ y.thread.attempt < y.thread.bound))
    (hf : r.failed = true) : ∃ p j, s.TailsLost y p ∧ attemptDone k r (s.put k y o n q) =
      .ok (.word (r.word s.cfg), ({ s with mem := p } : State).put k { y with thread := Thread.idle } o j q) := by
  obtain ⟨p, j, hp, hlose⟩ := loseTails_put s k y o n q hk
  have hk' : k < ({ s with mem := p } : State).insts.length := hk
  refine ⟨p, j, hp, ?_⟩
  simp only [attemptDone, op_bind, getInst_put _ _ _ _ _ _ hk, op_getCfg, op_if_neg _ (mt retries_iff.1 hr), hf,
    op_whenB_true, hlose, op_modThread, updInst_put _ _ _ _ _ _ _ hk', op_retWord, put_cfg]

end attempt

/-! ## The lines -/

section lines

variable {s t : State} {i : InstId} {x y : Inst} {o : Option (Nat × Side)}

/-- Line 1 while a slave transaction owns the bus (R304). -/
theorem doXfer_turnedAway (h : s.Has i x) (hl : x.lockM = none) (hpc : x.thread.pc = .xferEntry)
    (hs : x.master.slaveOp = true) : exec (.doXfer i) s =
      runOp (attemptDone i.toNat (.code .busy)) (s.put i.toNat x s.poolOwner s.draws s.ret) := by
  have hk := has_lt s x i h
  change execDoXfer i s = _
  rw [execDoXfer, stepOn_put s x i _ h]
  refine runOp_congr ?_
  simp only [op_bind, getInst_put _ _ _ _ _ _ hk, hpc, needM_put _ _ _ _ _ _ hk hl, hs, if_true]

/-- Line 1: err is cleared and the set is taken (R303). -/
theorem doXfer_entry (h : s.Has i x) (hl : x.lockM = none) (hpc : x.thread.pc = .xferEntry)
    (hs : x.master.slaveOp = false) : exec (.doXfer i) s = .next (s.put i.toNat
      { x with
        master := { x.master with
          err := 0#32, msgs := some x.thread.desc, nmsgs := BitVec.ofNat 32 x.thread.n, mstate := .idle }
        thread := { x.thread with pc := .waitIdle } } s.poolOwner s.draws .none) := by
  have hk := has_lt s x i h
  change execDoXfer i s = _
  refine step_run s x _ _ _ _ h ?_
  simp only [op_bind, getInst_put _ _ _ _ _ _ hk, hpc, needM_put _ _ _ _ _ _ hk hl, hs, Bool.false_eq_true, if_false,
    op_modMaster, setPc, op_modThread, updInst_put _ _ _ _ _ _ _ hk, op_pure]

/-- Line 3: the mode is selected with its loan (R306, R279). -/
theorem doXfer_selectMode (h : s.Has i x) (hl : x.lockM = none) (hpc : x.thread.pc = .selectMode) {m : Mode}
    (hm : selected (s.cfg.inst i.toNat) .master s.poolOwner = m) : exec (.doXfer i) s = .next (s.put i.toNat
      { x with
        master := { x.master with mode := m, mLoan := m == .buf || x.master.mLoan }
        thread := { x.thread with pc := .startMsg 0 } }
      (if m = .buf then some (i.toNat, .master) else s.poolOwner) s.draws .none) := by
  have hk := has_lt s x i h
  have hsel := selectMode_put s i x s.poolOwner s.draws s.ret .master hk
  rw [hm] at hsel
  change execDoXfer i s = _
  refine step_run s x _ _ _ _ h ?_
  simp only [op_bind, getInst_put _ _ _ _ _ _ hk, hpc, needM_put _ _ _ _ _ _ hk hl, hsel, op_modMaster, setPc,
    op_modThread, updInst_put _ _ _ _ _ _ _ hk, op_pure]
  cases m <;> rfl

/-- The engine idle, the set and the wait gone, the loan released (R314). -/
theorem xferExit_put (n : Nat) (q : Ret) (hk : i.toNat < s.insts.length) : xferExit i.toNat (s.put i.toNat x o n q) =
    .ok ((), s.put i.toNat
      { x with master := { x.master with
        mstate := .idle, msgs := none, nmsgs := 0, done := false, waiting := .none, mLoan := false } }
      (if x.master.mLoan then none else o) n q) := by
  simp only [xferExit, op_bind, op_modMaster, op_disarmWait, updInst_put _ _ _ _ _ _ _ hk,
    poolRel_put _ _ _ _ _ _ _ hk]
  rfl

/-- exit(r) (R303, R314). -/
theorem doXfer_exit {r : Result} (h : s.Has i x) (hl : x.lockM = none) (hpc : x.thread.pc = .xferExit r) :
    exec (.doXfer i) s = runOp (attemptDone i.toNat r) (s.put i.toNat
      { x with master := { x.master with
        mstate := .idle, msgs := none, nmsgs := 0, done := false, waiting := .none, mLoan := false } }
      (if x.master.mLoan then none else s.poolOwner) s.draws s.ret) := by
  have hk := has_lt s x i h
  change execDoXfer i s = _
  rw [execDoXfer, stepOn_put s x i _ h]
  refine runOp_congr ?_
  simp only [op_bind, getInst_put _ _ _ _ _ _ hk, hpc, needM_put _ _ _ _ _ _ hk hl, xferExit_put _ _ hk]

end lines

/-- Settles O41: each line by its law; where an attempt ends, by what SUBMIT makes of its result. -/
theorem transferLinesRunInOrder : Obligations.TransferLinesRunInOrder := by
  intro s i x h hl returns ends
  have hk := has_lt s x i h
  have hends {y : Inst} {o : Option (Nat × Side)} {r : Result} (hthread : y.thread = x.thread)
      (hcnt : y.master.cnt = x.master.cnt)
      (hrun : exec (.doXfer i) s = runOp (attemptDone i.toNat r) (s.put i.toNat y o s.draws s.ret)) : ends y o r := by
    have hreturns (hr : ¬ ((r = .code .busy ∨ r = .code .nack ∨ r = .code .again)
        ∧ x.thread.attempt < x.thread.bound)) (hf : r.failed = false) : returns y o s.mem s.draws (r.word s.cfg) :=
      hrun.trans (runOp_put _ _ _ _ _ _ _ _ _ (attemptDone_returns s _ y o _ _ hk (hthread ▸ hr) hf))
    have hfails (hr : ¬ ((r = .code .busy ∨ r = .code .nack ∨ r = .code .again)
        ∧ x.thread.attempt < x.thread.bound)) (hf : r.failed = true) :
        ∃ p j, s.TailsLost x p ∧ returns y o p j (r.word s.cfg) := by
      obtain ⟨p, j, hp, hdone⟩ := attemptDone_fails s _ y o s.draws s.ret hk (hthread ▸ hr) hf
      unfold State.TailsLost at hp
      rw [hthread, hcnt] at hp
      exact ⟨p, j, hp, hrun.trans (runOp_put _ _ _ _ _ _ _ _ _ hdone)⟩
    dsimp only [ends]
    split
    next hr =>
      rw [hrun, ← hthread]
      exact runOp_put _ _ _ _ _ _ _ _ _ (attemptDone_retries s _ y o _ _ hk (hthread ▸ hr))
    next hr =>
      cases r with
      | count n => exact hreturns hr rfl
      | code c =>
        cases c
        case ok | nothing => exact hreturns hr rfl
        all_goals exact hfails hr rfl
  exact ⟨fun hpc hs => hends rfl rfl (doXfer_turnedAway h hl hpc hs), fun hpc hs => doXfer_entry h hl hpc hs,
    fun hpc => doXfer_selectMode h hl hpc rfl, fun r hpc => hends rfl rfl (doXfer_exit h hl hpc)⟩

end Sys2Proof.Machine
end

section
/-! PROOFS. The waits of a blocking call: WAIT_IDLE, WAIT, the timer, and what an expired wait leaves unspecified (R305,
R308, R458, R476, R497). -/

namespace Sys2Proof.Machine

open Sys2Proof

/-! ## Buffers an expired wait leaves unspecified (R497) -/

section lost

variable (s : State) (i : InstId) (x : Inst) (o : Option (Nat × Side)) (n : Nat) (r : Ret)

/-- Free bytes change nothing outside the stretch they are written to. -/
theorem freeBytes_outside (m : Memory) (a j c d : Nat) (h : c ≤ d) :
    SameOutside m (Memory.writeN m a (freeBytes j c)) a d := fun b hb => by
  have hlen : (freeBytes j c).length = c := by simp [freeBytes]
  exact get_writeN_outside _ _ _ _ (by rw [hlen]; omega)

/-- The page may change for a holder of a loan of it alone. -/
theorem losePage_put (b : Bool) (c : Nat) : ∃ p : Memory,
    (if b then SameOutside s.pool p 0 c else SameBytes s.pool p)
    ∧ whenB b (poolWrite (freeBytes n c)) (s.put i.toNat x o (n + 1) r) =
      .ok ((), ({ s with pool := p } : State).put i.toNat x o (n + 1) r) := by
  cases b with
  | false => exact ⟨s.pool, fun _ => rfl, rfl⟩
  | true => exact ⟨_, freeBytes_outside _ _ _ _ _ (Nat.le_refl c), rfl⟩

/-- The DMA space once the window at a, of c bytes, is lost, the bytes there free; as it was without a window (R497). -/
def windowLost (m : Memory) (a : Option Nat) (j c : Nat) : Memory :=
  match a with
  | none => m
  | some a => Memory.writeN m a (freeBytes j (inside a c))

/-- BYTE_DATA.RX and the read buffer are lost last (R116, R497). -/
theorem loseByteAndTail_put (hk : i.toNat < s.insts.length) : ∃ m v j, s.TailLost x m
    ∧ (do
      let b ← draw
      modRegs i.toNat fun q => { q with byteRx := Config.freeByte b 0 }
      loseTail i.toNat : Op Unit) (s.put i.toNat x o n r) = .ok ((), ({ s with mem := m } : State).put i.toNat
        { x with regs := { x.regs with byteRx := v } } o j r) := by
  obtain ⟨m, j, hm, htail⟩ := loseTail_put s i.toNat
    { x with regs := { x.regs with byteRx := Config.freeByte n 0 } } o (n + 1) r hk
  refine ⟨m, Config.freeByte n 0, j, hm, ?_⟩
  simp only [op_bind, draw_put, op_modRegs, updInst_put _ _ _ _ _ _ _ hk]
  exact htail

/-- What an expired wait leaves unspecified (R116, R497). -/
theorem loseBuffers_put (hk : i.toNat < s.insts.length) : ∃ p q m v j, s.BuffersLost i x p q m
    ∧ loseBuffers i.toNat (s.put i.toNat x o n r) = .ok ((),
      ({ s with pool := p, dma := q, mem := m } : State).put i.toNat
        { x with regs := { x.regs with byteRx := v } } o j r) := by
  obtain ⟨p, hp, hpage⟩ := losePage_put s i x o n r (x.master.mLoan || x.slave.sLoan) s.cfg.poolPage
  have hq : match (s.cfg.inst i.toNat).dmaAddr with
      | some a => SameOutside s.dma (windowLost s.dma (s.cfg.inst i.toNat).dmaAddr (n + 1) s.cfg.dmaWin) a s.cfg.dmaWin
      | none => SameBytes s.dma (windowLost s.dma (s.cfg.inst i.toNat).dmaAddr (n + 1) s.cfg.dmaWin) := by
    cases (s.cfg.inst i.toNat).dmaAddr with
    | none => exact sameBytes_refl _
    | some a => exact freeBytes_outside _ _ _ _ _ (Nat.min_le_left _ _)
  obtain ⟨m, v, j, hm, hlast⟩ := loseByteAndTail_put
    { s with pool := p, dma := windowLost s.dma (s.cfg.inst i.toNat).dmaAddr (n + 1) s.cfg.dmaWin } i x o (n + 2) r hk
  refine ⟨p, _, m, v, j, ⟨hp, hq, hm⟩, ?_⟩
  simp only [loseBuffers, op_bind, getInst_put _ _ _ _ _ _ hk, op_getCfg, op_getInstCfg, put_cfg, draw_put, hpage,
    op_modState]
  rw [← hlast, op_bind]
  rfl

end lost

/-! ## The lines that wait -/

section lines

variable {s : State} {i : InstId} {x : Inst}

/-- The instance with its thread at a line. -/
def Inst.atLine (x : Inst) (pc : Pc) : Inst := { x with thread := { x.thread with pc := pc } }

theorem setPc_put (pc : Pc) (o : Option (Nat × Side)) (n : Nat) (r : Ret) (hk : i.toNat < s.insts.length) :
    setPc i.toNat pc (s.put i.toNat x o n r) = .ok ((), s.put i.toNat (x.atLine pc) o n r) := by
  rw [setPc, op_modThread, updInst_put _ _ _ _ _ _ _ hk]
  rfl

/-! ### WAIT_IDLE (R305) -/

/-- The first read of BUS_BUSY. -/
theorem waitIdle_first (h : s.Has i x) (hpc : x.thread.pc = .waitIdle) : exec (.waitIdle i) s = .next (s.put i.toNat
    (x.atLine (if x.core.busy = false then .selectMode else if s.cfg.idleTimeout = 0 then .idleExpired else .idleBusy))
    s.poolOwner s.draws .none) := by
  have hk := has_lt s x i h
  change execWaitIdle i s = _
  refine outcome_run _ h ?_
  simp only [op_bind, getInst_put _ _ _ _ _ _ hk, op_getCfg, hpc, busBusy_put _ _ _ _ _ _ hk, setPc_put _ _ _ _ hk,
    put_cfg, Bool.not_eq_true', beq_iff_eq]

/-- The wait goes on when BUS_BUSY reads 0. -/
theorem waitIdle_free (h : s.Has i x) (hpc : x.thread.pc = .idleBusy) (hb : x.core.busy = false) :
    exec (.waitIdle i) s = .next (s.put i.toNat (x.atLine .selectMode) s.poolOwner s.draws .none) := by
  have hk := has_lt s x i h
  change execWaitIdle i s = _
  refine outcome_run _ h ?_
  simp only [op_bind, getInst_put _ _ _ _ _ _ hk, op_getCfg, hpc, busBusy_put _ _ _ _ _ _ hk, hb, Bool.not_false,
    op_require_true, setPc_put _ _ _ _ hk]

/-- It has no step while BUS_BUSY reads 1. -/
theorem waitIdle_busy (h : s.Has i x) (hpc : x.thread.pc = .idleBusy) (hb : x.core.busy = true) :
    exec (.waitIdle i) s = .refused .notEnabled := by
  have hk := has_lt s x i h
  change execWaitIdle i s = _
  refine outcome_refused _ h ?_
  simp only [op_bind, getInst_put _ _ _ _ _ _ hk, op_getCfg, hpc, busBusy_put _ _ _ _ _ _ hk, hb, Bool.not_true,
    op_require_false]

/-- The wait has expired. -/
theorem waitIdle_expired (h : s.Has i x) (hpc : x.thread.pc = .idleExpired) :
    exec (.waitIdle i) s = .next (s.put i.toNat
      (x.atLine (if s.cfg.recoverOnBusy then .recoverEntry else .xferExit (.code .busy))) s.poolOwner s.draws .none) := by
  have hk := has_lt s x i h
  change execWaitIdle i s = _
  refine outcome_run _ h ?_
  simp only [op_bind, getInst_put _ _ _ _ _ _ hk, op_getCfg, hpc, setPc_put _ _ _ _ hk, put_cfg]

/-- The codes that report a failure (R148). -/
theorem codeFailed_iff {r : Code} : codeFailed r = true ↔ r ≠ .ok ∧ r ≠ .nothing := by
  cases r <;> decide

/-- RECOVER has returned r. -/
theorem waitIdle_recovered {r : Code} (h : s.Has i x) (hpc : x.thread.pc = .idleRecovered r) :
    exec (.waitIdle i) s = .next (s.put i.toNat (x.atLine (if r ≠ .ok ∧ r ≠ .nothing then .xferExit (.code .recov)
      else if x.core.busy then .xferExit (.code .busy) else .selectMode)) s.poolOwner s.draws .none) := by
  have hk := has_lt s x i h
  change execWaitIdle i s = _
  refine outcome_run _ h ?_
  simp only [op_bind, getInst_put _ _ _ _ _ _ hk, op_getCfg, hpc, busBusy_put _ _ _ _ _ _ hk, setPc_put _ _ _ _ hk,
    codeFailed_iff]

/-- Out of its lines WAIT_IDLE has no step. -/
theorem waitIdle_elsewhere (h : s.Has i x) (h1 : x.thread.pc ≠ .waitIdle) (h2 : x.thread.pc ≠ .idleBusy)
    (h3 : x.thread.pc ≠ .idleExpired) (h4 : ∀ r, x.thread.pc ≠ .idleRecovered r) :
    exec (.waitIdle i) s = .refused .notEnabled := by
  change execWaitIdle i s = _
  refine outcome_refused _ h ?_
  simp only [op_bind, getInst_put _ _ _ _ _ _ (has_lt s x i h), op_getCfg]
  cases hpc : x.thread.pc with
  | waitIdle => exact absurd hpc h1
  | idleBusy => exact absurd hpc h2
  | idleExpired => exact absurd hpc h3
  | idleRecovered r => exact absurd hpc (h4 r)
  | _ => rfl

/-! ### WAIT (R308) -/

/-- The lines of a thread that waits for the completion signal. -/
def Pc.blocked (pc : Pc) : Prop := (∃ k, pc = .waitXfer k) ∨ pc = .stopWait ∨ ∃ t, pc = .deadWait t

/-- WAIT goes on from each of them once the signal is set. -/
theorem wait_signalled (h : s.Has i x) (hl : x.lockM = none) (hd : x.master.done = true) (p : Pc × Pc)
    (hp : (∃ k, p = (.waitXfer k, .wakeSignalled k)) ∨ p = (.stopWait, .stopWake false)
      ∨ ∃ t, p = (.deadWait t, .deadWake t false)) (hpc : x.thread.pc = p.1) :
    exec (.wait i) s = .next (s.put i.toNat (x.atLine p.2) s.poolOwner s.draws .none) := by
  have hk := has_lt s x i h
  change execWait i s = _
  refine outcome_run _ h ?_
  obtain ⟨k, rfl⟩ | rfl | ⟨t, rfl⟩ := hp <;>
  simp only [op_bind, needM_put _ _ _ _ _ _ hk hl, getInst_put _ _ _ _ _ _ hk, hd, op_require_true, hpc,
    setPc_put _ _ _ _ hk]

/-- It has no step without the signal, nor anywhere else. -/
theorem wait_refused (h : s.Has i x) (hl : x.lockM = none) (hw : x.master.done = false ∨ ¬ x.thread.pc.blocked) :
    exec (.wait i) s = .refused .notEnabled := by
  have hk := has_lt s x i h
  change execWait i s = _
  refine outcome_refused _ h ?_
  simp only [op_bind, needM_put _ _ _ _ _ _ hk hl, getInst_put _ _ _ _ _ _ hk]
  cases hd : x.master.done with
  | false => rfl
  | true =>
    have hb := hw.resolve_left (by rw [hd]; decide)
    simp only [op_require_true]
    cases hpc : x.thread.pc with
    | waitXfer k => exact absurd (.inl ⟨k, hpc⟩) hb
    | stopWait => exact absurd (.inr (.inl hpc)) hb
    | deadWait t => exact absurd (.inr (.inr ⟨t, hpc⟩)) hb
    | _ => rfl

/-! ### T.EXPIRE (R476) -/

/-- A wait that is not satisfied loses its waiter (R458). -/
theorem expireWait_put (pc : Pc) (o : Option (Nat × Side)) (n : Nat) (r : Ret) (hk : i.toNat < s.insts.length)
    (hl : x.lockM = none) (hd : x.master.done = false) : expireWait i.toNat pc (s.put i.toNat x o n r) =
      .ok ((), s.put i.toNat (x.expired x.regs.byteRx pc) o n r) := by
  have hreq : (!x.master.done) = true := by rw [hd]; rfl
  simp only [expireWait, op_bind, needM_put _ _ _ _ _ _ hk hl, getInst_put _ _ _ _ _ _ hk, hreq,
    op_require_true, op_modMaster, updInst_put _ _ _ _ _ _ _ hk, setPc_put _ _ _ _ hk]
  rfl

/-- A wait that is satisfied does not expire. -/
theorem expireWait_done (pc : Pc) (o : Option (Nat × Side)) (n : Nat) (r : Ret) (hk : i.toNat < s.insts.length)
    (hl : x.lockM = none) (hd : x.master.done = true) :
    expireWait i.toNat pc (s.put i.toNat x o n r) = .error (.refuse .notEnabled) := by
  simp only [expireWait, op_bind, needM_put _ _ _ _ _ _ hk hl, getInst_put _ _ _ _ _ _ hk, hd, Bool.not_true,
    op_require_false]

/-- A wait of recovery expires. -/
theorem tExpire_recovery (h : s.Has i x) (hl : x.lockM = none) (hd : x.master.done = false) (p : Pc × Pc)
    (hp : p = (.stopWait, .stopWake true) ∨ ∃ t, p = (.deadWait t, .deadWake t true)) (hpc : x.thread.pc = p.1) :
    exec (.tExpire i) s = .next (s.put i.toNat (x.expired x.regs.byteRx p.2) s.poolOwner s.draws .none) := by
  have hk := has_lt s x i h
  refine outcome_run expire h ?_
  obtain rfl | ⟨t, rfl⟩ := hp <;>
  simp only [expire, op_bind, getInst_put _ _ _ _ _ _ hk, hpc, expireWait_put _ _ _ _ hk hl hd]

/-- A transfer's wait expires, and with it what R497 leaves unspecified. -/
theorem tExpire_waitXfer {k : Nat} (h : s.Has i x) (hl : x.lockM = none) (hd : x.master.done = false)
    (hpc : x.thread.pc = .waitXfer k) : ∃ p q r b j, s.BuffersLost i x p q r ∧ exec (.tExpire i) s =
      .next (({ s with pool := p, dma := q, mem := r } : State).put i.toNat (x.expired b (.wakeExpired k))
        s.poolOwner j .none) := by
  have hk := has_lt s x i h
  obtain ⟨p, q, r, b, j, hlost, hbuf⟩ :=
    loseBuffers_put s i (x.expired x.regs.byteRx (.wakeExpired k)) s.poolOwner s.draws s.ret hk
  refine ⟨p, q, r, b, j, hlost, outcome_run expire h ?_⟩
  simp only [expire, op_bind, getInst_put _ _ _ _ _ _ hk, hpc, expireWait_put _ _ _ _ hk hl hd, hbuf]
  rfl

/-- A wait that is satisfied does not expire (R308). -/
theorem tExpire_done (h : s.Has i x) (hl : x.lockM = none) (hd : x.master.done = true) (hb : x.thread.pc.blocked) :
    exec (.tExpire i) s = .refused .notEnabled := by
  have hk := has_lt s x i h
  refine outcome_refused expire h ?_
  obtain ⟨k, hpc⟩ | hpc | ⟨t, hpc⟩ := hb <;>
  simp only [expire, op_bind, getInst_put _ _ _ _ _ _ hk, hpc, expireWait_done _ _ _ _ hk hl hd]

/-- The idle wait expires exactly while the bus is busy. -/
theorem tExpire_idleBusy (h : s.Has i x) (hpc : x.thread.pc = .idleBusy) : exec (.tExpire i) s = if x.core.busy then
    .next (s.put i.toNat (x.atLine .idleExpired) s.poolOwner s.draws .none) else .refused .notEnabled := by
  have hk := has_lt s x i h
  cases hb : x.core.busy with
  | true =>
    refine outcome_run expire h ?_
    simp only [expire, op_bind, getInst_put _ _ _ _ _ _ hk, hpc, hb, op_require_true, setPc_put _ _ _ _ hk]
  | false =>
    refine outcome_refused expire h ?_
    simp only [expire, op_bind, getInst_put _ _ _ _ _ _ hk, hpc, hb, op_require_false]

/-- RETRY_DELAY is over. -/
theorem tExpire_retryDelay (h : s.Has i x) (hpc : x.thread.pc = .retryDelay) : exec (.tExpire i) s =
    .next (s.put i.toNat (x.atLine .xferEntry) s.poolOwner s.draws .none) := by
  have hk := has_lt s x i h
  refine outcome_run expire h ?_
  simp only [expire, op_bind, getInst_put _ _ _ _ _ _ hk, hpc, setPc_put _ _ _ _ hk]

/-- Out of a bounded wait the timer has no step. -/
theorem tExpire_elsewhere (h : s.Has i x) (hb : ¬ x.thread.pc.blocked) (h1 : x.thread.pc ≠ .idleBusy)
    (h2 : x.thread.pc ≠ .retryDelay) : exec (.tExpire i) s = .refused .notEnabled := by
  refine outcome_refused expire h ?_
  simp only [expire, op_bind, getInst_put _ _ _ _ _ _ (has_lt s x i h)]
  cases hpc : x.thread.pc with
  | waitXfer k => exact absurd (.inl ⟨k, hpc⟩) hb
  | stopWait => exact absurd (.inr (.inl hpc)) hb
  | deadWait t => exact absurd (.inr (.inr ⟨t, hpc⟩)) hb
  | idleBusy => exact absurd hpc h1
  | retryDelay => exact absurd hpc h2
  | _ => rfl

end lines

/-- Settles O42: WAIT_IDLE, WAIT and T.EXPIRE line by line. -/
theorem waitsEndBySignalBusOrTimer : Obligations.WaitsEndBySignalBusOrTimer := by
  intro s i x h hl at' blocked
  exact ⟨waitIdle_first h, waitIdle_free h, waitIdle_busy h, waitIdle_expired h, fun r => waitIdle_recovered h,
    waitIdle_elsewhere h, wait_signalled h hl, wait_refused h hl, tExpire_recovery h hl,
    fun hd k => tExpire_waitXfer h hl hd, tExpire_done h hl, tExpire_idleBusy h, tExpire_retryDelay h,
    tExpire_elsewhere h⟩

end Sys2Proof.Machine
end

section
/-! PROOFS. A message of a transfer begins and its wait ends: START_MSG (R304, R307) and WAKE (R276, R309 to R313). -/

namespace Sys2Proof.Machine

open Sys2Proof

/-! ## START_MSG -/

section startMsg

variable {s : State} {i : InstId} {x : Inst} {k : Word}

/-- The instance with message k, m, begun: its progress reset, err kept, its wait armed (R307). -/
def Inst.begun (x : Inst) (k : Word) (m : Msg) : Inst :=
  { x with master := { x.master with
    cur := k, cnt := 0, last := k.toNat + 1 == x.master.nmsgs.toNat, len := BitVec.ofNat 32 m.len, lenExt := false
    xlen := 0, xmode := .byte, addrInChunk := false, started := false, stopIssued := false, stopSeen := false
    mstate := .start, done := false, waiting := .xfer } }

/-- START_MSG while a slave transaction owns the bus (R304). -/
theorem startMsg_turnedAway (h : s.Has i x) (hl : x.lockM = none) (hpc : x.thread.pc = .startMsg k.toNat)
    (hs : x.master.slaveOp = true) : exec (.startMsg i k) s =
      .next (s.put i.toNat (x.atLine (.xferExit (.code .busy))) s.poolOwner s.draws .none) := by
  have hk := has_lt s x i h
  change execStartMsg i k s = _
  refine outcome_run _ h ?_
  simp only [op_bind, getInst_put _ _ _ _ _ _ hk, hpc, beq_self_eq_true, op_require_true, needM_put _ _ _ _ _ _ hk hl,
    startMsg, hs, if_true, op_pure, op_modThread, updInst_put _ _ _ _ _ _ _ hk]
  rfl

variable {d : Word} {m : Msg} {q : Plan} {w : Nat} {pay : List Byte}

/-- The first chunk is armed, and M_CHUNK left (R307). -/
theorem startMsg_put {o : Option (Nat × Side)} {n : Nat} {r : Ret} (hk : i.toNat < s.insts.length)
    (hs : x.master.slaveOp = false) (hd : x.master.msgs = some d) (hm : s.message d k.toNat = some m)
    (hc : s.CanArm i (x.begun k m) m q w pay) : ∃ code j, sideCode q.cmd code
      ∧ startMsg i.toNat k.toNat (s.put i.toNat x o n r) = .ok (.ok,
        (s.armed i (x.begun k m) m q w pay code o j r).updInst i.toNat fun z =>
          { z with master := { z.master with mstate := .chunk } }) := by
  obtain ⟨code, j, hcode, harm⟩ := armNext_put s i (x.begun k m) o n r d m q w pay hk hd hm hc
  refine ⟨code, j, hcode, ?_⟩
  simp only [startMsg, op_bind, getInst_put _ _ _ _ _ _ hk, hs, Bool.false_eq_true, if_false, hd,
    readMsg_put s _ x _ _ _ d _ m hm, BitVec.ofNat_toNat, BitVec.setWidth_eq]
  simp only [op_modMaster, op_armWait, updInst_put _ _ _ _ _ _ _ hk]
  simp only [Inst.begun] at harm ⊢
  rw [harm]
  rfl

/-- START_MSG begins message k, arms its first chunk and notes how far the call has come (R307; log entry 29). -/
theorem startMsg_begins (h : s.Has i x) (hl : x.lockM = none) (hpc : x.thread.pc = .startMsg k.toNat)
    (hs : x.master.slaveOp = false) (hd : x.master.msgs = some d) (hm : s.message d k.toNat = some m)
    (hc : s.CanArm i (x.begun k m) m q w pay) : ∃ code j, sideCode q.cmd code
      ∧ exec (.startMsg i k) s = .next ((s.armed i (x.begun k m) m q w pay code s.poolOwner j .none).updInst i.toNat
        fun z => { z with master := { z.master with mstate := .chunk }
                          thread := { z.thread with pc := .waitXfer k.toNat, reached := k.toNat + 1 } }) := by
  have hk := has_lt s x i h
  obtain ⟨code, j, hcode, hstart⟩ := startMsg_put (o := s.poolOwner) (n := s.draws) (r := s.ret) hk hs hd hm hc
  obtain ⟨z, v, hz, -, harmed⟩ := armed_put s i (x.begun k m) s.poolOwner j m q w pay code
  have hkz : i.toNat < z.insts.length := hz ▸ hk
  refine ⟨code, j, hcode, ?_⟩
  rw [harmed, updInst_put _ _ _ _ _ _ _ hkz] at hstart ⊢
  change execStartMsg i k s = _
  refine outcome_run _ h ?_
  simp only [op_bind, getInst_put _ _ _ _ _ _ hk, hpc, beq_self_eq_true, op_require_true, needM_put _ _ _ _ _ _ hk hl,
    hstart, op_modThread, updInst_put _ _ _ _ _ _ _ hkz]
  rfl

end startMsg

/-- Settles O43: START_MSG turned away, and with a first chunk that can be armed. -/
theorem startMessageArmsTheFirstChunk : Obligations.StartMessageArmsTheFirstChunk := by
  intro s i x k d m q w pay h hl hpc
  exact ⟨startMsg_turnedAway h hl hpc, fun hs hd hm => startMsg_begins h hl hpc hs hd hm⟩

/-! ## WAKE: what the accumulator says (R310) -/

section results

variable {e : Word}

theorem anyOf_iff {m : Word} : anyOf e m = true ↔ e &&& m ≠ 0#32 := bne_iff_ne

theorem anyOf_false_iff {m : Word} : anyOf e m = false ↔ e &&& m = 0#32 := bne_eq_false_iff_eq

/-- A hardware fault, an unclassified combination or an overrun; the decoder has reset the bus (R312). -/
theorem wakeResult_fault (h : e &&& 0x000A0060#32 ≠ 0#32) : wakeResult e = some .io ∧ wakeResets e = false := by
  have h1 : anyOf e (ERR_ABNORMAL ||| ERR_SCL_TO ||| ERR_UNCLASS ||| ERR_OVERRUN) = true := anyOf_iff.2 h
  simp only [wakeResult, wakeResets, h1, if_true, Bool.not_true, Bool.false_and, and_self]

variable (h1 : e &&& 0x000A0060#32 = 0#32)

include h1

theorem not_fault : anyOf e (ERR_ABNORMAL ||| ERR_SCL_TO ||| ERR_UNCLASS ||| ERR_OVERRUN) = false :=
  anyOf_false_iff.2 h1

/-- A protocol error, for which the wake resets the bus (R312). -/
theorem wakeResult_proto (h2 : e &&& 0x00010000#32 ≠ 0#32) : wakeResult e = some .io ∧ wakeResets e = true := by
  have hp : anyOf e ERR_PROTO = true := anyOf_iff.2 h2
  simp only [wakeResult, wakeResets, not_fault h1, hp, Bool.false_eq_true, if_false, if_true, Bool.not_false,
    Bool.true_and, and_self]

variable (h2 : e &&& 0x00010000#32 = 0#32)

include h2

/-- Neither of them: the bus is not reset, and what is left decides. -/
theorem wakeResult_rest : wakeResets e = false ∧ wakeResult e =
    if anyOf e (ERR_ARB ||| ERR_PREEMPT) then some .again else if anyOf e ERR_NACK then some .nack else none := by
  have hp : anyOf e ERR_PROTO = false := anyOf_false_iff.2 h2
  simp only [wakeResult, wakeResets, not_fault h1, hp, Bool.false_eq_true, if_false, Bool.not_false, Bool.true_and,
    and_self]

/-- An arbitration loss or a pre-emption. -/
theorem wakeResult_again (h3 : e &&& 0x00040008#32 ≠ 0#32) : wakeResult e = some .again := by
  have ha : anyOf e (ERR_ARB ||| ERR_PREEMPT) = true := anyOf_iff.2 h3
  rw [(wakeResult_rest h1 h2).2, if_pos ha]

variable (h3 : e &&& 0x00040008#32 = 0#32)

include h3

/-- A NACK. -/
theorem wakeResult_nack (h4 : e &&& 0x00000002#32 ≠ 0#32) : wakeResult e = some .nack := by
  have ha : anyOf e (ERR_ARB ||| ERR_PREEMPT) = false := anyOf_false_iff.2 h3
  have hn : anyOf e ERR_NACK = true := anyOf_iff.2 h4
  simp only [(wakeResult_rest h1 h2).2, ha, hn, Bool.false_eq_true, if_false, if_true]

/-- A clean wake. -/
theorem wakeResult_clean (h4 : e &&& 0x00000002#32 = 0#32) : wakeResult e = none := by
  have ha : anyOf e (ERR_ARB ||| ERR_PREEMPT) = false := anyOf_false_iff.2 h3
  have hn : anyOf e ERR_NACK = false := anyOf_false_iff.2 h4
  simp only [(wakeResult_rest h1 h2).2, ha, hn, Bool.false_eq_true, if_false]

end results

/-! ## WAKE: what it leaves -/

/-- The instance with its wait disarmed. -/
def Inst.disarmed (x : Inst) : Inst := { x with master := { x.master with done := false, waiting := .none } }

section wake

variable (s : State) (i : InstId) (x : Inst) (o : Option (Nat × Side)) (n : Nat) (r : Ret)

theorem disarmWait_put (hk : i.toNat < s.insts.length) :
    disarmWait i.toNat (s.put i.toNat x o n r) = .ok ((), s.put i.toNat x.disarmed o n r) := by
  rw [op_disarmWait, updInst_put _ _ _ _ _ _ _ hk]
  rfl

/-- BUS_RESET leaves the thread's line alone. -/
theorem busReset_atLine (pc : Pc) (g : Config) (ic : InstConfig) (a b c : Bool) :
    (x.busReset g ic a b c).atLine pc = (x.atLine pc).busReset g ic a b c := by
  unfold Inst.busReset
  split <;> rfl

/-- BUS_RESET leaves the current message and its count alone, and so the part of the buffer that is lost (R497). -/
theorem tailLost_busReset {g : Config} {ic : InstConfig} {a b c : Bool} {p : Memory} :
    s.TailLost (x.busReset g ic a b c) p ↔ s.TailLost x p := by
  unfold Inst.busReset
  split <;> rfl

/-- A wake that fails without a reset loses the read buffer past the bytes received (R310, R497). -/
theorem wakeSignalled_fails {c : Code} (hk : i.toNat < s.insts.length) (hc : wakeResult x.master.err = some c)
    (hr : wakeResets x.master.err = false) : ∃ p j, s.TailLost x p ∧ wakeSignalled i.toNat (s.put i.toNat x o n r) =
      .ok (c, ({ s with mem := p } : State).put i.toNat x.disarmed o j r) := by
  obtain ⟨p, j, hp, htail⟩ := loseTail_put s i.toNat x.disarmed o n r hk
  refine ⟨p, j, hp, ?_⟩
  simp only [wakeSignalled, op_bind, disarmWait_put _ _ _ _ _ _ hk, getInst_put _ _ _ _ _ _ hk,
    show x.disarmed.master.err = x.master.err from rfl, hc, hr, op_whenB_false, htail, op_pure]

/-- One that fails with a protocol error runs BUS_RESET first (R312). -/
theorem wakeSignalled_resets {e : Code} (hk : i.toNat < s.insts.length) (he : wakeResult x.master.err = some e)
    (hr : wakeResets x.master.err = true) : ∃ p a b c j, s.TailLost x p
      ∧ wakeSignalled i.toNat (s.put i.toNat x o n r) = .ok (e, ({ s with mem := p } : State).put i.toNat
        (x.disarmed.busReset s.cfg (s.cfg.inst i.toNat) a b c) (x.resetOwner s.cfg o) j r) := by
  obtain ⟨a, b, c, j, hreset⟩ := busReset_put s i.toNat x.disarmed o n r hk
  obtain ⟨p, j', hp, htail⟩ := loseTail_put s i.toNat (x.disarmed.busReset s.cfg (s.cfg.inst i.toNat) a b c)
    (x.resetOwner s.cfg o) j r hk
  refine ⟨p, a, b, c, j', (tailLost_busReset s x.disarmed).1 hp, ?_⟩
  rw [show x.disarmed.resetOwner s.cfg o = x.resetOwner s.cfg o from rfl] at hreset
  simp only [wakeSignalled, op_bind, disarmWait_put _ _ _ _ _ _ hk, getInst_put _ _ _ _ _ _ hk,
    show x.disarmed.master.err = x.master.err from rfl, he, hr, op_whenB_true, hreset, htail, op_pure]

/-- A clean wake of message m goes on to the write-back of its length, if it is a block read (R310, R276). -/
theorem wakeSignalled_clean (d : Word) (m : Msg) (hk : i.toNat < s.insts.length) (hc : wakeResult x.master.err = none)
    (hd : x.master.msgs = some d) (hm : s.message d x.master.cur.toNat = some m) :
    wakeSignalled i.toNat (s.put i.toNat x o n r) = (do
      whenB m.recvLen (writeBackLen d x.master.cur.toNat x.master.len.toNat)
      pure .ok : Op Code) (s.put i.toNat x.disarmed o n r) := by
  simp only [wakeSignalled, op_bind, disarmWait_put _ _ _ _ _ _ hk, getInst_put _ _ _ _ _ _ hk, Inst.disarmed, hc, hd,
    readMsg_put s _ _ _ _ _ d _ m hm]

/-- A descriptor that can be read lies inside the space (R100). -/
theorem message_fits {s : State} {d : Word} {j : Nat} {m : Msg} (h : s.message d j = some m) :
    d.toNat + 12 * j + 12 ≤ spaceSize := by
  obtain ⟨_, _, _, _, _, _, _, _, _, _, _, _, hb, -⟩ := message_some s d j m h
  unfold Memory.bytes at hb
  by_contra hn
  rw [if_neg hn] at hb
  cases hb

/-- The two bytes of a length, little-endian (R102). -/
theorem lenBytes (v : BitVec 16) : [v.extractLsb' 0 8, v.extractLsb' 8 8] = [v.setWidth 8, (v >>> 8).setWidth 8] := by
  have hhigh : v.extractLsb' 8 8 = (v >>> 8).setWidth 8 := by
    apply BitVec.eq_of_toNat_eq
    simp
  have hlow : v.extractLsb' 0 8 = v.setWidth 8 := (BitVec.setWidth_eq_extractLsb' (by decide)).symm
  rw [hhigh, hlow]

/-- The length reached goes to the descriptor's LEN field, two bytes; one above 65535 leaves the field open (R276, R310;
log entry 14). -/
theorem writeBackLen_put (d len : Word) (k : Nat) (hfit : d.toNat + 12 * k + 2 + 2 ≤ spaceSize) : ∃ p j,
    (len.toNat < 65536 → Holds p (d.toNat + 12 * k + 2)
      [(len.setWidth 16).setWidth 8, (len.setWidth 16 >>> 8).setWidth 8])
    ∧ SameOutside s.mem p (d.toNat + 12 * k + 2) 2
    ∧ writeBackLen d k len.toNat (s.put i.toNat x o n r) =
      .ok ((), ({ s with mem := p } : State).put i.toNat x o j r) := by
  have hwrite (v : BitVec 16) (j : Nat) := hostWrite_put s i.toNat x o j r (d.toNat + 12 * k + 2)
    [v.setWidth 8, (v >>> 8).setWidth 8] hfit
  have houtside (v : BitVec 16) := writeN_outside s.mem (d.toNat + 12 * k + 2) [v.setWidth 8, (v >>> 8).setWidth 8]
  by_cases hlen : len.toNat < 65536
  · refine ⟨_, n, fun _ => writeN_holds s.mem _ _, houtside (len.setWidth 16), ?_⟩
    simp only [writeBackLen, op_bind, op_if_pos _ hlen, op_pure, BitVec.ofNat_toNat, lenBytes, hwrite]
  · refine ⟨_, n + 1, fun h => absurd h hlen, houtside ((Config.freeWord n).setWidth 16), ?_⟩
    simp only [writeBackLen, op_bind, op_if_neg _ hlen, draw_put, op_pure, lenBytes, hwrite]

/-- The instance without its waiter, the engine idle (R309). -/
def Inst.lapsed (x : Inst) : Inst := { x with master := { x.master with waiting := .none, mstate := .idle } }

/-- WAKE after an expired wait: the waiter is gone, the bus reset, the buffers lost (R309, R497). -/
theorem wakeExpired_put (hk : i.toNat < s.insts.length) : ∃ p q m v a b c j,
    let z : Inst := x.lapsed.busReset s.cfg (s.cfg.inst i.toNat) a b c
    s.BuffersLost i z p q m ∧ wakeExpired i.toNat (s.put i.toNat x o n r) =
      .ok (.timeout, ({ s with pool := p, dma := q, mem := m } : State).put i.toNat
        { z with regs := { z.regs with byteRx := v } } (x.resetOwner s.cfg o) j r) := by
  obtain ⟨a, b, c, j, hreset⟩ := busReset_put s i.toNat x.lapsed o n r hk
  obtain ⟨p, q, m, v, j', hlost, hbuf⟩ := loseBuffers_put s i (x.lapsed.busReset s.cfg (s.cfg.inst i.toNat) a b c)
    (x.resetOwner s.cfg o) j r hk
  refine ⟨p, q, m, v, a, b, c, j', hlost, ?_⟩
  have hlapse : (modMaster i.toNat fun p => { p with waiting := .none, mstate := .idle }) (s.put i.toNat x o n r) =
      .ok ((), s.put i.toNat x.lapsed o n r) := by
    rw [op_modMaster, updInst_put _ _ _ _ _ _ _ hk]
    rfl
  rw [show x.lapsed.resetOwner s.cfg o = x.resetOwner s.cfg o from rfl] at hreset
  simp only [wakeExpired, op_bind, hlapse, hreset, hbuf, op_pure]

end wake

section lines

variable {s t : State} {i : InstId} {x y : Inst} {o : Option (Nat × Side)} {j k : Nat}

/-- A signalled wake, run: a failure ends the attempt, else the next message or exit follows (R310, R303). -/
theorem exec_wakeSignalled {c : Code} (h : s.Has i x) (hl : x.Unlocked) (hpc : x.thread.pc = .wakeSignalled k)
    (hw : wakeSignalled i.toNat (s.put i.toNat x s.poolOwner s.draws s.ret) = .ok (c, t.put i.toNat y o j s.ret))
    (ht : i.toNat < t.insts.length) :
    exec (.wakeSignalled i) s = .next (t.put i.toNat (y.atLine (if codeFailed c then .xferExit (.code c)
      else if k + 1 < x.thread.n then .startMsg (k + 1) else .xferExit (.count x.thread.n))) o j .none) := by
  have hk := has_lt s x i h
  change execWakeSignalled i s = _
  refine outcome_run _ h ?_
  simp only [op_bind, getInst_put _ _ _ _ _ _ hk, hpc, needLocks_put _ _ _ _ _ _ hk hl, hw, setPc_put _ _ _ _ ht]

/-- An expired wake, run (R309). -/
theorem exec_wakeExpired {c : Code} (h : s.Has i x) (hl : x.Unlocked) (hpc : x.thread.pc = .wakeExpired k)
    (hw : wakeExpired i.toNat (s.put i.toNat x s.poolOwner s.draws s.ret) = .ok (c, t.put i.toNat y o j s.ret))
    (ht : i.toNat < t.insts.length) :
    exec (.wakeExpired i) s = .next (t.put i.toNat (y.atLine (.xferExit (.code c))) o j .none) := by
  have hk := has_lt s x i h
  change execWakeExpired i s = _
  refine outcome_run _ h ?_
  simp only [op_bind, getInst_put _ _ _ _ _ _ hk, hpc, needLocks_put _ _ _ _ _ _ hk hl, hw, setPc_put _ _ _ _ ht]

end lines

/-- Settles O44: a signalled wake by the result of its accumulator, an expired one by `wakeExpired_put`. -/
theorem wakeMapsErrorsToResults : Obligations.WakeMapsErrorsToResults := by
  intro s i x k d m h hl
  have hk := has_lt s x i h
  refine ⟨fun hpc => ?_, fun hpc => ?_⟩
  · intro e y fails next
    have hfails {c : Code} (hc : wakeResult e = some c) (hr : wakeResets e = false) (hf : codeFailed c = true) :
        fails (.xferExit (.code c)) := by
      obtain ⟨p, j, hp, hw⟩ := wakeSignalled_fails s i x s.poolOwner s.draws s.ret hk hc hr
      have hrun := exec_wakeSignalled h hl hpc hw hk
      rw [if_pos hf] at hrun
      exact ⟨p, j, hp, hrun⟩
    refine ⟨fun h1 => hfails (wakeResult_fault h1).1 (wakeResult_fault h1).2 rfl,
      fun h1 => ⟨fun h2 => ?_, fun h2 => ?_⟩⟩
    · obtain ⟨hio, hreset⟩ := wakeResult_proto h1 h2
      obtain ⟨p, a, b, c, j, hp, hw⟩ := wakeSignalled_resets s i x s.poolOwner s.draws s.ret hk hio hreset
      have hrun := exec_wakeSignalled h hl hpc hw hk
      rw [busReset_atLine] at hrun
      exact ⟨p, a, b, c, j, hp, hrun⟩
    have hreset := (wakeResult_rest h1 h2).1
    refine ⟨fun h3 => hfails (wakeResult_again h1 h2 h3) hreset rfl,
      fun h3 => ⟨fun h4 => hfails (wakeResult_nack h1 h2 h3 h4) hreset rfl, fun h4 hd hm => ?_⟩⟩
    have hclean := wakeSignalled_clean s i x s.poolOwner s.draws s.ret d m hk (wakeResult_clean h1 h2 h3 h4) hd hm
    refine ⟨fun hv => ?_, fun hv => ?_⟩
    · rw [hv] at hclean
      exact exec_wakeSignalled h hl hpc hclean hk
    · have hfit := message_fits hm
      obtain ⟨p, j, hholds, hsame, hwrite⟩ := writeBackLen_put s i x.disarmed s.poolOwner s.draws s.ret d x.master.len
        x.master.cur.toNat (by omega)
      simp only [hv, op_bind, op_whenB_true, hwrite, op_pure] at hclean
      exact ⟨p, j, hholds, hsame, exec_wakeSignalled h hl hpc hclean hk⟩
  · obtain ⟨p, q, r, v, a, b, c, j, hlost, hw⟩ := wakeExpired_put s i x s.poolOwner s.draws s.ret hk
    refine ⟨p, q, r, v, a, b, c, j, ?_⟩
    intro z
    have hz : z = (x.lapsed.busReset s.cfg (s.cfg.inst i.toNat) a b c).atLine (.xferExit (.code .timeout)) :=
      (busReset_atLine x.lapsed _ _ _ _ _ _).symm
    clear_value z
    subst hz
    exact ⟨hlost, exec_wakeExpired h hl hpc hw hk⟩

end Sys2Proof.Machine
end

section
/-! PROOFS. The slave engine: transactions open, take their data, send their replies and finish (R280, R281, R340 to
R349). -/

namespace Sys2Proof.Machine

open Sys2Proof

/-! ## Steps of the slave engine -/

section steps

variable {s t : State} {i : InstId} {x y : Inst} {o : Option (Nat × Side)} {n : Nat}

/-- A step of the slave engine that answers a value, run: the engine exists and both locks are free (R357, R358). -/
theorem slave_answers {op : Nat → Op Ret} {q : Ret} (h : s.Has i x) (hp : s.cfg.slavePresent = true)
    (hl : x.Unlocked)
    (he : op i.toNat (s.put i.toNat x s.poolOwner s.draws s.ret) = .ok (q, t.put i.toNat y o n s.ret)) :
    stepOn i (fun k => do needSlave; needLocks k; op k) s = .next (t.put i.toNat y o n q) := by
  refine step_run s x y o n q (op := fun k => do needSlave; needLocks k; op k) h ?_
  simp only [op_bind, needSlave_put _ _ _ _ _ _ hp, needLocks_put _ _ _ _ _ _ (has_lt s x i h) hl, he]

/-- A step of the slave engine under the locks it needs, run (R109, R358). -/
theorem slave_run (need op : Nat → Op Unit) (h : s.Has i x) (hp : s.cfg.slavePresent = true)
    (hn : need i.toNat (s.put i.toNat x s.poolOwner s.draws s.ret) =
      .ok ((), s.put i.toNat x s.poolOwner s.draws s.ret))
    (he : op i.toNat (s.put i.toNat x s.poolOwner s.draws s.ret) = .ok ((), t.put i.toNat y o n s.ret)) :
    stepOn i (fun k => noRet (do needSlave; need k; op k)) s = .next (t.put i.toNat y o n .none) := by
  refine outcome_run (fun k => do needSlave; need k; op k) h ?_
  simp only [op_bind, needSlave_put _ _ _ _ _ _ hp, hn, he]

/-- A step of the slave engine that comes to a failure: the event recorded, then BUS_RESET (R345 to R347). -/
theorem slave_fails (op : Nat → Op Unit) {e : Word} (h : s.Has i x) (hp : s.cfg.slavePresent = true) (hl : x.Unlocked)
    (he : op i.toNat (s.put i.toNat x s.poolOwner s.draws s.ret) =
      slaveFail i.toNat e (s.put i.toNat x s.poolOwner s.draws s.ret)) :
    ∃ (a b c : Bool) (j : Nat), stepOn i (fun k => noRet (do needSlave; needLocks k; op k)) s = .next (s.put i.toNat
      (x.slaveFailed e s.cfg (s.cfg.inst i.toNat) a b c) (x.release .slave s.poolOwner) j .none) := by
  have hk := has_lt s x i h
  obtain ⟨a, b, c, j, hfail⟩ := slaveFail_put s i x s.poolOwner s.draws s.ret e hk hp
  exact ⟨a, b, c, j, slave_run needLocks op h hp (needLocks_put _ _ _ _ _ _ hk hl) (he.trans hfail)⟩

end steps

/-! ## Transactions open -/

/-- Settles O32: the laws of the four operations, each under the lock it needs. -/
theorem slaveWindowsAndTransactionsOpen : Obligations.SlaveWindowsAndTransactionsOpen := by
  intro s i x a w d h hp hl hf
  have hk := has_lt s x i h
  have hneed := needS_put s i.toNat x s.poolOwner s.draws s.ret hk hl
  refine ⟨fun hw => ?_, fun hw => ?_, fun hr hw => ?_, fun hw => ?_⟩
  · obtain ⟨code, j, hcode, hput⟩ := sArmRx_put s i x s.poolOwner s.draws s.ret w hk hf hw
    refine ⟨code, j, hcode, outcome_run (fun k => do needSlave; sArmRx k) h ?_⟩
    simp only [op_bind, needSlave_put _ _ _ _ _ _ hp, hput]
  · obtain ⟨code, j, hcode, hput⟩ := sArmTx_put s i x s.poolOwner s.draws s.ret w d hk hf hw
    exact ⟨code, j, hcode, slave_run needS sArmTx h hp hneed hput⟩
  · obtain ⟨code, j, hcode, hput⟩ := startOfWrite_put s i x s.poolOwner s.draws s.ret a w hk hf hr hw
    exact ⟨code, j, hcode, slave_run needS (startOfWrite · a) h hp hneed hput⟩
  · obtain ⟨code, j, hcode, hput⟩ := startOfRead_put s i x s.poolOwner s.draws s.ret a w d hk hf hw
    exact ⟨code, j, hcode, slave_run needS (startOfRead · a) h hp hneed hput⟩

/-- Settles O33: what `sMatch_put` leaves, under both locks. -/
theorem addressMatchOpensATransaction : Obligations.AddressMatchOpensATransaction := by
  intro s i x w d h hp hl hr hc
  have hk := has_lt s x i h
  obtain ⟨a, b, c, hmatch⟩ := sMatch_put s i x s.poolOwner s.draws s.ret w d hk hr hc
  refine ⟨a, b, c, ?_⟩
  intro idle y o m z hf hserve
  obtain ⟨code, j, hcode, hput⟩ := hmatch hf hserve
  exact ⟨code, j, hcode, slave_run needLocks sMatch h hp (needLocks_put _ _ _ _ _ _ hk hl) hput⟩

/-! ## Data received (R345, R346) -/

section data

variable (s : State) (i : InstId) (x : Inst) (o : Option (Nat × Side)) (n : Nat) (r : Ret)

/-- S_DATA outside a write transaction is logged. -/
theorem sData_stray (stop : Bool) (hk : i.toNat < s.insts.length) (hs : x.slave.sstate ≠ .rx) :
    sData i.toNat stop (s.put i.toNat x o n r) = .ok ((), s.put i.toNat
      { x with outs := { x.outs with log := x.outs.log ++ [.dataWithNoSlaveWrite] } } o n r) := by
  simp only [sData, op_bind, getInst_put _ _ _ _ _ _ hk, op_getCfg]
  cases hx : x.slave.sstate with
  | rx => exact absurd hx hs
  | idle | tx => simp only [op_logRec, updInst_put _ _ _ _ _ _ _ hk]

/-- S_DATA of data that the open slot cannot take is a failure. -/
theorem sData_fails (stop : Bool) (cur : Nat) (d : List Byte) (e : Word) (hk : i.toNat < s.insts.length)
    (hs : x.slave.sstate = .rx) (hc : x.slave.sCur = some cur) (hdm : x.dmaInFlight = none)
    (hf : s.SlaveFails i x cur d e) :
    sData i.toNat stop (s.put i.toNat x o n r) = slaveFail i.toNat e (s.put i.toNat x o n r) := by
  simp only [sData, op_bind, getInst_put _ _ _ _ _ _ hk, op_getCfg, hs, hc, extract_put _ _ _ _ _ _ _ _ hk hdm]
  obtain ⟨rfl, hnone | ⟨v, hsome, hlt⟩⟩ | ⟨rfl, v, hsome, hle, hrc, hover⟩ := hf
  · rw [hnone]
    rfl
  · rw [hsome]
    exact op_if_pos _ hlt _ _
  · rw [hsome]
    simp only [op_if_neg _ (Nat.not_lt.2 hle), op_bind, received_put s i x _ _ _ _ _ v d hk hrc]
    exact op_if_pos _ hover _ _

/-- S_DATA of data that fits: appended, and the next window opened unless the STOP came with them. -/
theorem sData_fits (stop : Bool) (cur v : Nat) (d : List Byte) (hk : i.toNat < s.insts.length)
    (hs : x.slave.sstate = .rx) (hc : x.slave.sCur = some cur) (hdm : x.dmaInFlight = none)
    (hx : x.extracted s.cfg x.slave.sXmode x.slave.sXlen.toNat = some v) (hle : v ≤ x.slave.sXlen.toNat)
    (hrc : s.received i x .slave x.slave.sXmode v = some d) (hfit : slotLen x.slave cur + v ≤ s.cfg.slotCap) :
    sData i.toNat stop (s.put i.toNat x o n r) =
      whenB (!stop) (sArmRx i.toNat) (s.put i.toNat (x.appended cur d) o n r) := by
  simp only [sData, op_bind, getInst_put _ _ _ _ _ _ hk, op_getCfg, hs, hc, extract_put _ _ _ _ _ _ _ _ hk hdm, hx,
    op_if_neg _ (Nat.not_lt.2 hle), received_put s i x _ _ _ _ _ v d hk hrc, put_cfg]
  refine (op_if_neg _ (Nat.not_lt.2 hfit) _ _).trans ?_
  simp only [op_bind, op_modSlave, updInst_put _ _ _ _ _ _ _ hk]
  rfl

end data

/-! ## Replies sent (R347) -/

section replies

variable (s : State) (i : InstId) (x : Inst) (o : Option (Nat × Side)) (n : Nat) (r : Ret)

/-- The instance with the reply advanced by v bytes, at most to its end (R347). -/
def Inst.advanced (x : Inst) (v : Nat) : Inst :=
  { x with slave := { x.slave with txOff := BitVec.ofNat 32 (min (x.slave.txOff.toNat + v) x.slave.txLen) } }

/-- S_TX_ACK outside a read transaction is logged. -/
theorem sTxAck_stray (hk : i.toNat < s.insts.length) (hs : x.slave.sstate ≠ .tx) :
    sTxAck i.toNat (s.put i.toNat x o n r) = .ok ((), s.put i.toNat
      { x with outs := { x.outs with log := x.outs.log ++ [.ackWithNoSlaveRead] } } o n r) := by
  simp only [sTxAck, op_bind, getInst_put _ _ _ _ _ _ hk, op_if_pos _ (bne_iff_ne.2 hs), op_logRec,
    updInst_put _ _ _ _ _ _ _ hk]

/-- S_TX_ACK of a count that no reply can have is a failure. -/
theorem sTxAck_fails (hk : i.toNat < s.insts.length) (hs : x.slave.sstate = .tx) (hdm : x.dmaInFlight = none)
    (hbad : ∀ v, x.extracted s.cfg x.slave.sXmode x.slave.sXlen.toNat = some v →
      v < 1 ∨ x.slave.sXlen.toNat < v) :
    sTxAck i.toNat (s.put i.toNat x o n r) = slaveFail i.toNat 0x00010000#32 (s.put i.toNat x o n r) := by
  simp only [sTxAck, op_bind, getInst_put _ _ _ _ _ _ hk, op_if_neg _ (fun h => bne_iff_ne.1 h hs),
    extract_put _ _ _ _ _ _ _ _ hk hdm]
  cases hx : x.extracted s.cfg x.slave.sXmode x.slave.sXlen.toNat with
  | none => rfl
  | some v => exact op_if_pos _ (hbad v hx) _ _

/-- S_TX_ACK of a count within the chunk: the reply advances and its next bytes are sent. -/
theorem sTxAck_advances (v : Nat) (hk : i.toNat < s.insts.length) (hs : x.slave.sstate = .tx)
    (hdm : x.dmaInFlight = none) (hx : x.extracted s.cfg x.slave.sXmode x.slave.sXlen.toNat = some v) (h1 : 1 ≤ v)
    (hle : v ≤ x.slave.sXlen.toNat) :
    sTxAck i.toNat (s.put i.toNat x o n r) = sArmTx i.toNat (s.put i.toNat (x.advanced v) o n r) := by
  simp only [sTxAck, op_bind, getInst_put _ _ _ _ _ _ hk, op_if_neg _ (fun h => bne_iff_ne.1 h hs),
    extract_put _ _ _ _ _ _ _ _ hk hdm, hx, op_if_neg _ (show ¬ (v < 1 ∨ x.slave.sXlen.toNat < v) by omega),
    op_modSlave, updInst_put _ _ _ _ _ _ _ hk]
  rfl

end replies

/-- Settles O34: S_DATA and S_TX_ACK by their laws, a failure by `slave_fails`. -/
theorem slaveDataAndRepliesAdvance : Obligations.SlaveDataAndRepliesAdvance := by
  intro s i x stop cur d w h hp hl hdm n k fails
  have hk := has_lt s x i h
  have hneed := needLocks_put s i.toNat x s.poolOwner s.draws s.ret hk hl
  refine ⟨fun hs => slave_run needLocks (sData · stop) h hp hneed (sData_stray s i x _ _ _ stop hk hs),
    fun hs hc => ?_, fun hs => slave_run needLocks sTxAck h hp hneed (sTxAck_stray s i x _ _ _ hk hs), fun hs => ?_⟩
  · have hfails {e : Word} (hf : s.SlaveFails i x cur d e) : fails (.sData i stop) e :=
      slave_fails (sData · stop) h hp hl (sData_fails s i x _ _ _ stop cur d e hk hs hc hdm hf)
    refine ⟨fun hnone => hfails (.inl ⟨rfl, .inl hnone⟩),
      fun v hv hlt => hfails (.inl ⟨rfl, .inr ⟨v, hv, hlt⟩⟩), fun v hv hle hrc => ⟨fun hover =>
        hfails (.inr ⟨rfl, v, hv, hle, hrc, hover⟩), fun hfit => ?_⟩⟩
    have hdata := sData_fits s i x s.poolOwner s.draws s.ret stop cur v d hk hs hc hdm hv hle hrc hfit
    refine ⟨fun hstop => ?_, fun hstop hf hw => ?_⟩
    · subst hstop
      exact slave_run needLocks (sData · true) h hp hneed hdata
    · subst hstop
      obtain ⟨code, j, hcode, hput⟩ := sArmRx_put s i (x.appended cur d) s.poolOwner s.draws s.ret w hk hf hw
      exact ⟨code, j, hcode, slave_run needLocks (sData · false) h hp hneed (hdata.trans hput)⟩
  · have hfails (hbad : ∀ v, k = some v → v < 1 ∨ n < v) : fails (.sTxAck i) 0x00010000#32 :=
      slave_fails sTxAck h hp hl (sTxAck_fails s i x _ _ _ hk hs hdm hbad)
    refine ⟨fun hnone => hfails fun v hv => ?_, fun v hv hbad => hfails fun u hu => ?_, fun v hv h1 hle => ?_⟩
    · rw [hnone] at hv
      cases hv
    · rw [hv] at hu
      cases hu
      exact hbad
    · intro y hf hw
      obtain ⟨code, j, hcode, hput⟩ := sArmTx_put s i (x.advanced v) s.poolOwner s.draws s.ret w d hk hf hw
      exact ⟨code, j, hcode, slave_run needLocks sTxAck h hp hneed
        ((sTxAck_advances s i x _ _ _ v hk hs hdm hv h1 hle).trans hput)⟩

/-! ## Transactions finish (R348, R349) -/

section finish

variable (x : Inst) (e : Word) (g : Config) (ic : InstConfig) (a b d : Bool)

/-- POOL_REL of a side without a loan leaves the pool's owner (R278). -/
theorem release_of_not_lent {x : Inst} {d : Side} {p : Option (Nat × Side)} (h : x.loan d = false) :
    x.release d p = p := by
  rw [Inst.release, h]
  rfl

/-- S_ABORT keeps the ring's capacity (R357). -/
theorem aborted_ring_length : x.aborted.slave.ring.length = x.slave.ring.length := by
  simp only [Inst.aborted]
  cases x.slave.sCur with
  | none => rfl
  | some k => exact List.length_modify ..

/-- A slave failure leaves the slave engine idle, its loan given back and the ring's capacity as it was (R357). -/
theorem slaveFailed_slave (hp : g.slavePresent = true) : (x.slaveFailed e g ic a b d).slave.sstate = .idle
    ∧ (x.slaveFailed e g ic a b d).loan .slave = false
    ∧ (x.slaveFailed e g ic a b d).slave.ring.length = x.slave.ring.length := by
  rw [Inst.slaveFailed, Inst.busReset, if_pos hp]
  exact ⟨rfl, rfl, aborted_ring_length _⟩

variable {x e} (s : State) (i : InstId) (o : Option (Nat × Side)) (n : Nat) (r : Ret)

/-- S_STOP whose data the open slot cannot take: the failure first, then the end of a transaction that is over. -/
theorem sStop_fails (w : Word) (cur : Nat) (l : List Byte) (hk : i.toNat < s.insts.length)
    (hp : s.cfg.slavePresent = true) (hr : x.slave.ring.length = s.cfg.ringCap) (hc : x.slave.sCur = some cur)
    (hd : (w.getLsbD 2 && !w.getLsbD 7 && x.slave.sstate == .rx) = true) (hdm : x.dmaInFlight = none)
    (hf : s.SlaveFails i x cur l e) : ∃ a b c j, sStop i.toNat w (s.put i.toNat x o n r) = .ok (0x0014#32,
      s.put i.toNat ((x.slaveFailed e s.cfg (s.cfg.inst i.toNat) a b c).finished s.cfg.ringCap) (x.release .slave o)
        j r) := by
  obtain ⟨h2, h7, -⟩ := anyOf_rx w
  have hs : x.slave.sstate = .rx := eq_of_beq (Bool.and_eq_true_iff.1 hd).2
  obtain ⟨a, b, c, j, hfail⟩ := slaveFail_put s i x o n r e hk hp
  obtain ⟨hidle, hloan, hring⟩ := slaveFailed_slave x e s.cfg (s.cfg.inst i.toNat) a b c hp
  have hdata := (sData_fails s i x o n r true cur l e hk hs hc hdm hf).trans hfail
  have hfinal := sFinal_put s i (x.slaveFailed e s.cfg (s.cfg.inst i.toNat) a b c) (x.release .slave o) j r hk
    (hring.trans hr) (fun hrx => by rw [hidle] at hrx; cases hrx)
  rw [release_of_not_lent hloan] at hfinal
  have hnotTx : ((x.slaveFailed e s.cfg (s.cfg.inst i.toNat) a b c).slave.sstate == .tx) = false := by
    rw [hidle]
    rfl
  refine ⟨a, b, c, j, ?_⟩
  simp only [sStop, op_bind, getInst_put _ _ _ _ _ _ hk, h2, h7, hd, op_whenB_true, hdata, hfinal, hnotTx, op_pure,
    if_true, Bool.false_eq_true, if_false]
  rfl

end finish

/-- Settles O35: S_FINAL and S_STOP by their laws, S_STOP's failure by `sStop_fails`. -/
theorem slaveTransactionsFinish : Obligations.SlaveTransactionsFinish := by
  intro s i x sts cur v d h hp hl hr hc o data
  have hk := has_lt s x i h
  have hopen : x.slave.sstate = .rx → x.slave.sCur ≠ none := fun hs => by rw [hc hs]; exact Option.some_ne_none _
  have hcur (hd : data = true) : x.slave.sCur = some cur := hc (eq_of_beq (Bool.and_eq_true_iff.1 hd).2)
  have hanswers {t : State} {y : Inst} {p : Option (Nat × Side)} {j : Nat} {w : Word}
      (he : sStop i.toNat sts (s.put i.toNat x s.poolOwner s.draws s.ret) = .ok (w, t.put i.toNat y p j s.ret)) :
      exec (.sStop i sts) s = .next (t.put i.toNat y p j (.word w)) :=
    slave_answers (op := fun k => do let w ← sStop k sts; retWord w) h hp hl (by rw [op_bind, he]; rfl)
  refine ⟨slave_run needLocks sFinal h hp (needLocks_put _ _ _ _ _ _ hk hl) (sFinal_put s i x _ _ _ hk hr hopen),
    fun hd => hanswers (sStop_put s i x _ _ _ sts hk hr hopen hd),
    fun hd hdm hx hle hrc hfit =>
      hanswers (sStop_data_put s i x _ _ _ sts cur v d hk hr (hcur hd) hd hdm hx hle hrc hfit),
    fun hd hdm e hf => ?_⟩
  obtain ⟨a, b, c, j, hstop⟩ := sStop_fails s i s.poolOwner s.draws s.ret sts cur d hk hp hr (hcur hd) hd hdm hf
  exact ⟨a, b, c, j, hanswers hstop⟩

end Sys2Proof.Machine
end

section
/-! PROOFS. The slave's host operations: messages read, replies filled, the slave side enabled and disabled, the alert
line (R350 to R358). -/

namespace Sys2Proof.Machine

open Sys2Proof

/-! ## Slave requests -/

section calls

variable {s t : State} {i : InstId} {x y : Inst} {o : Option (Nat × Side)} {n : Nat} {q : Ret}

/-- A slave request of an initialised instance, run: it is offered (R493, R358). -/
theorem slaveCall_run (op : Nat → Op Ret) (h : s.Has i x) (hp : s.cfg.slavePresent = true)
    (hen : x.regs.funCtrl.getLsbD 0 = true)
    (he : op i.toNat (s.put i.toNat x s.poolOwner s.draws s.ret) = .ok (q, t.put i.toNat y o n s.ret)) :
    slaveCall i op s = .next (t.put i.toNat y o n q) := by
  refine call_run s x y o n q h ?_
  simp only [op_bind, op_getCfg, put_cfg, hp, if_true, offered, getInst_put _ _ _ _ _ _ (has_lt s x i h), initialised,
    hen, Bool.true_or, op_require_true, he]

/-- A slave request that answers and changes nothing. -/
theorem slaveCall_answers (op : Nat → Op Ret) (h : s.Has i x) (hp : s.cfg.slavePresent = true)
    (hen : x.regs.funCtrl.getLsbD 0 = true)
    (he : op i.toNat (s.put i.toNat x s.poolOwner s.draws s.ret) =
      .ok (q, s.put i.toNat x s.poolOwner s.draws s.ret)) : slaveCall i op s = .next { s with ret := q } := by
  rw [← put_same s x q i h]
  exact slaveCall_run op h hp hen he

/-- A slave request under lock S, run (R109). -/
theorem underS_run (op : Nat → Op Ret) (h : s.Has i x) (hp : s.cfg.slavePresent = true) (hl : x.lockS = none)
    (hen : x.regs.funCtrl.getLsbD 0 = true)
    (he : op i.toNat (s.put i.toNat x s.poolOwner s.draws s.ret) = .ok (q, t.put i.toNat y o n s.ret)) :
    slaveCall i (fun k => do needS k; op k) s = .next (t.put i.toNat y o n q) := by
  refine slaveCall_run (fun k => do needS k; op k) h hp hen ?_
  simp only [op_bind, needS_put _ _ _ _ _ _ (has_lt s x i h) hl, he]

/-- A slave request under lock S that answers a code and changes nothing. -/
theorem underS_answers (op : Nat → Op Ret) {c : Code} (h : s.Has i x) (hp : s.cfg.slavePresent = true)
    (hl : x.lockS = none) (hen : x.regs.funCtrl.getLsbD 0 = true)
    (he : op i.toNat (s.put i.toNat x s.poolOwner s.draws s.ret) =
      retCode c (s.put i.toNat x s.poolOwner s.draws s.ret)) :
    slaveCall i (fun k => do needS k; op k) s = .next { s with ret := .word (s.cfg.code c) } := by
  rw [← put_same s x _ i h]
  exact underS_run op h hp hl hen he

end calls

/-! ## Messages read and replies filled (R350, R351) -/

section messages

variable (s : State) (i : InstId) (x : Inst) (o : Option (Nat × Side)) (n : Nat) (r : Ret)

/-- The stored length of the slot that stands at a place of the ring. -/
theorem slotLen_of_get {v : Slave} {k : Nat} {q : Slot} (h : v.ring[k]? = some q) : slotLen v k = q.len := by
  rw [slotLen, h]

/-- SLAVE_READ without a message. -/
theorem slaveRead_nodata (dst cap : Word) (hk : i.toNat < s.insts.length) (h0 : x.slave.ready = 0) :
    slaveRead i.toNat dst cap (s.put i.toNat x o n r) = retCode .nodata (s.put i.toNat x o n r) := by
  simp only [slaveRead, op_bind, getInst_put _ _ _ _ _ _ hk, op_if_pos _ h0]

/-- SLAVE_READ into a buffer too small for the oldest message. -/
theorem slaveRead_inval (dst cap : Word) (q : Slot) (hk : i.toNat < s.insts.length) (h0 : x.slave.ready ≠ 0)
    (hq : x.slave.ring[x.slave.rd]? = some q) (hcap : cap.toNat < q.len) :
    slaveRead i.toNat dst cap (s.put i.toNat x o n r) = retCode .inval (s.put i.toNat x o n r) := by
  simp only [slaveRead, op_bind, getInst_put _ _ _ _ _ _ hk, op_if_neg _ h0, slotLen_of_get hq, op_if_pos _ hcap]

/-- SLAVE_READ of the oldest message: copied, its slot free, its address byte and length the value. -/
theorem slaveRead_put (dst cap : Word) (q : Slot) (d : List Byte) (hk : i.toNat < s.insts.length)
    (hr : x.slave.ring.length = s.cfg.ringCap) (h0 : x.slave.ready ≠ 0) (hq : x.slave.ring[x.slave.rd]? = some q)
    (hcap : q.len ≤ cap.toNat) (hd : q.buf.bytes 0 q.len = some d) (hdst : dst.toNat + d.length ≤ spaceSize) :
    slaveRead i.toNat dst cap (s.put i.toNat x o n r) =
      .ok (.word ((q.addr.setWidth 32 <<< 16) ||| BitVec.ofNat 32 q.len),
        ({ s with mem := s.mem.writeN dst.toNat d } : State).put i.toNat
          { x with slave := x.slave.evicted s.cfg.ringCap } o n r) := by
  have hk' : i.toNat < ({ s with mem := s.mem.writeN dst.toNat d } : State).insts.length := hk
  have haddr : BitVec.ofNat 32 q.addr.toNat = q.addr.setWidth 32 := BitVec.ofNat_toNat ..
  have hevict : evictOldest x.slave = x.slave.evicted s.cfg.ringCap := by
    rw [evictOldest, hr]
    rfl
  simp only [slaveRead, op_bind, getInst_put _ _ _ _ _ _ hk, op_if_neg _ h0, slotLen_of_get hq,
    op_if_neg _ (Nat.not_lt.2 hcap), hq, op_memBytes _ _ _ _ _ hd, hostWrite_put _ _ _ _ _ _ _ _ hdst, op_modSlave,
    updInst_put _ _ _ _ _ _ _ hk', op_retWord, haddr, hevict]

/-- SLAVE_WRITE of more bytes than a slot holds. -/
theorem slaveWrite_inval (j : Nat) (src : Word) (hk : i.toNat < s.insts.length) (hj : s.cfg.slotCap < j) :
    slaveWrite i.toNat j src (s.put i.toNat x o n r) = retCode .inval (s.put i.toNat x o n r) := by
  simp only [slaveWrite, op_bind, getInst_put _ _ _ _ _ _ hk, op_getCfg, put_cfg, op_if_pos _ hj]

/-- SLAVE_WRITE while a remote read is served. -/
theorem slaveWrite_busy (j : Nat) (src : Word) (hk : i.toNat < s.insts.length) (hj : j ≤ s.cfg.slotCap)
    (hs : x.slave.sstate = .tx) :
    slaveWrite i.toNat j src (s.put i.toNat x o n r) = retCode .busy (s.put i.toNat x o n r) := by
  simp only [slaveWrite, op_bind, getInst_put _ _ _ _ _ _ hk, op_getCfg, put_cfg, op_if_neg _ (Nat.not_lt.2 hj),
    op_if_pos _ hs]

/-- SLAVE_WRITE of bytes that host memory holds: they are the reply. -/
theorem slaveWrite_put (j : Nat) (src : Word) (e : List Byte) (hk : i.toNat < s.insts.length) (hj : j ≤ s.cfg.slotCap)
    (hs : x.slave.sstate ≠ .tx) (he : s.mem.bytes src.toNat j = some e) :
    slaveWrite i.toNat j src (s.put i.toNat x o n r) = .ok (.word (BitVec.ofNat 32 j), s.put i.toNat
      { x with slave := { x.slave with txbuf := x.slave.txbuf.writeN 0 e, txLen := j } } o n r) := by
  simp only [slaveWrite, op_bind, getInst_put _ _ _ _ _ _ hk, op_getCfg, put_cfg, op_if_neg _ (Nat.not_lt.2 hj),
    op_if_neg _ hs, hostRead_put _ _ _ _ _ _ _ _ _ he, op_modSlave, updInst_put _ _ _ _ _ _ _ hk, op_retNat]

end messages

/-- Settles O36: SLAVE_READ and SLAVE_WRITE by their laws, under lock S. -/
theorem slaveReadAndWriteMoveMessages : Obligations.SlaveReadAndWriteMoveMessages := by
  intro s i x dst cap src n q d e h hp hl hen hr
  have hk := has_lt s x i h
  refine ⟨fun h0 => underS_answers (slaveRead · dst cap) h hp hl hen (slaveRead_nodata s i x _ _ _ dst cap hk h0),
    fun h0 hq => ⟨fun hcap => underS_answers (slaveRead · dst cap) h hp hl hen
      (slaveRead_inval s i x _ _ _ dst cap q hk h0 hq hcap), fun hcap hd hdst => ?_⟩,
    fun hn => underS_answers (slaveWrite · n.toNat src) h hp hl hen (slaveWrite_inval s i x _ _ _ _ src hk hn),
    fun hn hs => underS_answers (slaveWrite · n.toNat src) h hp hl hen
      (slaveWrite_busy s i x _ _ _ _ src hk hn hs), fun hn hs he => ?_⟩
  · have hlen := bytes_length hd
    exact ⟨_, writeN_holds _ _ _, hlen ▸ writeN_outside _ _ _, underS_run (slaveRead · dst cap) h hp hl hen
      (slaveRead_put s i x _ _ _ dst cap q d hk hr h0 hq hcap hd (hlen ▸ hdst))⟩
  · have hput := slaveWrite_put s i x s.poolOwner s.draws s.ret n.toNat src e hk hn hs he
    rw [BitVec.ofNat_toNat] at hput
    exact ⟨_, writeN_holds _ _ _, bytes_length he ▸ writeN_outside _ _ _,
      underS_run (slaveWrite · n.toNat src) h hp hl hen hput⟩

/-! ## The slave side and the alert line (R352 to R355, R357) -/

section controls

variable (s : State) (i : InstId) (x : Inst) (o : Option (Nat × Side)) (n : Nat) (r : Ret)

/-- Setting SLAVE_EN turns no enable off (R172). -/
theorem slaveEn_keeps (f : Word) (c : Core) :
    c.wrFun f (f ||| SLAVE_EN) n = c ∧ funDraws f (f ||| SLAVE_EN) n = n :=
  wrFun_keep c f _ n (fun h => by rw [BitVec.getLsbD_or, h, Bool.true_or])
    (fun h => by rw [BitVec.getLsbD_or, h, Bool.true_or])

/-- SLAVE_ENABLE of a seven-bit address (R352). -/
theorem slaveEnable_put (a : BitVec 16) (hk : i.toNat < s.insts.length) (ha : a.toNat ≤ 0x7F) :
    slaveEnable i.toNat a (s.put i.toNat x o n r) = .ok (.word (s.cfg.code .ok), s.put i.toNat
      { x with
        regs := { x.regs with devAddr := a.setWidth 32, funCtrl := x.regs.funCtrl ||| 2#32 }
        slave := { x.slave with slaveEnabled := true }
        outs := x.notedAll [(.devAddr, a.setWidth 32), (.funCtrl, x.regs.funCtrl ||| 2#32)] } o n r) := by
  have hlt : ¬ 0x7F#16 < a := Nat.not_lt.2 ha
  obtain ⟨hcore, hdraws⟩ := slaveEn_keeps n x.regs.funCtrl x.core
  simp only [slaveEnable, op_if_neg _ hlt, op_bind, op_regWrite_devAddr, updInst_put _ _ _ _ _ _ _ hk,
    regRead_put _ _ _ _ _ _ .funCtrl hk (.inl (by decide)), Inst.view, regWrite_funCtrl_put _ _ _ _ _ _ _ hk, hcore,
    hdraws, op_modSlave, op_retCode, put_cfg, Inst.noted, Inst.notedAll, List.append_assoc]
  rfl

/-- SLAVE_DISABLE (R353). -/
theorem slaveDisable_put (hk : i.toNat < s.insts.length) : ∃ b c d j, slaveDisable i.toNat (s.put i.toNat x o n r) =
    .ok (.word (s.cfg.code .ok), s.put i.toNat ({ x with
      regs := { x.regs with funCtrl := x.regs.funCtrl &&& 0xFFFFFFFD#32 }
      core := x.core.afterFun x.regs.funCtrl (x.regs.funCtrl &&& 0xFFFFFFFD#32) b c d
      slave := { x.slave with slaveEnabled := false }
      outs := x.noted .funCtrl (x.regs.funCtrl &&& 0xFFFFFFFD#32) } : Inst).aborted (x.release .slave o) j r) := by
  have hmask : ~~~SLAVE_EN = 0xFFFFFFFD#32 := by decide
  obtain ⟨b, c, d, hcore⟩ := wrFun_after x.core x.regs.funCtrl (x.regs.funCtrl &&& 0xFFFFFFFD#32) n
  refine ⟨b, c, d, funDraws x.regs.funCtrl (x.regs.funCtrl &&& 0xFFFFFFFD#32) n, ?_⟩
  simp only [slaveDisable, op_bind, regRead_put _ _ _ _ _ _ .funCtrl hk (.inl (by decide)), Inst.view, hmask,
    regWrite_funCtrl_put _ _ _ _ _ _ _ hk, hcore, op_modSlave, updInst_put _ _ _ _ _ _ _ hk,
    sAbort_put _ _ _ _ _ _ hk, op_retCode, put_cfg]
  rfl

/-- A C.NOP with the level bit b (R354, R355, R214). -/
theorem writeNop_put (b : Bool) (hk : i.toNat < s.insts.length) :
    regWrite i.toNat .cmd (cmdWord .nop 0#4 b 0#16) (s.put i.toNat x o n r) = .ok ((), s.put i.toNat
      { x with regs := { x.regs with en := 0#4, alertEn := b }, outs := x.noted .cmd (cmdWord .nop 0#4 b 0#16) }
      o n r) := by
  rw [op_regWrite_nop _ _ _ (cmdOf_cmdWord .nop 0#4 b 0#16 (by decide)), updInst_put _ _ _ _ _ _ _ hk,
    cmdEn_cmdWord, cmdAlert_cmdWord]

end controls

/-- ALERT_ASSERT and ALERT_DEASSERT: the C.NOP and R_OK (R354, R355). -/
theorem alert_run {s : State} {i : InstId} {x : Inst} (b : Bool) (h : s.Has i x) (hp : s.cfg.slavePresent = true)
    (hen : x.regs.funCtrl.getLsbD 0 = true) :
    slaveCall i (fun k => do regWrite k .cmd (cmdWord .nop 0#4 b 0#16); retCode .ok) s = .next (s.put i.toNat
      { x with regs := { x.regs with en := 0#4, alertEn := b }, outs := x.noted .cmd (cmdWord .nop 0#4 b 0#16) }
      s.poolOwner s.draws (.word (s.cfg.code .ok))) := by
  refine slaveCall_run _ h hp hen ?_
  rw [op_bind, writeNop_put s i x _ _ _ b (has_lt s x i h)]
  rfl

/-- S_ABORT as a step, which is not the one that ends an operator's BUS_RESET (R357, R429). -/
theorem exec_sAbort {s : State} {i : InstId} {x : Inst} (h : s.Has i x) (hp : s.cfg.slavePresent = true)
    (hl : x.Unlocked) (hpc : x.thread.pc ≠ .resetAbort) : exec (.sAbort i) s =
      .next (s.put i.toNat x.aborted (x.release .slave s.poolOwner) s.draws .none) := by
  have hk := has_lt s x i h
  change execSAbort i s = _
  refine step_run s x _ _ _ _ h ?_
  simp only [op_bind, needSlave_put _ _ _ _ _ _ hp, needLocks_put _ _ _ _ _ _ hk hl, getInst_put _ _ _ _ _ _ hk,
    sAbort_put _ _ _ _ _ _ hk]
  cases hx : x.thread.pc with
  | resetAbort => exact absurd hx hpc
  | _ => rfl

/-- Settles O37: each request by the law of what it writes. -/
theorem slaveHostControls : Obligations.SlaveHostControls := by
  intro s i x a h hp hen
  have hk := has_lt s x i h
  refine ⟨fun ha => slaveCall_run (slaveEnable · a) h hp hen (slaveEnable_put s i x _ _ _ a hk ha),
    fun ha => slaveCall_answers (slaveEnable · a) h hp hen (op_if_pos _ ha _ _),
    fun hl => ?_, exec_sAbort h hp, alert_run true h hp hen, alert_run false h hp hen⟩
  obtain ⟨b, c, d, j, hput⟩ := slaveDisable_put s i x s.poolOwner s.draws s.ret hk
  refine ⟨b, c, d, j, slaveCall_run (fun k => do needLocks k; slaveDisable k) h hp hen ?_⟩
  simp only [op_bind, needLocks_put _ _ _ _ _ _ hk hl, hput]

end Sys2Proof.Machine
end

section
/-! PROOFS. The interrupt-status decoder: its steps under the locks, its stages and the sweep (R381 to R385, R399). -/

namespace Sys2Proof.Machine

open Sys2Proof

/-! ## Steps of the decoder -/

section steps

variable {s t : State} {i : InstId} {x y : Inst} {o : Option (Nat × Side)} {n : Nat}

/-- With both locks free an operation that needs them goes on (R112). -/
theorem needLocks_free (h : s.Has i x) (hl : x.Unlocked) : needLocks i.toNat s = .ok ((), s) := by
  have hput := needLocks_put s i.toNat x s.poolOwner s.draws s.ret (has_lt s x i h) hl
  rwa [put_self s _ x h] at hput

/-- A step of the decoder under both locks is its operation's outcome (R112). -/
theorem decoder_step (op : Nat → Op Ret) (h : s.Has i x) (hl : x.Unlocked) :
    stepOn i (fun k => do needLocks k; op k) s = runOp (op i.toNat) s := by
  rw [stepOn_put s x i _ h, put_self s _ x h]
  exact runOp_congr (by rw [op_bind, needLocks_free h hl])

/-- A master handler as a step of its own is the handler's outcome (R109). -/
theorem master_step (op : Nat → Op Unit) (h : s.Has i x) (hl : x.Unlocked) :
    stepOn i (fun k => noRet (do needM k; op k)) s = runOp (noRet (op i.toNat)) s := by
  rw [locked_put op h hl.1, put_self s _ x h]

/-- A slave handler as a step of its own is the handler's outcome (R109, R358). -/
theorem slave_step (op : Nat → Op Unit) (h : s.Has i x) (hl : x.Unlocked) (hp : s.cfg.slavePresent = true) :
    stepOn i (fun k => noRet (do needSlave; needLocks k; op k)) s = runOp (noRet (op i.toNat)) s := by
  have hslave := needSlave_put s i.toNat x s.poolOwner s.draws s.ret hp
  rw [put_self s _ x h] at hslave
  rw [stepOn_put s x i _ h, put_self s _ x h]
  exact runOp_congr (by simp only [noRet, op_bind, hslave, needLocks_free h hl])

/-- A step of the decoder that answers 1, run. -/
theorem decoder_run (op : Nat → Op Unit) (h : s.Has i x) (hl : x.Unlocked)
    (he : op i.toNat (s.put i.toNat x s.poolOwner s.draws s.ret) = .ok ((), t.put i.toNat y o n s.ret)) :
    stepOn i (fun k => do needLocks k; op k; retNat 1) s = .next (t.put i.toNat y o n (.word 1#32)) := by
  rw [decoder_step (fun k => do op k; retNat 1) h hl, ← put_self s _ x h]
  exact runOp_put t _ _ _ _ _ _ _ _ (by rw [op_bind, he]; rfl)

/-- A stage run on a word, as a step that answers the residue. -/
theorem stage_run {f : Nat → Op Word} {w : Word} (h : s.Has i x) (hl : x.Unlocked)
    (he : f i.toNat (s.put i.toNat x s.poolOwner s.draws s.ret) = .ok (w, t.put i.toNat y o n s.ret)) :
    stageStep i f s = .next (t.put i.toNat y o n (.word w)) := by
  rw [stageStep, decoder_step (fun k => do let r ← f k; retWord r) h hl, ← put_self s _ x h]
  exact runOp_put t _ _ _ _ _ _ _ _ (by rw [op_bind, he]; rfl)

/-- Answering 1 after an operation is replacing the answer of its step. -/
theorem runOp_answer (op : Op Unit) :
    runOp (do op; retNat 1) s = giving (runOp (noRet op) s) (.word 1#32) := by
  simp only [runOp, noRet, op_bind]
  cases op s with
  | ok q => rfl
  | error e => cases e <;> rfl

/-- The permission of the decoder's operations: they move no thread, count no recovery and latch no status bit. -/
def decoderPerm : Perm := { thread := false, count := false, latch := false }

/-- After an operation the instance is still there with its locks free, and the parameters are as they were. -/
theorem unlocked_after {α : Type} {op : Op α} {a : α} (hd : Does i.toNat decoderPerm op) (h : s.Has i x)
    (hl : x.Unlocked) (he : op s = .ok (a, t)) : ∃ y, t.Has i y ∧ y.Unlocked ∧ t.cfg = s.cfg := by
  have hm := hd s a t (has_lt s x i h) he
  have hy := List.getElem?_eq_getElem (hm.length ▸ has_lt s x i h)
  obtain ⟨z, hz, hM, hS, -⟩ := hm.sts _ _ hy
  obtain rfl : x = z := Option.some.inj (h.symm.trans hz)
  exact ⟨_, hy, ⟨hM.trans hl.1, hS.trans hl.2⟩, hm.others.1⟩

end steps

/-! ## The stages (R381 to R385, R399) -/

section slaveStop

variable {s t : State} {i : InstId} {x y : Inst} {o : Option (Nat × Side)} {n : Nat} {w used : Word}

/-- STS.SLAVE_STOP runs its stage in the slave role alone and answers the residue (R385, R380). -/
theorem exec_slaveStop (h : s.Has i x) (hl : x.Unlocked) : exec (.stsSlaveStop i w) s =
    runOp ((if x.master.slaveOp then slaveStopStage i.toNat w else pure w) >>= retWord) s := by
  refine (decoder_step (fun k => do
    let q ← (do let x ← getInst k; if x.master.slaveOp then slaveStopStage k w else pure w)
    retWord q) h hl).trans (runOp_congr ?_)
  simp only [op_bind, op_getInst s _ x h]

/-- STS.SLAVE_STOP in the slave role is S_STOP and one write of the bits it consumed (R385). -/
theorem slaveStop_run (h : s.Has i x) (hl : x.Unlocked) (hm : x.master.slaveOp = true) (hk : i.toNat < t.insts.length)
    (he : sStop i.toNat w (s.put i.toNat x s.poolOwner s.draws s.ret) = .ok (used, t.put i.toNat y o n s.ret)) :
    exec (.stsSlaveStop i w) s = .next (t.put i.toNat (y.cleared used) o n (.word (w &&& ~~~used))) := by
  rw [exec_slaveStop h hl, if_pos hm, ← put_self s _ x h]
  refine runOp_put t i.toNat _ o n s.ret _ _ _ ?_
  simp only [slaveStopStage, op_bind, he, clearSts_put _ _ _ _ _ _ _ hk, op_pure]
  rfl

end slaveStop

/-- Settles O47: each stage by its law. -/
theorem stagesAndSweepTakeTheirBits : Obligations.StagesAndSweepTakeTheirBits := by
  intro s i x w cur v d h hl resets
  have hk := has_lt s x i h
  refine ⟨fun r hr => ?_, fun hm => ?_, fun hm hr hc => ?_, ?_, ?_, fun r hr => ?_, ?_⟩
  · have hstage := stage_run (f := (smbusStage · w)) h hl (smbusStage_put s i x _ _ _ w hk)
    simp only [List.mem_cons, List.not_mem_nil, or_false] at hr
    rcases hr with rfl | rfl | rfl <;> exact hstage
  · rw [exec_slaveStop h hl, if_neg (by rw [hm]; decide)]
    rfl
  · intro data leaves
    have hcur (hd : data = true) : x.slave.sCur = some cur := hc (eq_of_beq (Bool.and_eq_true_iff.1 hd).2)
    refine ⟨fun hd => ?_, fun hd hdm hx hle hrc hfit => ?_, fun hd hp hdm e hf => ?_⟩
    · exact slaveStop_run h hl hm hk
        (sStop_put s i x _ _ _ w hk hr (fun hs => by rw [hc hs]; exact Option.some_ne_none _) hd)
    · exact slaveStop_run h hl hm hk (sStop_data_put s i x _ _ _ w cur v d hk hr (hcur hd) hd hdm hx hle hrc hfit)
    · obtain ⟨a, b, c, j, hstop⟩ := sStop_fails s i s.poolOwner s.draws s.ret w cur d hk hp hr (hcur hd) hd hdm hf
      exact ⟨a, b, c, j, slaveStop_run h hl hm hk hstop⟩
  · rw [← put_same s x _ i h]
    refine step_run s x x _ _ _ (op := fun k => do let m ← mine k; retNat (if m then 1 else 0)) h ?_
    simp only [op_bind, mine_put s i x _ _ _ hk, op_retNat, Inst.irq, anyOf]
    by_cases hz : x.regs.intrSts &&& x.regs.intrCtrl = 0#32 <;> simp [hz]
  · rw [← put_same s x _ i h]
    exact step_run s x x _ _ _ (op := fun _ => retNat 1) h rfl
  · obtain ⟨a, b, c, j, hfault⟩ := faultStage_put s i x s.poolOwner s.draws s.ret w hk
    have hstep := decoder_run (faultStage · w) h hl hfault
    simp only [List.mem_cons, List.not_mem_nil, or_false] at hr
    rcases hr with rfl | rfl <;> exact ⟨a, b, c, j, hstep⟩
  · obtain ⟨a, b, c, j, hsweep⟩ := sweep_put s i x s.poolOwner s.draws s.ret w hk
    exact ⟨a, b, c, j, decoder_run (sweep · w) h hl hsweep⟩

end Sys2Proof.Machine
end

section
/-! PROOFS. The exact-combination table: a row clears its bits and runs its handler, any other word is swept (R386 to
R399). -/

namespace Sys2Proof.Machine

open Sys2Proof

/-! ## Words at the table -/

section rows

variable {s : State} {i : InstId} {x : Inst} {w : Word} {row : Row}

/-- The state with the status bits w of instance i cleared, all else as it was (R386). -/
def State.clearing (s : State) (i : InstId) (x : Inst) (w : Word) : State :=
  s.put i.toNat (x.cleared w) s.poolOwner s.draws s.ret

/-- Clearing status bits leaves the instance in its place. -/
theorem clearing_has (h : s.Has i x) : (s.clearing i x w).Has i (x.cleared w) := put_get _ _ _ _ _ _ (has_lt s x i h)

/-- A word of the table clears its bits, runs its row and answers 1 (R386). -/
theorem rowStep_row (h : s.Has i x) (hl : x.Unlocked) (hw : rowOf x.master.slaveOp s.cfg.slavePresent w = some row) :
    rowStep i w s = runOp (do runRow i.toNat x.master.slaveOp row; retNat 1) (s.clearing i x w) := by
  have htable := tableStages_put s i x s.poolOwner s.draws s.ret w (has_lt s x i h)
  rw [hw, put_self s _ x h] at htable
  rw [rowStep, decoder_step (fun k => do tableStages k w; retNat 1) h hl]
  exact runOp_congr (by simp only [op_bind, htable]; rfl)

/-- A word that no row admits is swept (R399). -/
theorem rowStep_swept (h : s.Has i x) (hl : x.Unlocked) (hw : rowOf x.master.slaveOp s.cfg.slavePresent w = none) :
    rowStep i w s = exec (.stsSweep i w) s := by
  have htable := tableStages_put s i x s.poolOwner s.draws s.ret w (has_lt s x i h)
  rw [hw, put_self s _ x h] at htable
  rw [rowStep, decoder_step (fun k => do tableStages k w; retNat 1) h hl]
  refine Eq.trans ?_ (decoder_step (fun k => do sweep k w; retNat 1) h hl).symm
  exact runOp_congr (by simp only [op_bind, htable])

/-- A row of the master role runs a master handler (R386). -/
theorem rowStep_master {op : Nat → Op Unit} (h : s.Has i x) (hl : x.Unlocked)
    (hw : rowOf x.master.slaveOp s.cfg.slavePresent w = some row)
    (ho : runRow i.toNat x.master.slaveOp row = op i.toNat) :
    rowStep i w s =
      giving (stepOn i (fun k => noRet (do needM k; op k)) (s.clearing i x w)) (.word 1#32) := by
  rw [rowStep_row h hl hw, ho, runOp_answer, master_step op (clearing_has h) hl]

/-- A row of the slave role runs a slave handler (R386). -/
theorem rowStep_slave {op : Nat → Op Unit} (h : s.Has i x) (hl : x.Unlocked) (hp : s.cfg.slavePresent = true)
    (hw : rowOf x.master.slaveOp s.cfg.slavePresent w = some row)
    (ho : runRow i.toNat x.master.slaveOp row = op i.toNat) :
    rowStep i w s =
      giving (stepOn i (fun k => noRet (do needSlave; needLocks k; op k)) (s.clearing i x w)) (.word 1#32) := by
  rw [rowStep_row h hl hw, ho, runOp_answer, slave_step op (clearing_has h) hl hp]

/-- The outcome of the step of a second handler after a first one, the answer of the first replaced by v. -/
def followedBy (first : Host.Outcome State Fault Refusal) (second : State → Host.Outcome State Fault Refusal)
    (v : Ret) : Host.Outcome State Fault Refusal :=
  match first with
  | .next t => giving (second { t with ret := v }) (.word 1#32)
  | o => o

/-- Two operations in one step are the steps of the two, if the second can be taken wherever the first leads. -/
theorem runOp_followedBy {u : State} (a b : Op Unit) (second : State → Host.Outcome State Fault Refusal)
    (hb : ∀ t, a u = .ok ((), t) → second t = runOp (noRet b) t) :
    ∃ v, runOp (do a; b; retNat 1) u = followedBy (runOp (noRet a) u) second v := by
  cases ha : a u with
  | error e => exact ⟨.none, by cases e <;> simp only [runOp, noRet, op_bind, ha] <;> rfl⟩
  | ok q =>
    refine ⟨q.2.ret, ?_⟩
    have hnext := (runOp_answer b).trans (congrArg (giving · _) (hb q.2 ha).symm)
    simp only [runOp, noRet, op_bind, ha, op_pure] at hnext ⊢
    exact hnext

/-- The match of a row, then S_FINAL, or M_ARB, then the match: the steps of the two handlers (R394, R397). -/
theorem rowStep_both {a b : Nat → Op Unit} {first second : State → Host.Outcome State Fault Refusal}
    (h : s.Has i x) (hl : x.Unlocked) (hw : rowOf x.master.slaveOp s.cfg.slavePresent w = some row)
    (ho : runRow i.toNat x.master.slaveOp row = (do a i.toNat; b i.toNat)) (hd : Does i.toNat decoderPerm (a i.toNat))
    (ha : first (s.clearing i x w) = runOp (noRet (a i.toNat)) (s.clearing i x w))
    (hb : ∀ (t : State) (y : Inst), t.Has i y → y.Unlocked → t.cfg = s.cfg → second t = runOp (noRet (b i.toNat)) t) :
    ∃ v, rowStep i w s = followedBy (first (s.clearing i x w)) second v := by
  obtain ⟨v, hv⟩ := runOp_followedBy (u := s.clearing i x w) (a i.toNat) (b i.toNat) second fun t ht => by
    obtain ⟨y, hy, hly, hc⟩ := unlocked_after hd (clearing_has h) hl ht
    exact hb t y hy hly hc
  refine ⟨v, ?_⟩
  rw [rowStep_row h hl hw, ho, ha, ← hv, bind_assoc]

end rows

/-- The completion of recovery's command (R398). -/
theorem recoverDone_put (s : State) (i : InstId) (x : Inst) (o : Option (Nat × Side)) (n : Nat) (r : Ret)
    (hk : i.toNat < s.insts.length) : recoverDone i.toNat (s.put i.toNat x o n r) = .ok ((), s.put i.toNat
      (if x.master.waiting = .recovCmd then { x with master := { x.master with done := true } }
      else { x with outs := { x.outs with log := x.outs.log ++ [.recoveryWithNoInitiator] } }) o n r) := by
  simp only [recoverDone, op_bind, getInst_put _ _ _ _ _ _ hk]
  by_cases hw : x.master.waiting = .recovCmd
  · simp only [hw, if_true, op_complete, updInst_put _ _ _ _ _ _ _ hk, if_neg (show Waiting.recovCmd ≠ .none by decide)]
  · simp only [hw, if_false, op_logRec, updInst_put _ _ _ _ _ _ _ hk]

/-- A row, run: its handler after the clearing write (R386). -/
theorem row_run {s t : State} {i : InstId} {x y : Inst} {o : Option (Nat × Side)} {n : Nat} {w : Word} {row : Row}
    (h : s.Has i x) (hl : x.Unlocked) (hw : rowOf x.master.slaveOp s.cfg.slavePresent w = some row)
    (he : runRow i.toNat x.master.slaveOp row (s.put i.toNat (x.cleared w) s.poolOwner s.draws s.ret) =
      .ok ((), t.put i.toNat y o n s.ret)) :
    rowStep i w s = .next (t.put i.toNat y o n (.word 1#32)) := by
  rw [rowStep_row h hl hw]
  exact runOp_put t _ _ _ _ _ _ _ _ (by rw [op_bind, State.clearing, he]; rfl)

/-- Settles O48: each row by the step of its handler, a word that no row admits by `rowStep_swept`. -/
theorem exactRowsClearThenRunTheirHandler : Obligations.ExactRowsClearThenRunTheirHandler := by
  intro s i x h hl at' runs both swept
  have hk := has_lt s x i h
  have master {w : Word} {row : Row} (op : Nat → Op Unit) (hw : rowOf x.master.slaveOp s.cfg.slavePresent w = some row)
    (ho : runRow i.toNat x.master.slaveOp row = op i.toNat) := rowStep_master h hl hw ho
  have slave (hp : s.cfg.slavePresent = true) {w : Word} {row : Row} (op : Nat → Op Unit)
    (hw : rowOf x.master.slaveOp s.cfg.slavePresent w = some row)
    (ho : runRow i.toNat x.master.slaveOp row = op i.toNat) := rowStep_slave h hl hp hw ho
  have isSwept {w : Word} (hw : rowOf x.master.slaveOp s.cfg.slavePresent w = none) := rowStep_swept h hl hw
  refine ⟨fun hm hp => ?_, fun hm => ?_, fun hp => ⟨?_, ?_⟩, fun hp => ?_, ?_, ?_⟩
  · rw [hm, hp] at slave isSwept
    exact ⟨slave rfl sTxAck rfl rfl, slave rfl sFinal rfl rfl, slave rfl (sData · false) rfl rfl,
      isSwept rfl, isSwept rfl, isSwept rfl, isSwept rfl, isSwept rfl⟩
  · rw [hm] at master
    refine ⟨master (mDone · .tx false) rfl rfl, master (mDone · .tx true) rfl rfl, master (mNack · false) rfl rfl,
      master (mNack · true) rfl rfl, master (mDone · .rx false) rfl rfl, master (mDone · .rx true) rfl rfl,
      master mStopDone rfl rfl, fun hp => ?_⟩
    exact rowStep_both (first := exec (.sMatch i)) (second := exec (.sFinal i)) h hl (by rw [hm, hp]; rfl)
      (a := sMatch) (b := sFinal) rfl does_sMatch (slave_step sMatch (clearing_has h) hl hp)
      fun t y ht hly hc => slave_step sFinal ht hly (hc ▸ hp)
  · rw [hp] at slave
    exact slave rfl sMatch rfl rfl
  · exact rowStep_both (first := exec (.mArb i)) (second := exec (.sMatch i)) h hl (by rw [hp]; rfl)
      (a := mArb) (b := sMatch) rfl does_mArb (master_step mArb (clearing_has h) hl)
      fun t y ht hly hc => slave_step sMatch ht hly (hc ▸ hp)
  · rw [hp] at isSwept
    exact ⟨isSwept rfl, isSwept rfl, isSwept rfl⟩
  · exact master mArb rfl rfl
  · exact row_run h hl rfl (recoverDone_put s i (x.cleared 0x2000#32) _ _ _ hk)

end Sys2Proof.Machine
end

section
/-! PROOFS. What the rows of the exact-combination table leave of a message, of a recovery and of the slave engine (R387
to R398). -/

namespace Sys2Proof.Machine

open Sys2Proof

/-! ## Rows of the master role -/

/-- Clearing status bits leaves the master engine. -/
@[simp] theorem cleared_master (x : Inst) (w : Word) : (x.cleared w).master = x.master := rfl

/-- A row that runs M_DONE completes a message that is over (R387, R388, R391, R392). -/
theorem row_completes {s : State} {i : InstId} {x : Inst} {w : Word} {row : Row} {kind : Kind} {stop : Bool} {m : Msg}
    {src : List Byte} {b : Byte} (h : s.Has i x) (hl : x.Unlocked) (hm : x.master.slaveOp = false)
    (hw : rowOf false s.cfg.slavePresent w = some row) (ho : runRow i.toNat false row = mDone i.toNat kind stop)
    (hc : s.CanAccount i (x.cleared w) kind m src b)
    (he : ((x.cleared w).accounted m stop b).master.Ended) :
    rowStep i w s = .next (({ s with mem := s.copied x m src } : State).put i.toNat
      (((x.cleared w).accounted m stop b).over .completeOk) s.poolOwner s.draws (.word 1#32)) := by
  have hk := has_lt s x i h
  rw [← hm] at hw ho
  refine row_run h hl hw ?_
  rw [ho, mDone_account s i (x.cleared w) _ _ _ kind stop m src b hk hc]
  exact afterChunk_ended _ i _ _ _ _ hk he hc.1.1

/-- Settles O49: each row by its handler's law, on the instance whose status bits the row has cleared. -/
theorem exactRowsCompleteTheMessage : Obligations.ExactRowsCompleteTheMessage := by
  intro s i x d m src b h hl leaves nack
  have hk := has_lt s x i h
  refine ⟨fun hm => ⟨?_, fun hw hd hmsg hi hs => ?_, fun hw hst => ?_⟩,
    row_run h hl rfl (mArb_put s i (x.cleared 0x0008#32) _ _ _ hk), fun hw => ?_, fun hw => ?_⟩
  · intro q hq
    simp only [List.mem_cons, List.not_mem_nil, or_false] at hq
    rcases hq with rfl | rfl | rfl | rfl <;> exact row_completes h hl hm rfl rfl
  · have hnack (w : Word) (stop : Bool) :=
      mNack_put s i (x.cleared w) s.poolOwner s.draws s.ret stop d m hk hw hd hmsg hi
    refine ⟨fun hseen => row_run (row := .txNak) h hl (by rw [hm]; rfl) ?_,
      row_run (row := .txNakStop) h hl (by rw [hm]; rfl) ?_⟩
    · rw [hm]
      refine (hnack 0x0002#32 false).trans ?_
      rw [Bool.or_false, cleared_master, if_neg (by rw [hseen, Bool.and_false]; decide), if_pos hs, op_modMaster,
        updInst_put _ _ _ _ _ _ _ hk]
      rfl
    · refine (hnack 0x0012#32 true).trans ?_
      rw [Bool.or_true, cleared_master, if_pos (by rw [hs]; rfl)]
      refine finishMsg_put s i _ _ _ _ .completeErr hk ?_
      rw [show _ = Waiting.xfer from hw.1]
      decide
  · refine row_run h hl (w := 0x0010#32) (by rw [hm]; rfl) ?_
    exact mStopDone_put s i (x.cleared 0x0010#32) _ _ _ hk hw hst
  · have hput := recoverDone_put s i (x.cleared 0x2000#32) s.poolOwner s.draws s.ret hk
    rw [if_pos (show (x.cleared 0x2000#32).master.waiting = .recovCmd from hw)] at hput
    exact row_run h hl rfl hput
  · have hput := recoverDone_put s i (x.cleared 0x2000#32) s.poolOwner s.draws s.ret hk
    rw [if_neg (show (x.cleared 0x2000#32).master.waiting ≠ .recovCmd from hw)] at hput
    exact row_run h hl rfl hput

/-! ## Rows with SLAVE_MATCH (R393, R394, R397) -/

section serving

variable (s : State) (i : InstId) (x : Inst) (g : Config) (a : Byte) (w : Nat) (d : List Byte) (code : XferState)

/-- Loading bytes into a space leaves the parameters. -/
@[simp] theorem loaded_cfg (m : Mode) : (s.loaded m w d).cfg = s.cfg := by cases m <;> rfl

/-- Opening a transaction leaves the parameters. -/
@[simp] theorem served_cfg : (s.served x a w d).cfg = s.cfg := by
  unfold State.served
  split
  · exact loaded_cfg ..
  · rfl

/-- Opening a transaction leaves the number of instances. -/
@[simp] theorem served_length : (s.served x a w d).insts.length = s.insts.length := by
  unfold State.served
  split
  · exact loaded_length ..
  · rfl

/-- Opening a transaction keeps the ring's capacity, and one that receives has a slot open (R342 to R344). -/
theorem serving_slave : (x.serving g a w d code).slave.ring.length = x.slave.ring.length
    ∧ ((x.serving g a w d code).slave.sstate = .rx → (x.serving g a w d code).slave.sCur ≠ none) := by
  unfold Inst.serving
  split
  · exact ⟨rfl, fun h => nomatch h⟩
  · refine ⟨?_, fun _ => Option.some_ne_none _⟩
    simp only [Inst.rxWindow, Inst.opened, List.length_modify]
    split
    · exact List.length_modify ..
    · rfl

/-- S_MATCH with no slave transaction under way opens the transaction of the matched address (R341, R321). -/
theorem sMatch_idle (o : Option (Nat × Side)) (n : Nat) (r : Ret) (hk : i.toNat < s.insts.length)
    (hr : x.slave.ring.length = s.cfg.ringCap) (hs : x.slave.sstate = .idle) : ∃ (a1 a2 a3 : Bool),
    let m := selected (s.cfg.inst i.toNat) .slave o
    let z := (x.preempted a1 a2 a3).matched m
    z.core.inflight = none → s.CanServe i z x.regs.byteRx w d → ∃ code j, sideCode (serveCmd x.regs.byteRx) code ∧
      sMatch i.toNat (s.put i.toNat x o n r) = .ok ((), (s.served z x.regs.byteRx w d).put i.toNat
        (z.serving s.cfg x.regs.byteRx w d code) (if m = .buf then some (i.toNat, Side.slave) else o) j r) := by
  obtain ⟨a1, a2, a3, hmatch⟩ := sMatch_put s i x o n r w d hk hr (fun h => by rw [hs] at h; cases h)
  rw [hs] at hmatch
  exact ⟨a1, a2, a3, hmatch⟩

/-- S_FINAL of a transaction just opened finishes it (R348). -/
theorem sFinal_serving (z : Inst) (p : Option (Nat × Side)) (j : Nat) (r : Ret) (hk : i.toNat < s.insts.length)
    (hr : z.slave.ring.length = s.cfg.ringCap) :
    sFinal i.toNat ((s.served z a w d).put i.toNat (z.serving s.cfg a w d code) p j r) = .ok ((),
      (s.served z a w d).put i.toNat ((z.serving s.cfg a w d code).finished s.cfg.ringCap)
        ((z.serving s.cfg a w d code).release .slave p) j r) := by
  obtain ⟨hring, hopen⟩ := serving_slave z s.cfg a w d code
  have hfinal := sFinal_put (s.served z a w d) i (z.serving s.cfg a w d code) p j r (by rwa [served_length])
    (by rw [hring, hr, served_cfg]) hopen
  rwa [served_cfg] at hfinal

end serving

/-- A row that comes to S_MATCH on the instance e, with S_FINAL after it or not, opens the transaction, and finishes it
or not (R393, R394, R397). -/
theorem matchRow_run {s : State} {i : InstId} {x : Inst} {v : Word} {row : Row} (e : Inst) (fin : Bool) (w : Nat)
    (d : List Byte) (h : s.Has i x) (hl : x.Unlocked) (hv : rowOf x.master.slaveOp s.cfg.slavePresent v = some row)
    (hr : e.slave.ring.length = s.cfg.ringCap) (hs : e.slave.sstate = .idle)
    (ho : runRow i.toNat x.master.slaveOp row (s.put i.toNat (x.cleared v) s.poolOwner s.draws s.ret) =
      (do sMatch i.toNat; whenB fin (sFinal i.toNat) : Op Unit) (s.put i.toNat e s.poolOwner s.draws s.ret)) :
    ∃ (a1 a2 a3 : Bool),
      let m := selected (s.cfg.inst i.toNat) .slave s.poolOwner
      let p := if m = .buf then some (i.toNat, Side.slave) else s.poolOwner
      let z := (e.preempted a1 a2 a3).matched m
      let a := e.regs.byteRx
      z.core.inflight = none → s.CanServe i z a w d → ∃ (code : XferState) (j : Nat), sideCode (serveCmd a) code ∧
        let y := z.serving s.cfg a w d code
        rowStep i v s = .next ((s.served z a w d).put i.toNat (if fin then y.finished s.cfg.ringCap else y)
          (if fin then y.release .slave p else p) j (.word 1#32)) := by
  have hk := has_lt s x i h
  obtain ⟨a1, a2, a3, hmatch⟩ := sMatch_idle s i e w d s.poolOwner s.draws s.ret hk hr hs
  refine ⟨a1, a2, a3, fun hf hserve => ?_⟩
  obtain ⟨code, j, hcode, hput⟩ := hmatch hf hserve
  refine ⟨code, j, hcode, row_run h hl hv (ho.trans ?_)⟩
  rw [op_bind, hput]
  cases fin with
  | false => rfl
  | true =>
    have hkept := congrArg (·.ring.length) (preempted_keeps e a1 a2 a3).1
    exact sFinal_serving s i _ w d code _ _ j s.ret hk (hkept.trans hr)

/-- Settles O50: S_MATCH after the clearing write, in the one row with M_ARB before it, in another with S_FINAL after. -/
theorem matchRowsOpenATransaction : Obligations.MatchRowsOpenATransaction := by
  intro s i x w d h hl hp hr hs m p a q hq hrole
  simp only [List.mem_cons, List.not_mem_nil, or_false] at hq
  rcases hq with rfl | rfl | rfl
  · refine matchRow_run (row := .matched) (x.cleared 0x0084#32) false w d h hl (by rw [hp]; rfl) hr hs ?_
    exact congrFun (bind_pure_unit (x := sMatch i.toNat)).symm _
  · exact matchRow_run (row := .matchedStop) (x.cleared 0x0094#32) true w d h hl (by rw [hp, hrole rfl]; rfl) hr hs
      rfl
  · refine matchRow_run (row := .arbLossMatch) ((x.cleared 0x008C#32).ended 0x00000008#32) false w d h hl
      (by rw [hp]; rfl) hr hs ?_
    rw [runRow, op_bind, mArb_put _ _ _ _ _ _ (has_lt s x i h)]
    exact congrFun (bind_pure_unit (x := sMatch i.toNat)).symm _

end Sys2Proof.Machine
end

section
/-! PROOFS. One invocation of the decoder: its stages in order, and the status bits it clears (R380, R400). -/

namespace Sys2Proof.Machine

open Sys2Proof

/-! ## The stages in order (R380) -/

section order

variable {s t u : State} {i : InstId} {x y : Inst} {w : Word}

/-- SMBUS_STAGE leaves the master engine and the locks (R383). -/
theorem smbused_keeps : (x.smbused w).master = x.master ∧ (x.smbused w).lockM = x.lockM
    ∧ (x.smbused w).lockS = x.lockS := by
  unfold Inst.smbused
  split
  · exact ⟨rfl, rfl, rfl⟩
  · cases w.getLsbD 9 && x.regs.intrCtrl.getLsbD 9 <;> exact ⟨rfl, rfl, rfl⟩

/-- An invocation while the instance's line is off is not the instance's (R381). -/
theorem irq_notMine (h : s.Has i x) (hl : x.Unlocked) (hoff : x.regs.intrSts &&& x.regs.intrCtrl = 0#32) :
    exec (.irq i) s = .next { s with ret := .word 0#32 } := by
  have hk := has_lt s x i h
  have hirq : x.irq = false := by simp [Inst.irq, anyOf, hoff]
  rw [← put_same s x _ i h]
  refine call_run s x x _ _ _ (op := fun k => do needLocks k; irq k) h ?_
  simp only [op_bind, needLocks_put _ _ _ _ _ _ hk hl, irq, mine_put _ _ _ _ _ _ hk, hirq, Bool.not_false, if_true,
    op_retNat]

/-- Stages 4 to 6 of a word without a STOP of the slave role: the table (R380). -/
theorem lateStages_table (h : s.Has i x) (hl : x.Unlocked) (hs : (w.getLsbD 4 && x.master.slaveOp) = false) :
    runOp (do lateStages i.toNat w; retNat 1) s = rowStep i w s := by
  rw [rowStep, decoder_step (fun k => do tableStages k w; retNat 1) h hl]
  refine runOp_congr ?_
  simp only [lateStages, op_bind, op_getInst s _ x h, (anyOf_rx w).2.2.1, hs, Bool.false_eq_true, if_false]

/-- Stages 4 to 6 of a word with a STOP of the slave role: SLAVE_STOP_STAGE, then its residue (R380, R385). -/
theorem lateStages_slaveStop (h : s.Has i x) (h4 : w.getLsbD 4 = true) (hs : x.master.slaveOp = true) :
    runOp (do lateStages i.toNat w; retNat 1) s =
      runOp (do let q ← slaveStopStage i.toNat w; whenB (q != 0#32) (tableStages i.toNat q); retNat 1) s := by
  refine runOp_congr ?_
  simp only [lateStages, op_bind, op_getInst s _ x h, (anyOf_rx w).2.2.1, h4, hs, Bool.and_true, if_true]
  cases slaveStopStage i.toNat w s <;> rfl

/-- A word at the table is the step of the row it equals, or whatever the rest of the table makes of it (R386). -/
theorem rowStep_ite {k : Word} {f o : Host.Outcome State Fault Refusal} (he : rowStep i k s = f)
    (ho : w ≠ k → rowStep i w s = o) : rowStep i w s = if w = k then f else o := by
  by_cases hw : w = k
  · rw [if_pos hw, hw, he]
  · rw [if_neg hw, ho hw]

/-- A step whose first operation ends in u is the step of the rest from u. -/
theorem runOp_after {α : Type} {op : Op α} {a : α} (f : α → Op Ret) (h : op s = .ok (a, u)) :
    runOp (op >>= f) s = runOp (f a) u := runOp_congr (by rw [op_bind, h])

/-- A step whose first operation stops is that stop, whatever should come next. -/
theorem runOp_fails {α : Type} {op : Op α} {e : Stop} (f : α → Op Ret) (h : op s = .error e) :
    runOp (op >>= f) s = runOp (fun _ => .error e) s := runOp_congr (by rw [op_bind, h])

end order

/-- Settles O51: the stages by `irq_late`, and a word at the table by its row's step. -/
theorem interruptRunsTheStagesInOrder : Obligations.InterruptRunsTheStagesInOrder := by
  intro s i x h hl t r table
  have hk := has_lt s x i h
  obtain ⟨hmaster, hM, hS⟩ := smbused_keeps (x := x) (w := x.regs.intrSts)
  have ht : t.Has i (x.smbused x.regs.intrSts) := put_get _ _ _ _ _ _ hk
  have hlt : (x.smbused x.regs.intrSts).Unlocked := ⟨hM.trans hl.1, hS.trans hl.2⟩
  have htable (q : Word) (u : State) (y : Inst) (hu : u.Has i y) (hly : y.Unlocked) : rowStep i q u = table q u := by
    refine rowStep_ite rfl fun h1 => rowStep_ite rfl fun h2 => rowStep_ite rfl fun h3 => rowStep_ite rfl fun h4 =>
      rowStep_ite rfl fun h5 => rowStep_ite rfl fun h6 => rowStep_ite rfl fun h7 => rowStep_ite rfl fun h8 =>
      rowStep_ite rfl fun h9 => rowStep_ite rfl fun h10 => rowStep_ite rfl fun h11 => rowStep_ite rfl fun h12 =>
      rowStep_swept hu hly ?_
    simp only [rowOf, h1, h2, h3, h4, h5, h6, h7, h8, h9, h10, h11, h12, if_false]
  refine ⟨irq_notMine h hl, fun hon => ?_⟩
  have hlate := irq_late s i x h hl hon
  refine ⟨fun hz => ?_, fun hf => ?_, fun hz hf hs => ?_, fun hf h4 hs => ?_⟩
  · exact hlate.trans (congrArg (runOp · t) (if_pos hz))
  · refine hlate.trans (Eq.trans ?_ (decoder_step (fun k => do faultStage k r; retNat 1) ht hlt).symm)
    have hz : r ≠ 0#32 := fun hz => hf (by rw [hz]; exact BitVec.zero_and)
    exact congrArg (runOp · t) ((if_neg hz).trans (if_pos (bne_iff_ne.2 hf)))
  · refine hlate.trans (Eq.trans (congrArg (runOp · t) ((if_neg hz).trans (if_neg fun h => bne_iff_ne.1 h hf))) ?_)
    rw [lateStages_table ht hlt (hmaster ▸ hs)]
    exact htable r t _ ht hlt
  · have hz : r ≠ 0#32 := fun hz => by rw [hz] at h4; cases h4
    have hstop : exec (.stsSlaveStop i r) t = runOp (do let q ← slaveStopStage i.toNat r; retWord q) t := by
      rw [exec_slaveStop ht hlt, if_pos (hmaster ▸ hs)]
    have hirq : exec (.irq i) s =
        runOp (do let q ← slaveStopStage i.toNat r; whenB (q != 0#32) (tableStages i.toNat q); retNat 1) t :=
      (hlate.trans (congrArg (runOp · t) ((if_neg hz).trans (if_neg fun h => bne_iff_ne.1 h hf)))).trans
        (lateStages_slaveStop ht h4 (hmaster ▸ hs))
    cases hq : slaveStopStage i.toNat r t with
    | error e =>
      rw [hstop, hirq, runOp_fails _ hq, runOp_fails _ hq]
      cases e <;> rfl
    | ok p =>
      obtain ⟨q, u⟩ := p
      obtain ⟨y, hu, hly, -⟩ := unlocked_after does_slaveStopStage ht hlt hq
      rw [show exec (.stsSlaveStop i r) t = .next { u with ret := .word q } from hstop.trans (runOp_after _ hq), hirq,
        runOp_after _ hq]
      refine ⟨q, u.ret, rfl, ?_⟩
      by_cases hq0 : q = 0#32
      · rw [if_pos hq0, hq0]
        rfl
      · rw [if_neg hq0, ← htable q u y hu hly, rowStep, decoder_step (fun k => do tableStages k q; retNat 1) hu hly,
          show (q != 0#32) = true from bne_iff_ne.2 hq0]
        rfl

/-! ## The status bits an invocation clears (R400) -/

section clearing

variable {s t : State} {i : InstId} {x : Inst} {v w m : Word}

/-- The instance's status bits are all of the word w. -/
def Inst.StsWithin (x : Inst) (w : Word) : Prop := x.regs.intrSts &&& ~~~w = 0#32

/-- Bits within v, less u, are within v less u. -/
theorem without_within {u : Word} (h : w &&& ~~~v = 0#32) : w &&& ~~~u &&& m &&& ~~~(v &&& ~~~u) = 0#32 := by
  apply BitVec.eq_of_getLsbD_eq
  intro j hj
  have hb := congrArg (fun z => z.getLsbD j) h
  simp only [BitVec.getLsbD_and, BitVec.getLsbD_not, hj, decide_true, Bool.true_and, BitVec.getLsbD_zero] at hb ⊢
  cases hw : w.getLsbD j
  · rfl
  · rw [hw] at hb
    cases hv : v.getLsbD j
    · rw [hv] at hb
      cases hb
    · cases u.getLsbD j <;> simp

/-- Bits within a mask are those the mask keeps. -/
theorem and_of_within (h : w &&& ~~~m = 0#32) : w &&& m = w := by
  apply BitVec.eq_of_getLsbD_eq
  intro j hj
  have hb := congrArg (fun z => z.getLsbD j) h
  simp only [BitVec.getLsbD_and, BitVec.getLsbD_not, hj, decide_true, Bool.true_and, BitVec.getLsbD_zero] at hb ⊢
  cases hm : m.getLsbD j
  · rw [hm, Bool.not_false, Bool.and_true] at hb
    rw [hb, Bool.false_and]
  · rw [Bool.and_true]

/-- Clearing the bits of w in m is clearing those of m. -/
theorem and_not_and (w m : Word) : w &&& ~~~(w &&& m) = w &&& ~~~m := by
  apply BitVec.eq_of_getLsbD_eq
  intro j hj
  simp only [BitVec.getLsbD_and, BitVec.getLsbD_not, hj, decide_true, Bool.true_and]
  cases w.getLsbD j <;> rfl

/-- SMBUS_STAGE on the word read leaves the other bits of it in INTR_STS (R383). -/
theorem smbused_sts (h : x.regs.intrSts &&& 0xFFFF8000#32 = 0#32) :
    (x.smbused x.regs.intrSts).regs.intrSts = x.regs.intrSts &&& 0xFFFFF1FF#32 := by
  have hclear (y : Inst) (hy : y.regs.intrSts = x.regs.intrSts) :
      (y.cleared (x.regs.intrSts &&& 0x0E00#32)).regs.intrSts = x.regs.intrSts &&& 0xFFFFF1FF#32 := by
    show y.regs.intrSts &&& ~~~(x.regs.intrSts &&& 0x0E00#32) &&& 0x7FFF#32 = _
    rw [hy, and_not_and]
    refine and_of_within ?_
    rw [BitVec.and_assoc, BitVec.and_comm (~~~0x0E00#32), ← BitVec.and_assoc,
      show x.regs.intrSts &&& ~~~0x7FFF#32 = 0#32 from h, BitVec.zero_and]
  unfold Inst.smbused
  split
  · exact (and_smbus _ ‹_›).symm
  · refine hclear _ ?_
    split <;> rfl

/-- BUS_RESET leaves no status bit: its TIMING_INIT clears them all (R429, R244). -/
theorem busReset_sts (g : Config) (ic : InstConfig) (a b c : Bool) : (x.busReset g ic a b c).regs.intrSts = 0#32 := by
  unfold Inst.busReset
  split <;> rfl

/-- An operation that latches nothing keeps the status bits within a word. -/
theorem leads_latchless {α : Type} {k : Nat} {op : Op α} (hd : Does k decoderPerm op) :
    Leads k (·.StsWithin w) op fun _ y => y.StsWithin w := fun s a t x hx hw ht => by
  have hm := hd s a t (List.getElem?_eq_some_iff.1 hx).1 ht
  have hy := List.getElem?_eq_getElem (hm.length ▸ (List.getElem?_eq_some_iff.1 hx).1)
  obtain ⟨z, hz, -, -, hsts⟩ := hm.sts k _ hy
  obtain rfl : x = z := Option.some.inj (hx.symm.trans hz)
  exact ⟨_, hy, subset_trans _ _ _ (hsts rfl) hw⟩

/-- One write clears its bits (R176). -/
theorem leads_clearSts : Leads i.toNat (·.StsWithin w) (clearSts i.toNat v) fun _ y => y.StsWithin (w &&& ~~~v) :=
  fun s a t x hx hw ht => by
    rw [← put_self s _ x hx, clearSts_put _ _ _ _ _ _ _ (has_lt s x i hx)] at ht
    cases ht
    exact ⟨_, put_get _ _ _ _ _ _ (has_lt s x i hx), without_within hw⟩

/-- SLAVE_STOP_STAGE leaves status bits of its residue alone (R385). -/
theorem leads_slaveStopStage :
    Leads i.toNat (·.StsWithin w) (slaveStopStage i.toNat w) fun q y => y.StsWithin q :=
  leads_bind (leads_latchless does_sStop) fun _ =>
    leads_bind leads_clearSts fun _ => leads_pure fun _ h => h

/-- Stages 5 and 6 leave no status bit (R386, R399). -/
theorem leads_tableStages :
    Leads i.toNat (·.StsWithin w) (tableStages i.toNat w) fun _ y => y.regs.intrSts = 0#32 := fun s a t x hx hw ht => by
  obtain ⟨y, hy, -⟩ := leads_latchless does_tableStages s a t x hx hw ht
  rw [← put_self s _ x hx] at ht
  exact ⟨y, hy, tableStages_clears s i x _ _ _ w a t y (has_lt s x i hx) hw ht hy⟩

/-- Stages 4 to 6 leave no status bit (R385, R386, R399). -/
theorem leads_lateStages :
    Leads i.toNat (·.StsWithin w) (lateStages i.toNat w) fun _ y => y.regs.intrSts = 0#32 :=
  leads_reading fun _ _ => leads_ite
    (fun _ => leads_bind leads_slaveStopStage fun q => leads_ite (fun _ => leads_tableStages) fun hq =>
      leads_pure fun y hy => by
        obtain rfl : q = 0#32 := by simpa using hq
        exact (BitVec.and_allOnes (x := y.regs.intrSts)).symm.trans hy)
    fun _ => leads_tableStages

/-- FAULT_STAGE leaves no status bit (R384). -/
theorem leads_faultStage {P : Inst → Prop} :
    Leads i.toNat P (faultStage i.toNat w) fun _ y => y.regs.intrSts = 0#32 := fun s a t x hx _ ht => by
  obtain ⟨b, c, d, j, hfault⟩ := faultStage_put s i x s.poolOwner s.draws s.ret w (has_lt s x i hx)
  rw [← put_self s _ x hx, hfault] at ht
  cases ht
  exact ⟨_, put_get _ _ _ _ _ _ (has_lt s x i hx), busReset_sts ..⟩

/-- The stages after the SMBus stage, on the whole of INTR_STS, leave no status bit and answer 1 (R382, R384, R401). -/
theorem leads_afterSmbus : Leads i.toNat (·.regs.intrSts = w)
    (if w = 0#32 then retNat 1
      else if anyOf w (ABNORMAL ||| SCL_TIMEOUT) then do faultStage i.toNat w; retNat 1
      else do lateStages i.toNat w; retNat 1)
    fun q y => y.regs.intrSts = 0#32 ∧ q = .word 1#32 := by
  refine leads_ite (fun hw => leads_pure fun y hy => ⟨hy.trans hw, rfl⟩) fun _ => leads_ite (fun _ => ?_) fun _ => ?_
  · exact leads_bind leads_faultStage fun _ => leads_pure fun _ hy => ⟨hy, rfl⟩
  · refine leads_bind (leads_weaken (fun y hy => ?_) leads_lateStages) fun _ => leads_pure fun _ hy => ⟨hy, rfl⟩
    rw [Inst.StsWithin, hy]
    exact BitVec.and_not_self w

/-- An operation that needs both locks completes only when they are free (R112). -/
theorem unlocked_of_needLocks {u : Unit} (h : s.Has i x) (hn : needLocks i.toNat s = .ok (u, t)) : x.Unlocked := by
  obtain ⟨_, s1, hM, hS⟩ := bind_ok hn
  obtain rfl := needM_ok hM
  simp only [needM, needS, op_bind, op_getInst _ _ _ h] at hM hS
  refine ⟨?_, ?_⟩
  · cases hx : x.lockM with
    | none => rfl
    | some a => rw [hx] at hM; cases hM
  · cases hx : x.lockS with
    | none => rfl
    | some a => rw [hx] at hS; cases hS

/-- An invocation that returns found both locks free (R112). -/
theorem unlocked_of_irq (h : s.Has i x) (he : exec (.irq i) s = .next t) : x.Unlocked := by
  have hcall : hostCall i (fun k => do needLocks k; irq k) s = .next t := he
  rw [hostCall_put s x i _ h, put_self s _ x h] at hcall
  obtain ⟨_, _, hop, -⟩ := (runOp_next _ _ _).1 hcall
  obtain ⟨_, _, hlocks, -⟩ := bind_ok hop
  exact unlocked_of_needLocks h hlocks

end clearing

/-- Settles O52: `irq_late` leaves the stages after the SMBus stage, and each way through them clears what is left. -/
theorem everyStatusBitReadIsCleared : Obligations.EveryStatusBitReadIsCleared := by
  intro s t i x y h hhigh hon he hy
  have hlate := (irq_late s i x h (unlocked_of_irq h he) hon).symm.trans he
  obtain ⟨v, u, hop, rfl⟩ := (runOp_next _ _ _).1 hlate
  obtain ⟨z, hz, hsts, hv⟩ := leads_afterSmbus _ v u _ (put_get _ _ _ _ _ _ (has_lt s x i h)) (smbused_sts hhigh) hop
  obtain rfl : z = y := Option.some.inj (hz.symm.trans hy)
  exact ⟨hsts, hv⟩

end Sys2Proof.Machine
end

section
/-! PROOFS. The operator's requests of the recovery subsystem: when they are offered, and its counters and status
(R432 to R434, R493). -/

namespace Sys2Proof.Machine

open Sys2Proof

section requests

variable {s t : State} {i : InstId} {x y : Inst} {o : Option (Nat × Side)} {n : Nat} {q : Ret}

/-- A host request is offered by an initialised instance, and while a blocking call of it runs (R493). -/
theorem offered_put (o : Option (Nat × Side)) (n : Nat) (r : Ret) (hk : i.toNat < s.insts.length)
    (hen : x.regs.funCtrl.getLsbD 0 = true ∨ x.thread.pc ≠ .idle) :
    offered i.toNat (s.put i.toNat x o n r) = .ok ((), s.put i.toNat x o n r) := by
  have hoffer : (initialised x || x.thread.pc != .idle) = true := by
    rw [Bool.or_eq_true, bne_iff_ne]
    exact hen
  simp only [offered, op_bind, getInst_put _ _ _ _ _ _ hk, hoffer, op_require_true]

/-- A host request that is offered, run. -/
theorem offeredCall_run (op : Nat → Op Ret) (h : s.Has i x)
    (hen : x.regs.funCtrl.getLsbD 0 = true ∨ x.thread.pc ≠ .idle)
    (he : op i.toNat (s.put i.toNat x s.poolOwner s.draws s.ret) = .ok (q, t.put i.toNat y o n s.ret)) :
    hostCall i (fun k => do offered k; op k) s = .next (t.put i.toNat y o n q) := by
  refine call_run s x y o n q h ?_
  simp only [op_bind, offered_put _ _ _ (has_lt s x i h) hen, he]

/-- A host request that is offered, answers and changes nothing. -/
theorem offeredCall_answers (op : Nat → Op Ret) (h : s.Has i x)
    (hen : x.regs.funCtrl.getLsbD 0 = true ∨ x.thread.pc ≠ .idle)
    (he : op i.toNat (s.put i.toNat x s.poolOwner s.draws s.ret) =
      .ok (q, s.put i.toNat x s.poolOwner s.draws s.ret)) :
    hostCall i (fun k => do offered k; op k) s = .next { s with ret := q } := by
  rw [← put_same s x q i h]
  exact offeredCall_run op h hen he

end requests

/-- Settles O55: each request answers what it reads of the instance. -/
theorem countersReadAndStatusReadsToClear : Obligations.CountersReadAndStatusReadsToClear := by
  intro s i x h hen
  have hk := has_lt s x i h
  refine ⟨offeredCall_answers (fun k => do let x ← getInst k; retWord x.recov.masterResetCnt) h (.inl hen) ?_,
    offeredCall_answers (fun k => do let x ← getInst k; retWord x.recov.slaveRecoverCnt) h (.inl hen) ?_,
    offeredCall_run (fun k => do
      let x ← getInst k
      modRecov k fun v => { v with recovStatus := 0#32 }
      retWord x.recov.recovStatus) h (.inl hen) ?_⟩
  · simp only [op_bind, getInst_put _ _ _ _ _ _ hk, op_retWord]
  · simp only [op_bind, getInst_put _ _ _ _ _ _ hk, op_retWord]
  · simp only [op_bind, getInst_put _ _ _ _ _ _ hk, op_modRecov, updInst_put _ _ _ _ _ _ _ hk, op_retWord]

end Sys2Proof.Machine
end

section
/-! PROOFS. RECOVER: its classification, its lines as steps of the thread, and the entry of each path (R421 to R426). -/

namespace Sys2Proof.Machine

open Sys2Proof

/-! ## The classification (R421) -/

section entry

variable {s : State} {i : InstId} {x : Inst} {o : Option (Nat × Side)} {n : Nat} {r : Ret}

/-- RECOVER turns the instance away: a wait is outstanding or a slave transaction runs (R421). -/
def Inst.Occupied (x : Inst) : Prop := x.master.waiting ≠ .none ∨ x.master.slaveOp = true

/-- The instance with its thread running a call. -/
def Inst.calling (x : Inst) (c : Call) : Inst := { x with thread := { x.thread with call := c } }

/-- The model's test of an occupied instance. -/
theorem occupied_iff : (x.master.waiting != .none || x.master.slaveOp) = true ↔ x.Occupied := by
  rw [Bool.or_eq_true, bne_iff_ne, Inst.Occupied]

/-- RECOVER of an occupied instance returns E_BUSY. -/
theorem recoverEntry_occupied (hk : i.toNat < s.insts.length) (hb : x.Occupied) :
    recoverEntry i.toNat (s.put i.toNat x o n r) = recoverReturn i.toNat .busy (s.put i.toNat x o n r) := by
  simp only [recoverEntry, op_bind, getInst_put _ _ _ _ _ _ hk, op_if_pos _ (occupied_iff.2 hb)]

/-- RECOVER of any other reads CMD once; the path it selects comes next. -/
theorem recoverEntry_classifies (hk : i.toNat < s.insts.length) (hb : ¬ x.Occupied) :
    recoverEntry i.toNat (s.put i.toNat x o n r) =
      .ok (.none, s.put i.toNat (x.atLine (.classify x.cmdView)) o n r) := by
  simp only [recoverEntry, op_bind, getInst_put _ _ _ _ _ _ hk, op_if_neg _ (mt occupied_iff.1 hb),
    regRead_put _ _ _ _ _ _ .cmd hk (.inl (by decide)), Inst.view, setPc_put _ _ _ _ hk, op_pure]

/-- RECOVER returns to the operator (R432). -/
theorem recoverReturn_operator {v : Code} (hk : i.toNat < s.insts.length) (hc : x.thread.call ≠ .submit) :
    recoverReturn i.toNat v (s.put i.toNat x o n r) =
      .ok (.word (s.cfg.code v), s.put i.toNat { x with thread := Thread.idle } o n r) := by
  simp only [recoverReturn, op_bind, getInst_put _ _ _ _ _ _ hk, op_if_neg _ hc, op_modThread,
    updInst_put _ _ _ _ _ _ _ hk, op_retCode, put_cfg]

/-- RECOVER as the operator calls it (R432). -/
def operatorRecovers (k : Nat) : Op Ret := do
  modThread k fun t => { t with call := .recover }
  recoverEntry k

/-- RECOVER from the operator, of an occupied instance. -/
theorem operatorRecovers_occupied (hk : i.toNat < s.insts.length) (hb : x.Occupied) :
    operatorRecovers i.toNat (s.put i.toNat x o n r) =
      .ok (.word (s.cfg.code .busy), s.put i.toNat { x with thread := Thread.idle } o n r) := by
  rw [operatorRecovers, op_bind, op_modThread, updInst_put _ _ _ _ _ _ _ hk]
  exact (recoverEntry_occupied (x := x.calling .recover) hk hb).trans
    (recoverReturn_operator hk (show Call.recover ≠ .submit by decide))

/-- RECOVER from the operator, of any other. -/
theorem operatorRecovers_classifies (hk : i.toNat < s.insts.length) (hb : ¬ x.Occupied) :
    operatorRecovers i.toNat (s.put i.toNat x o n r) =
      .ok (.none, s.put i.toNat ((x.calling .recover).atLine (.classify x.cmdView)) o n r) := by
  rw [operatorRecovers, op_bind, op_modThread, updInst_put _ _ _ _ _ _ _ hk]
  exact recoverEntry_classifies (x := x.calling .recover) hk hb

/-- RECOVER_REQ of an instance without a blocking call (R432). -/
theorem recoverReq_run {t : State} {y : Inst} {q : Ret} (h : s.Has i x) (hl : x.lockM = none)
    (hen : x.regs.funCtrl.getLsbD 0 = true) (hpc : x.thread.pc = .idle)
    (he : operatorRecovers i.toNat (s.put i.toNat x s.poolOwner s.draws s.ret) =
      .ok (q, t.put i.toNat y o n s.ret)) : exec (.recoverReq i) s = .next (t.put i.toNat y o n q) := by
  have hk := has_lt s x i h
  change execRecoverReq i s = _
  refine offeredCall_run _ h (.inl hen) ?_
  simp only [op_bind, needM_put _ _ _ _ _ _ hk hl, getInst_put _ _ _ _ _ _ hk, hpc, bne_self_eq_false,
    Bool.false_eq_true, if_false]
  exact he

/-- RECOVER_REQ while a blocking call runs (R502). -/
theorem exec_recoverReq_busy (h : s.Has i x) (hl : x.lockM = none) (hpc : x.thread.pc ≠ .idle) :
    exec (.recoverReq i) s = .next { s with ret := .word (s.cfg.code .busy) } := by
  have hk := has_lt s x i h
  change execRecoverReq i s = _
  refine offeredCall_answers _ h (.inr hpc) ?_
  simp only [op_bind, needM_put _ _ _ _ _ _ hk hl, getInst_put _ _ _ _ _ _ hk, op_if_pos _ (bne_iff_ne.2 hpc),
    op_retCode, put_cfg]

end entry

/-! ## RECOVER as a step of the thread -/

section line

variable {s t : State} {i : InstId} {x y : Inst} {o : Option (Nat × Side)} {n : Nat} {q : Ret} {v : Code}

/-- What RECOVER does at each line of a thread (R421 to R424; log entry 6). -/
def recoverLine (k : Nat) : Pc → Op Ret
  | .idle => operatorRecovers k
  | .recoverEntry => recoverEntry k
  | .stopWake e => stopWake k e
  | .deadInit t a => deadStep k t a
  | .deadWake t _ => deadWake k t
  | .deadRestore a => deadRestore k a
  | _ => opRefuse .notEnabled

/-- RECOVER's step is its thread's line, under a free lock M. -/
theorem exec_recover (h : s.Has i x) (hl : x.lockM = none) : exec (.recover i) s =
    runOp (recoverLine i.toNat x.thread.pc) (s.put i.toNat x s.poolOwner s.draws s.ret) := by
  have hk := has_lt s x i h
  change execRecover i s = _
  rw [execRecover, stepOn_put s x i _ h]
  refine runOp_congr ?_
  simp only [op_bind, needM_put _ _ _ _ _ _ hk hl, getInst_put _ _ _ _ _ _ hk]
  cases x.thread.pc <;> rfl

/-- A line that goes on, run. -/
theorem recover_run (h : s.Has i x) (hl : x.lockM = none)
    (he : recoverLine i.toNat x.thread.pc (s.put i.toNat x s.poolOwner s.draws s.ret) =
      .ok (q, t.put i.toNat y o n s.ret)) : exec (.recover i) s = .next (t.put i.toNat y o n q) := by
  rw [exec_recover h hl]
  exact runOp_put t _ _ _ _ _ _ _ _ he

/-- RECOVER's return leaves the count of free values alone. -/
theorem recovered_setDraws :
    ({ s with draws := n } : State).recovered i y v = { s.recovered i y v with draws := n } := by
  unfold State.recovered
  split <;> rfl

/-- A line that has drawn free values and ends in RECOVER's return. -/
theorem recover_returns_drawing (h : s.Has i x) (hl : x.lockM = none)
    (he : recoverLine i.toNat x.thread.pc (s.put i.toNat x s.poolOwner s.draws s.ret) =
      recoverReturn i.toNat v (s.put i.toNat y s.poolOwner n s.ret)) :
    exec (.recover i) s = .next { s.recovered i y v with draws := n } := by
  obtain ⟨r, z, hreturn, hz⟩ := recoverReturn_put { s with draws := n } i y v s.ret (has_lt s x i h)
  rw [← recovered_setDraws, hz]
  exact recover_run h hl (he.trans hreturn)

/-- One that has drawn none. -/
theorem recover_returns (h : s.Has i x) (hl : x.lockM = none)
    (he : recoverLine i.toNat x.thread.pc (s.put i.toNat x s.poolOwner s.draws s.ret) =
      recoverReturn i.toNat v (s.put i.toNat y s.poolOwner s.draws s.ret)) :
    exec (.recover i) s = .next (s.recovered i y v) :=
  (recover_returns_drawing h hl he).trans (congrArg _ (recovered_setDraws (n := s.draws)).symm)

end line

/-! ## The entry of each path (R422 to R426) -/

section paths

variable {s : State} {i : InstId} {x : Inst} {c : Word} {o : Option (Nat × Side)} {n : Nat} {r : Ret}

/-- The instance with bits added to its recovery status (R427). -/
def Inst.marked (x : Inst) (w : Word) : Inst :=
  { x with recov := { x.recov with recovStatus := x.recov.recovStatus ||| w } }

/-- The instance with its thread on a path's first line (R421). -/
def Inst.entered (x : Inst) : Inst := { x with thread := x.entering }

/-- Waiting for recovery's STOP, counted (R423, R426). -/
def Inst.stopSent (x : Inst) (code : XferState) : Inst :=
  { (x.awaiting .recovStop).sends .stop 0#4 0 [] code with
    recov := { (x.marked 0x002#32).recov with masterResetCnt := satInc x.recov.masterResetCnt, rstate := .stopWait }
    thread := { x.thread with pc := .stopWait } }

/-- The first round of the slave-dead loop next, FUN_CTRL saved, counted (R424, R426). -/
def Inst.deadBegun (x : Inst) : Inst :=
  { x with
    recov := { (x.marked 0x004#32).recov with
      slaveRecoverCnt := satInc x.recov.slaveRecoverCnt, savedFun := x.regs.funCtrl, rstate := .slaveLoop 1 }
    thread := { x.thread with pc := .deadInit 1 0 } }

/-- Bits are added to the recovery status (R427). -/
theorem addStatus_put (w : Word) (hk : i.toNat < s.insts.length) :
    addStatus i.toNat w (s.put i.toNat x o n r) = .ok ((), s.put i.toNat (x.marked w) o n r) := by
  rw [addStatus, op_modRecov, updInst_put _ _ _ _ _ _ _ hk]
  rfl

/-- The recovery FSM moves to a state (R72). -/
theorem setRState_put (e : RState) (hk : i.toNat < s.insts.length) : setRState i.toNat e (s.put i.toNat x o n r) =
    .ok ((), s.put i.toNat { x with recov := { x.recov with rstate := e } } o n r) := by
  rw [setRState, op_modRecov, updInst_put _ _ _ _ _ _ _ hk]

/-- A recovery step waits (R423, R424). -/
theorem armRecovery_put (w : Waiting) (hk : i.toNat < s.insts.length) :
    armRecovery i.toNat w (s.put i.toNat x o n r) = .ok ((), s.put i.toNat (x.awaiting w) o n r) := by
  simp only [armRecovery, op_bind, op_modMaster, op_armWait, updInst_put _ _ _ _ _ _ _ hk]
  rfl

/-- A path is entered after its classification, or by an instance without a blocking call (R421). -/
theorem enterPath_put (hk : i.toNat < s.insts.length) (hl : x.lockM = none)
    (hpc : x.thread.pc = .idle ∨ x.thread.pc = .classify c) :
    enterPath i.toNat c (s.put i.toNat x o n r) = .ok ((), s.put i.toNat x.entered o n r) := by
  have hline : (x.thread.pc == .classify c || x.thread.pc == .idle) = true := by
    rw [Bool.or_eq_true, beq_iff_eq, beq_iff_eq]
    exact hpc.symm
  simp only [enterPath, op_bind, needM_put _ _ _ _ _ _ hk hl, getInst_put _ _ _ _ _ _ hk, hline, op_require_true,
    op_whenB, op_modThread, updInst_put _ _ _ _ _ _ _ hk, beq_iff_eq]
  by_cases hidle : x.thread.pc = .idle
  · rw [if_pos hidle, Inst.entered, Inst.entering, if_pos hidle]
  · rw [if_neg hidle, Inst.entered, Inst.entering, if_neg hidle]

/-- PATH_MASTER_STOP up to its wait, with nothing in flight (R423). -/
theorem pathMasterStop_put (hk : i.toNat < s.insts.length) (hf : x.core.inflight = none) : ∃ code j,
    sideCode .stop code
    ∧ pathMasterStop i.toNat (s.put i.toNat x o n r) = .ok (.none, s.put i.toNat (x.stopSent code) o j r) := by
  refine ⟨_, sendDraws x .stop n, codeAt_side .stop n, ?_⟩
  simp only [pathMasterStop, op_bind, op_modRecov, updInst_put _ _ _ _ _ _ _ hk, addStatus_put _ hk,
    armRecovery_put _ hk, setRState_put _ hk, engineStop_put _ _ _ _ _ _ hk, Inst.marked, Inst.awaiting, hf,
    setPc_put _ _ _ _ hk, op_pure]
  rfl

/-- PATH_SLAVE_DEAD up to its first round (R424). -/
theorem pathSlaveDead_put (hk : i.toNat < s.insts.length) :
    pathSlaveDead i.toNat (s.put i.toNat x o n r) = .ok (.none, s.put i.toNat x.deadBegun o n r) := by
  simp only [pathSlaveDead, op_bind, op_modRecov, updInst_put _ _ _ _ _ _ _ hk, addStatus_put _ hk,
    setRState_put _ hk, regRead_put _ _ _ _ _ _ .funCtrl hk (.inl (by decide)), setPc_put _ _ _ _ hk, op_pure]
  rfl

/-- PATH_IDLE (R422). -/
theorem exec_lIdle (h : s.Has i x) (hl : x.lockM = none) (hpc : x.thread.pc = .idle ∨ x.thread.pc = .classify c) :
    exec (.lIdle i c) s = .next (s.recovered i (x.entered.marked 0x001#32) .nothing) := by
  have hk := has_lt s x i h
  change execLIdle i c s = _
  refine recovered_run s i x _ _ _ h ?_
  simp only [op_bind, enterPath_put hk hl hpc, pathIdle, addStatus_put _ hk]
  rfl

/-- PATH_MASTER_STOP (R423). -/
theorem exec_lMasterHold (h : s.Has i x) (hl : x.lockM = none)
    (hpc : x.thread.pc = .idle ∨ x.thread.pc = .classify c) (hf : x.core.inflight = none) : ∃ code j,
    sideCode .stop code
    ∧ exec (.lMasterHold i c) s = .next (s.put i.toNat (x.entered.stopSent code) s.poolOwner j .none) := by
  have hk := has_lt s x i h
  obtain ⟨code, j, hcode, hpath⟩ :=
    pathMasterStop_put (x := x.entered) (o := s.poolOwner) (n := s.draws) (r := s.ret) hk hf
  refine ⟨code, j, hcode, ?_⟩
  change execLMasterHold i c s = _
  refine step_run s x _ _ _ _ h ?_
  simp only [op_bind, enterPath_put hk hl hpc, hpath]

/-- PATH_SLAVE_DEAD (R424). -/
theorem exec_lSlaveHold (h : s.Has i x) (hl : x.lockM = none)
    (hpc : x.thread.pc = .idle ∨ x.thread.pc = .classify c) :
    exec (.lSlaveHold i c) s = .next (s.put i.toNat x.entered.deadBegun s.poolOwner s.draws .none) := by
  have hk := has_lt s x i h
  change execLSlaveHold i c s = _
  refine step_run s x _ _ _ _ h ?_
  simp only [op_bind, enterPath_put hk hl hpc, pathSlaveDead_put hk]

/-- PATH_UNCLASSIFIED (R425). -/
theorem exec_lOther (h : s.Has i x) (hl : x.lockM = none) (hpc : x.thread.pc = .idle) :
    exec (.lOther i) s = .next (s.recovered i
      { x.marked 0x808#32 with outs := { x.outs with log := x.outs.log ++ [.unclassifiedLines] } } .recov) := by
  have hk := has_lt s x i h
  change execLOther i s = _
  refine recovered_run s i x _ _ _ h ?_
  simp only [op_bind, needM_put _ _ _ _ _ _ hk hl, getInst_put _ _ _ _ _ _ hk, hpc, beq_self_eq_true,
    op_require_true, pathUnclassified, op_logRec, updInst_put _ _ _ _ _ _ _ hk, addStatus_put _ hk]
  rfl

end paths

/-- Settles O53: RECOVER by whether the instance is occupied, each path by what its entry leaves. -/
theorem recoverClassifiesThenEntersAPath : Obligations.RecoverClassifiesThenEntersAPath := by
  intro s i x c h hl put busy classified marked counted
  have hk := has_lt s x i h
  refine ⟨fun r hr hpc hen => ?_, exec_recoverReq_busy h hl,
    fun hpc => ⟨fun hb => recover_returns h hl (by rw [hpc]; exact recoverEntry_occupied hk hb),
      fun hb => recover_run h hl (by rw [hpc]; exact recoverEntry_classifies hk hb)⟩,
    fun hpc => ⟨exec_lIdle h hl hpc, exec_lMasterHold h hl hpc, exec_lSlaveHold h hl hpc⟩, exec_lOther h hl⟩
  simp only [List.mem_cons, List.not_mem_nil, or_false] at hr
  rcases hr with rfl | rfl
  · exact ⟨fun hb => recover_run h hl (by rw [hpc]; exact operatorRecovers_occupied hk hb),
      fun hb => recover_run h hl (by rw [hpc]; exact operatorRecovers_classifies hk hb)⟩
  · exact ⟨fun hb => recoverReq_run h hl hen hpc (operatorRecovers_occupied hk hb),
      fun hb => recoverReq_run h hl hen hpc (operatorRecovers_classifies hk hb)⟩

end Sys2Proof.Machine
end

section
/-! PROOFS. The steps of RECOVER's paths after their entry: the wake of the STOP's wait, and the rounds of the
slave-dead loop (R423, R424). -/

namespace Sys2Proof.Machine

open Sys2Proof

section steps

variable {s : State} {i : InstId} {x : Inst} {o : Option (Nat × Side)} {n : Nat} {r : Ret}

/-- The recovery FSM idle again, with bits added to the recovery status (R427). -/
def Inst.settled (x : Inst) (w : Word) : Inst :=
  { x with recov := { x.recov with recovStatus := x.recov.recovStatus ||| w, rstate := .idle } }

/-- Adding no bits changes nothing of the status. -/
theorem settled_zero : x.settled 0#32 = { x with recov := { x.recov with rstate := .idle } } := by
  rw [Inst.settled, BitVec.or_zero]

/-- C.RECOVER of a round sent and waited for (R424). -/
def Inst.recoverSent (x : Inst) (t : Nat) (code : XferState) : Inst :=
  ((x.awaiting .recovCmd).sends .recover 0#4 0 [] code).atLine (.deadWait t)

/-- The instance with FUN_CTRL written, for some levels of the lines (R172, R229). -/
def Inst.funWritten (x : Inst) (v : Word) (b c d : Bool) : Inst :=
  { x with regs := { x.regs with funCtrl := v }, core := x.core.afterFun x.regs.funCtrl v b c d
           outs := x.noted .funCtrl v }

/-- The STOP's wait has expired (R423). -/
theorem stopWake_expired (hk : i.toNat < s.insts.length) : stopWake i.toNat true (s.put i.toNat x o n r) =
    recoverReturn i.toNat .timeout (s.put i.toNat (x.disarmed.settled 0x100#32) o n r) := by
  simp only [stopWake, op_bind, getInst_put _ _ _ _ _ _ hk, disarmWait_put _ _ _ _ _ _ hk, setRState_put _ hk, if_true,
    addStatus_put _ hk]
  rfl

/-- It was signalled, and an error recorded. -/
theorem stopWake_error (hk : i.toNat < s.insts.length) (he : x.master.err ≠ 0#32) :
    stopWake i.toNat false (s.put i.toNat x o n r) =
      recoverReturn i.toNat .io (s.put i.toNat (x.disarmed.settled 0x200#32) o n r) := by
  simp only [stopWake, op_bind, getInst_put _ _ _ _ _ _ hk, disarmWait_put _ _ _ _ _ _ hk, setRState_put _ hk,
    Bool.false_eq_true, if_false, bne_iff_ne.2 he, if_true, addStatus_put _ hk]
  rfl

/-- It was signalled without one. -/
theorem stopWake_clean (hk : i.toNat < s.insts.length) (he : x.master.err = 0#32) :
    stopWake i.toNat false (s.put i.toNat x o n r) =
      recoverReturn i.toNat .ok (s.put i.toNat (x.disarmed.settled 0#32) o n r) := by
  rw [settled_zero]
  simp only [stopWake, op_bind, getInst_put _ _ _ _ _ _ hk, disarmWait_put _ _ _ _ _ _ hk, setRState_put _ hk,
    Bool.false_eq_true, if_false, he, bne_self_eq_false]

/-- A write of REG_INIT leaves the thread, so the next line is one update of it (R247). -/
theorem initStep_atLine {g : Config} {ic : InstConfig} {a : Nat} {b c d : Bool} {pc : Pc} :
    (x.initStep g ic a b c d).atLine pc =
      { x.initStep g ic a b c d with thread := { x.thread with pc := pc } } := by
  unfold Inst.initStep
  split <;> rfl

/-- A register write of a round (R424, R247). -/
theorem deadStep_writes {t a : Nat} (hk : i.toNat < s.insts.length) (ha : a < 6) : ∃ b c d j,
    deadStep i.toNat t a (s.put i.toNat x o n r) = .ok (.none, s.put i.toNat
      ((x.initStep s.cfg (s.cfg.inst i.toNat) a b c d).atLine (.deadInit t (a + 1))) o j r) := by
  obtain ⟨b, c, d, j, hwrite⟩ := regInitWrite_put s i x o n r a hk
  refine ⟨b, c, d, j, ?_⟩
  simp only [deadStep, op_if_pos _ ha, op_bind, hwrite, setPc_put _ _ _ _ hk, op_pure]

/-- The command of a round (R424). -/
theorem deadStep_sends {t a : Nat} (hk : i.toNat < s.insts.length) (ha : 6 ≤ a) (hf : x.core.inflight = none) :
    ∃ code j, sideCode .recover code
    ∧ deadStep i.toNat t a (s.put i.toNat x o n r) = .ok (.none, s.put i.toNat (x.recoverSent t code) o j r) := by
  refine ⟨_, sendDraws x .recover n, codeAt_side .recover n, ?_⟩
  simp only [deadStep, op_if_neg _ (Nat.not_lt.2 ha), op_bind, armRecovery_put _ hk,
    engineRecover_put _ _ (x.awaiting .recovCmd) _ _ _ hk hf, setPc_put _ _ _ _ hk, op_pure]
  rfl

/-- SDA as a CMD read after the wait shows it (R177, R424). -/
theorem disarmed_sda : x.disarmed.cmdView.getLsbD 18 = x.core.sda := (cmdView_lines x.disarmed).2

/-- The wait of a round is over and SDA is high. -/
theorem deadWake_high {t : Nat} (hk : i.toNat < s.insts.length) (hsda : x.core.sda = true) :
    deadWake i.toNat t (s.put i.toNat x o n r) =
      recoverReturn i.toNat .ok (s.put i.toNat (x.disarmed.settled 0#32) o n r) := by
  rw [settled_zero]
  simp only [deadWake, op_bind, disarmWait_put _ _ _ _ _ _ hk, regRead_put _ _ _ _ _ _ .cmd hk (.inl (by decide)),
    Inst.view, disarmed_sda, hsda, if_true, setRState_put _ hk]

/-- SDA is low, and rounds are left. -/
theorem deadWake_again {t : Nat} (hk : i.toNat < s.insts.length) (hsda : x.core.sda = false) (ht : t < 10) :
    deadWake i.toNat t (s.put i.toNat x o n r) = .ok (.none, s.put i.toNat
      (({ x.disarmed with recov := { x.recov with rstate := .slaveLoop (t + 1) } } : Inst).atLine
        (.deadInit (t + 1) 0)) o n r) := by
  simp only [deadWake, op_bind, disarmWait_put _ _ _ _ _ _ hk, regRead_put _ _ _ _ _ _ .cmd hk (.inl (by decide)),
    Inst.view, disarmed_sda, hsda, Bool.false_eq_true, if_false, op_if_pos _ (show t < Config.recovRetries from ht),
    setRState_put _ hk, setPc_put _ _ _ _ hk, op_pure]
  rfl

/-- SDA is low after the last round. -/
theorem deadWake_exhausted {t : Nat} (hk : i.toNat < s.insts.length) (hsda : x.core.sda = false) (ht : 10 ≤ t) :
    deadWake i.toNat t (s.put i.toNat x o n r) =
      .ok (.none, s.put i.toNat (x.disarmed.atLine (.deadRestore 0)) o n r) := by
  simp only [deadWake, op_bind, disarmWait_put _ _ _ _ _ _ hk, regRead_put _ _ _ _ _ _ .cmd hk (.inl (by decide)),
    Inst.view, disarmed_sda, hsda, Bool.false_eq_true, if_false,
    op_if_neg _ (Nat.not_lt.2 (show Config.recovRetries ≤ t from ht)), setPc_put _ _ _ _ hk, op_pure]

/-- The first restoring write (R424). -/
theorem deadRestore_first (hk : i.toNat < s.insts.length) : ∃ b c d j,
    deadRestore i.toNat 0 (s.put i.toNat x o n r) = .ok (.none, s.put i.toNat
      ((x.funWritten (x.recov.savedFun &&& 0xFFFFFFFC#32) b c d).atLine (.deadRestore 1)) o j r) := by
  obtain ⟨b, c, d, j, hwrite⟩ := funWrite_put s i x o n r (x.recov.savedFun &&& 0xFFFFFFFC#32) hk
  have hmask : ~~~(MASTER_EN ||| SLAVE_EN) = 0xFFFFFFFC#32 := by decide
  refine ⟨b, c, d, j, ?_⟩
  simp only [deadRestore, op_bind, getInst_put _ _ _ _ _ _ hk, if_true, hmask, hwrite, setPc_put _ _ _ _ hk, op_pure]
  rfl

/-- The second, after which the recovery has failed. -/
theorem deadRestore_second {a : Nat} (hk : i.toNat < s.insts.length) (ha : a ≠ 0) : ∃ b c d j,
    deadRestore i.toNat a (s.put i.toNat x o n r) = recoverReturn i.toNat .recov
      (s.put i.toNat ((x.funWritten x.recov.savedFun b c d).settled 0x400#32) o j r) := by
  obtain ⟨b, c, d, j, hwrite⟩ := funWrite_put s i x o n r x.recov.savedFun hk
  refine ⟨b, c, d, j, ?_⟩
  simp only [deadRestore, op_bind, getInst_put _ _ _ _ _ _ hk, if_neg ha, hwrite, addStatus_put _ hk,
    setRState_put _ hk]
  rfl

end steps

/-- Settles O54: each line of a path by what it leaves. -/
theorem recoveryPathsRunTheirSteps : Obligations.RecoveryPathsRunTheirSteps := by
  intro s i x h hl put woken rest
  have hk := has_lt s x i h
  refine ⟨fun e hpc => ?_, fun t a hpc ha => ?_, fun t a hpc ha hf => ?_,
    fun t e hpc => ⟨fun hsda => ?_, fun hsda ht => ?_, fun hsda ht => ?_⟩, fun a hpc => ?_⟩
  · cases e with
    | true => exact recover_returns h hl (by rw [hpc]; exact stopWake_expired hk)
    | false =>
      by_cases herr : x.master.err = 0#32
      · simp only [Bool.false_eq_true, if_false, if_pos herr]
        exact recover_returns h hl (by rw [hpc]; exact stopWake_clean hk herr)
      · simp only [Bool.false_eq_true, if_false, if_neg herr]
        exact recover_returns h hl (by rw [hpc]; exact stopWake_error hk herr)
  · obtain ⟨b, c, d, j, hstep⟩ :=
      deadStep_writes (x := x) (o := s.poolOwner) (n := s.draws) (r := s.ret) (t := t) hk ha
    rw [initStep_atLine] at hstep
    exact ⟨b, c, d, j, recover_run h hl (by rw [hpc]; exact hstep)⟩
  · obtain ⟨code, j, hcode, hstep⟩ :=
      deadStep_sends (x := x) (o := s.poolOwner) (n := s.draws) (r := s.ret) (t := t) hk ha hf
    exact ⟨code, j, hcode, recover_run h hl (by rw [hpc]; exact hstep)⟩
  · exact recover_returns h hl (by rw [hpc]; exact deadWake_high hk hsda)
  · exact recover_run h hl (by rw [hpc]; exact deadWake_again hk hsda ht)
  · exact recover_run h hl (by rw [hpc]; exact deadWake_exhausted hk hsda ht)
  · by_cases ha : a = 0
    · subst ha
      obtain ⟨b, c, d, j, hstep⟩ := deadRestore_first (x := x) (o := s.poolOwner) (n := s.draws) (r := s.ret) hk
      exact ⟨b, c, d, j, recover_run h hl (by rw [hpc]; exact hstep)⟩
    · obtain ⟨b, c, d, j, hstep⟩ :=
        deadRestore_second (x := x) (o := s.poolOwner) (n := s.draws) (r := s.ret) hk ha
      refine ⟨b, c, d, j, ?_⟩
      simp only [if_neg ha]
      exact recover_returns_drawing h hl (by rw [hpc]; exact hstep)

end Sys2Proof.Machine
end

section
/-! PROOFS. CTRL_RESET, and the operator's BUS_RESET step by step, run whole and run twice (R428 to R430, R112). -/

namespace Sys2Proof.Machine

open Sys2Proof

/-! ## CTRL_RESET (R428) -/

section ctrlReset

variable {s : State} {i : InstId} {x : Inst}

/-- A write of FUN_CTRL over a value with both enables off resets no side of the core (R172). -/
theorem afterFun_off (k : Core) (f v : Word) (b c d : Bool) : k.afterFun (f &&& 0xFFFFFFFC#32) v b c d = k := by
  have hoff (j : Fin 2) : (f &&& 0xFFFFFFFC#32).getLsbD j = false := by
    have hmask : ∀ j : Fin 2, (0xFFFFFFFC#32).getLsbD j = false := by decide
    rw [BitVec.getLsbD_and, hmask, Bool.and_false]
  simp only [Core.afterFun, show (f &&& 0xFFFFFFFC#32).getLsbD 0 = false from hoff 0,
    show (f &&& 0xFFFFFFFC#32).getLsbD 1 = false from hoff 1, Bool.false_and, Bool.false_eq_true, if_false]

/-- CTRL_RESET without a BUS_RESET that has come to it. -/
theorem exec_ctrlReset (h : s.Has i x) (hpc : ∀ f a, x.thread.pc ≠ .resetCtrl f a) : ∃ a b c j,
    exec (.ctrlReset i) s = .next (s.put i.toNat (x.ctrlReset a b c) s.poolOwner j .none) := by
  have hk := has_lt s x i h
  obtain ⟨a, b, c, j, hput⟩ := ctrlReset_put s i.toNat x s.poolOwner s.draws s.ret hk
  refine ⟨a, b, c, j, ?_⟩
  change execCtrlReset i s = _
  refine step_run s x _ _ _ _ h ?_
  -- `hpc` rules out the match's first arm, BUS_RESET's next write.
  simp only [op_bind, getInst_put _ _ _ _ _ _ hk, noRet, hput, op_pure]

end ctrlReset

/-! ## BUS_RESET from the operator, step by step (R429, R112) -/

section steps

variable {s : State} {i : InstId} {x : Inst}

/-- BUS_RESET's entry turns the operator away while a wait is outstanding or a blocking call runs (R429, R502). -/
theorem exec_busReset_busy (h : s.Has i x) (hl : x.lockM = none) (hen : x.regs.funCtrl.getLsbD 0 = true)
    (hb : x.master.waiting ≠ .none ∨ x.thread.pc ≠ .idle) :
    exec (.busReset i) s = .next { s with ret := .word (s.cfg.code .busy) } := by
  have hk := has_lt s x i h
  have hbusy : (x.master.waiting != .none || x.thread.pc != .idle) = true := by
    rw [Bool.or_eq_true, bne_iff_ne, bne_iff_ne]
    exact hb
  change execBusReset i s = _
  refine offeredCall_answers _ h (.inl hen) ?_
  simp only [op_bind, needM_put _ _ _ _ _ _ hk hl, getInst_put _ _ _ _ _ _ hk, op_if_pos _ hbusy, op_retCode, put_cfg]

/-- Otherwise it captures FUN_CTRL. -/
theorem exec_busReset (h : s.Has i x) (hl : x.lockM = none) (hen : x.regs.funCtrl.getLsbD 0 = true)
    (hw : x.master.waiting = .none) (hpc : x.thread.pc = .idle) : exec (.busReset i) s = .next (s.put i.toNat
      ((x.calling .reset).atLine (.resetCtrl x.regs.funCtrl 0)) s.poolOwner s.draws .none) := by
  have hk := has_lt s x i h
  change execBusReset i s = _
  refine offeredCall_run _ h (.inl hen) ?_
  simp only [op_bind, needM_put _ _ _ _ _ _ hk hl, getInst_put _ _ _ _ _ _ hk, hw, hpc, bne_self_eq_false,
    Bool.or_false, Bool.false_eq_true, if_false, regRead_put _ _ _ _ _ _ .funCtrl hk (.inl (by decide)), Inst.view,
    op_modThread, updInst_put _ _ _ _ _ _ _ hk, op_pure]
  rfl

/-- The value write a of CTRL_RESET puts in FUN_CTRL, f the captured one (R428). -/
def resetValue (f : Word) (a : Nat) : Word := if a = 0 then f &&& 0xFFFFFFFC#32 else f

/-- The line after write a of CTRL_RESET. -/
def afterCtrl (f : Word) (a : Nat) : Pc := if a = 0 then .resetCtrl f 1 else .resetTiming 0

/-- A write of CTRL_RESET. -/
theorem ctrlReset_step {f : Word} {a : Nat} (h : s.Has i x) (hpc : x.thread.pc = .resetCtrl f a) : ∃ b c d j,
    exec (.ctrlReset i) s = .next (s.put i.toNat
      ((x.funWritten (resetValue f a) b c d).atLine (afterCtrl f a)) s.poolOwner j .none) := by
  have hk := has_lt s x i h
  have hmask : ~~~(MASTER_EN ||| SLAVE_EN) = 0xFFFFFFFC#32 := by decide
  obtain ⟨b, c, d, j, hwrite⟩ := funWrite_put s i x s.poolOwner s.draws s.ret (resetValue f a) hk
  refine ⟨b, c, d, j, ?_⟩
  change execCtrlReset i s = _
  refine step_run s x _ _ _ _ h ?_
  simp only [op_bind, getInst_put _ _ _ _ _ _ hk, hpc, resetCtrlStep]
  by_cases ha : a = 0
  · simp only [resetValue, afterCtrl, if_pos ha] at hwrite ⊢
    simp only [op_bind, hmask, hwrite, setPc_put _ _ _ _ hk, op_pure]
    rfl
  · simp only [resetValue, afterCtrl, if_neg ha] at hwrite ⊢
    simp only [op_bind, hwrite, setPc_put _ _ _ _ hk, op_pure]
    rfl

/-- TIMING_INIT of an instance whose BUS_RESET has come to it is its next write (R112). -/
theorem exec_timingInit_line {a : Nat} (h : s.Has i x) (hpc : x.thread.pc = .resetTiming a) :
    exec (.timingInit i) s =
      runOp (resetTimingStep i.toNat a) (s.put i.toNat x s.poolOwner s.draws s.ret) := by
  change execTimingInit i s = _
  rw [execTimingInit, stepOn_put s x i _ h]
  exact runOp_congr (by simp only [op_bind, getInst_put _ _ _ _ _ _ (has_lt s x i h), hpc])

/-- After it the next one follows, or the slave engine's abort, or the call returns (R358). -/
theorem timingInit_step {a : Nat} (h : s.Has i x) (hpc : x.thread.pc = .resetTiming a) : ∃ b c d j,
    (a < 3 → exec (.timingInit i) s = .next (s.put i.toNat
      ((x.initStep s.cfg (s.cfg.inst i.toNat) (a + 2) b c d).atLine (.resetTiming (a + 1))) s.poolOwner j .none))
    ∧ (3 ≤ a → s.cfg.slavePresent = true → exec (.timingInit i) s = .next (s.put i.toNat
      ((x.initStep s.cfg (s.cfg.inst i.toNat) (a + 2) b c d).atLine .resetAbort) s.poolOwner j .none))
    ∧ (3 ≤ a → s.cfg.slavePresent = false → exec (.timingInit i) s = .next (s.put i.toNat
      { x.initStep s.cfg (s.cfg.inst i.toNat) (a + 2) b c d with thread := Thread.idle } s.poolOwner j
      (.word (s.cfg.code .ok)))) := by
  have hk := has_lt s x i h
  obtain ⟨b, c, d, j, hwrite⟩ := regInitWrite_put s i x s.poolOwner s.draws s.ret (a + 2) hk
  rw [exec_timingInit_line h hpc]
  refine ⟨b, c, d, j, fun ha => runOp_put _ _ _ _ _ s.ret _ _ _ ?_, fun ha hp => runOp_put _ _ _ _ _ s.ret _ _ _ ?_,
    fun ha hp => runOp_put _ _ _ _ _ s.ret _ _ _ ?_⟩
  · simp only [resetTimingStep, op_bind, op_getCfg, hwrite, op_if_pos _ ha, setPc_put _ _ _ _ hk, op_pure]
  · simp only [resetTimingStep, op_bind, op_getCfg, hwrite, op_if_neg _ (Nat.not_lt.2 ha), put_cfg, hp, if_true,
      setPc_put _ _ _ _ hk, op_pure]
  · simp only [resetTimingStep, op_bind, op_getCfg, hwrite, op_if_neg _ (Nat.not_lt.2 ha), put_cfg, hp,
      Bool.false_eq_true, if_false, resetReturn, op_modThread, updInst_put _ _ _ _ _ _ _ hk, op_retCode]

/-- S_ABORT as the end of a BUS_RESET. -/
theorem sAbort_step (h : s.Has i x) (hp : s.cfg.slavePresent = true) (hl : x.Unlocked)
    (hpc : x.thread.pc = .resetAbort) : exec (.sAbort i) s = .next (s.put i.toNat
      { x.aborted with thread := Thread.idle } (x.release .slave s.poolOwner) s.draws (.word (s.cfg.code .ok))) := by
  have hk := has_lt s x i h
  change execSAbort i s = _
  refine step_run s x _ _ _ _ h ?_
  simp only [op_bind, needSlave_put _ _ _ _ _ _ hp, needLocks_put _ _ _ _ _ _ hk hl, getInst_put _ _ _ _ _ _ hk,
    sAbort_put _ _ _ _ _ _ hk, hpc, resetReturn, op_modThread, updInst_put _ _ _ _ _ _ _ hk, op_retCode, put_cfg]

end steps

/-! ## BUS_RESET run without anything between (R429) -/

section run

variable {s : State} {i : InstId} {x y : Inst} {o p : Option (Nat × Side)} {n m : Nat} {q v : Ret} {r : Instr}
  {l : List Instr}

/-- The rows of one BUS_RESET of the operator (R429; log entry 15). -/
def resetRows (c : Config) (i : InstId) : List Instr :=
  [.busReset i, .ctrlReset i, .ctrlReset i, .timingInit i, .timingInit i, .timingInit i, .timingInit i]
    ++ if c.slavePresent then [.sAbort i] else []

/-- A step that completes, at the head of a run. -/
theorem runs_next {t : State} (h : exec r s = .next t) : runs (r :: l) s = runs l t := by
  rw [runs, h]

/-- A step on the instance that was put, at the head of a run. -/
theorem runs_put (h : exec r (s.put i.toNat x o n q) = .next ((s.put i.toNat x o n q).put i.toNat y p m v)) :
    runs (r :: l) (s.put i.toNat x o n q) = runs l (s.put i.toNat y p m v) := by
  rw [runs_next h, put_put]

/-- The two writes of CTRL_RESET do what CTRL_RESET does. -/
theorem runs_ctrlReset (hk : i.toNat < s.insts.length) : ∃ a b c j,
    runs (.ctrlReset i :: .ctrlReset i :: l) (s.put i.toNat (x.atLine (.resetCtrl x.regs.funCtrl 0)) o n q) =
      runs l (s.put i.toNat ((x.ctrlReset a b c).atLine (.resetTiming 0)) o j .none) := by
  obtain ⟨a, b, c, j, hoff⟩ :=
    ctrlReset_step (put_get s i.toNat (x.atLine (.resetCtrl x.regs.funCtrl 0)) o n q hk) rfl
  obtain ⟨a', b', c', j', hback⟩ := ctrlReset_step (f := x.regs.funCtrl) (a := 1) (put_get s i.toNat
    ((x.funWritten (x.regs.funCtrl &&& 0xFFFFFFFC#32) a b c).atLine (.resetCtrl x.regs.funCtrl 1)) o j .none hk) rfl
  refine ⟨a, b, c, j', (runs_put hoff).trans ((runs_put hback).trans ?_)⟩
  congr 2
  simp only [Inst.atLine, Inst.funWritten, resetValue, afterCtrl, Nat.one_ne_zero, if_false, afterFun_off,
    Inst.ctrlReset, Inst.noted, Inst.notedAll, List.append_assoc, List.cons_append, List.nil_append]

/-- What the first three writes of TIMING_INIT leave (R244). -/
def Inst.timing (x : Inst) (g : Config) (ic : InstConfig) : Inst :=
  { x with
    regs := { x.regs with acTiming1 := timingWordOf g ic, acTiming2 := g.ac2Value, intrSts := 0#32 }
    outs := x.notedAll [(.acTiming1, timingWordOf g ic), (.acTiming2, g.ac2Value), (.intrSts, 0xFFFFFFFF#32)] }

/-- The first three writes of TIMING_INIT. -/
theorem runs_timing (hk : i.toNat < s.insts.length) : ∃ j,
    runs (.timingInit i :: .timingInit i :: .timingInit i :: l) (s.put i.toNat (x.atLine (.resetTiming 0)) o n q) =
      runs l (s.put i.toNat ((x.timing s.cfg (s.cfg.inst i.toNat)).atLine (.resetTiming 3)) o j .none) := by
  obtain ⟨b, c, d, j, hfirst, -⟩ := timingInit_step (put_get s i.toNat (x.atLine (.resetTiming 0)) o n q hk) rfl
  obtain ⟨b', c', d', j', hsecond, -⟩ := timingInit_step (a := 1) (put_get s i.toNat
    (((x.atLine (.resetTiming 0)).initStep s.cfg (s.cfg.inst i.toNat) 2 b c d).atLine (.resetTiming 1)) o j .none
      hk) rfl
  obtain ⟨b'', c'', d'', j'', hthird, -⟩ := timingInit_step (a := 2) (put_get s i.toNat
    (((((x.atLine (.resetTiming 0)).initStep s.cfg (s.cfg.inst i.toNat) 2 b c d).atLine (.resetTiming 1)).initStep s.cfg
      (s.cfg.inst i.toNat) 3 b' c' d').atLine (.resetTiming 2)) o j' .none hk) rfl
  refine ⟨j'', (runs_put (hfirst (by decide))).trans ((runs_put (hsecond (by decide))).trans
    ((runs_put (hthird (by decide))).trans ?_))⟩
  congr 2
  simp only [Inst.atLine, Inst.initStep, Inst.timing, Inst.noted, Inst.notedAll, List.append_assoc, List.cons_append,
    List.nil_append]

/-- The last write completes TIMING_INIT. -/
theorem timing_last {g : Config} {ic : InstConfig} {b c d : Bool} {pc : Pc} :
    ((x.timing g ic).atLine pc).initStep g ic (3 + 2) b c d = (x.timed g ic).atLine pc := by
  simp only [Inst.atLine, Inst.initStep, Inst.timing, Inst.timed, Inst.noted, Inst.notedAll, List.append_assoc,
    List.cons_append, List.nil_append]

/-- The last write of TIMING_INIT and, with the slave engine, S_ABORT end BUS_RESET with R_OK. -/
theorem runs_resetEnd (hk : i.toNat < s.insts.length) (hl : x.Unlocked) : ∃ j,
    runs (.timingInit i :: if s.cfg.slavePresent then [.sAbort i] else [])
      (s.put i.toNat ((x.timing s.cfg (s.cfg.inst i.toNat)).atLine (.resetTiming 3)) o n q) = some (s.put i.toNat
      { (if s.cfg.slavePresent then (x.timed s.cfg (s.cfg.inst i.toNat)).aborted
          else x.timed s.cfg (s.cfg.inst i.toNat)) with thread := Thread.idle }
      (x.resetOwner s.cfg o) j (.word (s.cfg.code .ok))) := by
  obtain ⟨b, c, d, j, -, habort, hreturn⟩ := timingInit_step
    (put_get s i.toNat ((x.timing s.cfg (s.cfg.inst i.toNat)).atLine (.resetTiming 3)) o n q hk) rfl
  rw [put_cfg, timing_last] at habort hreturn
  refine ⟨j, ?_⟩
  cases hp : s.cfg.slavePresent with
  | true =>
    have hlast := sAbort_step (put_get s i.toNat
      (((x.timed s.cfg (s.cfg.inst i.toNat)).atLine (.resetTiming 3)).atLine .resetAbort) o j .none hk) hp hl rfl
    simp only [if_true, Inst.resetOwner, hp]
    exact (runs_put (habort (Nat.le_refl 3) hp)).trans (runs_put (l := []) hlast)
  | false =>
    simp only [Bool.false_eq_true, if_false, Inst.resetOwner, hp]
    exact runs_put (l := []) (hreturn (Nat.le_refl 3) hp)

/-- The rows of BUS_RESET, run without anything between, do what CTRL_RESET, TIMING_INIT and S_ABORT do and return
R_OK. -/
theorem runs_busReset (h : s.Has i x) (hen : x.regs.funCtrl.getLsbD 0 = true) (hl : x.Unlocked)
    (hw : x.master.waiting = .none) (hpc : x.thread.pc = .idle) : ∃ a b c j,
    runs (resetRows s.cfg i) s = some (s.put i.toNat
      { x.busReset s.cfg (s.cfg.inst i.toNat) a b c with thread := Thread.idle } (x.resetOwner s.cfg s.poolOwner) j
      (.word (s.cfg.code .ok))) := by
  have hk := has_lt s x i h
  obtain ⟨a, b, c, j, hctrl⟩ := runs_ctrlReset (s := s) (x := x.calling .reset) (o := s.poolOwner) (n := s.draws)
    (q := .none) (l := .timingInit i :: .timingInit i :: .timingInit i :: .timingInit i ::
      if s.cfg.slavePresent then [.sAbort i] else []) hk
  obtain ⟨j', htiming⟩ := runs_timing (s := s) (x := (x.calling .reset).ctrlReset a b c) (o := s.poolOwner) (n := j)
    (q := .none) (l := .timingInit i :: if s.cfg.slavePresent then [.sAbort i] else []) hk
  obtain ⟨j'', hend⟩ := runs_resetEnd (s := s) (x := (x.calling .reset).ctrlReset a b c) (o := s.poolOwner) (n := j')
    (q := .none) hk hl
  refine ⟨a, b, c, j'', (runs_next (exec_busReset h hl.1 hen hw hpc)).trans
    (hctrl.trans (htiming.trans (hend.trans ?_)))⟩
  unfold Inst.busReset
  split <;> rfl

/-- BUS_RESET leaves both locks as they were. -/
theorem busReset_unlocked {g : Config} {ic : InstConfig} {a b c : Bool} :
    (x.busReset g ic a b c).Unlocked ↔ x.Unlocked := by
  unfold Inst.busReset
  split <;> rfl

end run

/-- Settles O56: each row by its step, the run by `runs_busReset`, of which a second run is another. -/
theorem resetsRestoreFunctionControl : Obligations.ResetsRestoreFunctionControl := by
  intro s i x h ops at'
  refine ⟨exec_ctrlReset h, fun hen hl => ⟨fun hw hpc => exec_busReset h hl hen hw hpc, exec_busReset_busy h hl hen⟩,
    fun f a hpc => ?_, fun a hpc => ?_, fun hpc hl hp => sAbort_step h hp hl hpc, fun hen hl hw hpc => ?_⟩
  · exact ctrlReset_step h hpc
  · obtain ⟨b, c, d, j, hnext, habort, hreturn⟩ := timingInit_step h hpc
    rw [initStep_atLine] at hnext habort
    refine ⟨b, c, d, j, hnext, fun ha => ?_⟩
    cases hp : s.cfg.slavePresent with
    | true => exact habort ha hp
    | false => exact hreturn ha hp
  · obtain ⟨a, b, c, j, hrun⟩ := runs_busReset h hen hl hw hpc
    refine ⟨⟨a, b, c, j, hrun⟩, fun t u y z ht hy hu hz => ?_⟩
    obtain rfl := Option.some.inj (hrun.symm.trans ht)
    obtain rfl := Option.some.inj ((put_get s i.toNat _ _ _ _ (has_lt s x i h)).symm.trans hy)
    obtain ⟨hfun, hac1, hac2, hwait, -⟩ := busReset_regs x s.cfg (s.cfg.inst i.toNat) a b c
    obtain ⟨a', b', c', j', hagain⟩ := runs_busReset hy (hfun ▸ hen) (busReset_unlocked.2 hl) (hwait.trans hw) rfl
    obtain rfl := Option.some.inj (hagain.symm.trans hu)
    obtain rfl := Option.some.inj ((put_get _ i.toNat _ _ _ _ (has_lt _ _ i hy)).symm.trans hz)
    obtain ⟨hfun', hac1', hac2', -⟩ := busReset_regs _ s.cfg (s.cfg.inst i.toNat) a' b' c'
    exact ⟨hfun', hac1'.trans hac1.symm, hac2'.trans hac2.symm, hfun⟩

end Sys2Proof.Machine
end
